-- ==== Sys2Proof/Word.lean ====
section
/-!
DEFINITION. The widths the spec names (00_scope.md R14: bit 0 is the least significant bit).
What the spec treats as an opaque identity is a plain number here (log 23).
-/

namespace Sys2Proof

/-- An LCD instruction byte, an expander frame, a status byte: 8 bits. -/
abbrev Byte := BitVec 8

/-- The value one enable pulse carries on a 4-bit transport. -/
abbrev Nibble := BitVec 4

/-- A 7-bit I2C device address (20_memory.md R63). -/
abbrev BusAddr := BitVec 7

/-- A pin level, a register-select flag, a backlight level: one bit. -/
abbrev Level := Bool

/-- A position of the GPIO pin list, 0..10 (20_memory.md R65). -/
abbrev Position := Fin 11

/-- The opaque cause of a bus failure (00_scope.md R15). -/
abbrev Cause := Nat

/-- An opaque pin identifier behind a pin-list position (00_scope.md R13). -/
abbrev PinId := Nat

/-- The opaque reference to the shared bus handle (00_scope.md R13). -/
abbrev BusHandle := Nat

end Sys2Proof
end

