-- ==== Sys2Proof/Config.lean ====
section
/-!
DEFINITION. The implementation parameters of 00_scope.md section 5, the five minimum waits, and the values the
spec leaves to the environment.
-/

namespace Sys2Proof

/-- 00_scope.md R8: which I2C addresses are legal. -/
inductive AddrPolicy where
  | dual
  | single
deriving DecidableEq, Repr

/-- 00_scope.md R9: whether `writePin` and `readPin` check the pin's direction. -/
inductive PinModePolicy where
  | strict
  | permissive
deriving DecidableEq, Repr

/-- 00_scope.md R11: how many expander writes one nibble costs. -/
inductive WriteGranularity where
  | perPin
  | perPhase
deriving DecidableEq, Repr

/-- The parameters that are not operands of a construction. Fixed per instance; nothing writes them (log 10). -/
structure Config where
  /-- R8 -/
  addrPolicy : AddrPolicy
  /-- R9 -/
  pinModePolicy : PinModePolicy
  /-- R11 -/
  granularity : WriteGranularity
  /-- R12 -/
  hasBlPin : Bool
deriving DecidableEq, Repr

/-- The defaults R8, R9, R11 and R12 give. -/
def Config.default : Config :=
  { addrPolicy := .dual, pinModePolicy := .strict, granularity := .perPin, hasBlPin := false }

/-- R10, power-on settle: a minimum, in microseconds (as are the four below). -/
def tPwr : Nat := 50000
/-- R10, after the first legacy send. -/
def tLegacy1 : Nat := 5000
/-- R10, after the second legacy send. -/
def tLegacy2 : Nat := 100
/-- R10, the hold of the enable pulse. -/
def tEn : Nat := 40
/-- R10, after clear and home. -/
def tHome : Nat := 2000

/-- FREE VALUE (00_scope.md R15, 93_implementation_defined.md U11; log 11): the answer to the n-th bus event drawn,
where that event is a scan and the input stream has run out. -/
opaque Config.freeScan : Nat → Except Cause (List BusAddr)

/-- FREE VALUE (U12; log 11): the answer to the n-th bus event drawn, where it is a write. -/
opaque Config.freeWrite : Nat → Except Cause Unit

/-- FREE VALUE (U10, U12; log 11): the answer to the n-th bus event drawn, where it is a read. -/
opaque Config.freeRead : Nat → Except Cause Byte

end Sys2Proof
end

