-- ==== Sys2Proof/Syntax.lean ====
section
/-!
DEFINITION. The instructions: one constructor for each of the 44 rows of spec/opcode_table.json, in the table's order.
An "instruction" of this block is a host operation, an LCD instruction byte of one class, or one of the two other
emitted formats (00_scope.md section 1; 30_encoding.md R90, R114). Operand types follow 92_eei_decisions.md D31.
-/

namespace Sys2Proof

/-- 00_scope.md R7. -/
inductive Font where
  | font5x8
  | font5x10
deriving DecidableEq, Repr

/-- The modes `setPinMode` names under either policy (00_scope.md R9, 40_port_expander.md R139). -/
inductive PinMode where
  | input
  | output
  | inputPullup
  | outputPullup
deriving DecidableEq, Repr

/-- What `DisplayController.Construct` is given of its transport (R114: "plus the transport's operands"). -/
inductive TransportOperands where
  /-- nothing: the running construction has attached it (R231 has the parts in line; log 6) -/
  | attached
  /-- a GPIO transport's pin list (R160, R231) -/
  | gpio (pinList : List PinId)
  /-- an I2C transport's bus handle and address (R190) -/
  | i2c (busHandle : BusHandle) (address : Int)
deriving DecidableEq, Repr

/-- What `DisplayController.Construct` takes beside its geometry: the font (R221) and the transport's operands (R114). -/
structure ControllerOperands where
  font : Option Font
  transport : TransportOperands
deriving DecidableEq, Repr

inductive Instr where
  /-- `lcd.clear` (R92) -/
  | lcdClear
  /-- `lcd.return_home` (R93); `x` is the don't-care bit 0 -/
  | lcdReturnHome (x : Bool)
  /-- `lcd.entry_mode_set` (R94) -/
  | lcdEntryModeSet (increment shift : Bool)
  /-- `lcd.display_control` (R95) -/
  | lcdDisplayControl (display cursor blink : Bool)
  /-- `lcd.cursor_display_shift` (R96); `x` is bits 1..0 -/
  | lcdCursorDisplayShift (displayShift shiftRight : Bool) (x : BitVec 2)
  /-- `lcd.function_set` (R97); `x` is bits 1..0 -/
  | lcdFunctionSet (eightBit twoLine font5x10 : Bool) (x : BitVec 2)
  /-- `lcd.cgram_select` (R98) -/
  | lcdCgramSelect (a : BitVec 6)
  /-- `lcd.ddram_select` (R99) -/
  | lcdDdramSelect (a : BitVec 7)
  /-- `lcd.data` (R100), sent with RS = 1 -/
  | lcdData (d : Byte)
  /-- `frame.i2c` (R101): `{nibble, BL, E, RW, RS}` -/
  | frameI2c (nibble : Nibble) (bl e rw rs : Level)
  /-- `frame.i2c_config` (R101): bit i = direction of expander pin i, 1 = input -/
  | frameI2cConfig (directions : Byte)
  /-- `vector.gpio8` (R102): positions 0..10 = RS RW E D0..D7 -/
  | vectorGpio8 (rs rw e : Level) (d : Byte)
  /-- `vector.gpio4` (R103): positions 0..6 = RS RW E D4..D7 -/
  | vectorGpio4 (rs rw e : Level) (n : Nibble)
  /-- R240 -/
  | clearDisplay
  /-- R241 -/
  | returnHome
  /-- R242 -/
  | displayOn
  /-- R243 -/
  | displayOff
  /-- R244 -/
  | cursorShow
  /-- R245 -/
  | cursorHide
  /-- R246 -/
  | cursorBlinkOn
  /-- R247 -/
  | cursorBlinkOff
  /-- R248 -/
  | displayShiftLeft
  /-- R249 -/
  | displayShiftRight
  /-- R250 -/
  | cursorShiftLeft
  /-- R251 -/
  | cursorShiftRight
  /-- R252 -/
  | setCursor (row column : Int)
  /-- R253: a sequence of code points -/
  | print (codePoints : List Nat)
  /-- R255 -/
  | defineCustomGlyph (slot : Int) (bitmap : List Byte)
  /-- R222, internal -/
  | initialise
  /-- `DisplayController.Construct` (R220, R221); an absent font is the default of R7 -/
  | displayControllerConstruct (rows columns : Int) (operands : ControllerOperands)
  /-- `Construct (composite over GPIO)` (R231) -/
  | constructOverGpio (pinList : List PinId) (rows columns : Int) (font : Option Font)
  /-- `GpioTransport.Construct` (R160) -/
  | gpioTransportConstruct (pinList : List PinId)
  /-- `gpio.sendInstruction` (R162) -/
  | gpioSendInstruction (byte : Byte) (registerSelect : Bool)
  /-- `gpio.sendNibble` (R165), internal -/
  | gpioSendNibble (nibble : Nibble) (registerSelect : Bool)
  /-- `gpio.backlight` (R168) -/
  | gpioBacklight (level : Level)
  /-- `I2cTransport.Construct` (R190) -/
  | i2cTransportConstruct (busHandle : BusHandle) (address rows columns : Int) (font : Option Font)
  /-- `i2c.sendInstruction` (R192) -/
  | i2cSendInstruction (byte : Byte) (registerSelect : Bool)
  /-- `i2c.sendNibble` (R195), internal -/
  | i2cSendNibble (nibble : Nibble) (registerSelect : Bool)
  /-- `i2c.backlight` (R196) -/
  | i2cBacklight (level : Level)
  /-- `PortExpander.Construct` (R130) -/
  | portExpanderConstruct (busHandle : BusHandle) (address : Int)
  /-- R134 -/
  | setPinMode (pin : Int) (mode : PinMode)
  /-- R135 -/
  | writePin (pin : Int) (level : Level)
  /-- R136 -/
  | readPin (pin : Int)
  /-- R138 -/
  | release
deriving DecidableEq, Repr

end Sys2Proof
end

