-- ==== Sys2Proof/WellFormed.lean ====
section
/-!
DEFINITION. Which terms of `Instr` are instructions. Ranges that the spec checks with a named failure (row, column,
slot, pin, address, geometry, lengths) are NOT checked here: those operations run and return their failure (R111).
-/

namespace Sys2Proof

/-- Why a term is no instruction of the block. -/
inductive FormError where
  /-- 44_display_ops.md R253: a code point above 255 is not expressible at the block's interface. -/
  | codePointAbove255 (codePoint : Nat)
  /-- 41_gpio_transport.md R167: RW is 0 in every vector the block drives. -/
  | readWriteHigh
deriving DecidableEq, Repr

/-- The first check that a term fails, if any. -/
def Instr.formError : Instr → Option FormError
  | .print codePoints => (codePoints.find? (255 < ·)).map .codePointAbove255
  | .vectorGpio8 _ rw _ _ => if rw then some .readWriteHigh else none
  | .vectorGpio4 _ rw _ _ => if rw then some .readWriteHigh else none
  | .lcdClear => none
  | .lcdReturnHome _ => none
  | .lcdEntryModeSet _ _ => none
  | .lcdDisplayControl _ _ _ => none
  | .lcdCursorDisplayShift _ _ _ => none
  | .lcdFunctionSet _ _ _ _ => none
  | .lcdCgramSelect _ => none
  | .lcdDdramSelect _ => none
  | .lcdData _ => none
  | .frameI2c _ _ _ _ _ => none
  | .frameI2cConfig _ => none
  | .clearDisplay => none
  | .returnHome => none
  | .displayOn => none
  | .displayOff => none
  | .cursorShow => none
  | .cursorHide => none
  | .cursorBlinkOn => none
  | .cursorBlinkOff => none
  | .displayShiftLeft => none
  | .displayShiftRight => none
  | .cursorShiftLeft => none
  | .cursorShiftRight => none
  | .setCursor _ _ => none
  | .defineCustomGlyph _ _ => none
  | .initialise => none
  | .displayControllerConstruct _ _ _ => none
  | .constructOverGpio _ _ _ _ => none
  | .gpioTransportConstruct _ => none
  | .gpioSendInstruction _ _ => none
  | .gpioSendNibble _ _ => none
  | .gpioBacklight _ => none
  | .i2cTransportConstruct _ _ _ _ _ => none
  | .i2cSendInstruction _ _ => none
  | .i2cSendNibble _ _ => none
  | .i2cBacklight _ => none
  | .portExpanderConstruct _ _ => none
  | .setPinMode _ _ => none
  | .writePin _ _ => none
  | .readPin _ => none
  | .release => none

/-- A term that passes every check. -/
abbrev Instr.WellFormed (i : Instr) : Prop := i.formError = none

end Sys2Proof
end

