-- ==== Sys2Proof/Decode.lean ====
section
/-!
DEFINITION. What the host presents, and the instruction it stands for. Three formats have bits (30_encoding.md R90):
the LCD instruction byte with its register-select flag, the expander frame, the pin vector. A host operation has no
binary encoding (R116): it is a term, its name and its operand values. Decoding is total and refuses by name; the
encoder below it is written from the same tables.
-/

namespace Sys2Proof

/-- One thing the host presents to the block. -/
inductive Presented where
  /-- an LCD instruction byte handed over with its register-select flag (R90 (1), R91, R100) -/
  | lcdByte (registerSelect : Bool) (byte : Byte)
  /-- an expander frame of levels (R101) -/
  | levelFrame (byte : Byte)
  /-- an expander frame of directions (R101: "nothing in the written byte tells the two uses apart") -/
  | configFrame (byte : Byte)
  /-- the levels of positions 0, 1, 2, … (R102, R103) -/
  | pinVector (levels : List Level)
  /-- a host operation (R114, R116): `name` is the operation's row in spec/opcode_table.json, counted from 0 (log 1) -/
  | term (name : Nat) (operands : List Int)
deriving DecidableEq, Repr

/-- Why a presentation stands for no instruction. -/
inductive DecodeError where
  /-- R112: an operation outside the list of R114 does not exist. -/
  | unknownOperation (name : Nat)
  /-- The operation is not written with these operands (their number, or a value outside its type: R14, D31, U22). -/
  | badOperands (name : Nat)
  /-- R117: a command byte of no class (0x00). -/
  | noCommandClass
  /-- R103: any other pin-list length is refused. -/
  | badVectorLength (length : Nat)
deriving DecidableEq, Repr

/-- R91, R117: a command's class is that of its highest set bit; every lower bit is one of its fields. -/
def decodeCommand (c : Byte) : Except DecodeError Instr :=
  if c.getLsbD 7 then .ok (.lcdDdramSelect (c.extractLsb' 0 7))
  else if c.getLsbD 6 then .ok (.lcdCgramSelect (c.extractLsb' 0 6))
  else if c.getLsbD 5 then
    .ok (.lcdFunctionSet (c.getLsbD 4) (c.getLsbD 3) (c.getLsbD 2) (c.extractLsb' 0 2))
  else if c.getLsbD 4 then .ok (.lcdCursorDisplayShift (c.getLsbD 3) (c.getLsbD 2) (c.extractLsb' 0 2))
  else if c.getLsbD 3 then .ok (.lcdDisplayControl (c.getLsbD 2) (c.getLsbD 1) (c.getLsbD 0))
  else if c.getLsbD 2 then .ok (.lcdEntryModeSet (c.getLsbD 1) (c.getLsbD 0))
  else if c.getLsbD 1 then .ok (.lcdReturnHome (c.getLsbD 0))
  else if c.getLsbD 0 then .ok .lcdClear
  else .error .noCommandClass

/-- R101: bits 7..4 the nibble, bit 3 backlight, bit 2 enable, bit 1 read/write, bit 0 register-select. -/
def decodeLevelFrame (f : Byte) : Instr :=
  .frameI2c (f.extractLsb' 4 4) (f.getLsbD 3) (f.getLsbD 2) (f.getLsbD 1) (f.getLsbD 0)

/-- A bit as a number of either width. -/
def bitAt (v : Bool) (i : Nat) : Byte := if v then 1#8 <<< i else 0#8

/-- The nibble whose bit j is the j-th level. -/
def nibbleOf (b0 b1 b2 b3 : Bool) : Nibble :=
  (bitAt b0 0 ||| bitAt b1 1 ||| bitAt b2 2 ||| bitAt b3 3).setWidth 4

/-- The byte whose bit k is the k-th level. -/
def byteOf (b0 b1 b2 b3 b4 b5 b6 b7 : Bool) : Byte :=
  bitAt b0 0 ||| bitAt b1 1 ||| bitAt b2 2 ||| bitAt b3 3 ||| bitAt b4 4 ||| bitAt b5 5 ||| bitAt b6 6 ||| bitAt b7 7

/-- R102, R103: the two pin vectors, told apart by their length. -/
def decodeVector : List Level → Except DecodeError Instr
  | [rs, rw, e, d0, d1, d2, d3, d4, d5, d6, d7] => .ok (.vectorGpio8 rs rw e (byteOf d0 d1 d2 d3 d4 d5 d6 d7))
  | [rs, rw, e, d4, d5, d6, d7] => .ok (.vectorGpio4 rs rw e (nibbleOf d4 d5 d6 d7))
  | levels => .error (.badVectorLength levels.length)

/-- A level or a flag: 0 or 1 (D31). -/
def levelOperand (x : Int) : Option Bool := if x = 0 then some false else if x = 1 then some true else none

/-- A byte: 0..255 (D31). -/
def byteOperand (x : Int) : Option Byte := if 0 ≤ x ∧ x ≤ 255 then some (BitVec.ofInt 8 x) else none

/-- A nibble: 0..15 (R165, R195). -/
def nibbleOperand (x : Int) : Option Nibble := if 0 ≤ x ∧ x ≤ 15 then some (BitVec.ofInt 4 x) else none

/-- An opaque identifier, a code point: a number. -/
def natOperand (x : Int) : Option Nat := if 0 ≤ x then some x.toNat else none

/-- The optional font of R231: 0 absent, 1 `font5x8`, 2 `font5x10` (the numbers are the model's, log 1). -/
def fontOperand (x : Int) : Option (Option Font) :=
  if x = 0 then some none else if x = 1 then some (some .font5x8) else if x = 2 then some (some .font5x10) else none

/-- The pin modes: 0 `Output`, 1 `Input` (the direction bit of R29), 2 and 3 the pull-ups (the model's, log 1). -/
def modeOperand (x : Int) : Option PinMode :=
  if x = 0 then some .output else if x = 1 then some .input
  else if x = 2 then some .inputPullup else if x = 3 then some .outputPullup else none

/-- Every element through one reader, or nothing. -/
def operandList {α : Type} (read : Int → Option α) : List Int → Option (List α)
  | [] => some []
  | x :: xs =>
    match read x, operandList read xs with
    | some a, some as => some (a :: as)
    | _, _ => none

/-- The transport's operands of `DisplayController.Construct` (R114): none, 0 and a pin list, or 1, a bus handle and an
address (the numbers are the model's, log 1). -/
def transportOperands : List Int → Option TransportOperands
  | [] => some .attached
  | kind :: rest =>
    if kind = 0 then (operandList natOperand rest).map .gpio
    else if kind = 1 then
      match rest with
      | [bus, address] => (natOperand bus).map (.i2c · address)
      | _ => none
    else none

/-- The operands of each host operation (R114). A list operand stands last. -/
def readOperands : Nat → List Int → Option Instr
  | 13, [] => some .clearDisplay
  | 14, [] => some .returnHome
  | 15, [] => some .displayOn
  | 16, [] => some .displayOff
  | 17, [] => some .cursorShow
  | 18, [] => some .cursorHide
  | 19, [] => some .cursorBlinkOn
  | 20, [] => some .cursorBlinkOff
  | 21, [] => some .displayShiftLeft
  | 22, [] => some .displayShiftRight
  | 23, [] => some .cursorShiftLeft
  | 24, [] => some .cursorShiftRight
  | 25, [row, column] => some (.setCursor row column)
  | 26, codePoints => (operandList natOperand codePoints).map .print
  | 27, slot :: bitmap => (operandList byteOperand bitmap).map (.defineCustomGlyph slot)
  | 28, [] => some .initialise
  | 29, rows :: columns :: font :: transport =>
    match fontOperand font, transportOperands transport with
    | some f, some carrier => some (.displayControllerConstruct rows columns ⟨f, carrier⟩)
    | _, _ => none
  | 30, rows :: columns :: font :: pinList =>
    match fontOperand font, operandList natOperand pinList with
    | some f, some pins => some (.constructOverGpio pins rows columns f)
    | _, _ => none
  | 31, pinList => (operandList natOperand pinList).map .gpioTransportConstruct
  | 32, [byte, rs] =>
    match byteOperand byte, levelOperand rs with
    | some b, some r => some (.gpioSendInstruction b r)
    | _, _ => none
  | 33, [nibble, rs] =>
    match nibbleOperand nibble, levelOperand rs with
    | some n, some r => some (.gpioSendNibble n r)
    | _, _ => none
  | 34, [level] => (levelOperand level).map .gpioBacklight
  | 35, [bus, address, rows, columns, font] =>
    match natOperand bus, fontOperand font with
    | some h, some f => some (.i2cTransportConstruct h address rows columns f)
    | _, _ => none
  | 36, [byte, rs] =>
    match byteOperand byte, levelOperand rs with
    | some b, some r => some (.i2cSendInstruction b r)
    | _, _ => none
  | 37, [nibble, rs] =>
    match nibbleOperand nibble, levelOperand rs with
    | some n, some r => some (.i2cSendNibble n r)
    | _, _ => none
  | 38, [level] => (levelOperand level).map .i2cBacklight
  | 39, [bus, address] => (natOperand bus).map (.portExpanderConstruct · address)
  | 40, [pin, mode] => (modeOperand mode).map (.setPinMode pin)
  | 41, [pin, level] => (levelOperand level).map (.writePin pin)
  | 42, [pin] => some (.readPin pin)
  | 43, [] => some .release
  | _, _ => none

/-- R112, R114, R116: the operation a term names. Rows 0 to 12 are formats, not operations. -/
def decodeTerm (name : Nat) (operands : List Int) : Except DecodeError Instr :=
  if 13 ≤ name ∧ name ≤ 43 then
    match readOperands name operands with
    | some i => .ok i
    | none => .error (.badOperands name)
  else .error (.unknownOperation name)

/-- The instruction a presentation stands for. -/
def decode : Presented → Except DecodeError Instr
  | .lcdByte false c => decodeCommand c
  | .lcdByte true d => .ok (.lcdData d)
  | .levelFrame f => .ok (decodeLevelFrame f)
  | .configFrame f => .ok (.frameI2cConfig f)
  | .pinVector levels => decodeVector levels
  | .term name operands => decodeTerm name operands

/-! The encoder, from the same tables. -/

/-- A level as an operand value. -/
def levelValue (v : Bool) : Int := if v then 1 else 0

/-- A byte as an operand value. -/
def byteValue (b : Byte) : Int := b.toNat

/-- See `fontOperand`. -/
def fontValue : Option Font → Int
  | none => 0
  | some .font5x8 => 1
  | some .font5x10 => 2

/-- See `transportOperands`. -/
def transportValues : TransportOperands → List Int
  | .attached => []
  | .gpio pinList => 0 :: pinList.map Int.ofNat
  | .i2c bus address => [1, Int.ofNat bus, address]

/-- See `modeOperand`. -/
def modeValue : PinMode → Int
  | .output => 0
  | .input => 1
  | .inputPullup => 2
  | .outputPullup => 3

/-- What the host presents for an instruction: opcode and sub-flags of R92 to R99, the layouts of R101 to R103, the
operand order of R114. -/
def encode : Instr → Presented
  | .lcdClear => .lcdByte false 0x01#8
  | .lcdReturnHome x => .lcdByte false (0x02#8 ||| bitAt x 0)
  | .lcdEntryModeSet i s => .lcdByte false (0x04#8 ||| bitAt i 1 ||| bitAt s 0)
  | .lcdDisplayControl d c b => .lcdByte false (0x08#8 ||| bitAt d 2 ||| bitAt c 1 ||| bitAt b 0)
  | .lcdCursorDisplayShift s r x => .lcdByte false (0x10#8 ||| bitAt s 3 ||| bitAt r 2 ||| x.setWidth 8)
  | .lcdFunctionSet w l f x => .lcdByte false (0x20#8 ||| bitAt w 4 ||| bitAt l 3 ||| bitAt f 2 ||| x.setWidth 8)
  | .lcdCgramSelect a => .lcdByte false (0x40#8 ||| a.setWidth 8)
  | .lcdDdramSelect a => .lcdByte false (0x80#8 ||| a.setWidth 8)
  | .lcdData d => .lcdByte true d
  | .frameI2c n bl e rw rs =>
    .levelFrame ((n.setWidth 8 <<< 4) ||| bitAt bl 3 ||| bitAt e 2 ||| bitAt rw 1 ||| bitAt rs 0)
  | .frameI2cConfig c => .configFrame c
  | .vectorGpio8 rs rw e d =>
    .pinVector [rs, rw, e, d.getLsbD 0, d.getLsbD 1, d.getLsbD 2, d.getLsbD 3, d.getLsbD 4, d.getLsbD 5,
      d.getLsbD 6, d.getLsbD 7]
  | .vectorGpio4 rs rw e n => .pinVector [rs, rw, e, n.getLsbD 0, n.getLsbD 1, n.getLsbD 2, n.getLsbD 3]
  | .clearDisplay => .term 13 []
  | .returnHome => .term 14 []
  | .displayOn => .term 15 []
  | .displayOff => .term 16 []
  | .cursorShow => .term 17 []
  | .cursorHide => .term 18 []
  | .cursorBlinkOn => .term 19 []
  | .cursorBlinkOff => .term 20 []
  | .displayShiftLeft => .term 21 []
  | .displayShiftRight => .term 22 []
  | .cursorShiftLeft => .term 23 []
  | .cursorShiftRight => .term 24 []
  | .setCursor row column => .term 25 [row, column]
  | .print codePoints => .term 26 (codePoints.map Int.ofNat)
  | .defineCustomGlyph slot bitmap => .term 27 (slot :: bitmap.map byteValue)
  | .initialise => .term 28 []
  | .displayControllerConstruct rows columns ⟨font, carrier⟩ =>
    .term 29 (rows :: columns :: fontValue font :: transportValues carrier)
  | .constructOverGpio pinList rows columns font =>
    .term 30 (rows :: columns :: fontValue font :: pinList.map Int.ofNat)
  | .gpioTransportConstruct pinList => .term 31 (pinList.map Int.ofNat)
  | .gpioSendInstruction b rs => .term 32 [byteValue b, levelValue rs]
  | .gpioSendNibble n rs => .term 33 [(n.toNat : Int), levelValue rs]
  | .gpioBacklight v => .term 34 [levelValue v]
  | .i2cTransportConstruct bus address rows columns font =>
    .term 35 [Int.ofNat bus, address, rows, columns, fontValue font]
  | .i2cSendInstruction b rs => .term 36 [byteValue b, levelValue rs]
  | .i2cSendNibble n rs => .term 37 [(n.toNat : Int), levelValue rs]
  | .i2cBacklight v => .term 38 [levelValue v]
  | .portExpanderConstruct bus address => .term 39 [Int.ofNat bus, address]
  | .setPinMode pin mode => .term 40 [pin, modeValue mode]
  | .writePin pin v => .term 41 [pin, levelValue v]
  | .readPin pin => .term 42 [pin]
  | .release => .term 43 []

/-- The presentation of a row's bits as the opcode table numbers them: every format of the block is one byte (R90),
and a byte on its own is a command byte (RS = 0), since the table's data row has no opcode structure (R100; log 2). -/
def tableWord (nbits w : Nat) : Option Presented :=
  if nbits ≤ 8 then some (.lcdByte false (BitVec.ofNat 8 (w % 2 ^ nbits))) else none

/-- The instruction the decoder reads from a table row's bits. -/
def decodeTableWord (nbits w : Nat) : Option Instr :=
  match tableWord nbits w with
  | some p => (decode p).toOption
  | none => none

end Sys2Proof
end

