-- ==== Sys2Proof/Machine/State.lean ====
section
/-!
DEFINITION. The machine's state as plain data (10_state.md R20), its inputs and outputs (00_scope.md R15, R16), the
reasons a step can stop, and the state before any construction.
-/

namespace Sys2Proof.Machine

/-- The lifecycle modes (60_exceptions.md R304). -/
inductive Mode where
  | unconstructed
  | constructing
  | ready
  | released
deriving DecidableEq, Repr

/-- The configurations (00_scope.md R5, 10_state.md R24). -/
inductive Transport where
  | gpio4
  | gpio8
  | i2c
  | expanderOnly
deriving DecidableEq, Repr

/-- The events by which the block acts on its environment (00_scope.md R15). -/
inductive Event where
  | pinSet (p : Position) (v : Level)
  | blSet (v : Level)
  | i2cScan
  | i2cWrite (a : BusAddr) (b : Byte)
  | i2cRead (a : BusAddr)
  | busRelease
  /-- at least `t` microseconds pass here (60_exceptions.md R307) -/
  | wait (t : Nat)
deriving DecidableEq, Repr

/-- An entry of the instruction trace (41_gpio_transport.md R171): what was handed to the transport. -/
inductive Sent where
  | byte (b : Byte) (registerSelect : Bool)
  | nibble (n : Nibble) (registerSelect : Bool)
deriving DecidableEq, Repr

/-- The failure kinds with what each records (60_exceptions.md R281 to R292). -/
inductive Failure where
  | invalidGeometry (rows columns : Int)
  | invalidPinCount (length : Nat)
  | invalidAddress (address : Int)
  | deviceNotFound (address : Int)
  | transportError (cause : Cause)
  | invalidPin (pin : Int)
  | notConfiguredAsOutput (pin : Int)
  | notConfiguredAsInput (pin : Int)
  | cursorOutOfRange (row column : Int)
  | invalidGlyphSlot (slot : Int)
  | invalidBitmap (length : Nat)
deriving DecidableEq, Repr

/-- The failure classes (60_exceptions.md R280). -/
inductive FailureClass where
  | configurationError
  | rangeError
  | deviceError
deriving DecidableEq, Repr

/-- What an operation returns to the host (00_scope.md R16): `ok`, `ok(value)` (only `readPin`), `fail(kind, info)`. -/
inductive OpResult where
  | ok
  | okValue (v : Level)
  | fail (f : Failure)
deriving DecidableEq, Repr

/-- One answer of the environment (00_scope.md R15): the value, a bus failure, or no answer ever (U25). -/
inductive Reply (α : Type) where
  | answer (a : α)
  | failure (cause : Cause)
  | never
deriving DecidableEq, Repr

/-- The environment's coming answers, first first, one stream per bus event; `draws` counts the answers taken and
numbers the free values that follow a stream's end (log 11). The model's own fields. -/
structure Env where
  scans : List (Reply (List BusAddr))
  writes : List (Reply Unit)
  reads : List (Reply Byte)
  draws : Nat
deriving DecidableEq, Repr

/-- Why the machine stops. -/
inductive Fault where
  /-- Raised where a bus event is never answered (70_reset_and_hazards.md R346, U25): the operation never completes
  and no failure is raised. Safe: the block hangs there for good. -/
  | busNeverAnswers
  /-- Raised where an event that is answered with nothing never returns: a `Wait` (R346), or `BusRelease`, the bus
  primitive that U25 counts in. The operation never completes and no failure is raised. Safe: the block hangs there. -/
  | eventNeverReturns
deriving DecidableEq, Repr

/-- Why the block has no step for what was presented. Every one is safe: nothing is claimed of a refused operation. -/
inductive Refusal where
  /-- Raised by `exec` for an instruction without a meaning yet. Safe. -/
  | notModelled (mnemonic : String)
  /-- Raised by every operation in a lifecycle mode that does not accept it (60_exceptions.md R306). Safe. -/
  | wrongMode (mode : Mode)
  /-- Raised by every operation that the present configuration does not offer (R306, 40_port_expander.md R142,
  41_gpio_transport.md R165), and by a frame no display path carries (42_i2c_transport.md R199). Safe. -/
  | notInConfiguration (transport : Option Transport)
  /-- Raised by `gpio.backlight` without `HAS_BL_PIN` (41_gpio_transport.md R168). Safe. -/
  | noBacklightPin
  /-- Raised by a host operation while another is in progress (70_reset_and_hazards.md R325: one at a time). Safe. -/
  | operationInProgress
  /-- Raised by a row that only a running operation performs, where none is (R306: "never offered to the host"). Safe. -/
  | noOperationInProgress
  /-- Raised by `setPinMode` with a pull-up mode (40_port_expander.md R139, U3, U22). Safe. -/
  | pinModeWithoutEffect (mode : PinMode)
  /-- Raised for a term that is no instruction (WellFormed.lean). Safe. -/
  | illFormed (e : FormError)
  /-- Raised by the step where the presentation decodes to nothing (Decode.lean). Safe. -/
  | undecodable (e : DecodeError)
  /-- Raised by the step where the host has presented nothing: the block waits (00_scope.md R16; log 15). Safe. -/
  | nothingPresented
deriving DecidableEq, Repr

/-- The state of the block. Which registers exist depends on `transport` (R20); one that does not is held at its
reset value and read by no operation the configuration offers. -/
structure State where
  /-- the parameters of the instance (00_scope.md section 5) -/
  cfg : Config
  /-- `MODE` (R34) -/
  mode : Mode
  /-- `OP` (R35) -/
  op : Option Instr
  /-- `PHASE` (R35) -/
  phase : Nat
  /-- `TRANSPORT` (R24); `none`: no configuration exists (R304) -/
  transport : Option Transport
  /-- `WIDTH` (R24) -/
  width : Nat
  /-- `ROWS` (R23) -/
  rows : Nat
  /-- `COLS` (R23) -/
  cols : Nat
  /-- `LINEFLAG` (R25) -/
  lineFlag : Bool
  /-- `FONT` (R26) -/
  font : Font
  /-- `DCB` (R28): bit 2 display, bit 1 cursor, bit 0 blink -/
  dcb : BitVec 3
  /-- `PINLIST` (R27) -/
  pinList : List PinId
  /-- `PIN[0..10]` (R31); `none`: the spec's "no value" (U14) -/
  pins : Vector (Option Level) 11
  /-- `BL` (R31); `none`: the spec's "no value" -/
  bl : Option Level
  /-- `ADDR` (R29) -/
  addr : BusAddr
  /-- `IO_CONFIG` (R29): 1 = input -/
  ioConfig : Byte
  /-- `IO_WRITE` (R30) -/
  ioWrite : Byte
  /-- `RELEASED` (R33) -/
  released : Bool
  /-- `IB` (R21); `none`: "no value" (U15) -/
  ib : Option Byte
  /-- `RSEL` (R21) -/
  rsel : Option Level
  /-- `NIB` (R21) -/
  nib : Option Nibble
  /-- input, the model's own: what the host has presented and the block has not yet taken -/
  pending : List Presented
  /-- input, the model's own: the environment's answers -/
  env : Env
  /-- input, the model's own: the place in the trace of the event that never returns, if one of those answered with nothing
  does not (R346, U25; log 12). Nothing writes it: the trace only grows, and the block is stuck at that place. -/
  hangs : Option Nat
  /-- output, the model's own: every event emitted, oldest first (R15) -/
  trace : List Event
  /-- output, the model's own: the instruction trace, oldest first (R171) -/
  sent : List Sent
  /-- output, the model's own: what the last finished operation returned (R16) -/
  result : Option OpResult
deriving DecidableEq, Repr

/-- Before any construction (10_state.md R44, 70_reset_and_hazards.md R320): `MODE = UNCONSTRUCTED` and no
configuration exists. The values of registers that do not exist yet are the model's placeholders (log 8). -/
def State.reset : State where
  cfg := Config.default
  mode := .unconstructed
  op := none
  phase := 0
  transport := none
  width := 0
  rows := 0
  cols := 0
  lineFlag := false
  font := .font5x8
  dcb := 0b000#3
  pinList := []
  pins := Vector.replicate 11 none
  bl := none
  addr := 0x00#7
  ioConfig := 0x00#8
  ioWrite := 0x00#8
  released := false
  ib := none
  rsel := none
  nib := none
  pending := []
  env := { scans := [], writes := [], reads := [], draws := 0 }
  hangs := none
  trace := []
  sent := []
  result := none

end Sys2Proof.Machine
end

