-- ==== Sys2Proof/Machine/Flags.lean ====
section
/-!
DEFINITION. The one-bit state and the flag bytes composed from it (10_state.md R22, R25, R28; 30_encoding.md R91 to
R97, R108). The block has no condition code: these are the only flags it computes.
-/

namespace Sys2Proof.Machine

/-- R25, R221: `LINEFLAG` is 0 iff `ROWS` is 1 (the value for four rows is D6). -/
def lineFlagOf (rows : Nat) : Bool := rows != 1

/-- R92. -/
def clearByte : Byte := 0x01#8

/-- R93: bit 0 emitted as 0. -/
def returnHomeByte : Byte := 0x02#8

/-- R94, R229: increment with no shift. -/
def entryModeByte : Byte := 0x04#8 ||| 0x02#8

/-- R97, R226: the true function-set byte. -/
def functionSetByte (width : Nat) (lineFlag : Bool) (font : Font) : Byte :=
  0x20#8 ||| (if width = 8 then 0x10#8 else 0x00#8) ||| (if lineFlag then 0x08#8 else 0x00#8)
    ||| (match font with
         | .font5x10 => 0x04#8
         | .font5x8 => 0x00#8)

/-- R97, R224: the legacy function-set byte. -/
def legacyByte : Byte := 0x20#8 ||| 0x10#8

/-- R224: its high nibble, the single value a 4-bit transport sends. -/
def legacyNibble : Nibble := 0x3#4

/-- R95, R28: `0x08 | DCB`. -/
def displayControlByte (dcb : BitVec 3) : Byte := 0x08#8 ||| dcb.setWidth 8

/-- R28: the display flag, `DCB[2]`. -/
def withDisplayFlag (v : Bool) (dcb : BitVec 3) : BitVec 3 := (dcb &&& 0b011#3) ||| (if v then 0b100#3 else 0b000#3)

/-- R28: the cursor flag, `DCB[1]`. -/
def withCursorFlag (v : Bool) (dcb : BitVec 3) : BitVec 3 := (dcb &&& 0b101#3) ||| (if v then 0b010#3 else 0b000#3)

/-- R28: the blink flag, `DCB[0]`. -/
def withBlinkFlag (v : Bool) (dcb : BitVec 3) : BitVec 3 := (dcb &&& 0b110#3) ||| (if v then 0b001#3 else 0b000#3)

/-- R227: display on, cursor off, blink off. -/
def dcbAfterInit : BitVec 3 := 0b100#3

/-- R96: the shift opcode with its two sub-flags. -/
def shiftByte (displayShift shiftRight : Bool) : Byte :=
  0x10#8 ||| (if displayShift then 0x08#8 else 0x00#8) ||| (if shiftRight then 0x04#8 else 0x00#8)

end Sys2Proof.Machine
end

