-- ==== Sys2Proof/Machine/Operands.lean ====
section
/-!
DEFINITION. Every operand form: the range checks, the address and frame assembly, the nibble split, and the bit of an
expander register (30_encoding.md section 6, 20_memory.md sections 1 and 2).
-/

namespace Sys2Proof.Machine

/-- R109: bit `i` of an expander register set to `v`. -/
def setBit (x : Byte) (i : Nat) (v : Level) : Byte :=
  (x &&& ~~~(1#8 <<< i)) ||| (if v then 1#8 <<< i else 0#8)

/-- R109: bit `i` of a status byte. -/
def statusBit (x : Byte) (i : Nat) : Level := x.getLsbD i

/-- R107: `b[7:4]`. -/
def highNibble (b : Byte) : Nibble := b.extractLsb' 4 4

/-- R107: `b[3:0]`. -/
def lowNibble (b : Byte) : Nibble := b.extractLsb' 0 4

/-- R6, R220: the six legal geometries. -/
def legalGeometry (rows columns : Int) : Bool :=
  (rows == 1 || rows == 2 || rows == 4) && (columns == 16 || columns == 20)

/-- R160: the two legal pin-list lengths. -/
def legalPinCount (length : Nat) : Bool := length == 7 || length == 11

/-- R63, R131: `LEGAL(single)` and `LEGAL(dual)`. -/
def legalAddress (policy : AddrPolicy) (address : Int) : Bool :=
  let low := decide (0x20 ≤ address ∧ address ≤ 0x27)
  let high := decide (0x38 ≤ address ∧ address ≤ 0x3F)
  match policy with
  | .single => low
  | .dual => low || high

/-- R64: expander pin indices are 0..7. -/
def legalPin (pin : Int) : Bool := decide (0 ≤ pin ∧ pin ≤ 7)

/-- R252: `0 ≤ row < ROWS` and `0 ≤ column < COLS`. -/
def legalCursor (rows cols : Nat) (row column : Int) : Bool :=
  decide (0 ≤ row ∧ row < rows ∧ 0 ≤ column ∧ column < cols)

/-- R255: glyph slots are 0..7. -/
def legalSlot (slot : Int) : Bool := decide (0 ≤ slot ∧ slot ≤ 7)

/-- R60: `ROWOFF`; the table has four entries (log 18). -/
def rowOffset : Nat → Option Nat
  | 0 => some 0x00
  | 1 => some 0x40
  | 2 => some 0x14
  | 3 => some 0x54
  | _ => none

/-- R99, R105: `0x80 | (ROWOFF[row] + column)`, the sum in the integers. -/
def ddramSelectByte (offset column : Nat) : Byte := 0x80#8 ||| BitVec.ofNat 8 (offset + column)

/-- R98, R106: `0x40 | ((slot & 0x7) << 3)`. -/
def cgramSelectByte (slot : Nat) : Byte := 0x40#8 ||| BitVec.ofNat 8 ((slot &&& 0x7) <<< 3)

/-- R101: `{nibble[3:0], BL, E, RW, RS}`. -/
def i2cFrame (nibble : Nibble) (bl e rw rs : Level) : Byte :=
  (nibble.setWidth 8 <<< 4) ||| bitAt bl 3 ||| bitAt e 2 ||| bitAt rw 1 ||| bitAt rs 0

/-- R67, R102: bit k of the byte on position 3 + k, ascending (D11). -/
def dataLevels8 (b : Byte) : List (Position × Level) :=
  [(3, b.getLsbD 0), (4, b.getLsbD 1), (5, b.getLsbD 2), (6, b.getLsbD 3),
   (7, b.getLsbD 4), (8, b.getLsbD 5), (9, b.getLsbD 6), (10, b.getLsbD 7)]

/-- R68, R103: bit j of the nibble on position 3 + j, ascending (D11). -/
def dataLevels4 (n : Nibble) : List (Position × Level) :=
  [(3, n.getLsbD 0), (4, n.getLsbD 1), (5, n.getLsbD 2), (6, n.getLsbD 3)]

/-- R69, R191, R193: the expander pins of one nibble cycle before its pulse, in order: register-select, read/write
(always 0), then data bit k on pin 4 + k, ascending (D11). -/
def nibblePins (n : Nibble) (rs : Level) : List (Int × Level) :=
  [(0, rs), (1, false), (4, n.getLsbD 0), (5, n.getLsbD 1), (6, n.getLsbD 2), (7, n.getLsbD 3)]

/-- R7: the font of a construction, `font5x8` where the host gives none. -/
def fontOrDefault (font : Option Font) : Font := font.getD .font5x8

end Sys2Proof.Machine
end

