-- ==== Sys2Proof/Machine/Ops.lean ====
section
/-!
DEFINITION. The shared operations: emitting an event, the environment's answers, taking a failure and what follows
it, and the rules by which an operation is accepted (00_scope.md R15, R16; 10_state.md R35; 60_exceptions.md).
-/

namespace Sys2Proof.Machine

/-- The outcome of one instruction (Host/Core.lean). -/
abbrev Stepped := Host.Outcome State Fault Refusal

/-- The outcome of steps run in line: they go on with a value, a failure was raised, or an event never returned. -/
inductive Out (α : Type) where
  | ok (a : α) (s : State)
  | fail (f : Failure) (s : State)
  | stuck (r : Fault)
deriving Repr

/-- `call f(...)` of R16: the events join the caller's trace, a failure ends the caller with the same failure. -/
def Out.bind {α β : Type} (x : Out α) (k : α → State → Out β) : Out β :=
  match x with
  | .ok a s => k a s
  | .fail f s => .fail f s
  | .stuck r => .stuck r

/-- Two steps in order. -/
def Out.andThen {α β : Type} (x : Out α) (k : State → Out β) : Out β := x.bind fun _ s => k s

/-! ### Events -/

/-- `emit E` (R16): the event joins the trace and the sequencer moves on (R35). -/
def emit (e : Event) (s : State) : State := { s with trace := s.trace ++ [e], phase := s.phase + 1 }

/-- `emit E` of an event answered with nothing: it returns, or the block hangs there for good (R346, U25; log 12). -/
def emitReturning (e : Event) (s : State) : Out Unit :=
  if s.hangs = some s.trace.length then .stuck .eventNeverReturns else .ok () (emit e s)

/-- `Wait(t)` (60_exceptions.md R307). -/
def wait (t : Nat) (s : State) : Out Unit := emitReturning (.wait t) s

/-- `PinSet(p, v)` does `PIN[p] <- v` at the moment it is emitted (41_gpio_transport.md R170). -/
def pinSet (p : Position) (v : Level) (s : State) : State :=
  { emit (.pinSet p v) s with pins := s.pins.set p.val (some v) p.isLt }

/-- The listed positions, in order (R79). -/
def drivePins : List (Position × Level) → State → State
  | [], s => s
  | (p, v) :: rest, s => drivePins rest (pinSet p v s)

/-- `BlSet(v)` with `BL <- v` (R168). -/
def blSet (v : Level) (s : State) : State := { emit (.blSet v) s with bl := some v }

/-! ### Taking a failure -/

/-- R292: the class of each kind. -/
def Failure.failureClass : Failure → FailureClass
  | .invalidGeometry _ _ => .configurationError
  | .invalidPinCount _ => .configurationError
  | .invalidAddress _ => .configurationError
  | .deviceNotFound _ => .deviceError
  | .transportError _ => .deviceError
  | .invalidPin _ => .rangeError
  | .notConfiguredAsOutput _ => .rangeError
  | .notConfiguredAsInput _ => .rangeError
  | .cursorOutOfRange _ _ => .rangeError
  | .invalidGlyphSlot _ => .rangeError
  | .invalidBitmap _ => .rangeError

/-- R292: the ordinal of each kind. -/
def Failure.ordinal : Failure → Nat
  | .invalidGeometry _ _ => 1
  | .invalidPinCount _ => 2
  | .invalidAddress _ => 3
  | .deviceNotFound _ => 4
  | .transportError _ => 5
  | .invalidPin _ => 6
  | .notConfiguredAsOutput _ => 7
  | .notConfiguredAsInput _ => 8
  | .cursorOutOfRange _ _ => 9
  | .invalidGlyphSlot _ => 10
  | .invalidBitmap _ => 11

/-- `raise E(info)` (R14): the operation ends here; nothing is undone, nothing more is emitted (R298, R299). -/
def raise {α : Type} (f : Failure) (s : State) : Out α := .fail f s

/-- `require c else raise E` (R16). -/
def require (c : Bool) (f : Failure) (s : State) : Out Unit := if c then .ok () s else raise f s

/-- An operation ends: no operation is in progress (R35) and the host has its result (R16). -/
def endOperation (r : OpResult) (s : State) : State := { s with op := none, phase := 0, result := some r }

/-- TAKING A FAILURE (60_exceptions.md R298): the kind and what it records go to the host; nothing is saved, no mode
changes, nothing is latched, control goes nowhere. There is no RETURN to model beside it (R301, R302): no handler runs,
no context was saved, and the next operation is accepted from the state the failure left. -/
def takeFailure (f : Failure) (s : State) : State := endOperation (.fail f) s

/-- R305: every register a failed construction wrote is discarded; the events it emitted are not undone. -/
def discardRegisters (s : State) : State :=
  { State.reset with
    cfg := s.cfg
    pending := s.pending
    env := s.env
    hangs := s.hangs
    trace := s.trace
    sent := s.sent
    result := s.result }

/-- TAKING A FAILURE during construction (R305): the same, and the mode returns to `UNCONSTRUCTED`. -/
def takeConstructionFailure (f : Failure) (s : State) : State := takeFailure f (discardRegisters s)

/-! ### The environment's answers -/

/-- The next answer of a stream; past its end, the environment's free value (log 11). -/
def replyOf {α : Type} (stream : List (Reply α)) (free : Nat → Except Cause α) (n : Nat) : Reply α :=
  match stream with
  | r :: _ => r
  | [] =>
    match free n with
    | .ok a => .answer a
    | .error c => .failure c

/-- R137: a bus failure is re-signaled as `TransportError` with its cause; no answer leaves the block hung (R346). -/
def settle {α : Type} (r : Reply α) (s : State) : Out α :=
  match r with
  | .answer a => .ok a s
  | .failure c => raise (.transportError c) s
  | .never => .stuck .busNeverAnswers

/-- `emit I2cScan() -> answer`. -/
def busScan (s : State) : Out (List BusAddr) :=
  settle (replyOf s.env.scans Config.freeScan s.env.draws)
    { emit .i2cScan s with env := { s.env with scans := s.env.scans.tail, draws := s.env.draws + 1 } }

/-- `emit I2cWrite(ADDR, b) -> answer`. -/
def busWrite (b : Byte) (s : State) : Out Unit :=
  settle (replyOf s.env.writes Config.freeWrite s.env.draws)
    { emit (.i2cWrite s.addr b) s with env := { s.env with writes := s.env.writes.tail, draws := s.env.draws + 1 } }

/-- `emit I2cRead(ADDR) -> answer`. -/
def busRead (s : State) : Out Byte :=
  settle (replyOf s.env.reads Config.freeRead s.env.draws)
    { emit (.i2cRead s.addr) s with env := { s.env with reads := s.env.reads.tail, draws := s.env.draws + 1 } }

/-! ### Acceptance -/

/-- Acceptance of an operation sets `OP` to it and `PHASE` to 0 (R35); it has returned nothing yet. -/
def accept (i : Instr) (s : State) : State := { s with op := some i, phase := 0, result := none }

/-- An operation that returns `ok` or a failure. -/
def conclude : Out Unit → Stepped
  | .ok _ s => .next (endOperation .ok s)
  | .fail f s => .next (takeFailure f s)
  | .stuck r => .fault r

/-- An operation that returns `ok(value)` or a failure. -/
def concludeValue : Out Level → Stepped
  | .ok v s => .next (endOperation (.okValue v) s)
  | .fail f s => .next (takeFailure f s)
  | .stuck r => .fault r

/-- A construction (R305): `READY` when it ends ok, `UNCONSTRUCTED` when it fails. -/
def concludeConstruction : Out Unit → Stepped
  | .ok _ s => .next (endOperation .ok { s with mode := .ready })
  | .fail f s => .next (takeConstructionFailure f s)
  | .stuck r => .fault r

/-- Steps of an operation that is still in progress afterwards: on success it goes on, on failure it ends with that
failure (R16), in its mode's way. -/
def concludeInline : Out Unit → Stepped
  | .ok _ s => .next s
  | .fail f s => .next (if s.mode = .constructing then takeConstructionFailure f s else takeFailure f s)
  | .stuck r => .fault r

/-- How a display configuration reaches the LCD. -/
inductive Link where
  | gpio
  | i2c
deriving DecidableEq, Repr

/-- The attached transport, where the configuration has one (R5). -/
def linkOf : Option Transport → Option Link
  | some .gpio4 => some .gpio
  | some .gpio8 => some .gpio
  | some .i2c => some .i2c
  | some .expanderOnly => none
  | none => none

/-- R306, R325: a host operation runs in `READY`, one at a time, where the configuration offers it. -/
def hostOperation (i : Instr) (offered : Option Transport → Bool) (run : State → Stepped) (s : State) : Stepped :=
  if s.op.isSome then .refused .operationInProgress
  else if s.mode ≠ .ready then .refused (.wrongMode s.mode)
  else if offered s.transport then run (accept i s)
  else .refused (.notInConfiguration s.transport)

/-- R306: an operation of the display path runs in `READY` over the attached transport. -/
def displayOperation (i : Instr) (body : Link → State → Out Unit) (s : State) : Stepped :=
  if s.op.isSome then .refused .operationInProgress
  else if s.mode ≠ .ready then .refused (.wrongMode s.mode)
  else
    match linkOf s.transport with
    | some link => conclude (body link (accept i s))
    | none => .refused (.notInConfiguration s.transport)

/-- R305, R306: a construction is accepted only in `UNCONSTRUCTED` and enters `CONSTRUCTING`. -/
def startConstruction (i : Instr) (s : State) : State := { accept i s with mode := .constructing }

/-- R305, R306: a whole construction. -/
def construction (i : Instr) (body : State → Out Unit) (s : State) : Stepped :=
  if s.op.isSome then .refused .operationInProgress
  else if s.mode ≠ .unconstructed then .refused (.wrongMode s.mode)
  else concludeConstruction (body (startConstruction i s))

/-- A part of a composite construction (R231; log 6). The running construction performs it in line. The host presents the
composite and not the part: the part's own check is made, and past it there is no configuration to construct (R5). -/
def constructionPart (i : Instr) (fits : Bool) (check : State → Out Unit) (run : State → Stepped) (s : State) :
    Stepped :=
  if s.op.isSome then
    if s.mode = .constructing ∧ fits then run s else .refused .operationInProgress
  else if s.mode ≠ .unconstructed then .refused (.wrongMode s.mode)
  else
    match check (startConstruction i s) with
    | .ok _ _ => .refused .noOperationInProgress
    | .fail f t => .next (takeConstructionFailure f t)
    | .stuck r => .fault r

/-- R306, last row: steps that only a running operation performs, never offered to the host (log 4). -/
def inlineSteps (offered : Option Transport → Bool) (body : State → Out Unit) (s : State) : Stepped :=
  if s.op.isNone then .refused .noOperationInProgress
  else if s.mode ≠ .constructing ∧ s.mode ≠ .ready then .refused (.wrongMode s.mode)
  else if offered s.transport then concludeInline (body s)
  else .refused (.notInConfiguration s.transport)

/-- R306, last row: steps that only the initialisation of a construction performs (R165, R195, R230; log 5). -/
def constructionSteps (offered : Option Transport → Bool) (body : State → Out Unit) (s : State) : Stepped :=
  if s.op.isNone then .refused .noOperationInProgress
  else if s.mode ≠ .constructing then .refused (.wrongMode s.mode)
  else if offered s.transport then concludeInline (body s)
  else .refused (.notInConfiguration s.transport)

end Sys2Proof.Machine
end

