-- ==== Sys2Proof/Machine/Expander.lean ====
section
/-!
DEFINITION. The port expander (40_port_expander.md): its primitives, and the rows `PortExpander.Construct`,
`setPinMode`, `writePin`, `readPin`, `release`.
-/

namespace Sys2Proof.Machine

/-- R130: the range check, the probe, the presence check, then the registers (R133). -/
def attachExpander (address : Int) (s : State) : Out Unit :=
  (require (legalAddress s.cfg.addrPolicy address) (.invalidAddress address) s).andThen fun s =>
  (busScan s).bind fun found s =>
  (require (found.contains (BitVec.ofInt 7 address)) (.deviceNotFound address) s).andThen fun s =>
  .ok () { s with addr := BitVec.ofInt 7 address, ioConfig := 0x00#8, ioWrite := 0x00#8, released := false }

/-- R134: the direction bit, then the whole `IO_CONFIG` byte to the device; the update stands if the write fails. -/
def changePinMode (pin : Int) (input : Bool) (s : State) : Out Unit :=
  (require (legalPin pin) (.invalidPin pin) s).andThen fun s =>
  let config := setBit s.ioConfig pin.toNat input
  busWrite config { s with ioConfig := config }

/-- R135: the two checks in this order, the level bit, then the whole `IO_WRITE` byte to the device. -/
def changePin (pin : Int) (level : Level) (s : State) : Out Unit :=
  (require (legalPin pin) (.invalidPin pin) s).andThen fun s =>
  (require (s.cfg.pinModePolicy = .permissive || !s.ioConfig.getLsbD pin.toNat) (.notConfiguredAsOutput pin) s).andThen
    fun s =>
  let levels := setBit s.ioWrite pin.toNat level
  busWrite levels { s with ioWrite := levels }

/-- R136: the two checks in this order, one read, the requested bit. -/
def samplePin (pin : Int) (s : State) : Out Level :=
  (require (legalPin pin) (.invalidPin pin) s).andThen fun s =>
  (require (s.cfg.pinModePolicy = .permissive || s.ioConfig.getLsbD pin.toNat) (.notConfiguredAsInput pin) s).andThen
    fun s =>
  (busRead s).bind fun status s => .ok (statusBit status pin.toNat) s

/-- A run of `writePin` calls in order (R79). -/
def changePins : List (Int × Level) → State → Out Unit
  | [], s => .ok () s
  | (pin, level) :: rest, s => (changePin pin level s).andThen (changePins rest)

/-- A run of `setPinMode(p, Output)` calls in order (R190). -/
def makeOutputs : List Int → State → Out Unit
  | [], s => .ok () s
  | pin :: rest, s => (changePinMode pin false s).andThen (makeOutputs rest)

/-- R138. -/
def releaseBus (s : State) : Out Unit :=
  (if s.released then .ok () s
   else (emitReturning .busRelease s).andThen fun s => .ok () { s with released := true }).andThen fun s =>
  .ok () { s with mode := .released }

/-- The configurations that hold a bus handle (R33, R306). -/
def holdsBus : Option Transport → Bool
  | some .i2c => true
  | some .expanderOnly => true
  | some .gpio4 => false
  | some .gpio8 => false
  | none => false

/-- R142: the host calls expander operations in `expander_only` alone. -/
def offersExpander (t : Option Transport) : Bool := t == some .expanderOnly

/-- `PortExpander.Construct(busHandle, address)` from the host: the `expander_only` configuration (R130 to R133, R5). -/
def execPortExpanderConstruct (busHandle : BusHandle) (address : Int) (s : State) : Stepped :=
  construction (.portExpanderConstruct busHandle address)
    (fun s => (attachExpander address s).andThen fun s => .ok () { s with transport := some .expanderOnly }) s

/-- `setPinMode(pin, mode)` (R134). A pull-up mode has no stated effect: refused (R139, D31). -/
def execSetPinMode (pin : Int) (mode : PinMode) (s : State) : Stepped :=
  hostOperation (.setPinMode pin mode) offersExpander
    (fun s =>
      match mode with
      | .input => conclude (changePinMode pin true s)
      | .output => conclude (changePinMode pin false s)
      | .inputPullup => .refused (.pinModeWithoutEffect .inputPullup)
      | .outputPullup => .refused (.pinModeWithoutEffect .outputPullup)) s

/-- `writePin(pin, level)` (R135). -/
def execWritePin (pin : Int) (level : Level) (s : State) : Stepped :=
  hostOperation (.writePin pin level) offersExpander (fun s => conclude (changePin pin level s)) s

/-- `readPin(pin)` (R136): the only operation with a value. -/
def execReadPin (pin : Int) (s : State) : Stepped :=
  hostOperation (.readPin pin) offersExpander (fun s => concludeValue (samplePin pin s)) s

/-- `release()` (R138): accepted in `READY` and again in `RELEASED`, where a bus handle is held (R306). -/
def execRelease (s : State) : Stepped :=
  if s.op.isSome then .refused .operationInProgress
  else if s.mode ≠ .ready ∧ s.mode ≠ .released then .refused (.wrongMode s.mode)
  else if holdsBus s.transport then conclude (releaseBus (accept .release s))
  else .refused (.notInConfiguration s.transport)

end Sys2Proof.Machine
end

