-- ==== Sys2Proof/Machine/Gpio.lean ====
section
/-!
DEFINITION. The parallel GPIO transport (41_gpio_transport.md): its framing, and the rows `gpio.sendInstruction`,
`gpio.sendNibble`, `gpio.backlight`. Nothing here can fail (R169); a wait may
hang (70_reset_and_hazards.md R346).
-/

namespace Sys2Proof.Machine

/-- The latches of a send and its entry in the instruction trace (10_state.md R21, R171). -/
def latchByte (b : Byte) (rs : Level) (s : State) : State :=
  { s with ib := some b, rsel := some rs, sent := s.sent ++ [.byte b rs] }

/-- The latches of a single-nibble send (R165, R195). -/
def latchSingle (n : Nibble) (rs : Level) (s : State) : State :=
  { s with rsel := some rs, nib := some n, sent := s.sent ++ [.nibble n rs] }

/-- `NIB <- n`. -/
def latchNibble (n : Nibble) (s : State) : State := { s with nib := some n }

/-- R166: low, hold, high, hold, low; no wait after the last (D10). -/
def gpioPulse (s : State) : Out Unit :=
  (wait tEn (pinSet 2 false s)).andThen fun s =>
  (wait tEn (pinSet 2 true s)).andThen fun s =>
  .ok () (pinSet 2 false s)

/-- R162: register-select, then read/write low, driven on every send. -/
def gpioSelect (rs : Level) (s : State) : State := pinSet 1 false (pinSet 0 rs s)

/-- R164: `NIB` is loaded, its four levels driven, the enable pulsed. -/
def gpioNibble (n : Nibble) (s : State) : Out Unit := gpioPulse (drivePins (dataLevels4 n) (latchNibble n s))

/-- R162 to R164: `byte8` where `WIDTH` is 8, else `byte4x2`, high nibble first (R66). -/
def gpioSend (b : Byte) (rs : Level) (s : State) : Out Unit :=
  let s := gpioSelect rs (latchByte b rs s)
  if s.width = 8 then gpioPulse (drivePins (dataLevels8 b) s)
  else (gpioNibble (highNibble b) s).andThen (gpioNibble (lowNibble b))

/-- R165: `nibble1`. -/
def gpioSendSingle (n : Nibble) (rs : Level) (s : State) : Out Unit :=
  gpioNibble n (gpioSelect rs (latchSingle n rs s))

/-- The two GPIO configurations. -/
def onGpio : Option Transport → Bool
  | some .gpio4 => true
  | some .gpio8 => true
  | some .i2c => false
  | some .expanderOnly => false
  | none => false

/-- `gpio.sendInstruction(byte, registerSelect)` (R162): the byte is not inspected (D29). -/
def execGpioSendInstruction (byte : Byte) (registerSelect : Bool) (s : State) : Stepped :=
  hostOperation (.gpioSendInstruction byte registerSelect) onGpio
    (fun s => conclude (gpioSend byte registerSelect s)) s

/-- `gpio.sendNibble(nibble, registerSelect)` (R165): inside construction only, and not on `WIDTH = 8`. -/
def execGpioSendNibble (nibble : Nibble) (registerSelect : Bool) (s : State) : Stepped :=
  constructionSteps (· == some .gpio4) (gpioSendSingle nibble registerSelect) s

/-- `gpio.backlight(level)` (R168): the dedicated pin, where the instance has one. -/
def execGpioBacklight (level : Level) (s : State) : Stepped :=
  hostOperation (.gpioBacklight level) onGpio
    (fun s => if s.cfg.hasBlPin then conclude (.ok () (blSet level s)) else .refused .noBacklightPin) s

end Sys2Proof.Machine
end

