-- ==== Sys2Proof/Machine/I2c.lean ====
section
/-!
DEFINITION. The I2C transport (42_i2c_transport.md): nibble sequencing through the port expander, and the rows
`i2c.sendInstruction`, `i2c.sendNibble`, `i2c.backlight`.
-/

namespace Sys2Proof.Machine

/-- R194: assert, hold, deassert; no leading low phase, no wait after (D10). -/
def i2cPulse (s : State) : Out Unit :=
  (changePin 2 true s).andThen fun s =>
  (wait tEn s).andThen (changePin 2 false)

/-- R193, `per_pin`: register-select and read/write for each nibble, the four data bits, the pulse. -/
def nibbleCyclePerPin (n : Nibble) (rs : Level) (s : State) : Out Unit :=
  (changePins (nibblePins n rs) s).andThen i2cPulse

/-- `IO_WRITE <- f; emit I2cWrite(ADDR, IO_WRITE)` (R197). -/
def writeLevels (f : Byte) (s : State) : Out Unit := busWrite f { s with ioWrite := f }

/-- R197, `per_phase`: one combined frame with the backlight bit kept, then E up, the hold, E down. -/
def nibbleCyclePerPhase (n : Nibble) (rs : Level) (s : State) : Out Unit :=
  (writeLevels (i2cFrame n (s.ioWrite.getLsbD 3) false false rs) s).andThen fun s =>
  (writeLevels (setBit s.ioWrite 2 true) s).andThen fun s =>
  (wait tEn s).andThen fun s => writeLevels (setBit s.ioWrite 2 false) s

/-- R193, R197: `NIB` is loaded and presented as `I2C_WRITE_GRANULARITY` says (R11). -/
def nibbleCycle (n : Nibble) (rs : Level) (s : State) : Out Unit :=
  match s.cfg.granularity with
  | .perPin => nibbleCyclePerPin n rs (latchNibble n s)
  | .perPhase => nibbleCyclePerPhase n rs (latchNibble n s)

/-- R192: always two nibbles, high first (R66). -/
def i2cSend (b : Byte) (rs : Level) (s : State) : Out Unit :=
  (nibbleCycle (highNibble b) rs (latchByte b rs s)).andThen fun s => nibbleCycle (lowNibble b) rs s

/-- R195: `nibble1`. -/
def i2cSendSingle (n : Nibble) (rs : Level) (s : State) : Out Unit := nibbleCycle n rs (latchSingle n rs s)

/-- The configuration of this transport. -/
def onI2c (t : Option Transport) : Bool := t == some .i2c

/-- `i2c.sendInstruction(byte, registerSelect)` (R192): the byte is not inspected (D29). -/
def execI2cSendInstruction (byte : Byte) (registerSelect : Bool) (s : State) : Stepped :=
  hostOperation (.i2cSendInstruction byte registerSelect) onI2c (fun s => conclude (i2cSend byte registerSelect s)) s

/-- `i2c.sendNibble(nibble, registerSelect)` (R195): inside construction only. -/
def execI2cSendNibble (nibble : Nibble) (registerSelect : Bool) (s : State) : Stepped :=
  constructionSteps onI2c (fun s => i2cSendSingle nibble registerSelect s) s

/-- `i2c.backlight(level)` (R196): expander pin 3. -/
def execI2cBacklight (level : Level) (s : State) : Stepped :=
  hostOperation (.i2cBacklight level) onI2c (fun s => conclude (changePin 3 level s)) s

end Sys2Proof.Machine
end

