-- ==== Sys2Proof/Machine/Transport.lean ====
section
/-!
DEFINITION. The one interface of the display path to its transport (30_encoding.md R104, R115; 41_gpio_transport.md
R162; 42_i2c_transport.md R192).
-/

namespace Sys2Proof.Machine

/-- `S(b, r)`: `sendInstruction(b, r)` of the attached transport. -/
def sendInstruction (link : Link) (b : Byte) (rs : Level) (s : State) : Out Unit :=
  match link with
  | .gpio => gpioSend b rs s
  | .i2c => i2cSend b rs s

/-- `sendNibble(n, r)` of the attached transport. -/
def sendNibble (link : Link) (n : Nibble) (rs : Level) (s : State) : Out Unit :=
  match link with
  | .gpio => gpioSendSingle n rs s
  | .i2c => i2cSendSingle n rs s

/-- A command: RS = 0 (R91). -/
def sendCommand (link : Link) (c : Byte) (s : State) : Out Unit := sendInstruction link c false s

/-- Data bytes in sequence, first first, RS = 1 (R71, R100). -/
def sendData (link : Link) : List Byte → State → Out Unit
  | [], s => .ok () s
  | d :: rest, s => (sendInstruction link d true s).andThen (sendData link rest)

/-- A step followed by a minimum wait that a failure of the step leaves out (R198). -/
def thenWait (t : Nat) (x : Out Unit) : Out Unit := x.andThen (wait t)

end Sys2Proof.Machine
end

