-- ==== Sys2Proof/Machine/Construction.lean ====
section
/-!
DEFINITION. Construction and the initialisation sequence (43_display_init.md, 41_gpio_transport.md R160,
42_i2c_transport.md R190). A whole construction runs in one step; `GpioTransport.Construct`, `initialise` and
`DisplayController.Construct` over an attached transport are the parts it performs in line (R231; log 6).
-/

namespace Sys2Proof.Machine

/-- R224: the legacy function set, `0x30` on `WIDTH = 8`, the single nibble `0x3` on `WIDTH = 4`. -/
def legacySend (link : Link) (s : State) : Out Unit :=
  if s.width = 8 then sendCommand link legacyByte s else sendNibble link legacyNibble false s

/-- R222: the whole sequence, with the waits of R223, R225 and R228 and no other. -/
def runInitialise (link : Link) (s : State) : Out Unit :=
  (thenWait tLegacy1 ((wait tPwr s).andThen (legacySend link))).andThen fun s =>
  (thenWait tLegacy2 (legacySend link s)).andThen fun s =>
  (legacySend link s).andThen fun s =>
  (sendCommand link (functionSetByte s.width s.lineFlag s.font) s).andThen fun s =>
  (sendCommand link (displayControlByte dcbAfterInit) { s with dcb := dcbAfterInit }).andThen fun s =>
  (thenWait tHome (sendCommand link clearByte s)).andThen fun s =>
  sendCommand link entryModeByte s

/-- R220: the geometry check, before every other step and before any event. -/
def checkGeometry (rows columns : Int) (s : State) : Out Unit :=
  require (legalGeometry rows columns) (.invalidGeometry rows columns) s

/-- R221: the registers a validated geometry and the font give. -/
def writeGeometry (rows columns : Int) (font : Option Font) (s : State) : State :=
  { s with
    rows := rows.toNat
    cols := columns.toNat
    lineFlag := lineFlagOf rows.toNat
    font := fontOrDefault font }

/-- R160: the length check. -/
def checkPinCount (pinList : List PinId) (s : State) : Out Unit :=
  require (legalPinCount pinList.length) (.invalidPinCount pinList.length) s

/-- R160: the length check, then `PINLIST`, `TRANSPORT` and `WIDTH`; no event. -/
def attachGpio (pinList : List PinId) (s : State) : Out Unit :=
  (checkPinCount pinList s).andThen fun s =>
  .ok ()
    (if pinList.length = 7 then { s with pinList := pinList, transport := some .gpio4, width := 4 }
     else { s with pinList := pinList, transport := some .gpio8, width := 8 })

/-- R231: the composite over GPIO. -/
def composeGpio (pinList : List PinId) (rows columns : Int) (font : Option Font) (s : State) : Out Unit :=
  (checkGeometry rows columns s).andThen fun s =>
  (attachGpio pinList s).andThen fun s =>
  runInitialise .gpio (writeGeometry rows columns font s)

/-- R190: the composite over I2C; eight `setPinMode(p, Output)` calls in ascending order (D13). -/
def composeI2c (address rows columns : Int) (font : Option Font) (s : State) : Out Unit :=
  (checkGeometry rows columns s).andThen fun s =>
  (attachExpander address s).andThen fun s =>
  (makeOutputs [0, 1, 2, 3, 4, 5, 6, 7] s).andThen fun s =>
  runInitialise .i2c (writeGeometry rows columns font { s with transport := some .i2c, width := 4 })

/-- The geometry registers have been written by this construction (R23: written once). -/
def hasGeometry (s : State) : Bool := legalGeometry s.rows s.cols

/-- `Construct` over GPIO (R231). -/
def execConstructOverGpio (pinList : List PinId) (rows columns : Int) (font : Option Font) (s : State) : Stepped :=
  construction (.constructOverGpio pinList rows columns font) (composeGpio pinList rows columns font) s

/-- `I2cTransport.Construct(busHandle, address, geometry, font)` (R190). -/
def execI2cTransportConstruct (busHandle : BusHandle) (address rows columns : Int) (font : Option Font) (s : State) :
    Stepped :=
  construction (.i2cTransportConstruct busHandle address rows columns font) (composeI2c address rows columns font) s

/-- `GpioTransport.Construct(pinList)` (R160): the part of a construction that attaches the pin list. -/
def execGpioTransportConstruct (pinList : List PinId) (s : State) : Stepped :=
  constructionPart (.gpioTransportConstruct pinList) s.transport.isNone (checkPinCount pinList)
    (fun s => concludeInline (attachGpio pinList s)) s

/-- R220, R221 over the transport the running construction has attached: the check, the registers, `initialise()`, and
`MODE <- READY` with which the construction ends. -/
def constructController (link : Link) (rows columns : Int) (font : Option Font) (s : State) : Out Unit :=
  (checkGeometry rows columns s).andThen fun s => runInitialise link (writeGeometry rows columns font s)

/-- `DisplayController.Construct(geometry)` (R220, R221): with its transport's operands it is the composite over that
transport (R114, R231, R190); without them it is the part a running construction ends with. -/
def execDisplayControllerConstruct (rows columns : Int) (operands : ControllerOperands) (s : State) : Stepped :=
  let i := Instr.displayControllerConstruct rows columns operands
  let font := operands.font
  match operands.transport with
  | .gpio pinList => construction i (composeGpio pinList rows columns font) s
  | .i2c _ address => construction i (composeI2c address rows columns font) s
  | .attached =>
    constructionPart i (!hasGeometry s) (checkGeometry rows columns)
      (fun s =>
        match linkOf s.transport with
        | some link => concludeConstruction (constructController link rows columns font s)
        | none => .refused (.notInConfiguration s.transport)) s

/-- `initialise()` (R222, R230): performed by a construction that has attached a transport and written a geometry, in
line, so that the construction goes on. The host is never offered it (R306). -/
def execInitialise (s : State) : Stepped :=
  if s.op.isNone then .refused .noOperationInProgress
  else if s.mode ≠ .constructing then .refused (.wrongMode s.mode)
  else
    match linkOf s.transport, hasGeometry s with
    | some link, true => concludeInline (runInitialise link s)
    | _, _ => .refused (.notInConfiguration s.transport)

end Sys2Proof.Machine
end

