-- ==== Sys2Proof/Machine/Display.lean ====
section
/-!
DEFINITION. The DisplayController operations (44_display_ops.md), each expanded into sends of the attached transport
(30_encoding.md R115).
-/

namespace Sys2Proof.Machine

/-- R242 to R247: one bit of `DCB` changes first and stays changed if the send fails (D14); `0x08 | DCB` is sent. -/
def changeDisplayControl (change : BitVec 3 → BitVec 3) (link : Link) (s : State) : Out Unit :=
  sendCommand link (displayControlByte (change s.dcb)) { s with dcb := change s.dcb }

/-- `clearDisplay()` (R240). -/
def execClearDisplay (s : State) : Stepped :=
  displayOperation .clearDisplay (fun link s => thenWait tHome (sendCommand link clearByte s)) s

/-- `returnHome()` (R241). -/
def execReturnHome (s : State) : Stepped :=
  displayOperation .returnHome (fun link s => thenWait tHome (sendCommand link returnHomeByte s)) s

/-- `displayOn()` (R242). -/
def execDisplayOn (s : State) : Stepped :=
  displayOperation .displayOn (changeDisplayControl (withDisplayFlag true)) s

/-- `displayOff()` (R243). -/
def execDisplayOff (s : State) : Stepped :=
  displayOperation .displayOff (changeDisplayControl (withDisplayFlag false)) s

/-- `cursorShow()` (R244). -/
def execCursorShow (s : State) : Stepped :=
  displayOperation .cursorShow (changeDisplayControl (withCursorFlag true)) s

/-- `cursorHide()` (R245). -/
def execCursorHide (s : State) : Stepped :=
  displayOperation .cursorHide (changeDisplayControl (withCursorFlag false)) s

/-- `cursorBlinkOn()` (R246). -/
def execCursorBlinkOn (s : State) : Stepped :=
  displayOperation .cursorBlinkOn (changeDisplayControl (withBlinkFlag true)) s

/-- `cursorBlinkOff()` (R247). -/
def execCursorBlinkOff (s : State) : Stepped :=
  displayOperation .cursorBlinkOff (changeDisplayControl (withBlinkFlag false)) s

/-- `displayShiftLeft()` (R248). -/
def execDisplayShiftLeft (s : State) : Stepped :=
  displayOperation .displayShiftLeft (fun link => sendCommand link (shiftByte true false)) s

/-- `displayShiftRight()` (R249). -/
def execDisplayShiftRight (s : State) : Stepped :=
  displayOperation .displayShiftRight (fun link => sendCommand link (shiftByte true true)) s

/-- `cursorShiftLeft()` (R250). -/
def execCursorShiftLeft (s : State) : Stepped :=
  displayOperation .cursorShiftLeft (fun link => sendCommand link (shiftByte false false)) s

/-- `cursorShiftRight()` (R251). -/
def execCursorShiftRight (s : State) : Stepped :=
  displayOperation .cursorShiftRight (fun link => sendCommand link (shiftByte false true)) s

/-- R252: the range check before anything is emitted, then the DDRAM-select command. A row without an entry in
`ROWOFF` is out of range as well; a constructed geometry has none (log 18). -/
def moveCursor (row column : Int) (link : Link) (s : State) : Out Unit :=
  match legalCursor s.rows s.cols row column, rowOffset row.toNat with
  | true, some offset => sendCommand link (ddramSelectByte offset column.toNat) s
  | true, none => raise (.cursorOutOfRange row column) s
  | false, _ => raise (.cursorOutOfRange row column) s

/-- `setCursor(row, column)` (R252). -/
def execSetCursor (row column : Int) (s : State) : Stepped :=
  displayOperation (.setCursor row column) (moveCursor row column) s

/-- `print(value)` (R253): each code point as a data byte; one above 255 is refused (D20). -/
def execPrint (codePoints : List Nat) (s : State) : Stepped :=
  match (Instr.print codePoints).formError with
  | some err => .refused (.illFormed err)
  | none =>
    displayOperation (.print codePoints) (fun link s => sendData link (codePoints.map (BitVec.ofNat 8)) s) s

/-- R255: slot first, then length, both before any event; the CGRAM-select command, then the bitmap bytes whole. -/
def sendGlyph (slot : Int) (bitmap : List Byte) (link : Link) (s : State) : Out Unit :=
  (require (legalSlot slot) (.invalidGlyphSlot slot) s).andThen fun s =>
  (require (decide (bitmap.length ≤ 8)) (.invalidBitmap bitmap.length) s).andThen fun s =>
  (sendCommand link (cgramSelectByte slot.toNat) s).andThen (sendData link bitmap)

/-- `defineCustomGlyph(slot, bitmap)` (R255). -/
def execDefineCustomGlyph (slot : Int) (bitmap : List Byte) (s : State) : Stepped :=
  displayOperation (.defineCustomGlyph slot bitmap) (sendGlyph slot bitmap) s

end Sys2Proof.Machine
end

