-- ==== Sys2Proof/Machine/Formats.lean ====
section
/-!
DEFINITION. The other two emitted formats as steps of a running operation (30_encoding.md R101 to R103): one expander
frame written, one pin vector driven. No operation of R114 presents one, so the host's own presentation is refused
(60_exceptions.md R306; log 4). A vector drives its levels and emits no `Wait`: the holds of R330 stand inside `pulseEnable`
and in no vector (DESIGN CHOICE, log 4).
-/

namespace Sys2Proof.Machine

/-- `frame.i2c` (R101, R309): the requested levels of pins 7..0, `IO_WRITE <- frame; I2cWrite(ADDR, IO_WRITE)` (R197).
On the display path RW is 0 in every frame (R101, R199); in `expander_only` the pins have no roles (R64). A bare frame
makes no direction check, in `expander_only` under `PINMODE_POLICY = strict` as well: the check of R135 is `writePin`'s, on its
one pin, and the spec says nothing of a whole frame taken alone (DESIGN CHOICE, log 4). -/
def execFrameI2c (nibble : Nibble) (bl e rw rs : Level) (s : State) : Stepped :=
  inlineSteps (fun t => holdsBus t && !(t == some .i2c && rw))
    (fun s => writeLevels (i2cFrame nibble bl e rw rs) s) s

/-- `frame.i2c_config` (R101, R309): the directions of pins 7..0, `IO_CONFIG <- frame; I2cWrite(ADDR, IO_CONFIG)`
(R134). The I2C transport makes every pin an output and never uses inputs (R190, R45). -/
def execFrameI2cConfig (directions : Byte) (s : State) : Stepped :=
  inlineSteps (fun t => holdsBus t && !(t == some .i2c && directions != 0x00#8))
    (fun s => busWrite directions { s with ioConfig := directions }) s

/-- `vector.gpio8` (R102): the eleven levels, in the order in which a send drives them, E last (R162, R163, R166). A vector
that raises or lowers E holds it for no `Wait(T_EN)` (R330): the order and the missing hold are the model's choice (log 4). -/
def execVectorGpio8 (rs rw e : Level) (d : Byte) (s : State) : Stepped :=
  match (Instr.vectorGpio8 rs rw e d).formError with
  | some err => .refused (.illFormed err)
  | none =>
    inlineSteps (· == some .gpio8)
      (fun s => .ok () (drivePins ([(0, rs), (1, rw)] ++ dataLevels8 d ++ [(2, e)]) s)) s

/-- `vector.gpio4` (R103): the seven levels, in the order in which a send drives them, E last (R162, R164, R166). A vector
that raises or lowers E holds it for no `Wait(T_EN)` (R330): the order and the missing hold are the model's choice (log 4). -/
def execVectorGpio4 (rs rw e : Level) (n : Nibble) (s : State) : Stepped :=
  match (Instr.vectorGpio4 rs rw e n).formError with
  | some err => .refused (.illFormed err)
  | none =>
    inlineSteps (· == some .gpio4)
      (fun s => .ok () (drivePins ([(0, rs), (1, rw)] ++ dataLevels4 n ++ [(2, e)]) s)) s

end Sys2Proof.Machine
end

