-- ==== Sys2Proof/Machine/LcdBytes.lean ====
section
/-!
DEFINITION. The LCD instruction bytes themselves (30_encoding.md R91 to R100): presented with its register-select
flag, a byte is handed to the attached transport as it is, which is the raw `sendInstruction` of it (R110, D29; log 3).
It appends no wait (70_reset_and_hazards.md R331) and touches no shadow (R341). The byte is composed from the class
opcode and its sub-flags.
-/

namespace Sys2Proof.Machine

/-- `clear = 0x01` (R92). -/
def execLcdClear (s : State) : Stepped := displayOperation .lcdClear (fun link => sendCommand link 0x01#8) s

/-- `return-home = 0x02` (R93), bit 0 as given. -/
def execLcdReturnHome (x : Bool) (s : State) : Stepped :=
  displayOperation (.lcdReturnHome x) (fun link => sendCommand link (0x02#8 ||| bitAt x 0)) s

/-- `entry-mode-set = 0x04` (R94). -/
def execLcdEntryModeSet (increment shift : Bool) (s : State) : Stepped :=
  displayOperation (.lcdEntryModeSet increment shift)
    (fun link => sendCommand link (0x04#8 ||| bitAt increment 1 ||| bitAt shift 0)) s

/-- `display-control = 0x08` (R95). -/
def execLcdDisplayControl (display cursor blink : Bool) (s : State) : Stepped :=
  displayOperation (.lcdDisplayControl display cursor blink)
    (fun link => sendCommand link (0x08#8 ||| bitAt display 2 ||| bitAt cursor 1 ||| bitAt blink 0)) s

/-- `cursor/display-shift = 0x10` (R96), bits 1..0 as given. -/
def execLcdCursorDisplayShift (displayShift shiftRight : Bool) (x : BitVec 2) (s : State) : Stepped :=
  displayOperation (.lcdCursorDisplayShift displayShift shiftRight x)
    (fun link => sendCommand link (0x10#8 ||| bitAt displayShift 3 ||| bitAt shiftRight 2 ||| x.setWidth 8)) s

/-- `function-set = 0x20` (R97), bits 1..0 as given. -/
def execLcdFunctionSet (eightBit twoLine font5x10 : Bool) (x : BitVec 2) (s : State) : Stepped :=
  displayOperation (.lcdFunctionSet eightBit twoLine font5x10 x)
    (fun link => sendCommand link
      (0x20#8 ||| bitAt eightBit 4 ||| bitAt twoLine 3 ||| bitAt font5x10 2 ||| x.setWidth 8)) s

/-- `CGRAM-select = 0x40` (R98). -/
def execLcdCgramSelect (a : BitVec 6) (s : State) : Stepped :=
  displayOperation (.lcdCgramSelect a) (fun link => sendCommand link (0x40#8 ||| a.setWidth 8)) s

/-- `DDRAM-select = 0x80` (R99). -/
def execLcdDdramSelect (a : BitVec 7) (s : State) : Stepped :=
  displayOperation (.lcdDdramSelect a) (fun link => sendCommand link (0x80#8 ||| a.setWidth 8)) s

/-- A data byte, RS = 1, sent unchanged (R100). -/
def execLcdData (d : Byte) (s : State) : Stepped :=
  displayOperation (.lcdData d) (fun link => sendInstruction link d true) s

end Sys2Proof.Machine
end

