-- ==== Sys2Proof/Machine/Dispatch.lean ====
section
/-!
DEFINITION. One arm per instruction, in the opcode table's order.
-/

namespace Sys2Proof.Machine

def exec (i : Instr) (s : State) : Host.Outcome State Fault Refusal :=
  match i with
  | .lcdClear => Sys2Proof.Machine.execLcdClear s
  | .lcdReturnHome x => Sys2Proof.Machine.execLcdReturnHome x s
  | .lcdEntryModeSet increment shift => Sys2Proof.Machine.execLcdEntryModeSet increment shift s
  | .lcdDisplayControl display cursor blink => Sys2Proof.Machine.execLcdDisplayControl display cursor blink s
  | .lcdCursorDisplayShift displayShift shiftRight x => Sys2Proof.Machine.execLcdCursorDisplayShift displayShift shiftRight x s
  | .lcdFunctionSet eightBit twoLine font5x10 x => Sys2Proof.Machine.execLcdFunctionSet eightBit twoLine font5x10 x s
  | .lcdCgramSelect a => Sys2Proof.Machine.execLcdCgramSelect a s
  | .lcdDdramSelect a => Sys2Proof.Machine.execLcdDdramSelect a s
  | .lcdData d => Sys2Proof.Machine.execLcdData d s
  | .frameI2c nibble bl e rw rs => Sys2Proof.Machine.execFrameI2c nibble bl e rw rs s
  | .frameI2cConfig directions => Sys2Proof.Machine.execFrameI2cConfig directions s
  | .vectorGpio8 rs rw e d => Sys2Proof.Machine.execVectorGpio8 rs rw e d s
  | .vectorGpio4 rs rw e n => Sys2Proof.Machine.execVectorGpio4 rs rw e n s
  | .clearDisplay => Sys2Proof.Machine.execClearDisplay s
  | .returnHome => Sys2Proof.Machine.execReturnHome s
  | .displayOn => Sys2Proof.Machine.execDisplayOn s
  | .displayOff => Sys2Proof.Machine.execDisplayOff s
  | .cursorShow => Sys2Proof.Machine.execCursorShow s
  | .cursorHide => Sys2Proof.Machine.execCursorHide s
  | .cursorBlinkOn => Sys2Proof.Machine.execCursorBlinkOn s
  | .cursorBlinkOff => Sys2Proof.Machine.execCursorBlinkOff s
  | .displayShiftLeft => Sys2Proof.Machine.execDisplayShiftLeft s
  | .displayShiftRight => Sys2Proof.Machine.execDisplayShiftRight s
  | .cursorShiftLeft => Sys2Proof.Machine.execCursorShiftLeft s
  | .cursorShiftRight => Sys2Proof.Machine.execCursorShiftRight s
  | .setCursor row column => Sys2Proof.Machine.execSetCursor row column s
  | .print codePoints => Sys2Proof.Machine.execPrint codePoints s
  | .defineCustomGlyph slot bitmap => Sys2Proof.Machine.execDefineCustomGlyph slot bitmap s
  | .initialise => Sys2Proof.Machine.execInitialise s
  | .displayControllerConstruct rows columns operands => Sys2Proof.Machine.execDisplayControllerConstruct rows columns operands s
  | .constructOverGpio pinList rows columns font => Sys2Proof.Machine.execConstructOverGpio pinList rows columns font s
  | .gpioTransportConstruct pinList => Sys2Proof.Machine.execGpioTransportConstruct pinList s
  | .gpioSendInstruction byte registerSelect => Sys2Proof.Machine.execGpioSendInstruction byte registerSelect s
  | .gpioSendNibble nibble registerSelect => Sys2Proof.Machine.execGpioSendNibble nibble registerSelect s
  | .gpioBacklight level => Sys2Proof.Machine.execGpioBacklight level s
  | .i2cTransportConstruct busHandle address rows columns font => Sys2Proof.Machine.execI2cTransportConstruct busHandle address rows columns font s
  | .i2cSendInstruction byte registerSelect => Sys2Proof.Machine.execI2cSendInstruction byte registerSelect s
  | .i2cSendNibble nibble registerSelect => Sys2Proof.Machine.execI2cSendNibble nibble registerSelect s
  | .i2cBacklight level => Sys2Proof.Machine.execI2cBacklight level s
  | .portExpanderConstruct busHandle address => Sys2Proof.Machine.execPortExpanderConstruct busHandle address s
  | .setPinMode pin mode => Sys2Proof.Machine.execSetPinMode pin mode s
  | .writePin pin level => Sys2Proof.Machine.execWritePin pin level s
  | .readPin pin => Sys2Proof.Machine.execReadPin pin s
  | .release => Sys2Proof.Machine.execRelease s

end Sys2Proof.Machine
end

