-- ==== Sys2Proof/Machine/Fetch.lean ====
section
/-!
DEFINITION. How the block comes by its next instruction. It fetches nothing from a memory (10_state.md R35,
20_memory.md R83): the host presents operations, and the block takes the first of them.
-/

namespace Sys2Proof.Machine

/-- The next instruction and the state in which it runs, or why there is none: nothing presented (log 15), a
presentation that decodes to nothing (R112), a term that is no instruction (D31). -/
def takeNext (s : State) : Except Refusal (Instr × State) :=
  match s.pending with
  | [] => .error .nothingPresented
  | p :: rest =>
    match decode p with
    | .error e => .error (.undecodable e)
    | .ok i =>
      match i.formError with
      | some e => .error (.illFormed e)
      | none => .ok (i, { s with pending := rest })

/-- A host presents `p` next. -/
def present (p : Presented) (s : State) : State := { s with pending := p :: s.pending }

/-- The state a successful construction leaves, where none has happened: an LCD byte is accepted in `READY` only (R306).
The configuration is the model's choice: `gpio8`, two rows of sixteen, the default font (log 19). -/
def constructedFirst (s : State) : State :=
  match s.mode with
  | .unconstructed =>
    match exec (.constructOverGpio [0, 1, 2, 3, 4, 5, 6, 7, 8, 9, 10] 2 16 none) s with
    | .next t => t
    | .fault _ => s
    | .refused _ => s
  | .constructing => s
  | .ready => s
  | .released => s

/-- A table row's bits presented next, so that the very next step runs them (log 19). -/
def presentWord (nbits w : Nat) (s : State) : State :=
  match tableWord nbits w with
  | some p => present p (constructedFirst s)
  | none => { s with pending := [] }

end Sys2Proof.Machine
end

