-- ==== Sys2Proof/Machine/Step.lean ====
section
/-!
DEFINITION. One step: the operation the host presented next, run to its end (00_scope.md R16).
-/

namespace Sys2Proof.Machine

def step (s : State) : Host.Outcome State Fault Refusal :=
  match takeNext s with
  | .ok (i, t) => exec i t
  | .error r => .refused r

/-- `s` with the table row's word presented as its next operation (log 19). -/
def State.withFetchWord (s : State) (nbits w : Nat) : State := presentWord nbits w s

end Sys2Proof.Machine
end

