-- ==== Sys2Proof/Machine/Observe.lean ====
section
/-!
DEFINITION. What the LCD is given, read off the event trace: the transfers (41_gpio_transport.md R171,
42_i2c_transport.md R201) and the waiting (70_reset_and_hazards.md R345). No operation reads these.
-/

namespace Sys2Proof.Machine

/-- One value committed to the LCD controller by one enable pulse (R171): RS, RW, and the data positions' levels, a
nibble in bits 3..0. -/
structure Transfer where
  rs : Level
  rw : Level
  data : Byte
deriving DecidableEq, Repr

/-- The levels a pulse presents on the pin list: four data positions where `width` is 4, eight where it is 8; nothing
where a position holds no value (R31). -/
def presentedLevels (width : Nat) (pins : Vector (Option Level) 11) : Option Transfer :=
  if width = 8 then
    match pins[0], pins[1], pins[3], pins[4], pins[5], pins[6], pins[7], pins[8], pins[9], pins[10] with
    | some rs, some rw, some b0, some b1, some b2, some b3, some b4, some b5, some b6, some b7 =>
      some { rs := rs, rw := rw, data := byteOf b0 b1 b2 b3 b4 b5 b6 b7 }
    | _, _, _, _, _, _, _, _, _, _ => none
  else
    match pins[0], pins[1], pins[3], pins[4], pins[5], pins[6] with
    | some rs, some rw, some b0, some b1, some b2, some b3 =>
      some { rs := rs, rw := rw, data := (nibbleOf b0 b1 b2 b3).setWidth 8 }
    | _, _, _, _, _, _ => none

/-- R171: one transfer per enable pulse, that is at each rise of position 2; the walk carries the levels driven so far. -/
def gpioTransfers (width : Nat) : Vector (Option Level) 11 → List Event → List (Option Transfer)
  | _, [] => []
  | pins, .pinSet p v :: rest =>
    let after := pins.set p.val (some v) p.isLt
    if p = 2 ∧ v = true ∧ pins[2] ≠ some true then presentedLevels width after :: gpioTransfers width after rest
    else gpioTransfers width after rest
  | pins, _ :: rest => gpioTransfers width pins rest

/-- R201: one transfer per enable pulse, read from the frame that asserts E; the walk carries the level of E. Around an
asserting write that fails "no transfer" is certain (R336, 95_test_vectors.md V-F7), and the spec leaves the count open
there. DESIGN CHOICE (log 26): the pulse is read off the frames emitted, however they are answered, so the failed frame
counts, and a next send begun with `IO_WRITE[2] = 1` counts its first pulse only where its own frames lower E first
(`per_phase` does, `per_pin` does not). -/
def i2cTransfers : Level → List Event → List Transfer
  | _, [] => []
  | e, .i2cWrite _ f :: rest =>
    if f.getLsbD 2 && !e then
      { rs := f.getLsbD 0, rw := f.getLsbD 1, data := f >>> 4 } :: i2cTransfers (f.getLsbD 2) rest
    else i2cTransfers (f.getLsbD 2) rest
  | e, _ :: rest => i2cTransfers e rest

/-- R171, R201: the transfers of one entry of the instruction trace, by the width of the transport. -/
def Sent.transfers (width : Nat) : Sent → List Transfer
  | .byte b rs =>
    if width = 8 then [{ rs := rs, rw := false, data := b }]
    else [{ rs := rs, rw := false, data := (highNibble b).setWidth 8 },
          { rs := rs, rw := false, data := (lowNibble b).setWidth 8 }]
  | .nibble n rs => [{ rs := rs, rw := false, data := n.setWidth 8 }]

/-- R193, R197: the bus writes among a list of events. -/
def writeCount : List Event → Nat
  | [] => 0
  | .i2cWrite _ _ :: rest => writeCount rest + 1
  | .pinSet _ _ :: rest => writeCount rest
  | .blSet _ :: rest => writeCount rest
  | .i2cScan :: rest => writeCount rest
  | .i2cRead _ :: rest => writeCount rest
  | .busRelease :: rest => writeCount rest
  | .wait _ :: rest => writeCount rest

/-- R345: the minimum total waiting of a list of events, in microseconds. -/
def totalWait : List Event → Nat
  | [] => 0
  | .wait t :: rest => t + totalWait rest
  | .pinSet _ _ :: rest => totalWait rest
  | .blSet _ :: rest => totalWait rest
  | .i2cScan :: rest => totalWait rest
  | .i2cWrite _ _ :: rest => totalWait rest
  | .i2cRead _ :: rest => totalWait rest
  | .busRelease :: rest => totalWait rest

end Sys2Proof.Machine
end

