-- ==== Sys2Proof/Safety.lean ====
section
/-!
DEFINITION. What counts as a sound state and a normal run, in the terms claims use: the invariant of 10_state.md R45,
the states in which operations complete, and the trace and state a send leaves, written out from the rules' own event
lists.
-/

namespace Sys2Proof.Safety

open Sys2Proof.Machine

/-! ### States -/

/-- 10_state.md R45 with what it takes to keep it: the registers are as a construction leaves them. -/
structure Inv (s : State) : Prop where
  /-- R35, R304: between steps an operation is in progress exactly inside a construction -/
  inProgress : s.op ≠ none ↔ s.mode = .constructing
  /-- R35: the sequencer rests at phase 0 -/
  phaseAtRest : s.op = none → s.phase = 0
  /-- R44, R305: before a construction and after a failed one no register holds anything -/
  blank : s.mode = .unconstructed → s = discardRegisters s
  /-- R304 -/
  configured : s.mode = .ready → s.transport ≠ none
  /-- R33, R305 -/
  releasedIff : s.released = true ↔ s.mode = .released
  /-- R306 -/
  releasedBus : s.mode = .released → holdsBus s.transport = true
  /-- R24 -/
  width8 : s.transport = some .gpio8 → s.width = 8
  /-- R24 -/
  width4 : s.transport = some .gpio4 ∨ s.transport = some .i2c → s.width = 4
  /-- R23, R45 -/
  geometry : s.mode = .ready → linkOf s.transport ≠ none → legalGeometry s.rows s.cols = true
  /-- R25 -/
  lineFlag : legalGeometry s.rows s.cols = true → s.lineFlag = lineFlagOf s.rows
  /-- R45: RW and E are low on GPIO -/
  gpioLow : s.mode = .ready → onGpio s.transport = true → s.pins[1] = some false ∧ s.pins[2] = some false
  /-- R45: on I2C every pin is an output and RW is low -/
  i2cLow : s.transport = some .i2c → s.ioConfig = 0x00#8 ∧ s.ioWrite.getLsbD 1 = false
  /-- R45 -/
  address : holdsBus s.transport = true → legalAddress s.cfg.addrPolicy s.addr.toNat = true

/-- `READY`, nothing in progress, in this configuration. -/
def ReadyIn (t : Transport) (s : State) : Prop := s.mode = .ready ∧ s.op = none ∧ s.transport = some t

/-- `READY` on a GPIO transport whose `WIDTH` is its own (R24). -/
def ReadyOnGpio (s : State) : Prop :=
  (ReadyIn .gpio8 s ∧ s.width = 8) ∨ (ReadyIn .gpio4 s ∧ s.width = 4)

/-- `READY` on the I2C transport, every expander pin an output (R45). -/
def ReadyOnI2c (s : State) : Prop := ReadyIn .i2c s ∧ s.ioConfig = 0x00#8

/-- `READY` in a display configuration. -/
def ReadyOnDisplay (s : State) : Prop := s.mode = .ready ∧ s.op = none ∧ linkOf s.transport ≠ none

/-- No listed answer is a hang: the environment answers every bus event (70_reset_and_hazards.md R346's first proviso), since
past the end of a list it always answers, which is the model's choice (log 11). -/
def BusAnswers (s : State) : Prop :=
  (.never ∉ s.env.scans) ∧ (.never ∉ s.env.writes) ∧ (.never ∉ s.env.reads)

/-- Every `Wait` still to come returns (R346's second proviso), and `BusRelease` (U25): none that hangs lies ahead. -/
def EventsReturn (s : State) : Prop := ∀ k ∈ s.hangs, k < s.trace.length

/-- On the way from `s` to `t` lies the event that never returns: a `Wait` (R346) or `BusRelease` (U25). -/
def HangsOnTheWay (s t : State) : Prop :=
  ∃ k, s.hangs = some k ∧ s.trace.length ≤ k ∧
    (t.trace[k]? = some .busRelease ∨ ∃ d, t.trace[k]? = some (.wait d))

/-- The next `n` writes are answered ok; `rest` are the answers after them. -/
def NextWritesOk (n : Nat) (rest : List (Reply Unit)) (s : State) : Prop :=
  s.env.writes = List.replicate n (.answer ()) ++ rest

/-! ### Ends of operations -/

/-- The operation has ended with this result. -/
def finished (r : OpResult) (s : State) : State := { s with op := none, phase := 0, result := some r }

/-! ### GPIO traces, from R162 to R166 -/

/-- R166. -/
def pulseEvents : List Event := [.pinSet 2 false, .wait 40, .pinSet 2 true, .wait 40, .pinSet 2 false]

/-- R162: register-select, then read/write low. -/
def selectEvents (rs : Level) : List Event := [.pinSet 0 rs, .pinSet 1 false]

/-- R67: the data positions of a byte. -/
def dataEvents8 (b : Byte) : List Event :=
  [.pinSet 3 (b.getLsbD 0), .pinSet 4 (b.getLsbD 1), .pinSet 5 (b.getLsbD 2), .pinSet 6 (b.getLsbD 3),
   .pinSet 7 (b.getLsbD 4), .pinSet 8 (b.getLsbD 5), .pinSet 9 (b.getLsbD 6), .pinSet 10 (b.getLsbD 7)]

/-- R68: the data positions of a nibble. -/
def dataEvents4 (n : Nibble) : List Event :=
  [.pinSet 3 (n.getLsbD 0), .pinSet 4 (n.getLsbD 1), .pinSet 5 (n.getLsbD 2), .pinSet 6 (n.getLsbD 3)]

/-- R163. -/
def byte8Events (b : Byte) (rs : Level) : List Event := selectEvents rs ++ dataEvents8 b ++ pulseEvents

/-- R164, R165: one nibble and its pulse. -/
def nibbleEvents (n : Nibble) : List Event := dataEvents4 n ++ pulseEvents

/-- R164: high nibble first. -/
def byte4Events (b : Byte) (rs : Level) : List Event :=
  selectEvents rs ++ nibbleEvents (b.extractLsb' 4 4) ++ nibbleEvents (b.extractLsb' 0 4)

/-- R162: by `WIDTH`. -/
def sendEvents (width : Nat) (b : Byte) (rs : Level) : List Event :=
  if width = 8 then byte8Events b rs else byte4Events b rs

/-- R170: every `PinSet(p, v)` does `PIN[p] <- v`; nothing else writes `PIN[]`. -/
def pinsAfter (pins : Vector (Option Level) 11) : List Event → Vector (Option Level) 11
  | [] => pins
  | .pinSet p v :: rest => pinsAfter (pins.set p.val (some v) p.isLt) rest
  | _ :: rest => pinsAfter pins rest

/-- The state after these events on GPIO. -/
def afterEvents (evs : List Event) (s : State) : State :=
  { s with trace := s.trace ++ evs, pins := pinsAfter s.pins evs }

/-- The state after one GPIO send: its events, its latches (R21), its entry in the instruction trace (R171). -/
def afterSend (b : Byte) (rs : Level) (s : State) : State :=
  { afterEvents (sendEvents s.width b rs) s with
    sent := s.sent ++ [.byte b rs]
    ib := some b
    rsel := some rs
    nib := if s.width = 8 then s.nib else some (b.extractLsb' 0 4) }

/-- The state after a GPIO send of each of these data bytes in turn. -/
def afterData : List Byte → State → State
  | [], s => s
  | d :: rest, s => afterData rest (afterSend d true s)

/-- The instruction trace of `initialise` (R222): legacy sends by `WIDTH`, then `FS`, `0x0C`, `0x01`, `0x06`. -/
def initSent (width : Nat) (fs : Byte) : List Sent :=
  let legacy : Sent := if width = 8 then .byte 0x30#8 false else .nibble 0x3#4 false
  [legacy, legacy, legacy, .byte fs false, .byte 0x0C#8 false, .byte 0x01#8 false, .byte 0x06#8 false]

/-- R224: a legacy send's events on GPIO. -/
def legacyEvents (width : Nat) : List Event :=
  if width = 8 then byte8Events 0x30#8 false else selectEvents false ++ nibbleEvents 0x3#4

/-- One minimum wait (R307). -/
def waitEvent (t : Nat) : List Event := [.wait t]

/-- R222 on GPIO. -/
def initEvents (width : Nat) (fs : Byte) : List Event :=
  waitEvent 50000 ++ legacyEvents width ++ waitEvent 5000 ++ legacyEvents width ++ waitEvent 100 ++ legacyEvents width
    ++ sendEvents width fs false ++ sendEvents width 0x0C#8 false ++ sendEvents width 0x01#8 false ++ waitEvent 2000
    ++ sendEvents width 0x06#8 false

/-! ### I2C traces, from R193, R194 and R197 -/

/-- Writing these pins in turn, the whole byte each time (R135): the events. -/
def pinWrites (a : BusAddr) : Byte → List (Nat × Level) → List Event
  | _, [] => []
  | w, (pin, v) :: rest => .i2cWrite a (setBit w pin v) :: pinWrites a (setBit w pin v) rest

/-- R193: the pins one nibble cycle writes before the hold of its pulse, the last of them E. -/
def cyclePins (n : Nibble) (rs : Level) : List (Nat × Level) :=
  [(0, rs), (1, false), (4, n.getLsbD 0), (5, n.getLsbD 1), (6, n.getLsbD 2), (7, n.getLsbD 3), (2, true)]

/-- R101: the frame a nibble cycle ends with, the backlight bit of `w` kept and E low. -/
def restFrame (w : Byte) (n : Nibble) (rs : Level) : Byte := i2cFrame n (w.getLsbD 3) false false rs

/-- R101: the frame that asserts E. -/
def strobeFrame (w : Byte) (n : Nibble) (rs : Level) : Byte := i2cFrame n (w.getLsbD 3) true false rs

/-- One frame written (R197). -/
def writeEvent (a : BusAddr) (f : Byte) : List Event := [.i2cWrite a f]

/-- R193, R197: the events of one nibble cycle from `IO_WRITE = w`. -/
def cycleEvents (g : WriteGranularity) (a : BusAddr) (w : Byte) (n : Nibble) (rs : Level) : List Event :=
  match g with
  | .perPin => pinWrites a w (cyclePins n rs) ++ (waitEvent 40 ++ writeEvent a (restFrame w n rs))
  | .perPhase =>
    writeEvent a (restFrame w n rs) ++ writeEvent a (strobeFrame w n rs) ++ waitEvent 40
      ++ writeEvent a (restFrame w n rs)

/-- The writes one nibble cycle costs (R193, R197). -/
def cycleWrites : WriteGranularity → Nat
  | .perPin => 8
  | .perPhase => 3

/-- R192: two cycles, high nibble first. -/
def i2cSendEvents (g : WriteGranularity) (a : BusAddr) (w : Byte) (b : Byte) (rs : Level) : List Event :=
  cycleEvents g a w (b.extractLsb' 4 4) rs ++ cycleEvents g a (restFrame w (b.extractLsb' 4 4) rs) (b.extractLsb' 0 4) rs

/-- The state after `n` answered writes leave `rest` in the stream. -/
def afterWrites (n : Nat) (rest : List (Reply Unit)) (s : State) : State :=
  { s with env := { s.env with writes := rest, draws := s.env.draws + n } }

/-- The state after one I2C send every write of which is answered ok. -/
def afterI2cSend (b : Byte) (rs : Level) (rest : List (Reply Unit)) (s : State) : State :=
  { afterWrites (2 * cycleWrites s.cfg.granularity) rest s with
    trace := s.trace ++ i2cSendEvents s.cfg.granularity s.addr s.ioWrite b rs
    sent := s.sent ++ [.byte b rs]
    ioWrite := restFrame s.ioWrite (b.extractLsb' 0 4) rs
    ib := some b
    rsel := some rs
    nib := some (b.extractLsb' 0 4) }

/-- R222 over I2C from `IO_WRITE = w`: three legacy nibbles, then `FS`, `0x0C`, `0x01`, `0x06`, each as two nibbles, all
commands. -/
def i2cInitEvents (g : WriteGranularity) (a : BusAddr) (w : Byte) (fs : Byte) : List Event :=
  let w1 := restFrame w 0x3#4 false
  let cycle := fun n : Nibble => cycleEvents g a w1 n false
  waitEvent 50000 ++ cycleEvents g a w 0x3#4 false ++ waitEvent 5000 ++ cycle 0x3#4 ++ waitEvent 100 ++ cycle 0x3#4
    ++ i2cSendEvents g a w1 fs false
    ++ i2cSendEvents g a (restFrame w (fs.extractLsb' 0 4) false) 0x0C#8 false
    ++ i2cSendEvents g a (restFrame w 0xC#4 false) 0x01#8 false
    ++ waitEvent 2000 ++ i2cSendEvents g a (restFrame w 0x1#4 false) 0x06#8 false

/-! ### Which operation is accepted where, from the table of R306 -/

/-- `READY`, nothing in progress, a transport attached (44_display_ops.md). -/
def OfferedOnDisplay (s : State) : Prop := s.op = none ∧ s.mode = .ready ∧ linkOf s.transport ≠ none

/-- A running construction performs these steps (R306, last row). -/
def InsideConstruction (t : Transport) (s : State) : Prop :=
  s.op ≠ none ∧ s.mode = .constructing ∧ s.transport = some t

/-- A running operation performs these steps (log 4). -/
def InsideOperation (s : State) : Prop := s.op ≠ none ∧ (s.mode = .constructing ∨ s.mode = .ready)

/-- R306: the states in which each operation is accepted. -/
def Offered (i : Instr) (s : State) : Prop :=
  match i with
  | .lcdClear => OfferedOnDisplay s
  | .lcdReturnHome _ => OfferedOnDisplay s
  | .lcdEntryModeSet _ _ => OfferedOnDisplay s
  | .lcdDisplayControl _ _ _ => OfferedOnDisplay s
  | .lcdCursorDisplayShift _ _ _ => OfferedOnDisplay s
  | .lcdFunctionSet _ _ _ _ => OfferedOnDisplay s
  | .lcdCgramSelect _ => OfferedOnDisplay s
  | .lcdDdramSelect _ => OfferedOnDisplay s
  | .lcdData _ => OfferedOnDisplay s
  | .frameI2c _ _ _ rw _ =>
    InsideOperation s ∧ (s.transport = some .expanderOnly ∨ (s.transport = some .i2c ∧ rw = false))
  | .frameI2cConfig c =>
    InsideOperation s ∧ (s.transport = some .expanderOnly ∨ (s.transport = some .i2c ∧ c = 0x00#8))
  | .vectorGpio8 _ rw _ _ => InsideOperation s ∧ s.transport = some .gpio8 ∧ rw = false
  | .vectorGpio4 _ rw _ _ => InsideOperation s ∧ s.transport = some .gpio4 ∧ rw = false
  | .clearDisplay => OfferedOnDisplay s
  | .returnHome => OfferedOnDisplay s
  | .displayOn => OfferedOnDisplay s
  | .displayOff => OfferedOnDisplay s
  | .cursorShow => OfferedOnDisplay s
  | .cursorHide => OfferedOnDisplay s
  | .cursorBlinkOn => OfferedOnDisplay s
  | .cursorBlinkOff => OfferedOnDisplay s
  | .displayShiftLeft => OfferedOnDisplay s
  | .displayShiftRight => OfferedOnDisplay s
  | .cursorShiftLeft => OfferedOnDisplay s
  | .cursorShiftRight => OfferedOnDisplay s
  | .setCursor _ _ => OfferedOnDisplay s
  | .print codePoints => OfferedOnDisplay s ∧ ∀ c ∈ codePoints, c ≤ 255
  | .defineCustomGlyph _ _ => OfferedOnDisplay s
  | .initialise =>
    s.op ≠ none ∧ s.mode = .constructing ∧ linkOf s.transport ≠ none ∧ legalGeometry s.rows s.cols = true
  | .displayControllerConstruct rows columns ⟨_, .attached⟩ =>
    (s.op = none ∧ s.mode = .unconstructed ∧ legalGeometry rows columns = false) ∨
      (s.op ≠ none ∧ s.mode = .constructing ∧ linkOf s.transport ≠ none ∧ legalGeometry s.rows s.cols = false)
  | .displayControllerConstruct _ _ ⟨_, .gpio _⟩ => s.op = none ∧ s.mode = .unconstructed
  | .displayControllerConstruct _ _ ⟨_, .i2c _ _⟩ => s.op = none ∧ s.mode = .unconstructed
  | .constructOverGpio _ _ _ _ => s.op = none ∧ s.mode = .unconstructed
  | .gpioTransportConstruct pinList =>
    (s.op = none ∧ s.mode = .unconstructed ∧ pinList.length ≠ 7 ∧ pinList.length ≠ 11) ∨
      (s.op ≠ none ∧ s.mode = .constructing ∧ s.transport = none)
  | .gpioSendInstruction _ _ => ReadyIn .gpio4 s ∨ ReadyIn .gpio8 s
  | .gpioSendNibble _ _ => InsideConstruction .gpio4 s
  | .gpioBacklight _ => (ReadyIn .gpio4 s ∨ ReadyIn .gpio8 s) ∧ s.cfg.hasBlPin = true
  | .i2cTransportConstruct _ _ _ _ _ => s.op = none ∧ s.mode = .unconstructed
  | .i2cSendInstruction _ _ => ReadyIn .i2c s
  | .i2cSendNibble _ _ => InsideConstruction .i2c s
  | .i2cBacklight _ => ReadyIn .i2c s
  | .portExpanderConstruct _ _ => s.op = none ∧ s.mode = .unconstructed
  | .setPinMode _ mode => ReadyIn .expanderOnly s ∧ (mode = .input ∨ mode = .output)
  | .writePin _ _ => ReadyIn .expanderOnly s
  | .readPin _ => ReadyIn .expanderOnly s
  | .release =>
    s.op = none ∧ (s.mode = .ready ∨ s.mode = .released) ∧
      (s.transport = some .i2c ∨ s.transport = some .expanderOnly)

/-! ### Expansion, from R115 -/

/-- What follows an operation that returned `ok`; a failure, a hang or a refusal ends the whole (R16, R300). -/
def continueWith (o : Stepped) (k : State → Stepped) : Stepped :=
  match o with
  | .next t => if t.result = some .ok then k t else .next t
  | .fault r => .fault r
  | .refused r => .refused r

/-- `Wait(d)` last (R307), which hangs there if it never returns (R346). -/
def thenWaited (d : Nat) (s : State) : Stepped :=
  if s.hangs = some s.trace.length then .fault .eventNeverReturns else .next { s with trace := s.trace ++ [.wait d] }

/-- `call sendInstruction(b, rs)` of the attached transport (30_encoding.md R104). -/
def rawSend (b : Byte) (rs : Level) (s : State) : Stepped :=
  if onGpio s.transport then exec (.gpioSendInstruction b rs) s else exec (.i2cSendInstruction b rs) s

end Sys2Proof.Safety
end

