-- ==== Sys2Proof/Certificates/Slice0/Obligations.lean ====
section
/-!
DEFINITION. The statements for the provers, from the spec's numbered rules. Where a wait lies on the way, a statement that
an operation completes has the premise `EventsReturn`, the proviso of 70_reset_and_hazards.md R346 (log 12).
-/

open Sys2Proof Sys2Proof.Machine Sys2Proof.Safety

/-! ## Reset, presentation, encoding -/

/-- 10_state.md section 9, 70_reset_and_hazards.md section 1: before any construction `MODE = UNCONSTRUCTED`, nothing
is in progress, no configuration exists, and what the spec lists as "no value" holds none. -/
def Obligations.ResetIsBeforeAnyConstruction : Prop :=
  State.reset.mode = .unconstructed ∧ State.reset.op = none ∧ State.reset.phase = 0 ∧ State.reset.transport = none ∧
  (∀ p : Position, State.reset.pins[p] = none) ∧ State.reset.bl = none ∧ State.reset.ib = none ∧
  State.reset.rsel = none ∧ State.reset.nib = none ∧ State.reset.released = false ∧ State.reset.trace = []

/-- The invariant of 10_state.md R45 (with what it takes to keep it) holds at reset, and no operation is in progress. -/
def Obligations.ResetSatisfiesInvariant : Prop := Inv State.reset ∧ State.reset.op = none

/-- Words written out from the encodings of 30_encoding.md R92 to R103 and from the syntax of R114 decode to the
instruction they stand for. The row numbers of the terms are the model's choice (log 1). -/
def Obligations.SpecWordsDecode : Prop :=
  decode (.lcdByte false 0b00000001#8) = .ok .lcdClear ∧
  decode (.lcdByte false 0b00000010#8) = .ok (.lcdReturnHome false) ∧
  decode (.lcdByte false 0b00000110#8) = .ok (.lcdEntryModeSet true false) ∧
  decode (.lcdByte false 0b00001100#8) = .ok (.lcdDisplayControl true false false) ∧
  decode (.lcdByte false 0b00011100#8) = .ok (.lcdCursorDisplayShift true true 0#2) ∧
  decode (.lcdByte false 0b00110100#8) = .ok (.lcdFunctionSet true false true 0#2) ∧
  decode (.lcdByte false 0b01011000#8) = .ok (.lcdCgramSelect 0b011000#6) ∧
  decode (.lcdByte false 0b11000101#8) = .ok (.lcdDdramSelect 0x45#7) ∧
  decode (.lcdByte true 0b01001000#8) = .ok (.lcdData 0x48#8) ∧
  decode (.levelFrame 0b01001101#8) = .ok (.frameI2c 0x4#4 true true false true) ∧
  decode (.configFrame 0b00100000#8) = .ok (.frameI2cConfig 0x20#8) ∧
  decode (.pinVector [true, false, true, false, false, false, true]) = .ok (.vectorGpio4 true false true 0x8#4) ∧
  decode (.pinVector [false, false, false, true, false, false, false, false, false, false, true]) =
    .ok (.vectorGpio8 false false false 0x81#8) ∧
  decode (.term 25 [1, 5]) = .ok (.setCursor 1 5) ∧
  decode (.term 41 [3, 1]) = .ok (.writePin 3 true) ∧
  decode (.lcdByte false 0b00000000#8) = .error .noCommandClass ∧
  decode (.term 99 []) = .error (.unknownOperation 99)

/-- 30_encoding.md section 2: a command byte's class is given by its match and mask, and its fields by their bit
positions. -/
def Obligations.CommandClassByMatchAndMask : Prop :=
  ∀ c : Byte,
    (c &&& 0xFF#8 = 0x01#8 → decode (.lcdByte false c) = .ok .lcdClear) ∧
    (c &&& 0xFE#8 = 0x02#8 → decode (.lcdByte false c) = .ok (.lcdReturnHome (c.getLsbD 0))) ∧
    (c &&& 0xFC#8 = 0x04#8 → decode (.lcdByte false c) = .ok (.lcdEntryModeSet (c.getLsbD 1) (c.getLsbD 0))) ∧
    (c &&& 0xF8#8 = 0x08#8 →
      decode (.lcdByte false c) = .ok (.lcdDisplayControl (c.getLsbD 2) (c.getLsbD 1) (c.getLsbD 0))) ∧
    (c &&& 0xF0#8 = 0x10#8 →
      decode (.lcdByte false c) = .ok (.lcdCursorDisplayShift (c.getLsbD 3) (c.getLsbD 2) (c.setWidth 2))) ∧
    (c &&& 0xE0#8 = 0x20#8 →
      decode (.lcdByte false c) =
        .ok (.lcdFunctionSet (c.getLsbD 4) (c.getLsbD 3) (c.getLsbD 2) (c.setWidth 2))) ∧
    (c &&& 0xC0#8 = 0x40#8 → decode (.lcdByte false c) = .ok (.lcdCgramSelect (c.setWidth 6))) ∧
    (c &&& 0x80#8 = 0x80#8 → decode (.lcdByte false c) = .ok (.lcdDdramSelect (c.setWidth 7))) ∧
    (c = 0x00#8 → decode (.lcdByte false c) = .error .noCommandClass)

/-- Decode and encode agree: every well-formed instruction, with every operand at every value, comes back. -/
def Obligations.EncodedInstructionDecodesBack : Prop :=
  ∀ i : Instr, i.WellFormed → decode (encode i) = .ok i

/-- The other direction: a presentation that decodes at all is the one its instruction encodes to, so no two
presentations stand for one instruction and no bit is dropped. -/
def Obligations.DecodedPresentationEncodesBack : Prop :=
  ∀ (p : Presented) (i : Instr), decode p = .ok i → encode i = p

/-- A step runs the presented instruction: what the host presented first, decoded, run in the state that has taken it
(00_scope.md R16; log 1). -/
def Obligations.StepRunsThePresentedInstruction : Prop :=
  ∀ (s : State) (p : Presented) (rest : List Presented) (i : Instr),
    s.pending = p :: rest → decode p = .ok i → i.WellFormed → step s = exec i { s with pending := rest }

/-- 30_encoding.md R112, 92_eei_decisions.md D31: what is no instruction is refused, by name; with nothing presented
the block has no step (log 15). -/
def Obligations.StepRefusesWhatIsNoInstruction : Prop :=
  ∀ (s : State) (p : Presented) (rest : List Presented),
    (s.pending = [] → step s = .refused .nothingPresented) ∧
    (∀ e, s.pending = p :: rest → decode p = .error e → step s = .refused (.undecodable e)) ∧
    (∀ i e, s.pending = p :: rest → decode p = .ok i → i.formError = some e → step s = .refused (.illFormed e))

/-- A table row's word placed by `withFetchWord` is what the very next step runs, in the state a construction leaves
(log 19). -/
def Obligations.PlacedWordRunsNext : Prop :=
  ∀ (s : State) (nbits w : Nat) (i : Instr),
    decodeTableWord nbits w = some i → step (s.withFetchWord nbits w) = exec i (constructedFirst s)

/-! ## The GPIO transport -/

/-- 41_gpio_transport.md R163: fifteen events, 80 us of waiting, one transfer of eight bits, the latches and the
instruction trace that go with them, and nothing else; the levels it leaves on every position (R170). -/
def Obligations.Gpio8SendInstruction : Prop :=
  ∀ (s : State) (b : Byte) (rs : Level), ReadyIn .gpio8 s → s.width = 8 → EventsReturn s →
    exec (.gpioSendInstruction b rs) s = .next (finished .ok (afterSend b rs s)) ∧
    (sendEvents 8 b rs).length = 15 ∧ totalWait (sendEvents 8 b rs) = 80 ∧
    gpioTransfers 8 s.pins (sendEvents 8 b rs) = [some { rs := rs, rw := false, data := b }] ∧
    pinsAfter s.pins (sendEvents 8 b rs) =
      #v[some rs, some false, some false, some (b.getLsbD 0), some (b.getLsbD 1), some (b.getLsbD 2),
        some (b.getLsbD 3), some (b.getLsbD 4), some (b.getLsbD 5), some (b.getLsbD 6), some (b.getLsbD 7)]

/-- 41_gpio_transport.md R164: twenty events, 160 us of waiting, two transfers of four bits, high nibble first; the
levels it leaves are those of the low nibble (R170). -/
def Obligations.Gpio4SendInstruction : Prop :=
  ∀ (s : State) (b : Byte) (rs : Level), ReadyIn .gpio4 s → s.width = 4 → EventsReturn s →
    exec (.gpioSendInstruction b rs) s = .next (finished .ok (afterSend b rs s)) ∧
    (sendEvents 4 b rs).length = 20 ∧ totalWait (sendEvents 4 b rs) = 160 ∧
    gpioTransfers 4 s.pins (sendEvents 4 b rs) =
      [some { rs := rs, rw := false, data := b >>> 4 }, some { rs := rs, rw := false, data := b &&& 0x0F#8 }] ∧
    pinsAfter s.pins (sendEvents 4 b rs) =
      #v[some rs, some false, some false, some (b.getLsbD 0), some (b.getLsbD 1), some (b.getLsbD 2),
        some (b.getLsbD 3), s.pins[7], s.pins[8], s.pins[9], s.pins[10]]

/-- 41_gpio_transport.md R165: eleven events and one transfer inside construction on `gpio4`; never offered to the host
at rest. -/
def Obligations.GpioSendNibble : Prop :=
  ∀ (s : State) (n : Nibble) (rs : Level),
    (InsideConstruction .gpio4 s → EventsReturn s →
      exec (.gpioSendNibble n rs) s =
        .next { afterEvents (selectEvents rs ++ nibbleEvents n) s with
          phase := s.phase + 11
          rsel := some rs
          nib := some n
          sent := s.sent ++ [.nibble n rs] } ∧
      gpioTransfers 4 s.pins (selectEvents rs ++ nibbleEvents n) =
        [some { rs := rs, rw := false, data := n.setWidth 8 }]) ∧
    (s.op = none → exec (.gpioSendNibble n rs) s = .refused .noOperationInProgress)

/-- 30_encoding.md section 4: the pin vectors. That one is a step of a running operation, the order of its levels, and that
it holds no enable level for a wait, are the model's reading and choice (log 4). That one with RW high is no instruction is
41_gpio_transport.md R167 (`WellFormed`, `readWriteHigh`). -/
def Obligations.PinVectorsDriveEveryPosition : Prop :=
  ∀ (s : State) (rs e : Level) (d : Byte) (n : Nibble), InsideOperation s →
    let enable : List Event := [.pinSet 2 e]
    (s.transport = some .gpio8 →
      exec (.vectorGpio8 rs false e d) s =
        .next { afterEvents (selectEvents rs ++ dataEvents8 d ++ enable) s with
          phase := s.phase + 11
          pins := #v[some rs, some false, some e, some (d.getLsbD 0), some (d.getLsbD 1), some (d.getLsbD 2),
            some (d.getLsbD 3), some (d.getLsbD 4), some (d.getLsbD 5), some (d.getLsbD 6), some (d.getLsbD 7)] }) ∧
    (s.transport = some .gpio4 →
      exec (.vectorGpio4 rs false e n) s =
        .next { afterEvents (selectEvents rs ++ dataEvents4 n ++ enable) s with
          phase := s.phase + 7
          pins := #v[some rs, some false, some e, some (n.getLsbD 0), some (n.getLsbD 1), some (n.getLsbD 2),
            some (n.getLsbD 3), s.pins[7], s.pins[8], s.pins[9], s.pins[10]] }) ∧
    exec (.vectorGpio8 rs true e d) s = .refused (.illFormed .readWriteHigh) ∧
    exec (.vectorGpio4 rs true e n) s = .refused (.illFormed .readWriteHigh)

/-- An LCD byte presented on its own is the raw send of it, in every state: all nine LCD rows, on either kind of transport,
with no wait after and no shadow touched (70_reset_and_hazards.md section 3; that a presented byte is a raw send is the
model's reading, log 3). -/
def Obligations.LcdBytesAreSentAsGiven : Prop :=
  ∀ (s : State) (rs : Level) (c : Byte) (i : Instr) (rest : List (Reply Unit)), decode (.lcdByte rs c) = .ok i →
    exec i s = rawSend c rs s ∧
    (ReadyOnGpio s → EventsReturn s → exec i s = .next (finished .ok (afterSend c rs s))) ∧
    (ReadyOnI2c s → EventsReturn s → NextWritesOk (2 * cycleWrites s.cfg.granularity) rest s →
      exec i s = .next (finished .ok (afterI2cSend c rs rest s)))

/-! ## Display operations on GPIO: each completes, with its events and nothing else changed -/

/-- 44_display_ops.md sections 1 and 3 on GPIO. -/
def Obligations.ClearHomeAndShiftsOnGpio : Prop :=
  ∀ s : State, ReadyOnGpio s → EventsReturn s →
    exec .clearDisplay s = .next (finished .ok (afterEvents (waitEvent 2000) (afterSend 0x01#8 false s))) ∧
    exec .returnHome s = .next (finished .ok (afterEvents (waitEvent 2000) (afterSend 0x02#8 false s))) ∧
    exec .displayShiftLeft s = .next (finished .ok (afterSend 0x18#8 false s)) ∧
    exec .displayShiftRight s = .next (finished .ok (afterSend 0x1C#8 false s)) ∧
    exec .cursorShiftLeft s = .next (finished .ok (afterSend 0x10#8 false s)) ∧
    exec .cursorShiftRight s = .next (finished .ok (afterSend 0x14#8 false s))

/-- 44_display_ops.md section 2 on GPIO: one bit of `DCB`, then `0x08 | DCB`. -/
def Obligations.DisplayControlOnGpio : Prop :=
  ∀ s : State, ReadyOnGpio s → EventsReturn s →
    let sent := fun d : BitVec 3 =>
      Host.Outcome.next (φ := Fault) (ρ := Refusal)
        (finished .ok (afterSend (0x08#8 ||| d.setWidth 8) false { s with dcb := d }))
    exec .displayOn s = sent (s.dcb ||| 0b100#3) ∧ exec .displayOff s = sent (s.dcb &&& 0b011#3) ∧
    exec .cursorShow s = sent (s.dcb ||| 0b010#3) ∧ exec .cursorHide s = sent (s.dcb &&& 0b101#3) ∧
    exec .cursorBlinkOn s = sent (s.dcb ||| 0b001#3) ∧ exec .cursorBlinkOff s = sent (s.dcb &&& 0b110#3)

/-- 44_display_ops.md section 4 on GPIO: the DDRAM-select of `ROWOFF[row] + column`, for every position of every legal
geometry. -/
def Obligations.SetCursorOnGpio : Prop :=
  ∀ (s : State) (row column : Int), ReadyOnGpio s → EventsReturn s → legalGeometry s.rows s.cols = true →
    0 ≤ row → row < s.rows → 0 ≤ column → column < s.cols →
    exec (.setCursor row column) s =
      .next (finished .ok
        (afterSend (BitVec.ofNat 8 (0x80 + [0x00, 0x40, 0x14, 0x54].getD row.toNat 0 + column.toNat)) false s))

/-- 44_display_ops.md section 5 on GPIO: each code point as a data byte, in sequence; none for the empty sequence. -/
def Obligations.PrintOnGpio : Prop :=
  ∀ (s : State) (codePoints : List Nat), ReadyOnGpio s → EventsReturn s → (∀ c ∈ codePoints, c ≤ 255) →
    exec (.print codePoints) s = .next (finished .ok (afterData (codePoints.map (BitVec.ofNat 8)) s))

/-- 44_display_ops.md section 6 on GPIO: the CGRAM-select, then every bitmap byte whole; a zero-length bitmap sends the
address only. -/
def Obligations.DefineCustomGlyphOnGpio : Prop :=
  ∀ (s : State) (slot : Int) (bitmap : List Byte), ReadyOnGpio s → EventsReturn s → 0 ≤ slot → slot ≤ 7 →
    bitmap.length ≤ 8 →
    exec (.defineCustomGlyph slot bitmap) s =
      .next (finished .ok (afterData bitmap (afterSend (BitVec.ofNat 8 (0x40 + 8 * slot.toNat)) false s)))

/-! ## Display operations over either transport -/

/-- 44_display_ops.md R240, R241, R248 to R251: each is `call sendInstruction` of its fixed byte, then its wait; in every
state, so with the same refusals, failures and hangs, and with no state written beside. What `thenWaited` does where the wait
never returns is said by none of those rules: that it hangs is 70_reset_and_hazards.md R346 with U25, and that it hangs as the
fault `eventNeverReturns` at the place `hangs` names is the model's (log 12). -/
def Obligations.ClearHomeAndShiftsExpand : Prop :=
  ∀ s : State,
    exec .clearDisplay s = continueWith (rawSend 0x01#8 false s) (thenWaited 2000) ∧
    exec .returnHome s = continueWith (rawSend 0x02#8 false s) (thenWaited 2000) ∧
    exec .displayShiftLeft s = rawSend 0x18#8 false s ∧
    exec .displayShiftRight s = rawSend 0x1C#8 false s ∧
    exec .cursorShiftLeft s = rawSend 0x10#8 false s ∧
    exec .cursorShiftRight s = rawSend 0x14#8 false s

/-- 44_display_ops.md section 2: each changes its bit of `DCB` before the send, carries the other two over (the spec's
decisions D5, D14), and sends `0x08 | DCB`. -/
def Obligations.DisplayControlExpands : Prop :=
  ∀ (s : State) (d c b : Bool), s.dcb.getLsbD 2 = d → s.dcb.getLsbD 1 = c → s.dcb.getLsbD 0 = b →
    let sent := fun d c b : Bool =>
      rawSend (0x08#8 ||| bitAt d 2 ||| bitAt c 1 ||| bitAt b 0) false
        { s with dcb := BitVec.ofBool d ++ BitVec.ofBool c ++ BitVec.ofBool b }
    exec .displayOn s = sent true c b ∧ exec .displayOff s = sent false c b ∧
    exec .cursorShow s = sent d true b ∧ exec .cursorHide s = sent d false b ∧
    exec .cursorBlinkOn s = sent d c true ∧ exec .cursorBlinkOff s = sent d c false

/-- 44_display_ops.md R252 with 20_memory.md R60: over any transport the accepted `setCursor` is
`call sendInstruction(0x80 | (ROWOFF[row] + column), false)` and writes nothing beside; a rejected one fails before any
event. -/
def Obligations.SetCursorExpands : Prop :=
  ∀ (s : State) (row column : Int), legalGeometry s.rows s.cols = true →
    (0 ≤ row → row < s.rows → 0 ≤ column → column < s.cols →
      exec (.setCursor row column) s =
        rawSend (0x80#8 ||| BitVec.ofNat 8 ([0x00, 0x40, 0x14, 0x54].getD row.toNat 0 + column.toNat)) false s ∧
      [0x00, 0x40, 0x14, 0x54].getD row.toNat 0 + column.toNat ≤ 0x67) ∧
    (ReadyOnDisplay s → ¬(0 ≤ row ∧ row < s.rows ∧ 0 ≤ column ∧ column < s.cols) →
      exec (.setCursor row column) s = .next (finished (.fail (.cursorOutOfRange row column)) s) ∧
      (Failure.cursorOutOfRange row column).failureClass = .rangeError)

/-- 20_memory.md R61: no two positions of one geometry share an address. -/
def Obligations.CursorAddressesAreDistinct : Prop :=
  ∀ (rows cols r c r' c' o o' : Nat), legalGeometry rows cols = true → r < rows → r' < rows → c < cols → c' < cols →
    rowOffset r = some o → rowOffset r' = some o' → ddramSelectByte o c = ddramSelectByte o' c' → r = r' ∧ c = c'

/-- 44_display_ops.md section 5: `print` is `call sendInstruction` of its first character as data, then the rest; a
failure leaves the rest out. -/
def Obligations.PrintExpands : Prop :=
  ∀ (s : State) (c : Nat) (rest : List Nat), c ≤ 255 → (∀ d ∈ rest, d ≤ 255) →
    (ReadyOnDisplay s → exec (.print []) s = .next (finished .ok s)) ∧
    exec (.print (c :: rest)) s = continueWith (rawSend (BitVec.ofNat 8 c) true s) (exec (.print rest))

/-- 44_display_ops.md R253 with 92_eei_decisions.md D20, and 40_port_expander.md R139 with D31: a code point above 255 and a
pull-up mode are refused; the spec gives neither an effect. -/
def Obligations.OperandsWithoutEffectAreRefused : Prop :=
  ∀ s : State,
    (∀ (codePoints : List Nat) (c : Nat), c ∈ codePoints → 255 < c →
      ∃ d, 255 < d ∧ d ∈ codePoints ∧ exec (.print codePoints) s = .refused (.illFormed (.codePointAbove255 d))) ∧
    (∀ pin : Int, ReadyIn .expanderOnly s →
      exec (.setPinMode pin .inputPullup) s = .refused (.pinModeWithoutEffect .inputPullup) ∧
      exec (.setPinMode pin .outputPullup) s = .refused (.pinModeWithoutEffect .outputPullup))

/-- 44_display_ops.md section 6: an accepted glyph is `call sendInstruction` of the CGRAM-select of `slot << 3`, then its
bytes, whole (the spec's decision D21), as data. -/
def Obligations.DefineCustomGlyphExpands : Prop :=
  ∀ (s : State) (slot : Int) (bitmap : List Byte), 0 ≤ slot → slot ≤ 7 → bitmap.length ≤ 8 →
    exec (.defineCustomGlyph slot bitmap) s =
      continueWith (rawSend (0x40#8 ||| BitVec.ofNat 8 (8 * slot.toNat)) false s)
        (exec (.print (bitmap.map BitVec.toNat)))

/-- 60_exceptions.md section 1: the range failures of the display operations, of class `RangeError`, recording their
operands. That the slot is reported before the length is the spec's own decision D17 (section 3 of that file; log 21);
that nothing else changes is its section 4. -/
def Obligations.DisplayRangeErrors : Prop :=
  ∀ s : State, ReadyOnDisplay s →
    (∀ row column : Int, ¬(0 ≤ row ∧ row < s.rows ∧ 0 ≤ column ∧ column < s.cols) →
      exec (.setCursor row column) s = .next (finished (.fail (.cursorOutOfRange row column)) s) ∧
      (Failure.cursorOutOfRange row column).failureClass = .rangeError) ∧
    (∀ (slot : Int) (bitmap : List Byte), ¬(0 ≤ slot ∧ slot ≤ 7) →
      exec (.defineCustomGlyph slot bitmap) s = .next (finished (.fail (.invalidGlyphSlot slot)) s) ∧
      (Failure.invalidGlyphSlot slot).failureClass = .rangeError) ∧
    (∀ (slot : Int) (bitmap : List Byte), 0 ≤ slot → slot ≤ 7 → 8 < bitmap.length →
      exec (.defineCustomGlyph slot bitmap) s = .next (finished (.fail (.invalidBitmap bitmap.length)) s) ∧
      (Failure.invalidBitmap bitmap.length).failureClass = .rangeError)

/-! ## The I2C transport -/

/-- 42_i2c_transport.md R192, R193, R197, R201: every write answered ok, under either granularity: the frames in order,
what `IO_WRITE` and the latches hold, the waiting, and nothing else; from a state where E is low, the two transfers of
`gpio4`. -/
def Obligations.I2cSendInstruction : Prop :=
  ∀ (s : State) (b : Byte) (rs : Level) (rest : List (Reply Unit)), ReadyOnI2c s → EventsReturn s →
    NextWritesOk (2 * cycleWrites s.cfg.granularity) rest s →
    let evs := i2cSendEvents s.cfg.granularity s.addr s.ioWrite b rs
    exec (.i2cSendInstruction b rs) s = .next (finished .ok (afterI2cSend b rs rest s)) ∧
    totalWait evs = 80 ∧
    (s.ioWrite.getLsbD 2 = false →
      i2cTransfers false evs =
        [{ rs := rs, rw := false, data := b >>> 4 }, { rs := rs, rw := false, data := b &&& 0x0F#8 }])

/-- 42_i2c_transport.md R198: a send ends at the failing write with its cause and emits nothing more; `IO_WRITE` keeps
the value it had when that write was emitted; the latches stay; nothing else changes and the mode stays
`READY`. The class is 60_exceptions.md R288's. -/
def Obligations.I2cSendEndsAtTheFailingWrite : Prop :=
  ∀ (s : State) (b : Byte) (rs : Level) (k : Nat) (cause : Cause) (rest : List (Reply Unit)), ReadyOnI2c s →
    EventsReturn s → k < 2 * cycleWrites s.cfg.granularity →
    s.env.writes = List.replicate k (.answer ()) ++ .failure cause :: rest →
    ∃ evs w, exec (.i2cSendInstruction b rs) s =
        .next (finished (.fail (.transportError cause)) { afterWrites (k + 1) rest s with
          trace := s.trace ++ evs
          sent := s.sent ++ [.byte b rs]
          ioWrite := w
          ib := some b
          rsel := some rs
          nib := some (if k < cycleWrites s.cfg.granularity then b.extractLsb' 4 4 else b.extractLsb' 0 4) }) ∧
      (Failure.transportError cause).failureClass = .deviceError ∧
      evs <+: i2cSendEvents s.cfg.granularity s.addr s.ioWrite b rs ∧ writeCount evs = k + 1 ∧
      evs.getLast? = some (.i2cWrite s.addr w)

/-- The backlight on either transport. 41_gpio_transport.md R168: the dedicated pin, or no operation at all.
42_i2c_transport.md R196: one frame with bit 3 at the level given; the write may fail and the shadow stays. -/
def Obligations.BacklightOnEitherTransport : Prop :=
  ∀ (s : State) (v : Level) (rest : List (Reply Unit)),
    let w := (s.ioWrite &&& 0xF7#8) ||| (if v then 0x08#8 else 0x00#8)
    let t := { afterWrites 1 rest s with trace := s.trace ++ writeEvent s.addr w, ioWrite := w }
    ((ReadyIn .gpio4 s ∨ ReadyIn .gpio8 s) →
      (s.cfg.hasBlPin = true →
        exec (.gpioBacklight v) s = .next (finished .ok { s with trace := s.trace ++ [.blSet v], bl := some v })) ∧
      (s.cfg.hasBlPin = false → exec (.gpioBacklight v) s = .refused .noBacklightPin)) ∧
    (ReadyOnI2c s →
      (s.env.writes = .answer () :: rest → exec (.i2cBacklight v) s = .next (finished .ok t)) ∧
      (∀ cause, s.env.writes = .failure cause :: rest →
        exec (.i2cBacklight v) s = .next (finished (.fail (.transportError cause)) t)))

/-- 42_i2c_transport.md R195: one nibble cycle inside construction; never offered to the host at rest. -/
def Obligations.I2cSendNibble : Prop :=
  ∀ (s : State) (n : Nibble) (rs : Level) (rest : List (Reply Unit)),
    (InsideConstruction .i2c s → s.ioConfig = 0x00#8 → EventsReturn s →
      NextWritesOk (cycleWrites s.cfg.granularity) rest s →
      exec (.i2cSendNibble n rs) s =
        .next { afterWrites (cycleWrites s.cfg.granularity) rest s with
          trace := s.trace ++ cycleEvents s.cfg.granularity s.addr s.ioWrite n rs
          phase := s.phase + cycleWrites s.cfg.granularity + 1
          ioWrite := restFrame s.ioWrite n rs
          rsel := some rs
          nib := some n
          sent := s.sent ++ [.nibble n rs] }) ∧
    (s.op = none → exec (.i2cSendNibble n rs) s = .refused .noOperationInProgress)

/-- 30_encoding.md section 3, 60_exceptions.md section 8: one frame of levels or of directions, as a step of a running
operation, without a direction check (log 4); a write that fails ends that operation, in its mode's way (60_exceptions.md sections 4 to 6; the
placeholders a failed construction leaves are the model's, log 8). -/
def Obligations.FramesWriteTheirRegister : Prop :=
  ∀ (s : State) (n : Nibble) (bl e rw rs : Level) (c : Byte) (rest : List (Reply Unit)), InsideOperation s →
    let frame : Byte := (n.setWidth 8 <<< 4) ||| bitAt bl 3 ||| bitAt e 2 ||| bitAt rw 1 ||| bitAt rs 0
    let levels := { afterWrites 1 rest s with
      trace := s.trace ++ writeEvent s.addr frame, phase := s.phase + 1, ioWrite := frame }
    let directions := { afterWrites 1 rest s with
      trace := s.trace ++ writeEvent s.addr c, phase := s.phase + 1, ioConfig := c }
    let failed := fun (cause : Cause) (t : State) =>
      finished (.fail (.transportError cause)) (if s.mode = .constructing then discardRegisters t else t)
    ((s.transport = some .expanderOnly ∨ (s.transport = some .i2c ∧ rw = false)) →
      (s.env.writes = .answer () :: rest → exec (.frameI2c n bl e rw rs) s = .next levels) ∧
      (∀ cause, s.env.writes = .failure cause :: rest →
        exec (.frameI2c n bl e rw rs) s = .next (failed cause levels))) ∧
    ((s.transport = some .expanderOnly ∨ (s.transport = some .i2c ∧ c = 0x00#8)) →
      (s.env.writes = .answer () :: rest → exec (.frameI2cConfig c) s = .next directions) ∧
      (∀ cause, s.env.writes = .failure cause :: rest →
        exec (.frameI2cConfig c) s = .next (failed cause directions)))

/-! ## The port expander -/

/-- 40_port_expander.md R134: the direction bit and no other, the whole `IO_CONFIG` byte written, `IO_WRITE` untouched;
a failing write leaves the update; a pin outside 0..7 changes nothing. -/
def Obligations.SetPinModeWritesDirections : Prop :=
  ∀ (s : State) (pin : Int) (input : Bool) (rest : List (Reply Unit)), ReadyIn .expanderOnly s →
    let mode := if input then PinMode.input else PinMode.output
    let c := setBit s.ioConfig pin.toNat input
    let t := { afterWrites 1 rest s with trace := s.trace ++ writeEvent s.addr c, ioConfig := c }
    (0 ≤ pin → pin ≤ 7 → s.env.writes = .answer () :: rest →
      exec (.setPinMode pin mode) s = .next (finished .ok t)) ∧
    (∀ cause, 0 ≤ pin → pin ≤ 7 → s.env.writes = .failure cause :: rest →
      exec (.setPinMode pin mode) s = .next (finished (.fail (.transportError cause)) t)) ∧
    (¬(0 ≤ pin ∧ pin ≤ 7) → exec (.setPinMode pin mode) s = .next (finished (.fail (.invalidPin pin)) s))

/-- 40_port_expander.md R135: the checks in their order, then the level bit and no other, the whole `IO_WRITE` byte
written; a failing write leaves the update. -/
def Obligations.WritePinWritesLevels : Prop :=
  ∀ (s : State) (pin : Int) (v : Level) (rest : List (Reply Unit)), ReadyIn .expanderOnly s →
    let w := setBit s.ioWrite pin.toNat v
    let t := { afterWrites 1 rest s with trace := s.trace ++ writeEvent s.addr w, ioWrite := w }
    let allowed := s.cfg.pinModePolicy = .permissive ∨ s.ioConfig.getLsbD pin.toNat = false
    (0 ≤ pin → pin ≤ 7 → allowed → s.env.writes = .answer () :: rest →
      exec (.writePin pin v) s = .next (finished .ok t)) ∧
    (∀ cause, 0 ≤ pin → pin ≤ 7 → allowed → s.env.writes = .failure cause :: rest →
      exec (.writePin pin v) s = .next (finished (.fail (.transportError cause)) t)) ∧
    (0 ≤ pin → pin ≤ 7 → ¬allowed →
      exec (.writePin pin v) s = .next (finished (.fail (.notConfiguredAsOutput pin)) s) ∧
      (Failure.notConfiguredAsOutput pin).failureClass = .rangeError) ∧
    (¬(0 ≤ pin ∧ pin ≤ 7) → exec (.writePin pin v) s = .next (finished (.fail (.invalidPin pin)) s))

/-- 40_port_expander.md R136: the checks in their order, one read whose answer is the environment's, the requested bit;
no register changes. -/
def Obligations.ReadPinReturnsTheStatusBit : Prop :=
  ∀ (s : State) (pin : Int) (rest : List (Reply Byte)), ReadyIn .expanderOnly s →
    let t := { s with
      trace := s.trace ++ [.i2cRead s.addr]
      env := { s.env with reads := rest, draws := s.env.draws + 1 } }
    let allowed := s.cfg.pinModePolicy = .permissive ∨ s.ioConfig.getLsbD pin.toNat = true
    (∀ status, 0 ≤ pin → pin ≤ 7 → allowed → s.env.reads = .answer status :: rest →
      exec (.readPin pin) s = .next (finished (.okValue ((status >>> pin.toNat) &&& 1#8 == 1#8)) t)) ∧
    (∀ cause, 0 ≤ pin → pin ≤ 7 → allowed → s.env.reads = .failure cause :: rest →
      exec (.readPin pin) s = .next (finished (.fail (.transportError cause)) t)) ∧
    (0 ≤ pin → pin ≤ 7 → ¬allowed →
      exec (.readPin pin) s = .next (finished (.fail (.notConfiguredAsInput pin)) s) ∧
      (Failure.notConfiguredAsInput pin).failureClass = .rangeError) ∧
    (¬(0 ≤ pin ∧ pin ≤ 7) → exec (.readPin pin) s = .next (finished (.fail (.invalidPin pin)) s))

/-- 40_port_expander.md R138: `BusRelease()` exactly once; the mode is `RELEASED`; a second call emits nothing.
A `BusRelease` that never returns leaves the block hung (93_implementation_defined.md U25; log 12). -/
def Obligations.ReleaseIsExactlyOnce : Prop :=
  ∀ s : State, s.op = none → (s.mode = .ready ∨ s.mode = .released) →
    (s.transport = some .i2c ∨ s.transport = some .expanderOnly) →
    (s.released = false → s.hangs ≠ some s.trace.length →
      exec .release s = .next (finished .ok
        { s with trace := s.trace ++ [.busRelease], released := true, mode := .released })) ∧
    (s.released = false → s.hangs = some s.trace.length → exec .release s = .fault .eventNeverReturns) ∧
    (s.released = true → exec .release s = .next (finished .ok { s with mode := .released })) ∧
    (∀ t, exec .release s = .next t → exec .release t = .next t)

/-- 60_exceptions.md R285: `InvalidPin`, of class `RangeError`, from each of the three operations that take a pin: the pin
is recorded, no event precedes it and no state changes. -/
def Obligations.PinRangeErrors : Prop :=
  ∀ (s : State) (pin : Int) (mode : PinMode) (v : Level), ReadyIn .expanderOnly s → ¬(0 ≤ pin ∧ pin ≤ 7) →
    (mode = .input ∨ mode = .output → exec (.setPinMode pin mode) s = .next (finished (.fail (.invalidPin pin)) s)) ∧
    exec (.writePin pin v) s = .next (finished (.fail (.invalidPin pin)) s) ∧
    exec (.readPin pin) s = .next (finished (.fail (.invalidPin pin)) s) ∧
    (Failure.invalidPin pin).failureClass = .rangeError

/-- 40_port_expander.md: after an accepted `writePin` or `setPinMode` the one bit is as asked, every other bit
of that register is as before, the other register is as before, and the byte written is the register. -/
def Obligations.WritesPreserveUnrelatedBits : Prop :=
  ∀ (s : State) (p q : Nat) (v : Level) (rest : List (Reply Unit)), ReadyIn .expanderOnly s → p ≤ 7 → q ≤ 7 → q ≠ p →
    s.env.writes = .answer () :: rest →
    ((s.cfg.pinModePolicy = .permissive ∨ s.ioConfig.getLsbD p = false) →
      ∃ t, exec (.writePin p v) s = .next t ∧ t.result = some .ok ∧ t.ioWrite.getLsbD p = v ∧
        t.ioWrite.getLsbD q = s.ioWrite.getLsbD q ∧ t.ioConfig = s.ioConfig ∧
        t.trace = s.trace ++ [.i2cWrite s.addr t.ioWrite]) ∧
    (∃ t, exec (.setPinMode p (if v then .input else .output)) s = .next t ∧ t.result = some .ok ∧
      t.ioConfig.getLsbD p = v ∧ t.ioConfig.getLsbD q = s.ioConfig.getLsbD q ∧ t.ioWrite = s.ioWrite ∧
      t.trace = s.trace ++ [.i2cWrite s.addr t.ioConfig])

/-- 40_port_expander.md R141: a `writePin` or `setPinMode` that changes no bit still emits its write of the whole byte. -/
def Obligations.NoWriteIsElided : Prop :=
  ∀ (s : State) (p : Nat) (reply : Reply Unit) (rest : List (Reply Unit)), ReadyIn .expanderOnly s → p ≤ 7 →
    s.env.writes = reply :: rest → reply ≠ .never →
    ((s.cfg.pinModePolicy = .permissive ∨ s.ioConfig.getLsbD p = false) →
      ∃ t, exec (.writePin p (s.ioWrite.getLsbD p)) s = .next t ∧ t.ioWrite = s.ioWrite ∧
        t.trace = s.trace ++ [.i2cWrite s.addr s.ioWrite]) ∧
    (∃ t, exec (.setPinMode p (if s.ioConfig.getLsbD p then .input else .output)) s = .next t ∧
      t.ioConfig = s.ioConfig ∧ t.trace = s.trace ++ [.i2cWrite s.addr s.ioConfig])

/-- 40_port_expander.md R130 to R133 from the host: range check before any event, then one scan, then the presence
check, then the registers; the classes of the failures (60_exceptions.md R283, R284). That a failed construction leaves
no register is 60_exceptions.md section 6; the placeholders it leaves in their place are the model's (log 8). -/
def Obligations.PortExpanderConstruct : Prop :=
  ∀ (s : State) (bus : BusHandle) (address : Int) (rest : List (Reply (List BusAddr))),
    s.mode = .unconstructed → s.op = none →
    let legal := (0x20 ≤ address ∧ address ≤ 0x27) ∨
      (s.cfg.addrPolicy = .dual ∧ 0x38 ≤ address ∧ address ≤ 0x3F)
    let scanned := { s with
      trace := s.trace ++ [.i2cScan]
      env := { s.env with scans := rest, draws := s.env.draws + 1 } }
    (¬legal →
      exec (.portExpanderConstruct bus address) s =
        .next (finished (.fail (.invalidAddress address)) (discardRegisters s)) ∧
      (Failure.invalidAddress address).failureClass = .configurationError) ∧
    (∀ found, legal → s.env.scans = .answer found :: rest → BitVec.ofInt 7 address ∈ found →
      exec (.portExpanderConstruct bus address) s =
        .next (finished .ok { scanned with
          mode := .ready, transport := some .expanderOnly, addr := BitVec.ofInt 7 address
          ioConfig := 0x00#8, ioWrite := 0x00#8, released := false })) ∧
    (∀ found, legal → s.env.scans = .answer found :: rest → BitVec.ofInt 7 address ∉ found →
      exec (.portExpanderConstruct bus address) s =
        .next (finished (.fail (.deviceNotFound address)) (discardRegisters scanned)) ∧
      (Failure.deviceNotFound address).failureClass = .deviceError) ∧
    (∀ cause, legal → s.env.scans = .failure cause :: rest →
      exec (.portExpanderConstruct bus address) s =
        .next (finished (.fail (.transportError cause)) (discardRegisters scanned)) ∧
      (Failure.transportError cause).failureClass = .deviceError)

/-! ## Construction -/

/-- 43_display_init.md R222, R231 with 10_state.md R44: a construction over GPIO, its whole trace, its counts (R230), its
waiting (70_reset_and_hazards.md R345) and the state it leaves. -/
def Obligations.ConstructOverGpio : Prop :=
  ∀ (s : State) (pinList : List PinId) (rows columns : Int) (font : Option Font),
    s.mode = .unconstructed → s.op = none → EventsReturn s → legalGeometry rows columns = true →
    (pinList.length = 7 ∨ pinList.length = 11) →
    let width := if pinList.length = 7 then 4 else 8
    let fs := 0x20#8 ||| (if pinList.length = 7 then 0x00#8 else 0x10#8) ||| (if rows = 1 then 0x00#8 else 0x08#8)
      ||| (if font = some .font5x10 then 0x04#8 else 0x00#8)
    exec (.constructOverGpio pinList rows columns font) s =
      .next (finished .ok { afterEvents (initEvents width fs) s with
        mode := .ready
        transport := some (if pinList.length = 7 then .gpio4 else .gpio8)
        width := width
        rows := rows.toNat
        cols := columns.toNat
        lineFlag := rows != 1
        font := font.getD .font5x8
        dcb := 0b100#3
        pinList := pinList
        ib := some 0x06#8
        rsel := some false
        nib := if pinList.length = 7 then some 0x6#4 else s.nib
        sent := s.sent ++ initSent width fs }) ∧
    (initEvents 8 fs).length = 109 ∧ (initEvents 4 fs).length = 117 ∧
    totalWait (initEvents 8 fs) = 57660 ∧ totalWait (initEvents 4 fs) = 57980

/-- 60_exceptions.md R281 to R284, R288, and with sections 3 and 6 the construction failures over either transport, each
with its class, in their order (the spec's decision D17): no event precedes the configuration errors, a scan precedes the
device errors, and a configuration or initialisation write that fails ends the construction there, with its cause. No
register is left (the placeholders are the model's, log 8). -/
def Obligations.ConstructionRejections : Prop :=
  ∀ (s : State) (pinList : List PinId) (bus : BusHandle) (address rows columns : Int) (font : Option Font)
    (scans : List (Reply (List BusAddr))), s.mode = .unconstructed → s.op = none →
    let overGpio := exec (.constructOverGpio pinList rows columns font) s
    let overI2c := exec (.i2cTransportConstruct bus address rows columns font) s
    let scanned := { s with
      trace := s.trace ++ [.i2cScan]
      env := { s.env with scans := scans, draws := s.env.draws + 1 } }
    let geometry := (rows = 1 ∨ rows = 2 ∨ rows = 4) ∧ (columns = 16 ∨ columns = 20)
    let legal := (0x20 ≤ address ∧ address ≤ 0x27) ∨
      (s.cfg.addrPolicy = .dual ∧ 0x38 ≤ address ∧ address ≤ 0x3F)
    let failed := fun (f : Failure) (t : State) =>
      Host.Outcome.next (φ := Fault) (ρ := Refusal) (finished (.fail f) (discardRegisters t))
    (¬geometry → overGpio = failed (.invalidGeometry rows columns) s ∧
      overI2c = failed (.invalidGeometry rows columns) s ∧
      (Failure.invalidGeometry rows columns).failureClass = .configurationError) ∧
    (geometry → pinList.length ≠ 7 → pinList.length ≠ 11 → overGpio = failed (.invalidPinCount pinList.length) s ∧
      (Failure.invalidPinCount pinList.length).failureClass = .configurationError) ∧
    (geometry → ¬legal → overI2c = failed (.invalidAddress address) s ∧
      (Failure.invalidAddress address).failureClass = .configurationError) ∧
    (∀ found, geometry → legal → s.env.scans = .answer found :: scans → BitVec.ofInt 7 address ∉ found →
      overI2c = failed (.deviceNotFound address) scanned ∧
      (Failure.deviceNotFound address).failureClass = .deviceError) ∧
    (∀ cause, (Failure.transportError cause).failureClass = .deviceError ∧
      (geometry → legal → s.env.scans = .failure cause :: scans → overI2c = failed (.transportError cause) scanned)) ∧
    (∀ (found : List BusAddr) (k : Nat) (cause : Cause) (rest : List (Reply Unit)), EventsReturn s → geometry → legal →
      s.env.scans = .answer found :: scans → BitVec.ofInt 7 address ∈ found →
      k < 8 + 11 * cycleWrites s.cfg.granularity →
      s.env.writes = List.replicate k (.answer ()) ++ .failure cause :: rest →
      let a := BitVec.ofInt 7 address
      let fs := 0x20#8 ||| (if rows = 1 then 0x00#8 else 0x08#8) ||| (if font = some .font5x10 then 0x04#8 else 0x00#8)
      ∃ evs sent f, overI2c = failed (.transportError cause) { afterWrites (k + 1) rest scanned with
          trace := scanned.trace ++ evs
          sent := s.sent ++ sent } ∧
        evs <+: List.replicate 8 (.i2cWrite a 0x00#8) ++ i2cInitEvents s.cfg.granularity a 0x00#8 fs ∧
        writeCount evs = k + 1 ∧ evs.getLast? = some (.i2cWrite a f) ∧ sent <+: initSent 4 fs)

/-- 42_i2c_transport.md R190 with 10_state.md R44: a construction over I2C, every bus event answered, its whole trace, its
counts (R230), its waiting and the state it leaves. -/
def Obligations.ConstructOverI2c : Prop :=
  ∀ (s : State) (bus : BusHandle) (address rows columns : Int) (font : Option Font) (found : List BusAddr)
    (scans : List (Reply (List BusAddr))) (rest : List (Reply Unit)),
    s.mode = .unconstructed → s.op = none → EventsReturn s → legalGeometry rows columns = true →
    legalAddress s.cfg.addrPolicy address = true →
    s.env.scans = .answer found :: scans → BitVec.ofInt 7 address ∈ found →
    NextWritesOk (8 + 11 * cycleWrites s.cfg.granularity) rest s →
    let a := BitVec.ofInt 7 address
    let fs := 0x20#8 ||| (if rows = 1 then 0x00#8 else 0x08#8) ||| (if font = some .font5x10 then 0x04#8 else 0x00#8)
    let scan : List Event := [.i2cScan]
    exec (.i2cTransportConstruct bus address rows columns font) s =
      .next (finished .ok { s with
        mode := .ready
        transport := some .i2c
        width := 4
        rows := rows.toNat
        cols := columns.toNat
        lineFlag := rows != 1
        font := font.getD .font5x8
        dcb := 0b100#3
        addr := a
        ioConfig := 0x00#8
        ioWrite := 0x60#8
        released := false
        ib := some 0x06#8
        rsel := some false
        nib := some 0x6#4
        env := { s.env with
          scans := scans, writes := rest, draws := s.env.draws + 1 + (8 + 11 * cycleWrites s.cfg.granularity) }
        trace := s.trace ++ scan ++ List.replicate 8 (.i2cWrite a 0x00#8)
          ++ i2cInitEvents s.cfg.granularity a 0x00#8 fs
        sent := s.sent ++ initSent 4 fs }) ∧
    (i2cInitEvents .perPin a 0x00#8 fs).length = 103 ∧ (i2cInitEvents .perPhase a 0x00#8 fs).length = 48 ∧
    totalWait (i2cInitEvents s.cfg.granularity a 0x00#8 fs) = 57540

/-- 41_gpio_transport.md R160: the length check, the registers, no event, as the step of the construction that calls it
(43_display_init.md R231). The host presents the whole of R231: presented alone, a bad list fails as R160 has it and a
legal one, which makes no configuration of 00_scope.md R5, is refused (the model's reading, log 6; placeholders, log 8). -/
def Obligations.GpioTransportConstruct : Prop :=
  ∀ (s : State) (pinList : List PinId),
    let bad := Host.Outcome.next (φ := Fault) (ρ := Refusal)
      (finished (.fail (.invalidPinCount pinList.length)) (discardRegisters s))
    (s.op ≠ none → s.mode = .constructing → s.transport = none →
      (pinList.length = 7 → exec (.gpioTransportConstruct pinList) s =
        .next { s with pinList := pinList, transport := some .gpio4, width := 4 }) ∧
      (pinList.length = 11 → exec (.gpioTransportConstruct pinList) s =
        .next { s with pinList := pinList, transport := some .gpio8, width := 8 }) ∧
      (pinList.length ≠ 7 → pinList.length ≠ 11 → exec (.gpioTransportConstruct pinList) s = bad)) ∧
    (s.op = none → s.mode = .unconstructed →
      (pinList.length ≠ 7 → pinList.length ≠ 11 → exec (.gpioTransportConstruct pinList) s = bad) ∧
      ((pinList.length = 7 ∨ pinList.length = 11) →
        exec (.gpioTransportConstruct pinList) s = .refused .noOperationInProgress))

/-- 43_display_init.md R220, R221, R231: with its transport's operands it is the whole composite over that transport. As the
last part of a running construction, over the transport attached, it checks the geometry, writes the registers, initialises
and enters `READY`, with which the construction ends. That the host's presentation without operands is refused past its
check is the model's reading (log 6); the placeholders a failure leaves are the model's (log 8). -/
def Obligations.DisplayControllerConstruct : Prop :=
  ∀ (s : State) (pinList : List PinId) (bus : BusHandle) (address rows columns : Int) (font : Option Font),
    let attached := exec (.displayControllerConstruct rows columns ⟨font, .attached⟩) s
    let overGpio := exec (.displayControllerConstruct rows columns ⟨font, .gpio pinList⟩) s
    let inside := s.op ≠ none ∧ s.mode = .constructing ∧ legalGeometry s.rows s.cols = false
    let written := { s with
      rows := rows.toNat, cols := columns.toNat, lineFlag := rows != 1, font := font.getD .font5x8 }
    let bad := Host.Outcome.next (φ := Fault) (ρ := Refusal)
      (finished (.fail (.invalidGeometry rows columns)) (discardRegisters s))
    overGpio = exec (.constructOverGpio pinList rows columns font) s ∧
    exec (.displayControllerConstruct rows columns ⟨font, .i2c bus address⟩) s =
      exec (.i2cTransportConstruct bus address rows columns font) s ∧
    (s.op = none → s.mode = .unconstructed → legalGeometry rows columns = true →
      ((pinList.length = 7 ∨ pinList.length = 11) → EventsReturn s →
        ∃ t, overGpio = .next t ∧ t.result = some .ok ∧ t.mode = .ready ∧ t.dcb = 0b100#3 ∧ t.rows = rows.toNat ∧
          t.cols = columns.toNat ∧ t.lineFlag = (rows != 1) ∧ t.font = font.getD .font5x8) ∧
      attached = .refused .noOperationInProgress) ∧
    (inside → (s.transport = some .gpio4 ∨ s.transport = some .gpio8 ∨ s.transport = some .i2c) →
      (legalGeometry rows columns = false → attached = bad) ∧
      (legalGeometry rows columns = true →
        (∀ t, exec .initialise written = .next t →
          attached = .next (if t.mode = .constructing then finished .ok { t with mode := .ready } else t)) ∧
        (∀ r, exec .initialise written = .fault r → attached = .fault r))) ∧
    (inside → ((s.transport = some .gpio8 ∧ s.width = 8) ∨ (s.transport = some .gpio4 ∧ s.width = 4)) →
      legalGeometry rows columns = true → EventsReturn s →
      let fs := 0x20#8 ||| (if s.width = 8 then 0x10#8 else 0x00#8) ||| (if rows = 1 then 0x00#8 else 0x08#8)
        ||| (if font = some .font5x10 then 0x04#8 else 0x00#8)
      attached = .next (finished .ok { afterEvents (initEvents s.width fs) written with
        mode := .ready
        dcb := 0b100#3
        ib := some 0x06#8
        rsel := some false
        nib := if s.width = 8 then s.nib else some 0x6#4
        sent := s.sent ++ initSent s.width fs })) ∧
    (s.op = none → s.mode = .unconstructed → legalGeometry rows columns = false → attached = bad)

/-- 43_display_init.md R222 to R230: the internal operation itself, in line in the construction that calls it, on GPIO and
(every write answered ok) on I2C, with every event and nothing else changed but `DCB`, the levels, the latches and the
sequencer; a write that fails ends the construction with its cause; never offered to the host. It writes no `MODE`: that is
R221's. The placeholders a failure leaves are the model's (log 8). -/
def Obligations.Initialise : Prop :=
  ∀ (s : State) (rest : List (Reply Unit)),
    (s.op = none → exec .initialise s = .refused .noOperationInProgress) ∧
    (s.op ≠ none → s.mode = .constructing → legalGeometry s.rows s.cols = true →
      let fs := 0x20#8 ||| (if s.width = 8 then 0x10#8 else 0x00#8) ||| (if s.lineFlag then 0x08#8 else 0x00#8)
        ||| (if s.font = .font5x10 then 0x04#8 else 0x00#8)
      let evs := i2cInitEvents s.cfg.granularity s.addr s.ioWrite fs
      (((s.transport = some .gpio8 ∧ s.width = 8) ∨ (s.transport = some .gpio4 ∧ s.width = 4)) → EventsReturn s →
        exec .initialise s =
          .next { afterEvents (initEvents s.width fs) s with
            phase := s.phase + (initEvents s.width fs).length
            dcb := 0b100#3
            ib := some 0x06#8
            rsel := some false
            nib := if s.width = 8 then s.nib else some 0x6#4
            sent := s.sent ++ initSent s.width fs }) ∧
      (s.transport = some .i2c → s.width = 4 → s.ioConfig = 0x00#8 → EventsReturn s →
        (NextWritesOk (11 * cycleWrites s.cfg.granularity) rest s →
          exec .initialise s =
            .next { afterWrites (11 * cycleWrites s.cfg.granularity) rest s with
              trace := s.trace ++ evs
              phase := s.phase + evs.length
              dcb := 0b100#3
              ioWrite := restFrame s.ioWrite 0x6#4 false
              ib := some 0x06#8
              rsel := some false
              nib := some 0x6#4
              sent := s.sent ++ initSent 4 fs }) ∧
        (∀ k cause, k < 11 * cycleWrites s.cfg.granularity →
          s.env.writes = List.replicate k (.answer ()) ++ .failure cause :: rest →
          ∃ done sent f, exec .initialise s =
              .next (finished (.fail (.transportError cause)) (discardRegisters { afterWrites (k + 1) rest s with
                trace := s.trace ++ done
                sent := s.sent ++ sent })) ∧
            done <+: evs ∧ writeCount done = k + 1 ∧ done.getLast? = some (.i2cWrite s.addr f) ∧
            sent <+: initSent 4 fs)))

/-! ## The whole machine -/

/-- The invariant is kept by every step from every state that meets it; and from rest a step ends at rest, so between the
host's operations nothing is in progress and `CONSTRUCTING` is never seen (60_exceptions.md section 6). -/
def Obligations.StepKeepsInvariant : Prop :=
  ∀ s t : State, Inv s → step s = .next t → Inv t ∧ (s.op = none → t.op = none ∧ t.mode ≠ .constructing)

/-- 60_exceptions.md R306: with a bus that answers and every event returning (70_reset_and_hazards.md R346), a host
operation completes exactly where the table accepts it; it is refused everywhere else, whatever the environment does. What
the two premises say is the model's in part: `BusAnswers` keeps hangs out of the listed answers, and past their end the
environment always answers by the model's choice (log 11), where a bus might hang; `EventsReturn` reads the place of the
event that never returns (log 12). For the rows the table has no cell for, or offers to a running construction only, `Offered` is the model's own: LCD bytes as raw
sends (log 3), frames and vectors inside a running operation (log 4), `sendNibble` and `initialise` inside a construction
(log 5), the parts of a composite construction (log 6), refusals (log 14). -/
def Obligations.CompletesExactlyWhereOffered : Prop :=
  ∀ (i : Instr) (s : State),
    (BusAnswers s → EventsReturn s → Offered i s → ∃ t, exec i s = .next t) ∧
    (¬Offered i s → ∃ r, exec i s = .refused r)

/-- 60_exceptions.md R305: the lifecycle, as seen at the boundaries of operations: a construction leaves `UNCONSTRUCTED` for
`READY` or stays, only `release` leaves `READY`, nothing leaves `RELEASED`, and a step taken at rest ends at rest and not in
`CONSTRUCTING`. A step taken in `CONSTRUCTING` is one of a construction's own, inside it (logs 4, 5, 6). -/
def Obligations.LifecycleTransitions : Prop :=
  ∀ (i : Instr) (s t : State), exec i s = .next t →
    (s.mode = .unconstructed → t.mode = .unconstructed ∨ t.mode = .ready) ∧
    (s.mode = .constructing → s.op ≠ none ∧ t.mode ≠ .released) ∧
    (s.mode = .ready → t.mode = .ready ∨ (t.mode = .released ∧ i = .release)) ∧
    (s.mode = .released → t.mode = .released) ∧
    (s.op = none → t.op = none ∧ t.mode ≠ .constructing)

/-- 10_state.md R23, R24, R26, R27, 40_port_expander.md R143: what a construction fixed is never mutated, and no
instruction changes a parameter of the instance. -/
def Obligations.ConfigurationIsFixed : Prop :=
  ∀ (i : Instr) (s t : State), exec i s = .next t →
    t.cfg = s.cfg ∧
    (s.mode = .ready → t.transport = s.transport ∧ t.width = s.width ∧ t.rows = s.rows ∧ t.cols = s.cols ∧
      t.lineFlag = s.lineFlag ∧ t.font = s.font ∧ t.pinList = s.pinList ∧ t.addr = s.addr)

/-- 41_gpio_transport.md R170: every `PinSet(p, v)` does `PIN[p] <- v`, and nothing else writes `PIN[]`, over every
instruction; a failed construction discards them (R305). -/
def Obligations.PinsFollowTheTrace : Prop :=
  ∀ (i : Instr) (s t : State), exec i s = .next t → s.mode ≠ .unconstructed → t.mode ≠ .unconstructed →
    ∃ evs, t.trace = s.trace ++ evs ∧ t.pins = pinsAfter s.pins evs

/-- 41_gpio_transport.md R167, 42_i2c_transport.md R199: the trace only grows, RW is driven low in every GPIO event a
step emits, and low in every frame but those of the expander alone, those of a construction that fails included. -/
def Obligations.ReadWriteIsNeverHigh : Prop :=
  ∀ s t : State, Inv s → step s = .next t →
    ∃ evs, t.trace = s.trace ++ evs ∧ (∀ v, Event.pinSet 1 v ∈ evs → v = false) ∧
      (s.transport ≠ some .expanderOnly → ∀ a b, Event.i2cWrite a b ∈ evs → b.getLsbD 1 = false)

/-- 41_gpio_transport.md R169, 60_exceptions.md R288: on a GPIO transport no operation fails with `TransportError`, and
none touches a bus. -/
def Obligations.GpioNeverTouchesABus : Prop :=
  ∀ (i : Instr) (s t : State), s.mode = .ready → onGpio s.transport = true → exec i s = .next t →
    t.env = s.env ∧ (s.op = none → ∀ c, t.result ≠ some (.fail (.transportError c))) ∧
    ∃ evs, t.trace = s.trace ++ evs ∧
      ∀ a b, Event.i2cWrite a b ∉ evs ∧ Event.i2cRead a ∉ evs ∧ Event.i2cScan ∉ evs ∧ Event.busRelease ∉ evs

/-- 60_exceptions.md R298: a `ConfigurationError` or a `RangeError` is precise: the trace is empty and only the result
returned to the host differs. -/
def Obligations.RejectedCallHasNoSideEffect : Prop :=
  ∀ (i : Instr) (s t : State) (f : Failure), Inv s → s.mode = .ready → exec i s = .next t →
    t.result = some (.fail f) → f.failureClass ≠ .deviceError → t = { s with result := some (.fail f) }

/-- 42_i2c_transport.md R200, 70_reset_and_hazards.md R337: on I2C every frame an operation writes keeps the backlight
bit, and so does the shadow, but for `i2c.backlight` itself. -/
def Obligations.BacklightBitIsKept : Prop :=
  ∀ (i : Instr) (s t : State), Inv s → ReadyIn .i2c s → (∀ v, i ≠ .i2cBacklight v) → exec i s = .next t →
    t.ioWrite.getLsbD 3 = s.ioWrite.getLsbD 3 ∧
    ∃ evs, t.trace = s.trace ++ evs ∧ ∀ a b, Event.i2cWrite a b ∈ evs → b.getLsbD 3 = s.ioWrite.getLsbD 3

/-- 10_state.md R45 as the model reads it (log 25): on I2C, an operation that found E low leaves it low, however it ends,
but where its failing write is the one that asserts E: the frame before has E low, the last one has it high. -/
def Obligations.EnableRestsLowOnI2c : Prop :=
  ∀ (i : Instr) (s t : State), Inv s → ReadyIn .i2c s → s.ioWrite.getLsbD 2 = false → exec i s = .next t →
    t.ioWrite.getLsbD 2 = false ∨
    ∃ cause evs f, t.result = some (.fail (.transportError cause)) ∧ t.ioWrite.getLsbD 2 = true ∧
      f.getLsbD 2 = false ∧ t.trace = s.trace ++ evs ++ [.i2cWrite s.addr f, .i2cWrite s.addr t.ioWrite]

/-- 10_state.md R28, 70_reset_and_hazards.md R341, 41_gpio_transport.md R168: in `READY` only the six display-control
operations write `DCB` (raw sends bypass it), and none but `gpio.backlight` changes `BL` or drives the backlight pin. -/
def Obligations.OnlyTheirOperationsWriteDcbAndBl : Prop :=
  ∀ (i : Instr) (s t : State), s.mode = .ready → exec i s = .next t →
    (i ≠ .displayOn → i ≠ .displayOff → i ≠ .cursorShow → i ≠ .cursorHide → i ≠ .cursorBlinkOn → i ≠ .cursorBlinkOff →
      t.dcb = s.dcb) ∧
    ((∀ v, i ≠ .gpioBacklight v) → t.bl = s.bl ∧ ∃ evs, t.trace = s.trace ++ evs ∧ ∀ v, Event.blSet v ∉ evs)

/-- 70_reset_and_hazards.md R346, 93_implementation_defined.md U25: an operation with an event the environment never answers,
or that never returns, never completes, and nothing else faults; where the unanswered bus event strikes: a scan, a
configuration or initialisation write of a construction, a write of a send, of a frame or of a pin operation, a read. Where
one that never returns strikes, the next statement says. The model's own in it: in every clause, that a hang is one of two
named faults, and in the first and in `EventsReturn` the place that hangs (log 12); in the first, that nothing hangs past the
end of the listed answers (log 11, DESIGN CHOICE), which `¬BusAnswers` rests on; in the third, that `sendNibble` and
`initialise` are steps inside a construction (log 5); in the fourth, that a frame is a step of a running operation, refused on
the display path where it raises RW or makes a pin an input, and without a direction check (log 4). -/
def Obligations.EventsThatNeverReturnAreTheOnlyFaults : Prop :=
  ∀ s : State,
    let hung := Host.Outcome.fault (σ := State) (ρ := Refusal) Fault.busNeverAnswers
    (∀ i r, exec i s = .fault r →
      (r = .busNeverAnswers ∧ ¬BusAnswers s) ∨ (r = .eventNeverReturns ∧ ¬EventsReturn s)) ∧
    (∀ (bus : BusHandle) (address rows columns : Int) (font : Option Font),
      s.mode = .unconstructed → s.op = none → legalAddress s.cfg.addrPolicy address = true →
      (∀ scans, s.env.scans = .never :: scans →
        exec (.portExpanderConstruct bus address) s = hung ∧
        (legalGeometry rows columns = true → exec (.i2cTransportConstruct bus address rows columns font) s = hung)) ∧
      (∀ found scans k rest, legalGeometry rows columns = true → s.env.scans = .answer found :: scans →
        BitVec.ofInt 7 address ∈ found → EventsReturn s → k < 8 + 11 * cycleWrites s.cfg.granularity →
        s.env.writes = List.replicate k (.answer ()) ++ .never :: rest →
        exec (.i2cTransportConstruct bus address rows columns font) s = hung)) ∧
    (∀ (k : Nat) (rest : List (Reply Unit)), EventsReturn s →
      s.env.writes = List.replicate k (.answer ()) ++ .never :: rest →
      (∀ b rs, ReadyOnI2c s → k < 2 * cycleWrites s.cfg.granularity → exec (.i2cSendInstruction b rs) s = hung) ∧
      (∀ n rs, InsideConstruction .i2c s → s.ioConfig = 0x00#8 → k < cycleWrites s.cfg.granularity →
        exec (.i2cSendNibble n rs) s = hung) ∧
      (InsideConstruction .i2c s → s.ioConfig = 0x00#8 → s.width = 4 → legalGeometry s.rows s.cols = true →
        k < 11 * cycleWrites s.cfg.granularity → exec .initialise s = hung)) ∧
    (∀ rest : List (Reply Unit), s.env.writes = .never :: rest →
      (∀ v, ReadyOnI2c s → exec (.i2cBacklight v) s = hung) ∧
      (∀ pin v, ReadyIn .expanderOnly s → 0 ≤ pin → pin ≤ 7 →
        exec (.setPinMode pin (if v then .input else .output)) s = hung ∧
        (s.cfg.pinModePolicy = .permissive ∨ s.ioConfig.getLsbD pin.toNat = false →
          exec (.writePin pin v) s = hung)) ∧
      (∀ n bl e rs c, InsideOperation s → (s.transport = some .expanderOnly ∨ s.transport = some .i2c) →
        exec (.frameI2c n bl e false rs) s = hung ∧
        (s.transport = some .expanderOnly ∨ c = 0x00#8 → exec (.frameI2cConfig c) s = hung))) ∧
    (∀ (pin : Int) (rest : List (Reply Byte)), ReadyIn .expanderOnly s → 0 ≤ pin → pin ≤ 7 →
      (s.cfg.pinModePolicy = .permissive ∨ s.ioConfig.getLsbD pin.toNat = true) → s.env.reads = .never :: rest →
      exec (.readPin pin) s = hung)

/-- 70_reset_and_hazards.md R346 ("every `Wait` returning"), 93_implementation_defined.md U25 ("a bus or wait primitive that
never returns": stuck), over every instruction: against the same state in which every event returns, an operation hangs
exactly where its trace would hold the wait or the bus release that does not; every other one ends as it would there. What
the host presents is refused alike, and a bus that leaves the one hung leaves the other hung. That the place in the trace
names the event is the model's (log 12). -/
def Obligations.HangsExactlyWhereAWaitNeverReturns : Prop :=
  ∀ (i : Instr) (s : State),
    let free := { s with hangs := none }
    (∀ t, exec i free = .next t →
      (HangsOnTheWay s t → exec i s = .fault .eventNeverReturns) ∧
      (¬HangsOnTheWay s t → exec i s = .next { t with hangs := s.hangs })) ∧
    (∀ r, exec i free = .refused r → exec i s = .refused r) ∧
    (∀ r, exec i free = .fault r → ∃ r', exec i s = .fault r')

/-- 60_exceptions.md section 1 (the ordinals and the classes of two kinds are the spec's decisions D15, D16): the eleven
kinds of failure, by ordinal and class; no two kinds share an ordinal. -/
def Obligations.FailureKindsOrdinalsAndClasses : Prop :=
  ∀ (rows columns pin : Int) (count : Nat) (cause : Cause),
    [Failure.invalidGeometry rows columns, .invalidPinCount count, .invalidAddress rows, .deviceNotFound rows,
      .transportError cause, .invalidPin pin, .notConfiguredAsOutput pin, .notConfiguredAsInput pin,
      .cursorOutOfRange rows columns, .invalidGlyphSlot rows, .invalidBitmap count].map
        (fun f => (f.ordinal, f.failureClass)) =
      [(1, .configurationError), (2, .configurationError), (3, .configurationError), (4, .deviceError),
        (5, .deviceError), (6, .rangeError), (7, .rangeError), (8, .rangeError), (9, .rangeError), (10, .rangeError),
        (11, .rangeError)] ∧
    ∀ f : Failure, 1 ≤ f.ordinal ∧ f.ordinal ≤ 11 ∧ (f.failureClass = .configurationError ↔ f.ordinal ≤ 3) ∧
      (f.failureClass = .deviceError ↔ f.ordinal = 4 ∨ f.ordinal = 5)
end

