-- ==== Sys2Proof/Laws/State.lean ====
section
/-!
SUPPORT. One lemma per field per update of the state, so that no proof unfolds a record update.
-/

namespace Sys2Proof.Laws

open Sys2Proof.Machine

variable (s : State)

/-! `emit` -/

@[simp] theorem emit_cfg (e : Event) : (emit e s).cfg = s.cfg := rfl
@[simp] theorem emit_mode (e : Event) : (emit e s).mode = s.mode := rfl
@[simp] theorem emit_op (e : Event) : (emit e s).op = s.op := rfl
@[simp] theorem emit_phase (e : Event) : (emit e s).phase = s.phase + 1 := rfl
@[simp] theorem emit_transport (e : Event) : (emit e s).transport = s.transport := rfl
@[simp] theorem emit_width (e : Event) : (emit e s).width = s.width := rfl
@[simp] theorem emit_rows (e : Event) : (emit e s).rows = s.rows := rfl
@[simp] theorem emit_cols (e : Event) : (emit e s).cols = s.cols := rfl
@[simp] theorem emit_lineFlag (e : Event) : (emit e s).lineFlag = s.lineFlag := rfl
@[simp] theorem emit_font (e : Event) : (emit e s).font = s.font := rfl
@[simp] theorem emit_dcb (e : Event) : (emit e s).dcb = s.dcb := rfl
@[simp] theorem emit_pinList (e : Event) : (emit e s).pinList = s.pinList := rfl
@[simp] theorem emit_pins (e : Event) : (emit e s).pins = s.pins := rfl
@[simp] theorem emit_bl (e : Event) : (emit e s).bl = s.bl := rfl
@[simp] theorem emit_addr (e : Event) : (emit e s).addr = s.addr := rfl
@[simp] theorem emit_ioConfig (e : Event) : (emit e s).ioConfig = s.ioConfig := rfl
@[simp] theorem emit_ioWrite (e : Event) : (emit e s).ioWrite = s.ioWrite := rfl
@[simp] theorem emit_released (e : Event) : (emit e s).released = s.released := rfl
@[simp] theorem emit_ib (e : Event) : (emit e s).ib = s.ib := rfl
@[simp] theorem emit_rsel (e : Event) : (emit e s).rsel = s.rsel := rfl
@[simp] theorem emit_nib (e : Event) : (emit e s).nib = s.nib := rfl
@[simp] theorem emit_pending (e : Event) : (emit e s).pending = s.pending := rfl
@[simp] theorem emit_env (e : Event) : (emit e s).env = s.env := rfl
@[simp] theorem emit_hangs (e : Event) : (emit e s).hangs = s.hangs := rfl
@[simp] theorem emit_trace (e : Event) : (emit e s).trace = s.trace ++ [e] := rfl
@[simp] theorem emit_sent (e : Event) : (emit e s).sent = s.sent := rfl
@[simp] theorem emit_result (e : Event) : (emit e s).result = s.result := rfl

/-! `pinSet` -/

@[simp] theorem pinSet_cfg (p : Position) (v : Level) : (pinSet p v s).cfg = s.cfg := rfl
@[simp] theorem pinSet_mode (p : Position) (v : Level) : (pinSet p v s).mode = s.mode := rfl
@[simp] theorem pinSet_op (p : Position) (v : Level) : (pinSet p v s).op = s.op := rfl
@[simp] theorem pinSet_phase (p : Position) (v : Level) : (pinSet p v s).phase = s.phase + 1 := rfl
@[simp] theorem pinSet_transport (p : Position) (v : Level) : (pinSet p v s).transport = s.transport := rfl
@[simp] theorem pinSet_width (p : Position) (v : Level) : (pinSet p v s).width = s.width := rfl
@[simp] theorem pinSet_rows (p : Position) (v : Level) : (pinSet p v s).rows = s.rows := rfl
@[simp] theorem pinSet_cols (p : Position) (v : Level) : (pinSet p v s).cols = s.cols := rfl
@[simp] theorem pinSet_lineFlag (p : Position) (v : Level) : (pinSet p v s).lineFlag = s.lineFlag := rfl
@[simp] theorem pinSet_font (p : Position) (v : Level) : (pinSet p v s).font = s.font := rfl
@[simp] theorem pinSet_dcb (p : Position) (v : Level) : (pinSet p v s).dcb = s.dcb := rfl
@[simp] theorem pinSet_pinList (p : Position) (v : Level) : (pinSet p v s).pinList = s.pinList := rfl
@[simp] theorem pinSet_pins (p : Position) (v : Level) : (pinSet p v s).pins = s.pins.set p.val (some v) p.isLt := rfl
@[simp] theorem pinSet_bl (p : Position) (v : Level) : (pinSet p v s).bl = s.bl := rfl
@[simp] theorem pinSet_addr (p : Position) (v : Level) : (pinSet p v s).addr = s.addr := rfl
@[simp] theorem pinSet_ioConfig (p : Position) (v : Level) : (pinSet p v s).ioConfig = s.ioConfig := rfl
@[simp] theorem pinSet_ioWrite (p : Position) (v : Level) : (pinSet p v s).ioWrite = s.ioWrite := rfl
@[simp] theorem pinSet_released (p : Position) (v : Level) : (pinSet p v s).released = s.released := rfl
@[simp] theorem pinSet_ib (p : Position) (v : Level) : (pinSet p v s).ib = s.ib := rfl
@[simp] theorem pinSet_rsel (p : Position) (v : Level) : (pinSet p v s).rsel = s.rsel := rfl
@[simp] theorem pinSet_nib (p : Position) (v : Level) : (pinSet p v s).nib = s.nib := rfl
@[simp] theorem pinSet_pending (p : Position) (v : Level) : (pinSet p v s).pending = s.pending := rfl
@[simp] theorem pinSet_env (p : Position) (v : Level) : (pinSet p v s).env = s.env := rfl
@[simp] theorem pinSet_hangs (p : Position) (v : Level) : (pinSet p v s).hangs = s.hangs := rfl
@[simp] theorem pinSet_trace (p : Position) (v : Level) : (pinSet p v s).trace = s.trace ++ [.pinSet p v] := rfl
@[simp] theorem pinSet_sent (p : Position) (v : Level) : (pinSet p v s).sent = s.sent := rfl
@[simp] theorem pinSet_result (p : Position) (v : Level) : (pinSet p v s).result = s.result := rfl

/-! `blSet` -/

@[simp] theorem blSet_cfg (v : Level) : (blSet v s).cfg = s.cfg := rfl
@[simp] theorem blSet_mode (v : Level) : (blSet v s).mode = s.mode := rfl
@[simp] theorem blSet_op (v : Level) : (blSet v s).op = s.op := rfl
@[simp] theorem blSet_phase (v : Level) : (blSet v s).phase = s.phase + 1 := rfl
@[simp] theorem blSet_transport (v : Level) : (blSet v s).transport = s.transport := rfl
@[simp] theorem blSet_width (v : Level) : (blSet v s).width = s.width := rfl
@[simp] theorem blSet_rows (v : Level) : (blSet v s).rows = s.rows := rfl
@[simp] theorem blSet_cols (v : Level) : (blSet v s).cols = s.cols := rfl
@[simp] theorem blSet_lineFlag (v : Level) : (blSet v s).lineFlag = s.lineFlag := rfl
@[simp] theorem blSet_font (v : Level) : (blSet v s).font = s.font := rfl
@[simp] theorem blSet_dcb (v : Level) : (blSet v s).dcb = s.dcb := rfl
@[simp] theorem blSet_pinList (v : Level) : (blSet v s).pinList = s.pinList := rfl
@[simp] theorem blSet_pins (v : Level) : (blSet v s).pins = s.pins := rfl
@[simp] theorem blSet_bl (v : Level) : (blSet v s).bl = some v := rfl
@[simp] theorem blSet_addr (v : Level) : (blSet v s).addr = s.addr := rfl
@[simp] theorem blSet_ioConfig (v : Level) : (blSet v s).ioConfig = s.ioConfig := rfl
@[simp] theorem blSet_ioWrite (v : Level) : (blSet v s).ioWrite = s.ioWrite := rfl
@[simp] theorem blSet_released (v : Level) : (blSet v s).released = s.released := rfl
@[simp] theorem blSet_ib (v : Level) : (blSet v s).ib = s.ib := rfl
@[simp] theorem blSet_rsel (v : Level) : (blSet v s).rsel = s.rsel := rfl
@[simp] theorem blSet_nib (v : Level) : (blSet v s).nib = s.nib := rfl
@[simp] theorem blSet_pending (v : Level) : (blSet v s).pending = s.pending := rfl
@[simp] theorem blSet_env (v : Level) : (blSet v s).env = s.env := rfl
@[simp] theorem blSet_hangs (v : Level) : (blSet v s).hangs = s.hangs := rfl
@[simp] theorem blSet_trace (v : Level) : (blSet v s).trace = s.trace ++ [.blSet v] := rfl
@[simp] theorem blSet_sent (v : Level) : (blSet v s).sent = s.sent := rfl
@[simp] theorem blSet_result (v : Level) : (blSet v s).result = s.result := rfl

/-! `latchByte` -/

@[simp] theorem latchByte_cfg (b : Byte) (rs : Level) : (latchByte b rs s).cfg = s.cfg := rfl
@[simp] theorem latchByte_mode (b : Byte) (rs : Level) : (latchByte b rs s).mode = s.mode := rfl
@[simp] theorem latchByte_op (b : Byte) (rs : Level) : (latchByte b rs s).op = s.op := rfl
@[simp] theorem latchByte_phase (b : Byte) (rs : Level) : (latchByte b rs s).phase = s.phase := rfl
@[simp] theorem latchByte_transport (b : Byte) (rs : Level) : (latchByte b rs s).transport = s.transport := rfl
@[simp] theorem latchByte_width (b : Byte) (rs : Level) : (latchByte b rs s).width = s.width := rfl
@[simp] theorem latchByte_rows (b : Byte) (rs : Level) : (latchByte b rs s).rows = s.rows := rfl
@[simp] theorem latchByte_cols (b : Byte) (rs : Level) : (latchByte b rs s).cols = s.cols := rfl
@[simp] theorem latchByte_lineFlag (b : Byte) (rs : Level) : (latchByte b rs s).lineFlag = s.lineFlag := rfl
@[simp] theorem latchByte_font (b : Byte) (rs : Level) : (latchByte b rs s).font = s.font := rfl
@[simp] theorem latchByte_dcb (b : Byte) (rs : Level) : (latchByte b rs s).dcb = s.dcb := rfl
@[simp] theorem latchByte_pinList (b : Byte) (rs : Level) : (latchByte b rs s).pinList = s.pinList := rfl
@[simp] theorem latchByte_pins (b : Byte) (rs : Level) : (latchByte b rs s).pins = s.pins := rfl
@[simp] theorem latchByte_bl (b : Byte) (rs : Level) : (latchByte b rs s).bl = s.bl := rfl
@[simp] theorem latchByte_addr (b : Byte) (rs : Level) : (latchByte b rs s).addr = s.addr := rfl
@[simp] theorem latchByte_ioConfig (b : Byte) (rs : Level) : (latchByte b rs s).ioConfig = s.ioConfig := rfl
@[simp] theorem latchByte_ioWrite (b : Byte) (rs : Level) : (latchByte b rs s).ioWrite = s.ioWrite := rfl
@[simp] theorem latchByte_released (b : Byte) (rs : Level) : (latchByte b rs s).released = s.released := rfl
@[simp] theorem latchByte_ib (b : Byte) (rs : Level) : (latchByte b rs s).ib = some b := rfl
@[simp] theorem latchByte_rsel (b : Byte) (rs : Level) : (latchByte b rs s).rsel = some rs := rfl
@[simp] theorem latchByte_nib (b : Byte) (rs : Level) : (latchByte b rs s).nib = s.nib := rfl
@[simp] theorem latchByte_pending (b : Byte) (rs : Level) : (latchByte b rs s).pending = s.pending := rfl
@[simp] theorem latchByte_env (b : Byte) (rs : Level) : (latchByte b rs s).env = s.env := rfl
@[simp] theorem latchByte_hangs (b : Byte) (rs : Level) : (latchByte b rs s).hangs = s.hangs := rfl
@[simp] theorem latchByte_trace (b : Byte) (rs : Level) : (latchByte b rs s).trace = s.trace := rfl
@[simp] theorem latchByte_sent (b : Byte) (rs : Level) : (latchByte b rs s).sent = s.sent ++ [.byte b rs] := rfl
@[simp] theorem latchByte_result (b : Byte) (rs : Level) : (latchByte b rs s).result = s.result := rfl

/-! `latchSingle` -/

@[simp] theorem latchSingle_cfg (n : Nibble) (rs : Level) : (latchSingle n rs s).cfg = s.cfg := rfl
@[simp] theorem latchSingle_mode (n : Nibble) (rs : Level) : (latchSingle n rs s).mode = s.mode := rfl
@[simp] theorem latchSingle_op (n : Nibble) (rs : Level) : (latchSingle n rs s).op = s.op := rfl
@[simp] theorem latchSingle_phase (n : Nibble) (rs : Level) : (latchSingle n rs s).phase = s.phase := rfl
@[simp] theorem latchSingle_transport (n : Nibble) (rs : Level) : (latchSingle n rs s).transport = s.transport := rfl
@[simp] theorem latchSingle_width (n : Nibble) (rs : Level) : (latchSingle n rs s).width = s.width := rfl
@[simp] theorem latchSingle_rows (n : Nibble) (rs : Level) : (latchSingle n rs s).rows = s.rows := rfl
@[simp] theorem latchSingle_cols (n : Nibble) (rs : Level) : (latchSingle n rs s).cols = s.cols := rfl
@[simp] theorem latchSingle_lineFlag (n : Nibble) (rs : Level) : (latchSingle n rs s).lineFlag = s.lineFlag := rfl
@[simp] theorem latchSingle_font (n : Nibble) (rs : Level) : (latchSingle n rs s).font = s.font := rfl
@[simp] theorem latchSingle_dcb (n : Nibble) (rs : Level) : (latchSingle n rs s).dcb = s.dcb := rfl
@[simp] theorem latchSingle_pinList (n : Nibble) (rs : Level) : (latchSingle n rs s).pinList = s.pinList := rfl
@[simp] theorem latchSingle_pins (n : Nibble) (rs : Level) : (latchSingle n rs s).pins = s.pins := rfl
@[simp] theorem latchSingle_bl (n : Nibble) (rs : Level) : (latchSingle n rs s).bl = s.bl := rfl
@[simp] theorem latchSingle_addr (n : Nibble) (rs : Level) : (latchSingle n rs s).addr = s.addr := rfl
@[simp] theorem latchSingle_ioConfig (n : Nibble) (rs : Level) : (latchSingle n rs s).ioConfig = s.ioConfig := rfl
@[simp] theorem latchSingle_ioWrite (n : Nibble) (rs : Level) : (latchSingle n rs s).ioWrite = s.ioWrite := rfl
@[simp] theorem latchSingle_released (n : Nibble) (rs : Level) : (latchSingle n rs s).released = s.released := rfl
@[simp] theorem latchSingle_ib (n : Nibble) (rs : Level) : (latchSingle n rs s).ib = s.ib := rfl
@[simp] theorem latchSingle_rsel (n : Nibble) (rs : Level) : (latchSingle n rs s).rsel = some rs := rfl
@[simp] theorem latchSingle_nib (n : Nibble) (rs : Level) : (latchSingle n rs s).nib = some n := rfl
@[simp] theorem latchSingle_pending (n : Nibble) (rs : Level) : (latchSingle n rs s).pending = s.pending := rfl
@[simp] theorem latchSingle_env (n : Nibble) (rs : Level) : (latchSingle n rs s).env = s.env := rfl
@[simp] theorem latchSingle_hangs (n : Nibble) (rs : Level) : (latchSingle n rs s).hangs = s.hangs := rfl
@[simp] theorem latchSingle_trace (n : Nibble) (rs : Level) : (latchSingle n rs s).trace = s.trace := rfl
@[simp] theorem latchSingle_sent (n : Nibble) (rs : Level) : (latchSingle n rs s).sent = s.sent ++ [.nibble n rs] := rfl
@[simp] theorem latchSingle_result (n : Nibble) (rs : Level) : (latchSingle n rs s).result = s.result := rfl

/-! `latchNibble` -/

@[simp] theorem latchNibble_cfg (n : Nibble) : (latchNibble n s).cfg = s.cfg := rfl
@[simp] theorem latchNibble_mode (n : Nibble) : (latchNibble n s).mode = s.mode := rfl
@[simp] theorem latchNibble_op (n : Nibble) : (latchNibble n s).op = s.op := rfl
@[simp] theorem latchNibble_phase (n : Nibble) : (latchNibble n s).phase = s.phase := rfl
@[simp] theorem latchNibble_transport (n : Nibble) : (latchNibble n s).transport = s.transport := rfl
@[simp] theorem latchNibble_width (n : Nibble) : (latchNibble n s).width = s.width := rfl
@[simp] theorem latchNibble_rows (n : Nibble) : (latchNibble n s).rows = s.rows := rfl
@[simp] theorem latchNibble_cols (n : Nibble) : (latchNibble n s).cols = s.cols := rfl
@[simp] theorem latchNibble_lineFlag (n : Nibble) : (latchNibble n s).lineFlag = s.lineFlag := rfl
@[simp] theorem latchNibble_font (n : Nibble) : (latchNibble n s).font = s.font := rfl
@[simp] theorem latchNibble_dcb (n : Nibble) : (latchNibble n s).dcb = s.dcb := rfl
@[simp] theorem latchNibble_pinList (n : Nibble) : (latchNibble n s).pinList = s.pinList := rfl
@[simp] theorem latchNibble_pins (n : Nibble) : (latchNibble n s).pins = s.pins := rfl
@[simp] theorem latchNibble_bl (n : Nibble) : (latchNibble n s).bl = s.bl := rfl
@[simp] theorem latchNibble_addr (n : Nibble) : (latchNibble n s).addr = s.addr := rfl
@[simp] theorem latchNibble_ioConfig (n : Nibble) : (latchNibble n s).ioConfig = s.ioConfig := rfl
@[simp] theorem latchNibble_ioWrite (n : Nibble) : (latchNibble n s).ioWrite = s.ioWrite := rfl
@[simp] theorem latchNibble_released (n : Nibble) : (latchNibble n s).released = s.released := rfl
@[simp] theorem latchNibble_ib (n : Nibble) : (latchNibble n s).ib = s.ib := rfl
@[simp] theorem latchNibble_rsel (n : Nibble) : (latchNibble n s).rsel = s.rsel := rfl
@[simp] theorem latchNibble_nib (n : Nibble) : (latchNibble n s).nib = some n := rfl
@[simp] theorem latchNibble_pending (n : Nibble) : (latchNibble n s).pending = s.pending := rfl
@[simp] theorem latchNibble_env (n : Nibble) : (latchNibble n s).env = s.env := rfl
@[simp] theorem latchNibble_hangs (n : Nibble) : (latchNibble n s).hangs = s.hangs := rfl
@[simp] theorem latchNibble_trace (n : Nibble) : (latchNibble n s).trace = s.trace := rfl
@[simp] theorem latchNibble_sent (n : Nibble) : (latchNibble n s).sent = s.sent := rfl
@[simp] theorem latchNibble_result (n : Nibble) : (latchNibble n s).result = s.result := rfl

/-! `accept` -/

@[simp] theorem accept_cfg (i : Instr) : (accept i s).cfg = s.cfg := rfl
@[simp] theorem accept_mode (i : Instr) : (accept i s).mode = s.mode := rfl
@[simp] theorem accept_op (i : Instr) : (accept i s).op = some i := rfl
@[simp] theorem accept_phase (i : Instr) : (accept i s).phase = 0 := rfl
@[simp] theorem accept_transport (i : Instr) : (accept i s).transport = s.transport := rfl
@[simp] theorem accept_width (i : Instr) : (accept i s).width = s.width := rfl
@[simp] theorem accept_rows (i : Instr) : (accept i s).rows = s.rows := rfl
@[simp] theorem accept_cols (i : Instr) : (accept i s).cols = s.cols := rfl
@[simp] theorem accept_lineFlag (i : Instr) : (accept i s).lineFlag = s.lineFlag := rfl
@[simp] theorem accept_font (i : Instr) : (accept i s).font = s.font := rfl
@[simp] theorem accept_dcb (i : Instr) : (accept i s).dcb = s.dcb := rfl
@[simp] theorem accept_pinList (i : Instr) : (accept i s).pinList = s.pinList := rfl
@[simp] theorem accept_pins (i : Instr) : (accept i s).pins = s.pins := rfl
@[simp] theorem accept_bl (i : Instr) : (accept i s).bl = s.bl := rfl
@[simp] theorem accept_addr (i : Instr) : (accept i s).addr = s.addr := rfl
@[simp] theorem accept_ioConfig (i : Instr) : (accept i s).ioConfig = s.ioConfig := rfl
@[simp] theorem accept_ioWrite (i : Instr) : (accept i s).ioWrite = s.ioWrite := rfl
@[simp] theorem accept_released (i : Instr) : (accept i s).released = s.released := rfl
@[simp] theorem accept_ib (i : Instr) : (accept i s).ib = s.ib := rfl
@[simp] theorem accept_rsel (i : Instr) : (accept i s).rsel = s.rsel := rfl
@[simp] theorem accept_nib (i : Instr) : (accept i s).nib = s.nib := rfl
@[simp] theorem accept_pending (i : Instr) : (accept i s).pending = s.pending := rfl
@[simp] theorem accept_env (i : Instr) : (accept i s).env = s.env := rfl
@[simp] theorem accept_hangs (i : Instr) : (accept i s).hangs = s.hangs := rfl
@[simp] theorem accept_trace (i : Instr) : (accept i s).trace = s.trace := rfl
@[simp] theorem accept_sent (i : Instr) : (accept i s).sent = s.sent := rfl
@[simp] theorem accept_result (i : Instr) : (accept i s).result = none := rfl

/-! `startConstruction` -/

@[simp] theorem startConstruction_cfg (i : Instr) : (startConstruction i s).cfg = s.cfg := rfl
@[simp] theorem startConstruction_mode (i : Instr) : (startConstruction i s).mode = .constructing := rfl
@[simp] theorem startConstruction_op (i : Instr) : (startConstruction i s).op = some i := rfl
@[simp] theorem startConstruction_phase (i : Instr) : (startConstruction i s).phase = 0 := rfl
@[simp] theorem startConstruction_transport (i : Instr) : (startConstruction i s).transport = s.transport := rfl
@[simp] theorem startConstruction_width (i : Instr) : (startConstruction i s).width = s.width := rfl
@[simp] theorem startConstruction_rows (i : Instr) : (startConstruction i s).rows = s.rows := rfl
@[simp] theorem startConstruction_cols (i : Instr) : (startConstruction i s).cols = s.cols := rfl
@[simp] theorem startConstruction_lineFlag (i : Instr) : (startConstruction i s).lineFlag = s.lineFlag := rfl
@[simp] theorem startConstruction_font (i : Instr) : (startConstruction i s).font = s.font := rfl
@[simp] theorem startConstruction_dcb (i : Instr) : (startConstruction i s).dcb = s.dcb := rfl
@[simp] theorem startConstruction_pinList (i : Instr) : (startConstruction i s).pinList = s.pinList := rfl
@[simp] theorem startConstruction_pins (i : Instr) : (startConstruction i s).pins = s.pins := rfl
@[simp] theorem startConstruction_bl (i : Instr) : (startConstruction i s).bl = s.bl := rfl
@[simp] theorem startConstruction_addr (i : Instr) : (startConstruction i s).addr = s.addr := rfl
@[simp] theorem startConstruction_ioConfig (i : Instr) : (startConstruction i s).ioConfig = s.ioConfig := rfl
@[simp] theorem startConstruction_ioWrite (i : Instr) : (startConstruction i s).ioWrite = s.ioWrite := rfl
@[simp] theorem startConstruction_released (i : Instr) : (startConstruction i s).released = s.released := rfl
@[simp] theorem startConstruction_ib (i : Instr) : (startConstruction i s).ib = s.ib := rfl
@[simp] theorem startConstruction_rsel (i : Instr) : (startConstruction i s).rsel = s.rsel := rfl
@[simp] theorem startConstruction_nib (i : Instr) : (startConstruction i s).nib = s.nib := rfl
@[simp] theorem startConstruction_pending (i : Instr) : (startConstruction i s).pending = s.pending := rfl
@[simp] theorem startConstruction_env (i : Instr) : (startConstruction i s).env = s.env := rfl
@[simp] theorem startConstruction_hangs (i : Instr) : (startConstruction i s).hangs = s.hangs := rfl
@[simp] theorem startConstruction_trace (i : Instr) : (startConstruction i s).trace = s.trace := rfl
@[simp] theorem startConstruction_sent (i : Instr) : (startConstruction i s).sent = s.sent := rfl
@[simp] theorem startConstruction_result (i : Instr) : (startConstruction i s).result = none := rfl

/-! `endOperation` -/

@[simp] theorem endOperation_cfg (r : OpResult) : (endOperation r s).cfg = s.cfg := rfl
@[simp] theorem endOperation_mode (r : OpResult) : (endOperation r s).mode = s.mode := rfl
@[simp] theorem endOperation_op (r : OpResult) : (endOperation r s).op = none := rfl
@[simp] theorem endOperation_phase (r : OpResult) : (endOperation r s).phase = 0 := rfl
@[simp] theorem endOperation_transport (r : OpResult) : (endOperation r s).transport = s.transport := rfl
@[simp] theorem endOperation_width (r : OpResult) : (endOperation r s).width = s.width := rfl
@[simp] theorem endOperation_rows (r : OpResult) : (endOperation r s).rows = s.rows := rfl
@[simp] theorem endOperation_cols (r : OpResult) : (endOperation r s).cols = s.cols := rfl
@[simp] theorem endOperation_lineFlag (r : OpResult) : (endOperation r s).lineFlag = s.lineFlag := rfl
@[simp] theorem endOperation_font (r : OpResult) : (endOperation r s).font = s.font := rfl
@[simp] theorem endOperation_dcb (r : OpResult) : (endOperation r s).dcb = s.dcb := rfl
@[simp] theorem endOperation_pinList (r : OpResult) : (endOperation r s).pinList = s.pinList := rfl
@[simp] theorem endOperation_pins (r : OpResult) : (endOperation r s).pins = s.pins := rfl
@[simp] theorem endOperation_bl (r : OpResult) : (endOperation r s).bl = s.bl := rfl
@[simp] theorem endOperation_addr (r : OpResult) : (endOperation r s).addr = s.addr := rfl
@[simp] theorem endOperation_ioConfig (r : OpResult) : (endOperation r s).ioConfig = s.ioConfig := rfl
@[simp] theorem endOperation_ioWrite (r : OpResult) : (endOperation r s).ioWrite = s.ioWrite := rfl
@[simp] theorem endOperation_released (r : OpResult) : (endOperation r s).released = s.released := rfl
@[simp] theorem endOperation_ib (r : OpResult) : (endOperation r s).ib = s.ib := rfl
@[simp] theorem endOperation_rsel (r : OpResult) : (endOperation r s).rsel = s.rsel := rfl
@[simp] theorem endOperation_nib (r : OpResult) : (endOperation r s).nib = s.nib := rfl
@[simp] theorem endOperation_pending (r : OpResult) : (endOperation r s).pending = s.pending := rfl
@[simp] theorem endOperation_env (r : OpResult) : (endOperation r s).env = s.env := rfl
@[simp] theorem endOperation_hangs (r : OpResult) : (endOperation r s).hangs = s.hangs := rfl
@[simp] theorem endOperation_trace (r : OpResult) : (endOperation r s).trace = s.trace := rfl
@[simp] theorem endOperation_sent (r : OpResult) : (endOperation r s).sent = s.sent := rfl
@[simp] theorem endOperation_result (r : OpResult) : (endOperation r s).result = some r := rfl

/-! `takeFailure` -/

@[simp] theorem takeFailure_cfg (f : Failure) : (takeFailure f s).cfg = s.cfg := rfl
@[simp] theorem takeFailure_mode (f : Failure) : (takeFailure f s).mode = s.mode := rfl
@[simp] theorem takeFailure_op (f : Failure) : (takeFailure f s).op = none := rfl
@[simp] theorem takeFailure_phase (f : Failure) : (takeFailure f s).phase = 0 := rfl
@[simp] theorem takeFailure_transport (f : Failure) : (takeFailure f s).transport = s.transport := rfl
@[simp] theorem takeFailure_width (f : Failure) : (takeFailure f s).width = s.width := rfl
@[simp] theorem takeFailure_rows (f : Failure) : (takeFailure f s).rows = s.rows := rfl
@[simp] theorem takeFailure_cols (f : Failure) : (takeFailure f s).cols = s.cols := rfl
@[simp] theorem takeFailure_lineFlag (f : Failure) : (takeFailure f s).lineFlag = s.lineFlag := rfl
@[simp] theorem takeFailure_font (f : Failure) : (takeFailure f s).font = s.font := rfl
@[simp] theorem takeFailure_dcb (f : Failure) : (takeFailure f s).dcb = s.dcb := rfl
@[simp] theorem takeFailure_pinList (f : Failure) : (takeFailure f s).pinList = s.pinList := rfl
@[simp] theorem takeFailure_pins (f : Failure) : (takeFailure f s).pins = s.pins := rfl
@[simp] theorem takeFailure_bl (f : Failure) : (takeFailure f s).bl = s.bl := rfl
@[simp] theorem takeFailure_addr (f : Failure) : (takeFailure f s).addr = s.addr := rfl
@[simp] theorem takeFailure_ioConfig (f : Failure) : (takeFailure f s).ioConfig = s.ioConfig := rfl
@[simp] theorem takeFailure_ioWrite (f : Failure) : (takeFailure f s).ioWrite = s.ioWrite := rfl
@[simp] theorem takeFailure_released (f : Failure) : (takeFailure f s).released = s.released := rfl
@[simp] theorem takeFailure_ib (f : Failure) : (takeFailure f s).ib = s.ib := rfl
@[simp] theorem takeFailure_rsel (f : Failure) : (takeFailure f s).rsel = s.rsel := rfl
@[simp] theorem takeFailure_nib (f : Failure) : (takeFailure f s).nib = s.nib := rfl
@[simp] theorem takeFailure_pending (f : Failure) : (takeFailure f s).pending = s.pending := rfl
@[simp] theorem takeFailure_env (f : Failure) : (takeFailure f s).env = s.env := rfl
@[simp] theorem takeFailure_hangs (f : Failure) : (takeFailure f s).hangs = s.hangs := rfl
@[simp] theorem takeFailure_trace (f : Failure) : (takeFailure f s).trace = s.trace := rfl
@[simp] theorem takeFailure_sent (f : Failure) : (takeFailure f s).sent = s.sent := rfl
@[simp] theorem takeFailure_result (f : Failure) : (takeFailure f s).result = some (.fail f) := rfl

/-! `writeGeometry` -/

@[simp] theorem writeGeometry_cfg (r c : Int) (f : Option Font) : (writeGeometry r c f s).cfg = s.cfg := rfl
@[simp] theorem writeGeometry_mode (r c : Int) (f : Option Font) : (writeGeometry r c f s).mode = s.mode := rfl
@[simp] theorem writeGeometry_op (r c : Int) (f : Option Font) : (writeGeometry r c f s).op = s.op := rfl
@[simp] theorem writeGeometry_phase (r c : Int) (f : Option Font) : (writeGeometry r c f s).phase = s.phase := rfl
@[simp] theorem writeGeometry_transport (r c : Int) (f : Option Font) : (writeGeometry r c f s).transport = s.transport := rfl
@[simp] theorem writeGeometry_width (r c : Int) (f : Option Font) : (writeGeometry r c f s).width = s.width := rfl
@[simp] theorem writeGeometry_rows (r c : Int) (f : Option Font) : (writeGeometry r c f s).rows = r.toNat := rfl
@[simp] theorem writeGeometry_cols (r c : Int) (f : Option Font) : (writeGeometry r c f s).cols = c.toNat := rfl
@[simp] theorem writeGeometry_lineFlag (r c : Int) (f : Option Font) : (writeGeometry r c f s).lineFlag = lineFlagOf r.toNat := rfl
@[simp] theorem writeGeometry_font (r c : Int) (f : Option Font) : (writeGeometry r c f s).font = fontOrDefault f := rfl
@[simp] theorem writeGeometry_dcb (r c : Int) (f : Option Font) : (writeGeometry r c f s).dcb = s.dcb := rfl
@[simp] theorem writeGeometry_pinList (r c : Int) (f : Option Font) : (writeGeometry r c f s).pinList = s.pinList := rfl
@[simp] theorem writeGeometry_pins (r c : Int) (f : Option Font) : (writeGeometry r c f s).pins = s.pins := rfl
@[simp] theorem writeGeometry_bl (r c : Int) (f : Option Font) : (writeGeometry r c f s).bl = s.bl := rfl
@[simp] theorem writeGeometry_addr (r c : Int) (f : Option Font) : (writeGeometry r c f s).addr = s.addr := rfl
@[simp] theorem writeGeometry_ioConfig (r c : Int) (f : Option Font) : (writeGeometry r c f s).ioConfig = s.ioConfig := rfl
@[simp] theorem writeGeometry_ioWrite (r c : Int) (f : Option Font) : (writeGeometry r c f s).ioWrite = s.ioWrite := rfl
@[simp] theorem writeGeometry_released (r c : Int) (f : Option Font) : (writeGeometry r c f s).released = s.released := rfl
@[simp] theorem writeGeometry_ib (r c : Int) (f : Option Font) : (writeGeometry r c f s).ib = s.ib := rfl
@[simp] theorem writeGeometry_rsel (r c : Int) (f : Option Font) : (writeGeometry r c f s).rsel = s.rsel := rfl
@[simp] theorem writeGeometry_nib (r c : Int) (f : Option Font) : (writeGeometry r c f s).nib = s.nib := rfl
@[simp] theorem writeGeometry_pending (r c : Int) (f : Option Font) : (writeGeometry r c f s).pending = s.pending := rfl
@[simp] theorem writeGeometry_env (r c : Int) (f : Option Font) : (writeGeometry r c f s).env = s.env := rfl
@[simp] theorem writeGeometry_hangs (r c : Int) (f : Option Font) : (writeGeometry r c f s).hangs = s.hangs := rfl
@[simp] theorem writeGeometry_trace (r c : Int) (f : Option Font) : (writeGeometry r c f s).trace = s.trace := rfl
@[simp] theorem writeGeometry_sent (r c : Int) (f : Option Font) : (writeGeometry r c f s).sent = s.sent := rfl
@[simp] theorem writeGeometry_result (r c : Int) (f : Option Font) : (writeGeometry r c f s).result = s.result := rfl

/-! `present` -/

@[simp] theorem present_cfg (p : Presented) : (present p s).cfg = s.cfg := rfl
@[simp] theorem present_mode (p : Presented) : (present p s).mode = s.mode := rfl
@[simp] theorem present_op (p : Presented) : (present p s).op = s.op := rfl
@[simp] theorem present_phase (p : Presented) : (present p s).phase = s.phase := rfl
@[simp] theorem present_transport (p : Presented) : (present p s).transport = s.transport := rfl
@[simp] theorem present_width (p : Presented) : (present p s).width = s.width := rfl
@[simp] theorem present_rows (p : Presented) : (present p s).rows = s.rows := rfl
@[simp] theorem present_cols (p : Presented) : (present p s).cols = s.cols := rfl
@[simp] theorem present_lineFlag (p : Presented) : (present p s).lineFlag = s.lineFlag := rfl
@[simp] theorem present_font (p : Presented) : (present p s).font = s.font := rfl
@[simp] theorem present_dcb (p : Presented) : (present p s).dcb = s.dcb := rfl
@[simp] theorem present_pinList (p : Presented) : (present p s).pinList = s.pinList := rfl
@[simp] theorem present_pins (p : Presented) : (present p s).pins = s.pins := rfl
@[simp] theorem present_bl (p : Presented) : (present p s).bl = s.bl := rfl
@[simp] theorem present_addr (p : Presented) : (present p s).addr = s.addr := rfl
@[simp] theorem present_ioConfig (p : Presented) : (present p s).ioConfig = s.ioConfig := rfl
@[simp] theorem present_ioWrite (p : Presented) : (present p s).ioWrite = s.ioWrite := rfl
@[simp] theorem present_released (p : Presented) : (present p s).released = s.released := rfl
@[simp] theorem present_ib (p : Presented) : (present p s).ib = s.ib := rfl
@[simp] theorem present_rsel (p : Presented) : (present p s).rsel = s.rsel := rfl
@[simp] theorem present_nib (p : Presented) : (present p s).nib = s.nib := rfl
@[simp] theorem present_pending (p : Presented) : (present p s).pending = p :: s.pending := rfl
@[simp] theorem present_env (p : Presented) : (present p s).env = s.env := rfl
@[simp] theorem present_hangs (p : Presented) : (present p s).hangs = s.hangs := rfl
@[simp] theorem present_trace (p : Presented) : (present p s).trace = s.trace := rfl
@[simp] theorem present_sent (p : Presented) : (present p s).sent = s.sent := rfl
@[simp] theorem present_result (p : Presented) : (present p s).result = s.result := rfl

/-! `discardRegisters` -/

@[simp] theorem discardRegisters_cfg : (discardRegisters s).cfg = s.cfg := rfl
@[simp] theorem discardRegisters_mode : (discardRegisters s).mode = State.reset.mode := rfl
@[simp] theorem discardRegisters_op : (discardRegisters s).op = State.reset.op := rfl
@[simp] theorem discardRegisters_phase : (discardRegisters s).phase = State.reset.phase := rfl
@[simp] theorem discardRegisters_transport : (discardRegisters s).transport = State.reset.transport := rfl
@[simp] theorem discardRegisters_width : (discardRegisters s).width = State.reset.width := rfl
@[simp] theorem discardRegisters_rows : (discardRegisters s).rows = State.reset.rows := rfl
@[simp] theorem discardRegisters_cols : (discardRegisters s).cols = State.reset.cols := rfl
@[simp] theorem discardRegisters_lineFlag : (discardRegisters s).lineFlag = State.reset.lineFlag := rfl
@[simp] theorem discardRegisters_font : (discardRegisters s).font = State.reset.font := rfl
@[simp] theorem discardRegisters_dcb : (discardRegisters s).dcb = State.reset.dcb := rfl
@[simp] theorem discardRegisters_pinList : (discardRegisters s).pinList = State.reset.pinList := rfl
@[simp] theorem discardRegisters_pins : (discardRegisters s).pins = State.reset.pins := rfl
@[simp] theorem discardRegisters_bl : (discardRegisters s).bl = State.reset.bl := rfl
@[simp] theorem discardRegisters_addr : (discardRegisters s).addr = State.reset.addr := rfl
@[simp] theorem discardRegisters_ioConfig : (discardRegisters s).ioConfig = State.reset.ioConfig := rfl
@[simp] theorem discardRegisters_ioWrite : (discardRegisters s).ioWrite = State.reset.ioWrite := rfl
@[simp] theorem discardRegisters_released : (discardRegisters s).released = State.reset.released := rfl
@[simp] theorem discardRegisters_ib : (discardRegisters s).ib = State.reset.ib := rfl
@[simp] theorem discardRegisters_rsel : (discardRegisters s).rsel = State.reset.rsel := rfl
@[simp] theorem discardRegisters_nib : (discardRegisters s).nib = State.reset.nib := rfl
@[simp] theorem discardRegisters_pending : (discardRegisters s).pending = s.pending := rfl
@[simp] theorem discardRegisters_env : (discardRegisters s).env = s.env := rfl
@[simp] theorem discardRegisters_hangs : (discardRegisters s).hangs = s.hangs := rfl
@[simp] theorem discardRegisters_trace : (discardRegisters s).trace = s.trace := rfl
@[simp] theorem discardRegisters_sent : (discardRegisters s).sent = s.sent := rfl
@[simp] theorem discardRegisters_result : (discardRegisters s).result = s.result := rfl

/-! `takeConstructionFailure` -/

@[simp] theorem takeConstructionFailure_cfg (f : Failure) : (takeConstructionFailure f s).cfg = s.cfg := rfl
@[simp] theorem takeConstructionFailure_mode (f : Failure) : (takeConstructionFailure f s).mode = State.reset.mode := rfl
@[simp] theorem takeConstructionFailure_op (f : Failure) : (takeConstructionFailure f s).op = none := rfl
@[simp] theorem takeConstructionFailure_phase (f : Failure) : (takeConstructionFailure f s).phase = 0 := rfl
@[simp] theorem takeConstructionFailure_transport (f : Failure) : (takeConstructionFailure f s).transport = State.reset.transport := rfl
@[simp] theorem takeConstructionFailure_width (f : Failure) : (takeConstructionFailure f s).width = State.reset.width := rfl
@[simp] theorem takeConstructionFailure_rows (f : Failure) : (takeConstructionFailure f s).rows = State.reset.rows := rfl
@[simp] theorem takeConstructionFailure_cols (f : Failure) : (takeConstructionFailure f s).cols = State.reset.cols := rfl
@[simp] theorem takeConstructionFailure_lineFlag (f : Failure) : (takeConstructionFailure f s).lineFlag = State.reset.lineFlag := rfl
@[simp] theorem takeConstructionFailure_font (f : Failure) : (takeConstructionFailure f s).font = State.reset.font := rfl
@[simp] theorem takeConstructionFailure_dcb (f : Failure) : (takeConstructionFailure f s).dcb = State.reset.dcb := rfl
@[simp] theorem takeConstructionFailure_pinList (f : Failure) : (takeConstructionFailure f s).pinList = State.reset.pinList := rfl
@[simp] theorem takeConstructionFailure_pins (f : Failure) : (takeConstructionFailure f s).pins = State.reset.pins := rfl
@[simp] theorem takeConstructionFailure_bl (f : Failure) : (takeConstructionFailure f s).bl = State.reset.bl := rfl
@[simp] theorem takeConstructionFailure_addr (f : Failure) : (takeConstructionFailure f s).addr = State.reset.addr := rfl
@[simp] theorem takeConstructionFailure_ioConfig (f : Failure) : (takeConstructionFailure f s).ioConfig = State.reset.ioConfig := rfl
@[simp] theorem takeConstructionFailure_ioWrite (f : Failure) : (takeConstructionFailure f s).ioWrite = State.reset.ioWrite := rfl
@[simp] theorem takeConstructionFailure_released (f : Failure) : (takeConstructionFailure f s).released = State.reset.released := rfl
@[simp] theorem takeConstructionFailure_ib (f : Failure) : (takeConstructionFailure f s).ib = State.reset.ib := rfl
@[simp] theorem takeConstructionFailure_rsel (f : Failure) : (takeConstructionFailure f s).rsel = State.reset.rsel := rfl
@[simp] theorem takeConstructionFailure_nib (f : Failure) : (takeConstructionFailure f s).nib = State.reset.nib := rfl
@[simp] theorem takeConstructionFailure_pending (f : Failure) : (takeConstructionFailure f s).pending = s.pending := rfl
@[simp] theorem takeConstructionFailure_env (f : Failure) : (takeConstructionFailure f s).env = s.env := rfl
@[simp] theorem takeConstructionFailure_hangs (f : Failure) : (takeConstructionFailure f s).hangs = s.hangs := rfl
@[simp] theorem takeConstructionFailure_trace (f : Failure) : (takeConstructionFailure f s).trace = s.trace := rfl
@[simp] theorem takeConstructionFailure_sent (f : Failure) : (takeConstructionFailure f s).sent = s.sent := rfl
@[simp] theorem takeConstructionFailure_result (f : Failure) : (takeConstructionFailure f s).result = some (.fail f) := rfl

end Sys2Proof.Laws
end

