-- ==== Sys2Proof/Laws/Ops.lean ====
section
/-!
SUPPORT. What the shared operations do: one equation each, which callers cite instead of unfolding them.
-/

namespace Sys2Proof.Laws

open Sys2Proof.Machine Sys2Proof.Safety

/-! ### Sequencing -/

section sequencing

variable {α β γ : Type}

@[simp] theorem bind_ok (a : α) (s : State) (k : α → State → Out β) : (Out.ok a s).bind k = k a s := rfl
@[simp] theorem bind_fail (f : Failure) (s : State) (k : α → State → Out β) : (Out.fail f s).bind k = .fail f s := rfl
@[simp] theorem bind_stuck (r : Fault) (k : α → State → Out β) : (Out.stuck r).bind k = .stuck r := rfl
@[simp] theorem andThen_ok (a : α) (s : State) (k : State → Out β) : (Out.ok a s).andThen k = k s := rfl
@[simp] theorem andThen_fail (f : Failure) (s : State) (k : State → Out β) :
    (Out.fail f s : Out α).andThen k = .fail f s := rfl
@[simp] theorem andThen_stuck (r : Fault) (k : State → Out β) : (Out.stuck r : Out α).andThen k = .stuck r := rfl

theorem andThen_assoc (x : Out α) (k : State → Out β) (l : State → Out γ) :
    (x.andThen k).andThen l = x.andThen fun s => (k s).andThen l := by cases x <;> rfl

@[simp] theorem require_true (f : Failure) (s : State) : require true f s = .ok () s := rfl
@[simp] theorem require_false (f : Failure) (s : State) : require false f s = .fail f s := rfl

@[simp] theorem settle_answer (a : α) (s : State) : settle (.answer a) s = .ok a s := rfl
@[simp] theorem settle_failure (c : Cause) (s : State) :
    settle (.failure c : Reply α) s = .fail (.transportError c) s := rfl
@[simp] theorem settle_never (s : State) : settle (.never : Reply α) s = .stuck .busNeverAnswers := rfl

@[simp] theorem replyOf_cons (r : Reply α) (rest : List (Reply α)) (free : Nat → Except Cause α) (n : Nat) :
    replyOf (r :: rest) free n = r := rfl

/-- A free value is an answer or a failure: past the stream's end the bus always answers (log 11). -/
theorem replyOf_ne_never {stream : List (Reply α)} (h : .never ∉ stream) (free : Nat → Except Cause α) (n : Nat) :
    replyOf stream free n ≠ .never := by
  cases stream with
  | nil => cases hf : free n <;> simp [replyOf, hf]
  | cons r rest => intro e; exact h (by simp_all)

end sequencing

/-! ### GPIO: a list of events emitted in order -/

/-- The events joined to the trace, each `PinSet` with its effect (R170), the sequencer moved on (R35). -/
def emitAll (evs : List Event) (s : State) : State := { afterEvents evs s with phase := s.phase + evs.length }

theorem pinsAfter_append (pins : Vector (Option Level) 11) (xs ys : List Event) :
    pinsAfter pins (xs ++ ys) = pinsAfter (pinsAfter pins xs) ys := by
  induction xs generalizing pins with
  | nil => rfl
  | cons e rest ih => cases e <;> simp [pinsAfter, ih]

theorem emitAll_append (xs ys : List Event) (s : State) : emitAll ys (emitAll xs s) = emitAll (xs ++ ys) s := by
  simp [emitAll, afterEvents, pinsAfter_append, Nat.add_assoc]

@[simp] theorem emitAll_nil (s : State) : emitAll [] s = s := by simp [emitAll, afterEvents, pinsAfter]

theorem pinSet_eq (p : Position) (v : Level) (s : State) : pinSet p v s = emitAll [.pinSet p v] s := rfl

@[simp] theorem emitAll_width (evs : List Event) (s : State) : (emitAll evs s).width = s.width := rfl

@[simp] theorem gpioSelect_width (rs : Level) (s : State) : (gpioSelect rs s).width = s.width := rfl

theorem gpioSelect_eq (rs : Level) (s : State) : gpioSelect rs s = emitAll (selectEvents rs) s := by
  simp only [gpioSelect, pinSet_eq, emitAll_append]; rfl

/-- R79: the listed positions, in order. -/
theorem drivePins_eq (l : List (Position × Level)) (s : State) :
    drivePins l s = emitAll (l.map fun x => .pinSet x.1 x.2) s := by
  induction l generalizing s with
  | nil => simp [drivePins]
  | cons x rest ih => simp [drivePins, ih, pinSet_eq, emitAll_append]

theorem dataLevels8_events (b : Byte) : ((dataLevels8 b).map fun x => Event.pinSet x.1 x.2) = dataEvents8 b := rfl
theorem dataLevels4_events (n : Nibble) : ((dataLevels4 n).map fun x => Event.pinSet x.1 x.2) = dataEvents4 n := rfl

/-! ### Events that may never return -/

/-- What stops steps from `s` for good with this fault (R346, U25). -/
def Blocked (s : State) : Fault → Prop
  | .busNeverAnswers => ¬BusAnswers s
  | .eventNeverReturns => ¬EventsReturn s

/-- A state later on: the place that hangs is where it was, and the trace has only grown. -/
theorem eventsReturn_later {s t : State} (h : EventsReturn s) (hangs : t.hangs = s.hangs)
    (grown : s.trace.length ≤ t.trace.length) : EventsReturn t := fun k hk =>
  Nat.lt_of_lt_of_le (h k (hangs ▸ hk)) grown

/-- An event answered with nothing returns, or the block hangs there. -/
theorem emitReturning_cases (e : Event) (s : State) :
    emitReturning e s = .ok () (emit e s) ∨
      (emitReturning e s = .stuck .eventNeverReturns ∧ Blocked s .eventNeverReturns) := by
  unfold emitReturning
  split
  · rename_i h
    exact .inr ⟨rfl, fun r => Nat.lt_irrefl _ (r _ h)⟩
  · exact .inl rfl

theorem emitReturning_ok (e : Event) {s : State} (h : EventsReturn s) : emitReturning e s = .ok () (emit e s) :=
  (emitReturning_cases e s).resolve_right fun b => b.2 h

theorem wait_cases (t : Nat) (s : State) :
    wait t s = .ok () (emit (.wait t) s) ∨ (wait t s = .stuck .eventNeverReturns ∧ Blocked s .eventNeverReturns) :=
  emitReturning_cases _ s

theorem wait_ok (t : Nat) {s : State} (h : EventsReturn s) : wait t s = .ok () (emit (.wait t) s) :=
  emitReturning_ok _ h

theorem wait_next {t : Nat} {s u : State} {a : Unit} (h : wait t s = .ok a u) : u = emit (.wait t) s := by
  rcases wait_cases t s with e | ⟨e, _⟩ <;> rw [e] at h <;> cases h
  rfl

/-- `x`, started in `s`, ends ok in `t` unless an event never returns. -/
def Returning (s : State) (x : Out Unit) (t : State) : Prop :=
  x = .ok () t ∨ (x = .stuck .eventNeverReturns ∧ Blocked s .eventNeverReturns)

theorem Returning.ok {s t : State} {x : Out Unit} (h : Returning s x t) (r : EventsReturn s) : x = .ok () t :=
  Or.resolve_right h fun b => b.2 r

theorem Returning.andThen {s t u : State} {x : Out Unit} {k : State → Out Unit} (h : Returning s x t)
    (hangs : t.hangs = s.hangs) (grown : s.trace.length ≤ t.trace.length) (hk : Returning t (k t) u) :
    Returning s (x.andThen k) u := by
  rcases h with rfl | ⟨rfl, b⟩
  · exact hk.imp_right fun h => ⟨h.1, fun r => h.2 (eventsReturn_later r hangs grown)⟩
  · exact .inr ⟨rfl, b⟩

theorem Returning.started {s s' t : State} {x : Out Unit} (h : Returning s' x t) (hangs : s'.hangs = s.hangs)
    (grown : s.trace.length ≤ s'.trace.length) : Returning s x t :=
  h.imp_right fun h => ⟨h.1, fun r => h.2 (eventsReturn_later r hangs grown)⟩

theorem returning_wait (t : Nat) (s : State) : Returning s (wait t s) (emitAll (waitEvent t) s) := wait_cases t s

theorem returning_pure (s : State) : Returning s (.ok () s) s := .inl rfl

@[simp] theorem emitAll_hangs (evs : List Event) (s : State) : (emitAll evs s).hangs = s.hangs := rfl
@[simp] theorem emitAll_trace (evs : List Event) (s : State) : (emitAll evs s).trace = s.trace ++ evs := rfl

theorem returning_gpioPulse (s : State) : Returning s (gpioPulse s) (emitAll pulseEvents s) := by
  have e : emitAll pulseEvents s = pinSet 2 false (emitAll (waitEvent 40) (pinSet 2 true
      (emitAll (waitEvent 40) (pinSet 2 false s)))) := by
    simp only [pinSet_eq, emitAll_append]; rfl
  rw [e]
  refine ((returning_wait tEn (pinSet 2 false s)).andThen rfl (by simp) ?_).started rfl (by simp)
  exact ((returning_wait tEn (pinSet 2 true (emitAll (waitEvent tEn) (pinSet 2 false s)))).andThen
    (k := fun s => .ok () (pinSet 2 false s)) rfl (by simp) (.inl rfl)).started rfl (by simp)

theorem returning_gpioNibble (n : Nibble) (s : State) :
    Returning s (gpioNibble n s) (emitAll (nibbleEvents n) (latchNibble n s)) := by
  have h := returning_gpioPulse (drivePins (dataLevels4 n) (latchNibble n s))
  rw [drivePins_eq, emitAll_append] at h
  refine Returning.started (s' := emitAll ((dataLevels4 n).map fun x => .pinSet x.1 x.2) (latchNibble n s)) ?_ rfl
    (by simp)
  rw [gpioNibble, drivePins_eq]
  exact h

/-- R162 to R166: one send is its events over its latches. -/
theorem returning_gpioSend (b : Byte) (rs : Level) (s : State) :
    Returning s (gpioSend b rs s)
      { afterSend b rs s with phase := s.phase + (sendEvents s.width b rs).length } := by
  have latch : ∀ n t evs, latchNibble n (emitAll evs t) = emitAll evs (latchNibble n t) := fun _ _ _ => rfl
  by_cases h : s.width = 8
  · have e : ({ afterSend b rs s with phase := s.phase + (sendEvents s.width b rs).length } : State) =
        emitAll pulseEvents (drivePins (dataLevels8 b) (gpioSelect rs (latchByte b rs s))) := by
      simp only [gpioSelect_eq, drivePins_eq, emitAll_append, dataLevels8_events]
      simp [afterSend, sendEvents, h, emitAll, byte8Events, afterEvents, latchByte]
    rw [e]
    simp only [gpioSend, gpioSelect_width, latchByte_width, h, if_true]
    exact (returning_gpioPulse _).started (by rw [drivePins_eq, gpioSelect_eq]; rfl)
      (by rw [drivePins_eq, gpioSelect_eq]; simp)
  · have e : ({ afterSend b rs s with phase := s.phase + (sendEvents s.width b rs).length } : State) =
        emitAll (nibbleEvents (lowNibble b)) (latchNibble (lowNibble b) (emitAll (nibbleEvents (highNibble b))
          (latchNibble (highNibble b) (gpioSelect rs (latchByte b rs s))))) := by
      simp only [gpioSelect_eq, latch, emitAll_append]
      simp [afterSend, sendEvents, h, emitAll, byte4Events, latchByte, latchNibble, highNibble, lowNibble, afterEvents]
    rw [e]
    simp only [gpioSend, gpioSelect_width, latchByte_width, h, if_false]
    refine ((returning_gpioNibble (highNibble b) (gpioSelect rs (latchByte b rs s))).andThen rfl (by simp)
      (returning_gpioNibble _ _)).started (by rw [gpioSelect_eq]; rfl) (by rw [gpioSelect_eq]; simp)

/-- R165. -/
theorem returning_gpioSendSingle (n : Nibble) (rs : Level) (s : State) :
    Returning s (gpioSendSingle n rs s) (emitAll (selectEvents rs ++ nibbleEvents n) (latchSingle n rs s)) := by
  have h := returning_gpioNibble n (gpioSelect rs (latchSingle n rs s))
  have e : emitAll (selectEvents rs ++ nibbleEvents n) (latchSingle n rs s) =
      emitAll (nibbleEvents n) (latchNibble n (gpioSelect rs (latchSingle n rs s))) := by
    rw [gpioSelect_eq, ← emitAll_append]; rfl
  rw [e]
  exact h.started (by rw [gpioSelect_eq]; rfl) (by rw [gpioSelect_eq]; simp)

theorem gpioSend_ok (b : Byte) (rs : Level) {s : State} (r : EventsReturn s) :
    gpioSend b rs s =
      .ok () { afterSend b rs s with phase := s.phase + (sendEvents s.width b rs).length } :=
  (returning_gpioSend b rs s).ok r

theorem gpioSendSingle_ok (n : Nibble) (rs : Level) {s : State} (r : EventsReturn s) :
    gpioSendSingle n rs s = .ok () (emitAll (selectEvents rs ++ nibbleEvents n) (latchSingle n rs s)) :=
  (returning_gpioSendSingle n rs s).ok r

end Sys2Proof.Laws
end

