-- ==== Sys2Proof/Laws/Bus.lean ====
section
/-!
SUPPORT. What the bus does to a list of frames: an I2C send is one run of its events, which ends at the first write
that is not answered ok.
-/

namespace Sys2Proof.Laws

open Sys2Proof.Machine Sys2Proof.Safety

/-! ### One bus event -/

theorem busWrite_ok {b : Byte} {s : State} {rest : List (Reply Unit)} (h : s.env.writes = .answer () :: rest) :
    busWrite b s = .ok () { afterWrites 1 rest s with
      trace := s.trace ++ writeEvent s.addr b, phase := s.phase + 1 } := by
  simp [busWrite, h, emit, afterWrites, writeEvent]

theorem busWrite_failure {b : Byte} {s : State} {c : Cause} {rest : List (Reply Unit)}
    (h : s.env.writes = .failure c :: rest) :
    busWrite b s = .fail (.transportError c) { afterWrites 1 rest s with
      trace := s.trace ++ writeEvent s.addr b, phase := s.phase + 1 } := by
  simp [busWrite, h, emit, afterWrites, writeEvent]

theorem busWrite_never {b : Byte} {s : State} {rest : List (Reply Unit)} (h : s.env.writes = .never :: rest) :
    busWrite b s = .stuck .busNeverAnswers := by simp [busWrite, h]

theorem busScan_cons {s : State} {r : Reply (List BusAddr)} {rest : List (Reply (List BusAddr))}
    (h : s.env.scans = r :: rest) :
    busScan s = settle r { s with
      trace := s.trace ++ [.i2cScan], phase := s.phase + 1
      env := { s.env with scans := rest, draws := s.env.draws + 1 } } := by
  simp [busScan, h, emit]

theorem busRead_cons {s : State} {r : Reply Byte} {rest : List (Reply Byte)} (h : s.env.reads = r :: rest) :
    busRead s = settle r { s with
      trace := s.trace ++ [.i2cRead s.addr], phase := s.phase + 1
      env := { s.env with reads := rest, draws := s.env.draws + 1 } } := by
  simp [busRead, h, emit]

/-! ### A run of frames and holds -/

/-- The pins may be written: every pin is an output, or the direction is not checked (R9). -/
def MayWrite (s : State) : Prop := s.cfg.pinModePolicy = .permissive ∨ s.ioConfig = 0x00#8

theorem changePin_eq {pin : Int} (legal : legalPin pin = true) {s : State} (may : MayWrite s) (v : Level) :
    changePin pin v s = writeLevels (setBit s.ioWrite pin.toNat v) s := by
  have h : (decide (s.cfg.pinModePolicy = .permissive) || !s.ioConfig.getLsbD pin.toNat) = true := by
    rcases may with h | h <;> simp [h]
  simp [changePin, legal, h, writeLevels]

/-- The events of an I2C send run in order; other events do not occur in one. -/
def runEvents : List Event → State → Out Unit
  | [], s => .ok () s
  | .i2cWrite _ f :: rest, s => (writeLevels f s).andThen (runEvents rest)
  | .wait t :: rest, s => (wait t s).andThen (runEvents rest)
  | _ :: rest, s => runEvents rest s

theorem runEvents_append (xs ys : List Event) (s : State) :
    runEvents (xs ++ ys) s = (runEvents xs s).andThen (runEvents ys) := by
  induction xs generalizing s with
  | nil => rfl
  | cons e rest ih =>
    have same : (fun t => runEvents (rest ++ ys) t) = fun t => (runEvents rest t).andThen (runEvents ys) := funext ih
    cases e <;> simp [runEvents, ih, andThen_assoc, same]

/-- A write that goes on leaves the address, the directions and the parameters alone. -/
theorem writeLevels_ok {f : Byte} {s t : State} (h : writeLevels f s = .ok () t) :
    t.addr = s.addr ∧ t.ioConfig = s.ioConfig ∧ t.cfg = s.cfg ∧ t.ioWrite = f := by
  unfold writeLevels busWrite at h
  revert h
  generalize replyOf _ _ _ = r
  cases r <;> simp
  rintro rfl
  simp

theorem andThen_congr {α β : Type} {x : Out α} {k l : State → Out β}
    (h : ∀ a t, x = .ok a t → k t = l t) : x.andThen k = x.andThen l := by
  cases x with
  | ok a t => exact h a t rfl
  | fail f t => rfl
  | stuck r => rfl

@[simp] theorem andThen_pure (x : Out Unit) : (x.andThen fun s => .ok () s) = x := by cases x <;> rfl

/-- R79, R135: pins written in turn. -/
theorem changePins_eq (l : List (Int × Level)) (legal : ∀ x ∈ l, legalPin x.1 = true) (s : State) (may : MayWrite s) :
    changePins l s = runEvents (pinWrites s.addr s.ioWrite (l.map fun x => (x.1.toNat, x.2))) s := by
  induction l generalizing s with
  | nil => rfl
  | cons x rest ih =>
    simp only [changePins, List.map_cons, pinWrites, runEvents]
    rw [changePin_eq (legal x (by simp)) may]
    refine andThen_congr fun _ t h => ?_
    obtain ⟨ha, hc, hp, hw⟩ := writeLevels_ok h
    rw [ih (fun y hy => legal y (by simp [hy])) t (by simpa [MayWrite, hc, hp] using may), ha, hw]

/-- What a run of events leaves in `IO_WRITE`: its last frame. -/
def lastFrame (w : Byte) : List Event → Byte
  | [] => w
  | .i2cWrite _ f :: rest => lastFrame f rest
  | _ :: rest => lastFrame w rest

/-- A run that goes on leaves the address, the directions and the parameters alone. -/
theorem runEvents_ok {evs : List Event} {s t : State} (h : runEvents evs s = .ok () t) :
    t.addr = s.addr ∧ t.ioConfig = s.ioConfig ∧ t.cfg = s.cfg ∧ t.ioWrite = lastFrame s.ioWrite evs := by
  induction evs generalizing s with
  | nil => cases h; simp [lastFrame]
  | cons e rest ih =>
    cases e with
    | i2cWrite a f =>
      simp only [runEvents] at h
      cases hw : writeLevels f s with
      | ok u v =>
        obtain ⟨h1, h2, h3, h4⟩ := writeLevels_ok hw
        rw [hw] at h
        simpa [h1, h2, h3, h4, lastFrame] using ih h
      | fail c v => rw [hw] at h; cases h
      | stuck r => rw [hw] at h; cases h
    | wait t =>
      simp only [runEvents] at h
      rcases wait_cases t s with hw | ⟨hw, _⟩
      · rw [hw] at h
        simpa [lastFrame] using ih h
      · rw [hw] at h
        cases h
    | _ => simpa [lastFrame] using ih h

theorem lastFrame_pinWrites (a : BusAddr) (w : Byte) (l : List (Nat × Level)) :
    lastFrame w (pinWrites a w l) = l.foldl (fun x y => setBit x y.1 y.2) w := by
  induction l generalizing w with
  | nil => rfl
  | cons x rest ih => exact ih _

theorem pinWrites_append (a : BusAddr) (w : Byte) (l m : List (Nat × Level)) :
    pinWrites a w (l ++ m) = pinWrites a w l ++ pinWrites a (l.foldl (fun x y => setBit x y.1 y.2) w) m := by
  induction l generalizing w with
  | nil => rfl
  | cons x rest ih => simp [pinWrites, ih]

/-- A byte with one bit set. -/
theorem oneBit_bit {i q : Nat} (hi : i < 8) (hq : q < 8) : (1#8 <<< i).getLsbD q = decide (q = i) := by
  have h : ∀ i < 8, ∀ q < 8, (1#8 <<< i).getLsbD q = decide (q = i) := by decide
  exact h i hi q hq

/-- R109: setting a bit sets that bit and no other. -/
theorem setBit_bit (x : Byte) {i q : Nat} (hi : i < 8) (hq : q < 8) (v : Level) :
    (setBit x i v)[q] = if q = i then v else x[q] := by
  have key : (1#8 <<< i)[q] = decide (q = i) := by
    rw [← BitVec.getLsbD_eq_getElem]; exact oneBit_bit hi hq
  cases v
  · simp only [setBit, BitVec.getElem_or, BitVec.getElem_and, BitVec.getElem_not, key]
    by_cases h : q = i <;> simp [h]
  · simp only [setBit, BitVec.getElem_or, BitVec.getElem_and, BitVec.getElem_not, key, if_true]
    by_cases h : q = i <;> simp [h]

/-- R101: the bits of a frame. -/
theorem i2cFrame_bits (n : Nibble) (bl e rw rs : Level) :
    (i2cFrame n bl e rw rs)[0] = rs ∧ (i2cFrame n bl e rw rs)[1] = rw ∧ (i2cFrame n bl e rw rs)[2] = e ∧
      (i2cFrame n bl e rw rs)[3] = bl ∧ (i2cFrame n bl e rw rs)[4] = n[0] ∧ (i2cFrame n bl e rw rs)[5] = n[1] ∧
      (i2cFrame n bl e rw rs)[6] = n[2] ∧ (i2cFrame n bl e rw rs)[7] = n[3] := by
  revert n bl e rw rs; unfold i2cFrame bitAt; decide

/-- Bytes agree when their eight bits do. -/
theorem byte_ext {x y : Byte} (h : x[0] = y[0] ∧ x[1] = y[1] ∧ x[2] = y[2] ∧ x[3] = y[3] ∧ x[4] = y[4] ∧ x[5] = y[5] ∧
    x[6] = y[6] ∧ x[7] = y[7]) : x = y := by
  refine BitVec.eq_of_getElem_eq fun q hq => ?_
  have c : q = 0 ∨ q = 1 ∨ q = 2 ∨ q = 3 ∨ q = 4 ∨ q = 5 ∨ q = 6 ∨ q = 7 := by omega
  rcases c with rfl | rfl | rfl | rfl | rfl | rfl | rfl | rfl <;> simp only [h]

/-- What the eighth write of a cycle leaves, whatever stood before (R193, R194). -/
theorem cycle_rest (w : Byte) (n : Nibble) (rs : Level) :
    setBit (setBit (setBit (setBit (setBit (setBit (setBit (setBit w 0 rs) 1 false) 4 (n.getLsbD 0)) 5 (n.getLsbD 1))
      6 (n.getLsbD 2)) 7 (n.getLsbD 3)) 2 true) 2 false = restFrame w n rs := by
  apply byte_ext; simp [setBit_bit, restFrame, i2cFrame_bits]

theorem strobe_of_rest (w : Byte) (n : Nibble) (rs : Level) : setBit (restFrame w n rs) 2 true = strobeFrame w n rs := by
  apply byte_ext; simp [setBit_bit, restFrame, strobeFrame, i2cFrame_bits]

theorem rest_of_strobe (w : Byte) (n : Nibble) (rs : Level) : setBit (strobeFrame w n rs) 2 false = restFrame w n rs := by
  apply byte_ext; simp [setBit_bit, restFrame, strobeFrame, i2cFrame_bits]

theorem restFrame_backlight (w : Byte) (n : Nibble) (rs : Level) : (restFrame w n rs).getLsbD 3 = w.getLsbD 3 := by
  simp [restFrame, i2cFrame_bits]

theorem restFrame_restFrame (w : Byte) (n m : Nibble) (rs qs : Level) :
    restFrame (restFrame w n rs) m qs = restFrame w m qs := by simp [restFrame, i2cFrame_bits]

/-! ### One nibble cycle, one send -/

/-- R193, R194, R197: a nibble cycle is the run of its events, under either granularity. -/
theorem nibbleCycle_eq (n : Nibble) (rs : Level) (s : State) (may : MayWrite s) :
    nibbleCycle n rs s = runEvents (cycleEvents s.cfg.granularity s.addr s.ioWrite n rs) (latchNibble n s) := by
  unfold nibbleCycle
  have may' : MayWrite (latchNibble n s) := may
  have e : legalPin 2 = true := by decide
  cases h : s.cfg.granularity with
  | perPin =>
    have split : cyclePins n rs = (nibblePins n rs).map (fun x => (x.1.toNat, x.2)) ++ [(2, true)] := rfl
    have legal : ∀ x ∈ nibblePins n rs, legalPin x.1 = true := by simp [nibblePins, legalPin]
    simp only [nibbleCyclePerPin, cycleEvents, split, pinWrites_append, List.append_assoc, runEvents_append,
      changePins_eq _ legal _ may', latchNibble_addr, latchNibble_ioWrite]
    refine andThen_congr fun _ t ht => ?_
    obtain ⟨_, hc, hp, hw⟩ := runEvents_ok ht
    rw [latchNibble_ioWrite, lastFrame_pinWrites] at hw
    have mt : MayWrite t := by simpa [MayWrite, hc, hp] using may'
    simp only [i2cPulse, changePin_eq e mt, pinWrites, writeEvent, waitEvent, runEvents, List.cons_append,
      List.nil_append, hw]
    refine andThen_congr fun _ u hu => ?_
    obtain ⟨_, hc, hp, hv⟩ := writeLevels_ok hu
    refine andThen_congr fun _ v hv' => ?_
    have ev := wait_next hv'
    have mv : MayWrite v := by rw [ev]; simpa [MayWrite, hc, hp] using mt
    rw [changePin_eq e mv, ev, emit_ioWrite, hv, andThen_pure]
    have r := cycle_rest s.ioWrite n rs
    exact congrArg (fun f => writeLevels f (emit (.wait tEn) u)) r
  | perPhase =>
    simp only [nibbleCyclePerPhase, cycleEvents, writeEvent, waitEvent, runEvents, List.cons_append, List.nil_append,
      andThen_pure]
    refine andThen_congr fun _ t ht => ?_
    rw [(writeLevels_ok ht).2.2.2]
    refine (congrArg (fun f => (writeLevels f t).andThen _) (strobe_of_rest s.ioWrite n rs)).trans ?_
    refine andThen_congr fun _ u hu => ?_
    refine andThen_congr fun _ v hv => ?_
    rw [wait_next hv, emit_ioWrite, (writeLevels_ok hu).2.2.2, rest_of_strobe]

theorem lastFrame_append (w : Byte) (xs ys : List Event) : lastFrame w (xs ++ ys) = lastFrame (lastFrame w xs) ys := by
  induction xs generalizing w with
  | nil => rfl
  | cons e rest ih => cases e <;> exact ih _

@[simp] theorem lastFrame_cycle (g : WriteGranularity) (a : BusAddr) (w v : Byte) (n : Nibble) (rs : Level) :
    lastFrame v (cycleEvents g a w n rs) = restFrame w n rs := by
  cases g <;> simp [cycleEvents, lastFrame_append, waitEvent, writeEvent, lastFrame]

/-- R192: a send is two runs, `NIB` loaded before each. -/
theorem i2cSend_eq (b : Byte) (rs : Level) (s : State) (may : MayWrite s) :
    i2cSend b rs s =
      (runEvents (cycleEvents s.cfg.granularity s.addr s.ioWrite (highNibble b) rs)
        (latchNibble (highNibble b) (latchByte b rs s))).andThen fun t =>
      runEvents
        (cycleEvents s.cfg.granularity s.addr (restFrame s.ioWrite (highNibble b) rs) (lowNibble b) rs)
        (latchNibble (lowNibble b) t) := by
  unfold i2cSend
  rw [nibbleCycle_eq _ _ _ (show MayWrite (latchByte b rs s) from may)]
  refine andThen_congr fun _ t ht => ?_
  obtain ⟨ha, hc, hp, hw⟩ := runEvents_ok ht
  rw [nibbleCycle_eq _ _ _ (by simpa [MayWrite, hc, hp] using may), ha, hp, hw]
  simp only [latchNibble_addr, latchNibble_cfg, latchNibble_ioWrite, latchByte_addr, latchByte_cfg, latchByte_ioWrite,
    lastFrame_cycle]

/-! ### Where a run ends -/

theorem writeCount_append (xs ys : List Event) : writeCount (xs ++ ys) = writeCount xs + writeCount ys := by
  induction xs with
  | nil => simp [writeCount]
  | cons e rest ih => cases e <;> simp [writeCount, ih]; omega

@[simp] theorem writeCount_cycle (g : WriteGranularity) (a : BusAddr) (w : Byte) (n : Nibble) (rs : Level) :
    writeCount (cycleEvents g a w n rs) = cycleWrites g := by
  cases g <;> rfl

/-- Frames to this address, and holds; nothing else. -/
def OnlyFrames (a : BusAddr) (evs : List Event) : Prop :=
  ∀ e ∈ evs, (∃ f, e = .i2cWrite a f) ∨ ∃ t, e = .wait t

theorem onlyFrames_cycle (g : WriteGranularity) (a : BusAddr) (w : Byte) (n : Nibble) (rs : Level) :
    OnlyFrames a (cycleEvents g a w n rs) := by
  cases g <;> simp [OnlyFrames, cycleEvents, pinWrites, cyclePins, waitEvent, writeEvent]

theorem runEvents_allOk {evs : List Event} {s : State} (ret : EventsReturn s) (only : OnlyFrames s.addr evs)
    {rest : List (Reply Unit)} (h : NextWritesOk (writeCount evs) rest s) :
    runEvents evs s = .ok () { afterWrites (writeCount evs) rest s with
      trace := s.trace ++ evs, phase := s.phase + evs.length, ioWrite := lastFrame s.ioWrite evs } := by
  induction evs generalizing s with
  | nil => simp [runEvents, writeCount, lastFrame, afterWrites, ← (show s.env.writes = rest by simpa [NextWritesOk, writeCount] using h)]
  | cons e tail ih =>
    have tailOnly : OnlyFrames s.addr tail := fun x hx => only x (by simp [hx])
    rcases only e (by simp) with ⟨f, rfl⟩ | ⟨t, rfl⟩
    · simp only [NextWritesOk, writeCount, List.replicate_succ, List.cons_append] at h
      simp only [runEvents, writeLevels]
      rw [busWrite_ok (s := { s with ioWrite := f }) h, andThen_ok,
        ih (s := { afterWrites 1 _ { s with ioWrite := f } with trace := _, phase := _ })
          (eventsReturn_later ret rfl (by simp)) tailOnly rfl]
      simp [afterWrites, writeEvent, lastFrame, writeCount, Nat.add_assoc, Nat.add_comm]; omega
    · simp only [runEvents, wait_ok t ret, andThen_ok]
      rw [ih (s := emit (.wait t) s) (eventsReturn_later ret rfl (by simp)) tailOnly
        (by simpa [NextWritesOk, writeCount] using h)]
      simp [emit, afterWrites, lastFrame, writeCount]; omega

theorem runEvents_failing {evs : List Event} {s : State} (ret : EventsReturn s) (only : OnlyFrames s.addr evs)
    {k : Nat} {c : Cause} {rest : List (Reply Unit)} (hk : k < writeCount evs)
    (h : s.env.writes = List.replicate k (.answer ()) ++ .failure c :: rest) :
    ∃ before after f, evs = before ++ .i2cWrite s.addr f :: after ∧ writeCount before = k ∧
      runEvents evs s = .fail (.transportError c) { afterWrites (k + 1) rest s with
        trace := s.trace ++ before ++ writeEvent s.addr f, phase := s.phase + before.length + 1, ioWrite := f } := by
  induction evs generalizing s k with
  | nil => simp [writeCount] at hk
  | cons e tail ih =>
    have tailOnly : OnlyFrames s.addr tail := fun x hx => only x (by simp [hx])
    rcases only e (by simp) with ⟨f, rfl⟩ | ⟨t, rfl⟩
    · cases k with
      | zero =>
        refine ⟨[], tail, f, rfl, rfl, ?_⟩
        simp only [runEvents, writeLevels]
        rw [busWrite_failure (s := { s with ioWrite := f }) (by simpa using h)]
        simp [afterWrites, writeEvent]
      | succ k =>
        simp only [List.replicate_succ, List.cons_append] at h
        obtain ⟨before, after, g, he, hn, hr⟩ :=
          ih (s := { afterWrites 1 (List.replicate k (.answer ()) ++ .failure c :: rest) { s with ioWrite := f } with
            trace := s.trace ++ writeEvent s.addr f, phase := s.phase + 1 }) (eventsReturn_later ret rfl (by simp))
            tailOnly (k := k) (by simpa [writeCount] using hk) rfl
        refine ⟨.i2cWrite s.addr f :: before, after, g, by simp [he, afterWrites], by simp [writeCount, hn], ?_⟩
        simp only [runEvents, writeLevels]
        rw [busWrite_ok (s := { s with ioWrite := f }) h, andThen_ok, hr]
        simp [afterWrites, writeEvent, Nat.add_comm, Nat.add_left_comm]
    · obtain ⟨before, after, g, he, hn, hr⟩ :=
        ih (s := emit (.wait t) s) (eventsReturn_later ret rfl (by simp)) tailOnly (k := k)
          (by simpa [writeCount] using hk) (by simpa using h)
      refine ⟨.wait t :: before, after, g, by simp [he], by simp [writeCount, hn], ?_⟩
      simp only [runEvents, wait_ok t ret, andThen_ok]
      rw [hr]
      simp [emit, afterWrites, writeEvent, Nat.add_comm, Nat.add_left_comm]

/-- The events of a cycle and what they cost. -/
theorem cycle_ok {n : Nibble} {rs : Level} {s : State} (ret : EventsReturn s) (may : MayWrite s) {rest : List (Reply Unit)}
    (h : NextWritesOk (cycleWrites s.cfg.granularity) rest s) :
    nibbleCycle n rs s = .ok () { afterWrites (cycleWrites s.cfg.granularity) rest s with
      trace := s.trace ++ cycleEvents s.cfg.granularity s.addr s.ioWrite n rs
      phase := s.phase + cycleWrites s.cfg.granularity + 1
      ioWrite := restFrame s.ioWrite n rs
      nib := some n } := by
  have len : ∀ g, (cycleEvents g s.addr s.ioWrite n rs).length = cycleWrites g + 1 := by intro g; cases g <;> rfl
  rw [nibbleCycle_eq n rs s may]
  refine (runEvents_allOk (s := latchNibble n s) ret (onlyFrames_cycle _ s.addr _ _ _) (rest := rest) ?_).trans ?_
  · rw [writeCount_cycle]; exact h
  simp [afterWrites, len, latchNibble, Nat.add_assoc]

/-- R192, every write answered ok. -/
theorem i2cSend_ok {b : Byte} {rs : Level} {s : State} (ret : EventsReturn s) (may : MayWrite s) {rest : List (Reply Unit)}
    (h : NextWritesOk (2 * cycleWrites s.cfg.granularity) rest s) :
    i2cSend b rs s =
      .ok () { afterI2cSend b rs rest s with phase := s.phase + 2 * cycleWrites s.cfg.granularity + 2 } := by
  unfold i2cSend
  have split : s.env.writes = List.replicate (cycleWrites s.cfg.granularity) (.answer ()) ++
      (List.replicate (cycleWrites s.cfg.granularity) (.answer ()) ++ rest) := by
    rw [← List.append_assoc, ← List.replicate_add, ← Nat.two_mul]; exact h
  rw [cycle_ok (s := latchByte b rs s) ret may split, andThen_ok]
  refine (cycle_ok (by exact eventsReturn_later ret rfl (by simp)) (by exact may) (rest := rest) ?_).trans ?_
  · rfl
  simp [afterI2cSend, afterWrites, latchByte, i2cSendEvents, highNibble, lowNibble, restFrame_restFrame]
  omega

/-- R195, every write answered ok. -/
theorem i2cSendSingle_ok {n : Nibble} {rs : Level} {s : State} (ret : EventsReturn s) (may : MayWrite s) {rest : List (Reply Unit)}
    (h : NextWritesOk (cycleWrites s.cfg.granularity) rest s) :
    i2cSendSingle n rs s = .ok () { afterWrites (cycleWrites s.cfg.granularity) rest s with
      trace := s.trace ++ cycleEvents s.cfg.granularity s.addr s.ioWrite n rs
      phase := s.phase + cycleWrites s.cfg.granularity + 1
      ioWrite := restFrame s.ioWrite n rs
      rsel := some rs
      nib := some n
      sent := s.sent ++ [.nibble n rs] } := by
  unfold i2cSendSingle
  rw [cycle_ok (s := latchSingle n rs s) ret may (by simpa [NextWritesOk] using h)]
  simp [afterWrites, latchSingle]

end Sys2Proof.Laws
end

