-- ==== Sys2Proof/Laws/Flow.lean ====
section
/-!
SUPPORT. What the display path can do to the state, said once: every send, over either transport, in every state,
whichever way it ends.
-/

namespace Sys2Proof.Laws

open Sys2Proof.Machine Sys2Proof.Safety

/-- What a send over this transport may emit: RW stays low, and on I2C each frame keeps the backlight bit. -/
def Allowed (link : Link) (s : State) (e : Event) : Prop :=
  match link, e with
  | .gpio, .pinSet p v => p = 1 → v = false
  | .gpio, .wait _ => True
  | .i2c, .i2cWrite a b => a = s.addr ∧ (s.ioWrite[1] = false → b[1] = false) ∧ b[3] = s.ioWrite[3]
  | .i2c, .wait _ => True
  | _, _ => False

/-- R45: RW and E are low on the pin list. -/
def LowPins (s : State) : Prop := s.pins[1] = some false ∧ s.pins[2] = some false

/-- From `s` to `t` by sends over `link`. -/
structure Flow (link : Link) (s t : State) : Prop where
  frame : t = { s with
    phase := t.phase, pins := t.pins, ioWrite := t.ioWrite, ib := t.ib, rsel := t.rsel, nib := t.nib
    env := t.env, trace := t.trace, sent := t.sent }
  events : ∃ evs, t.trace = s.trace ++ evs ∧ t.pins = pinsAfter s.pins evs ∧ ∀ e ∈ evs, Allowed link s e
  backlight : t.ioWrite[3] = s.ioWrite[3]
  readWrite : s.ioWrite[1] = false → t.ioWrite[1] = false
  gpio : link = .gpio → t.env = s.env ∧ t.ioWrite = s.ioWrite
  answers : BusAnswers s → BusAnswers t
  low : LowPins s → LowPins t

namespace Flow

variable {link : Link} {s t u : State}

theorem cfg (h : Flow link s t) : t.cfg = s.cfg := by rw [h.frame]
theorem mode (h : Flow link s t) : t.mode = s.mode := by rw [h.frame]
theorem op (h : Flow link s t) : t.op = s.op := by rw [h.frame]
theorem transport (h : Flow link s t) : t.transport = s.transport := by rw [h.frame]
theorem width (h : Flow link s t) : t.width = s.width := by rw [h.frame]
theorem rows (h : Flow link s t) : t.rows = s.rows := by rw [h.frame]
theorem cols (h : Flow link s t) : t.cols = s.cols := by rw [h.frame]
theorem lineFlag (h : Flow link s t) : t.lineFlag = s.lineFlag := by rw [h.frame]
theorem font (h : Flow link s t) : t.font = s.font := by rw [h.frame]
theorem dcb (h : Flow link s t) : t.dcb = s.dcb := by rw [h.frame]
theorem pinList (h : Flow link s t) : t.pinList = s.pinList := by rw [h.frame]
theorem bl (h : Flow link s t) : t.bl = s.bl := by rw [h.frame]
theorem addr (h : Flow link s t) : t.addr = s.addr := by rw [h.frame]
theorem ioConfig (h : Flow link s t) : t.ioConfig = s.ioConfig := by rw [h.frame]
theorem released (h : Flow link s t) : t.released = s.released := by rw [h.frame]
theorem pending (h : Flow link s t) : t.pending = s.pending := by rw [h.frame]
theorem result (h : Flow link s t) : t.result = s.result := by rw [h.frame]

theorem refl (link : Link) (s : State) : Flow link s s :=
  ⟨rfl, ⟨[], by simp [pinsAfter]⟩, rfl, id, fun _ => ⟨rfl, rfl⟩, id, id⟩

theorem trans (h : Flow link s t) (k : Flow link t u) : Flow link s u := by
  obtain ⟨xs, hx, hp, ha⟩ := h.events
  obtain ⟨ys, ky, kp, ka⟩ := k.events
  refine ⟨?_, ⟨xs ++ ys, by rw [ky, hx, List.append_assoc], by rw [kp, hp, pinsAfter_append], ?_⟩,
    k.backlight.trans h.backlight, fun r => k.readWrite (h.readWrite r), fun g => ?_, fun b => k.answers (h.answers b),
    fun l => k.low (h.low l)⟩
  · rw [k.frame, h.frame]
  · intro e he
    rcases List.mem_append.mp he with he | he
    · exact ha e he
    · have := ka e he
      cases link <;> cases e <;> simp_all [Allowed, h.addr, h.backlight]
      exact fun r => this.2.1 (h.readWrite r)
  · exact ⟨(k.gpio g).1.trans (h.gpio g).1, (k.gpio g).2.trans (h.gpio g).2⟩

theorem hangs (h : Flow link s t) : t.hangs = s.hangs := by rw [h.frame]

theorem returns (h : Flow link s t) (r : EventsReturn s) : EventsReturn t := by
  obtain ⟨evs, e, _⟩ := h.events
  exact eventsReturn_later r h.hangs (by rw [e]; simp)

theorem blocked (h : Flow link s t) {r : Fault} (b : Blocked t r) : Blocked s r := by
  cases r with
  | busNeverAnswers => exact fun a => b (h.answers a)
  | eventNeverReturns => exact fun a => b (h.returns a)

theorem mayWrite (h : Flow link s t) (m : MayWrite s) : MayWrite t := by
  simpa [MayWrite, h.cfg, h.ioConfig] using m

end Flow

/-- Steps over `link` from `s`: however they end, they have only flowed; on GPIO they do not fail; on I2C a failure is
the bus's where the pins may be written; a hang is an answer that never comes or an event that never returns. -/
def Along {α : Type} (link : Link) (s : State) : Out α → Prop
  | .ok _ t => Flow link s t
  | .fail f t => Flow link s t ∧ link = .i2c ∧ (MayWrite s → ∃ c, f = .transportError c)
  | .stuck r => Blocked s r

theorem along_ok {link : Link} {s : State} : Along link s (.ok () s) := Flow.refl link s

/-- Steps from a state that flowed from `s`. -/
theorem along_from {α : Type} {link : Link} {s t : State} {x : Out α} (h : Flow link s t) (hx : Along link t x) :
    Along link s x := by
  cases x with
  | ok a u => exact h.trans hx
  | fail f u => exact ⟨h.trans hx.1, hx.2.1, fun m => hx.2.2 (h.mayWrite m)⟩
  | stuck r => exact h.blocked hx

theorem along_returning {link : Link} {s t : State} {x : Out Unit} (h : Returning s x t) (flow : Flow link s t) :
    Along link s x := by
  rcases h with rfl | ⟨rfl, b⟩
  · exact flow
  · exact b

theorem along_andThen {α β : Type} {link : Link} {s : State} {x : Out α} {k : State → Out β} (hx : Along link s x)
    (hk : ∀ t, Flow link s t → Along link t (k t)) : Along link s (x.andThen k) := by
  cases x with
  | ok a t => exact along_from hx (hk t hx)
  | fail f t => exact hx
  | stuck r => exact hx

/-! ### GPIO -/

theorem flow_emitAll {evs : List Event} {s : State} (allowed : ∀ e ∈ evs, Allowed .gpio s e)
    (low : LowPins (emitAll evs s)) : Flow .gpio s (emitAll evs s) :=
  ⟨rfl, ⟨evs, rfl, rfl, allowed⟩, rfl, id, fun _ => ⟨rfl, rfl⟩, id, fun _ => low⟩

/-- R162, R166: every send selects with RW low and ends its pulse with E low. -/
theorem low_sendEvents (width : Nat) (b : Byte) (rs : Level) (s : State) : LowPins (emitAll (sendEvents width b rs) s) := by
  have p : ∀ pins : Vector (Option Level) 11,
      (pinsAfter pins (sendEvents width b rs))[1] = some false ∧ (pinsAfter pins (sendEvents width b rs))[2] = some false := by
    intro pins
    unfold sendEvents
    split <;>
      simp [byte8Events, byte4Events, selectEvents, dataEvents8, nibbleEvents, dataEvents4, pulseEvents, pinsAfter]
  exact p s.pins

theorem low_gpioSend {b : Byte} {rs : Level} {s u : State} {a : Unit} (h : gpioSend b rs s = .ok a u) : LowPins u := by
  rcases returning_gpioSend b rs s with e | ⟨e, _⟩ <;> rw [e] at h <;> cases h
  exact low_sendEvents s.width b rs s

theorem along_wait (link : Link) (t : Nat) (s : State) : Along link s (wait t s) :=
  along_returning (returning_wait t s)
    ⟨rfl, ⟨waitEvent t, rfl, rfl, by cases link <;> simp [waitEvent, Allowed]⟩, rfl, id, fun _ => ⟨rfl, rfl⟩, id, id⟩

theorem flow_latchByte (link : Link) (b : Byte) (rs : Level) (s : State) : Flow link s (latchByte b rs s) :=
  ⟨rfl, ⟨[], by simp [pinsAfter]⟩, rfl, id, fun _ => ⟨rfl, rfl⟩, id, id⟩

theorem flow_latchSingle (link : Link) (n : Nibble) (rs : Level) (s : State) : Flow link s (latchSingle n rs s) :=
  ⟨rfl, ⟨[], by simp [pinsAfter]⟩, rfl, id, fun _ => ⟨rfl, rfl⟩, id, id⟩

theorem flow_latchNibble (link : Link) (n : Nibble) (s : State) : Flow link s (latchNibble n s) :=
  ⟨rfl, ⟨[], by simp [pinsAfter]⟩, rfl, id, fun _ => ⟨rfl, rfl⟩, id, id⟩

theorem allowed_sendEvents (width : Nat) (b : Byte) (rs : Level) (s : State) :
    ∀ e ∈ sendEvents width b rs, Allowed .gpio s e := by
  unfold sendEvents
  split <;>
    simp [byte8Events, byte4Events, selectEvents, dataEvents8, nibbleEvents, dataEvents4, pulseEvents, Allowed]

theorem along_gpioSend (b : Byte) (rs : Level) (s : State) : Along .gpio s (gpioSend b rs s) := by
  refine along_returning (returning_gpioSend b rs s) ?_
  have h : ({ afterSend b rs s with phase := s.phase + (sendEvents s.width b rs).length } : State) =
      { emitAll (sendEvents s.width b rs) (latchByte b rs s) with nib := (afterSend b rs s).nib } := by
    simp [afterSend, emitAll, latchByte, afterEvents]
  have f := (flow_latchByte .gpio b rs s).trans
    (flow_emitAll (evs := sendEvents s.width b rs) (allowed_sendEvents _ _ _ _) (low_sendEvents _ _ _ _))
  rw [h]
  exact ⟨by rw [f.frame], f.events, f.backlight, f.readWrite, f.gpio, f.answers, f.low⟩

theorem along_gpioSendSingle (n : Nibble) (rs : Level) (s : State) : Along .gpio s (gpioSendSingle n rs s) := by
  refine along_returning (returning_gpioSendSingle n rs s) ?_
  refine (flow_latchSingle .gpio n rs s).trans (flow_emitAll ?_ ?_)
  · simp [selectEvents, nibbleEvents, dataEvents4, pulseEvents, Allowed]
  · have p : ∀ pins : Vector (Option Level) 11, (pinsAfter pins (selectEvents rs ++ nibbleEvents n))[1] = some false ∧
        (pinsAfter pins (selectEvents rs ++ nibbleEvents n))[2] = some false := by
      intro pins; simp [selectEvents, nibbleEvents, dataEvents4, pulseEvents, pinsAfter]
    exact p _

/-! ### I2C -/

/-- One frame on the display path that keeps RW low and the backlight bit. -/
theorem along_writeLevels {f : Byte} {s : State} (rw : s.ioWrite[1] = false → f[1] = false)
    (bl : f[3] = s.ioWrite[3]) : Along .i2c s (writeLevels f s) := by
  have flow : ∀ env : Env, (BusAnswers s → BusAnswers { s with env := env }) →
      Flow .i2c s { emit (.i2cWrite s.addr f) { s with ioWrite := f } with env := env } := fun env h =>
    ⟨rfl, ⟨writeEvent s.addr f, rfl, rfl, by simpa [writeEvent, Allowed] using ⟨rw, bl⟩⟩, bl, rw, by simp, h, id⟩
  have ans : BusAnswers s → BusAnswers { s with
      env := { s.env with writes := s.env.writes.tail, draws := s.env.draws + 1 } } := fun h =>
    ⟨h.1, fun m => h.2.1 (List.mem_of_mem_tail m), h.2.2⟩
  have never : replyOf s.env.writes Config.freeWrite s.env.draws = .never → ¬BusAnswers s :=
    fun h b => replyOf_ne_never b.2.1 _ _ h
  unfold writeLevels busWrite
  revert never
  simp only
  cases replyOf s.env.writes Config.freeWrite s.env.draws with
  | answer a => exact fun _ => flow _ ans
  | failure c => exact fun _ => ⟨flow _ ans, rfl, fun _ => ⟨c, rfl⟩⟩
  | never => exact fun h => h rfl

/-- A level written to a pin that is not the backlight's, or RW's other than low. -/
theorem along_changePin {pin : Int} (legal : legalPin pin = true) (bl : pin ≠ 3) {v : Level} (rw : pin = 1 → v = false)
    (s : State) : Along .i2c s (changePin pin v s) := by
  have range : 0 ≤ pin ∧ pin ≤ 7 := by simpa [legalPin] using legal
  unfold changePin
  simp only [legal, require_true, andThen_ok]
  cases h : (decide (s.cfg.pinModePolicy = .permissive) || !s.ioConfig.getLsbD pin.toNat) with
  | true =>
    simp only [require_true, andThen_ok]
    refine along_writeLevels (f := setBit s.ioWrite pin.toNat v) (fun low => ?_) ?_
    · rw [setBit_bit _ (by omega) (by omega)]
      split
      · exact rw (by omega)
      · exact low
    · rw [setBit_bit _ (by omega) (by omega), if_neg (by omega)]
  | false =>
    simp only [require_false, andThen_fail]
    refine ⟨Flow.refl _ _, rfl, fun m => ?_⟩
    exfalso
    rcases m with m | m <;> simp [m] at h

theorem along_changePins (l : List (Int × Level)) (ok : ∀ x ∈ l, legalPin x.1 = true ∧ x.1 ≠ 3 ∧ (x.1 = 1 → x.2 = false))
    (s : State) : Along .i2c s (changePins l s) := by
  induction l generalizing s with
  | nil => exact along_ok
  | cons x rest ih =>
    have h := ok x (by simp)
    exact along_andThen (along_changePin h.1 h.2.1 h.2.2 s) fun t _ => ih (fun y hy => ok y (by simp [hy])) t

theorem along_nibbleCycle (n : Nibble) (rs : Level) (s : State) : Along .i2c s (nibbleCycle n rs s) := by
  unfold nibbleCycle
  cases s.cfg.granularity with
  | perPin =>
    refine along_from (flow_latchNibble _ n s) (along_andThen (along_changePins _ (by simp [nibblePins, legalPin]) _) ?_)
    intro t _
    refine along_andThen (along_changePin (by decide) (by decide) (by decide) t) fun u _ => ?_
    exact along_andThen (along_wait _ _ _) fun v _ => along_changePin (by decide) (by decide) (by decide) v
  | perPhase =>
    refine along_from (flow_latchNibble _ n s) (along_andThen (along_writeLevels ?_ ?_) fun t _ => ?_)
    · simp [i2cFrame_bits]
    · simp [i2cFrame_bits]
    refine along_andThen (along_writeLevels ?_ ?_) fun u _ =>
      along_andThen (along_wait _ _ _) fun v _ => along_writeLevels ?_ ?_ <;>
      simp [setBit_bit]

theorem along_i2cSend (b : Byte) (rs : Level) (s : State) : Along .i2c s (i2cSend b rs s) :=
  along_from (flow_latchByte _ b rs s) (along_andThen (along_nibbleCycle _ _ _) fun t _ => along_nibbleCycle _ _ t)

/-! ### Either transport -/

theorem along_sendInstruction (link : Link) (b : Byte) (rs : Level) (s : State) :
    Along link s (sendInstruction link b rs s) := by
  cases link with
  | gpio => exact along_gpioSend b rs s
  | i2c => exact along_i2cSend b rs s

theorem along_sendNibble (link : Link) (n : Nibble) (rs : Level) (s : State) : Along link s (sendNibble link n rs s) := by
  cases link with
  | gpio => exact along_gpioSendSingle n rs s
  | i2c => exact along_from (flow_latchSingle _ n rs s) (along_nibbleCycle _ _ _)

theorem along_sendCommand (link : Link) (c : Byte) (s : State) : Along link s (sendCommand link c s) :=
  along_sendInstruction link c false s

theorem along_sendData (link : Link) (l : List Byte) (s : State) : Along link s (sendData link l s) := by
  induction l generalizing s with
  | nil => exact along_ok
  | cons d rest ih => exact along_andThen (along_sendInstruction _ _ _ _) fun t _ => ih t

theorem along_thenWait {link : Link} {s : State} {x : Out Unit} (h : Along link s x) (t : Nat) :
    Along link s (thenWait t x) := along_andThen h fun t _ => along_wait _ _ t

theorem along_legacySend (link : Link) (s : State) : Along link s (legacySend link s) := by
  unfold legacySend
  split
  · exact along_sendCommand _ _ _
  · exact along_sendNibble _ _ _ _

/-! ### Steps that also write `DCB` -/

/-- As `Along`, but for the value `DCB` ends with. -/
def AlongDcb (link : Link) (s : State) (x : Out Unit) : Prop :=
  match x with
  | .ok _ t => Flow link { s with dcb := t.dcb } t
  | .fail f t => Flow link { s with dcb := t.dcb } t ∧ link = .i2c ∧ (MayWrite s → ∃ c, f = .transportError c)
  | .stuck r => Blocked s r

theorem blocked_dcb {s : State} {d : BitVec 3} {r : Fault} (h : Blocked { s with dcb := d } r) : Blocked s r := by
  cases r <;> exact h

theorem alongDcb_of_along {link : Link} {s : State} {x : Out Unit} {d : BitVec 3}
    (h : Along link { s with dcb := d } x) : AlongDcb link s x := by
  cases x with
  | ok a t =>
    have e : t.dcb = d := Flow.dcb h
    simp only [AlongDcb, e]; exact h
  | fail f t =>
    have e : t.dcb = d := h.1.dcb
    simp only [AlongDcb, e]; exact h
  | stuck r => exact blocked_dcb h

theorem Flow.withDcb {link : Link} {s t : State} (h : Flow link s t) (d : BitVec 3) :
    Flow link { s with dcb := d } { t with dcb := d } :=
  ⟨by rw [h.frame], h.events, h.backlight, h.readWrite, h.gpio, h.answers, h.low⟩

theorem alongDcb_andThen {link : Link} {s : State} {x : Out Unit} {k : State → Out Unit} (hx : AlongDcb link s x)
    (hk : ∀ t, AlongDcb link t (k t)) : AlongDcb link s (x.andThen k) := by
  cases x with
  | ok a t =>
    have h := hk t
    have f : Flow link { s with dcb := t.dcb } t := hx
    simp only [andThen_ok]
    revert h
    cases k t with
    | ok b u => exact fun h => (f.withDcb u.dcb).trans h
    | fail c u => exact fun h => ⟨(f.withDcb u.dcb).trans h.1, h.2.1, fun m => h.2.2 (f.mayWrite m)⟩
    | stuck r => exact fun h => blocked_dcb (f.blocked h)
  | fail f t => exact hx
  | stuck r => exact hx

theorem alongDcb_same {link : Link} {s : State} {x : Out Unit} (h : Along link s x) : AlongDcb link s x :=
  alongDcb_of_along (d := s.dcb) h

/-- R222, in every state, whichever way it ends. -/
theorem along_runInitialise (link : Link) (s : State) : AlongDcb link s (runInitialise link s) := by
  have legacy : ∀ t, AlongDcb link t (legacySend link t) := fun t => alongDcb_same (along_legacySend link t)
  have waited : ∀ n t, AlongDcb link t (thenWait n (legacySend link t)) := fun n t =>
    alongDcb_same (along_thenWait (along_legacySend link t) n)
  have command : ∀ c t, AlongDcb link t (sendCommand link c t) := fun c t => alongDcb_same (along_sendCommand link c t)
  have first : AlongDcb link s (thenWait tLegacy1 ((wait tPwr s).andThen (legacySend link))) :=
    alongDcb_same (along_thenWait (along_andThen (along_wait link tPwr s) fun t _ => along_legacySend link t) _)
  refine alongDcb_andThen first fun t => alongDcb_andThen (waited _ t) fun t => alongDcb_andThen (legacy t) fun t =>
    alongDcb_andThen (command _ t) fun t => alongDcb_andThen ?_ fun t =>
    alongDcb_andThen (alongDcb_same (along_thenWait (along_sendCommand link _ t) _)) fun t => command _ t
  exact alongDcb_of_along (along_sendCommand link _ _)

end Sys2Proof.Laws
end

