-- ==== Sys2Proof/Laws/Alike.lean ====
section
/-!
SUPPORT. Sends do not read `OP`, `PHASE` or the last result: two states that differ there alone stay so.
-/

namespace Sys2Proof.Laws

open Sys2Proof.Machine Sys2Proof.Safety

/-- The same but for the operation in progress, the sequencer and the last result. -/
def Alike (s t : State) : Prop := ∃ o p r, t = { s with op := o, phase := p, result := r }

/-- Steps that end the same way, in states that are alike. -/
def AlikeOut {α : Type} : Out α → Out α → Prop
  | .ok a s, .ok b t => a = b ∧ Alike s t
  | .fail f s, .fail g t => f = g ∧ Alike s t
  | .stuck r, .stuck q => r = q
  | _, _ => False

theorem Alike.refl (s : State) : Alike s s := ⟨s.op, s.phase, s.result, rfl⟩

theorem alike_accept (i j : Instr) (s : State) : Alike (accept i s) (accept j s) := ⟨some j, 0, none, rfl⟩

theorem alike_bind {α β : Type} {x y : Out α} {k l : α → State → Out β} (h : AlikeOut x y)
    (hk : ∀ a s t, Alike s t → AlikeOut (k a s) (l a t)) : AlikeOut (x.bind k) (y.bind l) := by
  cases x <;> cases y <;> simp_all [AlikeOut]

theorem alike_andThen {α β : Type} {x y : Out α} {k l : State → Out β} (h : AlikeOut x y)
    (hk : ∀ s t, Alike s t → AlikeOut (k s) (l t)) : AlikeOut (x.andThen k) (y.andThen l) :=
  alike_bind h fun _ s t => hk s t

theorem alike_require (c : Bool) (f : Failure) {s t : State} (h : Alike s t) :
    AlikeOut (require c f s) (require c f t) := by
  cases c
  · exact ⟨rfl, h⟩
  · exact ⟨rfl, h⟩

theorem alike_busWrite (b : Byte) {s t : State} (h : Alike s t) : AlikeOut (busWrite b s) (busWrite b t) := by
  obtain ⟨o, p, r, rfl⟩ := h
  simp only [busWrite]
  cases replyOf s.env.writes Config.freeWrite s.env.draws with
  | answer a => exact ⟨rfl, o, p + 1, r, rfl⟩
  | failure c => exact ⟨rfl, o, p + 1, r, rfl⟩
  | never => rfl

theorem alike_writeLevels (f : Byte) {s t : State} (h : Alike s t) : AlikeOut (writeLevels f s) (writeLevels f t) := by
  obtain ⟨o, p, r, rfl⟩ := h
  exact alike_busWrite f ⟨o, p, r, rfl⟩

theorem alike_changePin (pin : Int) (v : Level) {s t : State} (h : Alike s t) :
    AlikeOut (changePin pin v s) (changePin pin v t) := by
  unfold changePin
  refine alike_andThen (alike_require _ _ h) fun s t h => ?_
  obtain ⟨o, p, r, rfl⟩ := h
  refine alike_andThen (alike_require _ _ ⟨o, p, r, rfl⟩) fun s t h => ?_
  obtain ⟨o, p, r, rfl⟩ := h
  exact alike_busWrite _ ⟨o, p, r, rfl⟩

theorem alike_changePins (l : List (Int × Level)) {s t : State} (h : Alike s t) :
    AlikeOut (changePins l s) (changePins l t) := by
  induction l generalizing s t with
  | nil => exact ⟨rfl, h⟩
  | cons x rest ih => exact alike_andThen (alike_changePin x.1 x.2 h) fun s t h => ih h

theorem alike_wait (n : Nat) {s t : State} (h : Alike s t) : AlikeOut (wait n s) (wait n t) := by
  obtain ⟨o, p, r, rfl⟩ := h
  simp only [wait, emitReturning]
  split
  · rfl
  · exact ⟨rfl, o, p + 1, r, rfl⟩

theorem alike_pinSet (p : Position) (v : Level) {s t : State} (h : Alike s t) : Alike (pinSet p v s) (pinSet p v t) := by
  obtain ⟨o, q, r, rfl⟩ := h; exact ⟨o, q + 1, r, rfl⟩

theorem alike_drivePins (l : List (Position × Level)) {s t : State} (h : Alike s t) :
    Alike (drivePins l s) (drivePins l t) := by
  induction l generalizing s t with
  | nil => exact h
  | cons x rest ih => exact ih (alike_pinSet x.1 x.2 h)

theorem alike_gpioPulse {s t : State} (h : Alike s t) : AlikeOut (gpioPulse s) (gpioPulse t) :=
  alike_andThen (alike_wait _ (alike_pinSet _ _ h)) fun _ _ h =>
    alike_andThen (alike_wait _ (alike_pinSet _ _ h)) fun _ _ h => ⟨rfl, alike_pinSet _ _ h⟩

theorem alike_gpioNibble (n : Nibble) {s t : State} (h : Alike s t) : AlikeOut (gpioNibble n s) (gpioNibble n t) := by
  obtain ⟨o, q, r, rfl⟩ := h
  exact alike_gpioPulse (alike_drivePins _ ⟨o, q, r, rfl⟩)

theorem alike_gpioSend (b : Byte) (rs : Level) {s t : State} (h : Alike s t) :
    AlikeOut (gpioSend b rs s) (gpioSend b rs t) := by
  obtain ⟨o, q, r, rfl⟩ := h
  have h : Alike (gpioSelect rs (latchByte b rs s))
      (gpioSelect rs (latchByte b rs { s with op := o, phase := q, result := r })) :=
    alike_pinSet _ _ (alike_pinSet _ _ ⟨o, q, r, rfl⟩)
  unfold gpioSend
  by_cases w : s.width = 8
  · rw [if_pos (by exact w), if_pos (by exact w)]
    exact alike_gpioPulse (alike_drivePins _ h)
  · rw [if_neg (by exact w), if_neg (by exact w)]
    exact alike_andThen (alike_gpioNibble _ h) fun _ _ h => alike_gpioNibble _ h

theorem alike_gpioSendSingle (n : Nibble) (rs : Level) {s t : State} (h : Alike s t) :
    AlikeOut (gpioSendSingle n rs s) (gpioSendSingle n rs t) := by
  obtain ⟨o, q, r, rfl⟩ := h
  exact alike_gpioNibble _ (alike_pinSet _ _ (alike_pinSet _ _ ⟨o, q, r, rfl⟩))

theorem alike_nibbleCycle (n : Nibble) (rs : Level) {s t : State} (h : Alike s t) :
    AlikeOut (nibbleCycle n rs s) (nibbleCycle n rs t) := by
  obtain ⟨o, p, r, rfl⟩ := h
  have h : Alike (latchNibble n s) (latchNibble n { s with op := o, phase := p, result := r }) := ⟨o, p, r, rfl⟩
  unfold nibbleCycle
  cases s.cfg.granularity with
  | perPin =>
    exact alike_andThen (alike_changePins _ h) fun s t h => alike_andThen (alike_changePin _ _ h) fun s t h =>
      alike_andThen (alike_wait _ h) fun s t h => alike_changePin _ _ h
  | perPhase =>
    refine alike_andThen (alike_writeLevels _ h) fun s t h => ?_
    obtain ⟨o, p, r, rfl⟩ := h
    refine alike_andThen (alike_writeLevels _ ⟨o, p, r, rfl⟩) fun s t h => ?_
    obtain ⟨o, p, r, rfl⟩ := h
    refine alike_andThen (alike_wait _ ⟨o, p, r, rfl⟩) fun s t h => ?_
    obtain ⟨o, p, r, rfl⟩ := h
    exact alike_writeLevels _ ⟨o, p, r, rfl⟩

/-- R104: a send over either transport. -/
theorem alike_sendInstruction (link : Link) (b : Byte) (rs : Level) {s t : State} (h : Alike s t) :
    AlikeOut (sendInstruction link b rs s) (sendInstruction link b rs t) := by
  cases link with
  | gpio => exact alike_gpioSend b rs h
  | i2c =>
    obtain ⟨o, p, r, rfl⟩ := h
    exact alike_andThen (alike_nibbleCycle _ _ (s := latchByte b rs s) ⟨o, p, r, rfl⟩) fun s t h =>
      alike_nibbleCycle _ _ h

theorem alike_sendData (link : Link) (l : List Byte) {s t : State} (h : Alike s t) :
    AlikeOut (sendData link l s) (sendData link l t) := by
  induction l generalizing s t with
  | nil => exact ⟨rfl, h⟩
  | cons d rest ih => exact alike_andThen (alike_sendInstruction _ _ _ h) fun s t h => ih h

/-- Operations whose steps end alike answer alike. -/
theorem conclude_alike {x y : Out Unit} (h : AlikeOut x y) : conclude x = conclude y := by
  cases x with
  | ok a s =>
    cases y with
    | ok b t => obtain ⟨_, o, p, r, rfl⟩ := h; rfl
    | fail g t => exact h.elim
    | stuck q => exact h.elim
  | fail f s =>
    cases y with
    | ok b t => exact h.elim
    | fail g t => obtain ⟨rfl, o, p, r, rfl⟩ := h; rfl
    | stuck q => exact h.elim
  | stuck r =>
    cases y with
    | ok b t => exact h.elim
    | fail g t => exact h.elim
    | stuck q => exact congrArg Host.Outcome.fault h

end Sys2Proof.Laws
end

