-- ==== Sys2Proof/Laws/Accept.lean ====
section
/-!
SUPPORT. When each kind of operation is accepted, and what runs then (60_exceptions.md R306).
-/

namespace Sys2Proof.Laws

open Sys2Proof.Machine Sys2Proof.Safety

theorem displayOperation_ready {i : Instr} {body : Link → State → Out Unit} {s : State} {link : Link}
    (op : s.op = none) (mode : s.mode = .ready) (h : linkOf s.transport = some link) :
    displayOperation i body s = conclude (body link (accept i s)) := by
  simp [displayOperation, op, mode, h]

/-- A display operation that takes a step has been accepted. -/
theorem displayOperation_next {i : Instr} {body : Link → State → Out Unit} {s t : State}
    (h : displayOperation i body s = .next t) :
    s.op = none ∧ s.mode = .ready ∧ ∃ link, linkOf s.transport = some link ∧ conclude (body link (accept i s)) = .next t := by
  unfold displayOperation at h
  split at h
  · cases h
  · split at h
    · cases h
    · split at h
      · rename_i op mode _ link hl
        exact ⟨by simpa using op, by simpa using mode, link, hl, h⟩
      · cases h

/-- Two display operations with the same steps are the same operation of the machine. -/
theorem displayOperation_congr {i j : Instr} {f g : Link → State → Out Unit} (s : State)
    (h : ∀ link, AlikeOut (f link (accept i s)) (g link (accept j s))) :
    displayOperation i f s = displayOperation j g s := by
  unfold displayOperation
  split
  · rfl
  · split
    · rfl
    · split
      · exact conclude_alike (h _)
      · rfl

theorem hostOperation_ready {i : Instr} {offered : Option Transport → Bool} {run : State → Stepped} {s : State}
    (op : s.op = none) (mode : s.mode = .ready) (h : offered s.transport = true) :
    hostOperation i offered run s = run (accept i s) := by
  simp [hostOperation, op, mode, h]

theorem hostOperation_next {i : Instr} {offered : Option Transport → Bool} {run : State → Stepped} {s t : State}
    (h : hostOperation i offered run s = .next t) :
    s.op = none ∧ s.mode = .ready ∧ offered s.transport = true ∧ run (accept i s) = .next t := by
  unfold hostOperation at h
  split at h
  · cases h
  · split at h
    · cases h
    · split at h
      · rename_i op mode off
        exact ⟨by simpa using op, by simpa using mode, off, h⟩
      · cases h

theorem construction_start {i : Instr} {body : State → Out Unit} {s : State} (op : s.op = none)
    (mode : s.mode = .unconstructed) :
    construction i body s = concludeConstruction (body (startConstruction i s)) := by
  simp [construction, op, mode]

theorem construction_next {i : Instr} {body : State → Out Unit} {s t : State} (h : construction i body s = .next t) :
    s.op = none ∧ s.mode = .unconstructed ∧ concludeConstruction (body (startConstruction i s)) = .next t := by
  unfold construction at h
  split at h
  · cases h
  · split at h
    · cases h
    · rename_i op mode
      exact ⟨by simpa using op, by simpa using mode, h⟩

theorem inlineSteps_inside {offered : Option Transport → Bool} {body : State → Out Unit} {s : State}
    (inside : InsideOperation s) (h : offered s.transport = true) :
    inlineSteps offered body s = concludeInline (body s) := by
  obtain ⟨op, mode⟩ := inside
  have hop : s.op.isNone = false := by cases e : s.op <;> simp_all
  rcases mode with mode | mode <;> simp [inlineSteps, hop, mode, h]

theorem inlineSteps_next {offered : Option Transport → Bool} {body : State → Out Unit} {s t : State}
    (h : inlineSteps offered body s = .next t) :
    InsideOperation s ∧ offered s.transport = true ∧ concludeInline (body s) = .next t := by
  unfold inlineSteps at h
  split at h
  · cases h
  · split at h
    · cases h
    · split at h
      · rename_i op mode off
        refine ⟨⟨by simpa using op, ?_⟩, off, h⟩
        by_contra hm
        exact mode (by simpa [not_or] using hm)
      · cases h

theorem constructionSteps_inside {offered : Option Transport → Bool} {body : State → Out Unit} {s : State}
    (op : s.op ≠ none) (mode : s.mode = .constructing) (h : offered s.transport = true) :
    constructionSteps offered body s = concludeInline (body s) := by
  have hop : s.op.isNone = false := by cases e : s.op <;> simp_all
  simp [constructionSteps, hop, mode, h]

theorem constructionSteps_next {offered : Option Transport → Bool} {body : State → Out Unit} {s t : State}
    (h : constructionSteps offered body s = .next t) :
    s.op ≠ none ∧ s.mode = .constructing ∧ offered s.transport = true ∧ concludeInline (body s) = .next t := by
  unfold constructionSteps at h
  split at h
  · cases h
  · split at h
    · cases h
    · split at h
      · rename_i op mode off
        exact ⟨by simpa using op, by simpa using mode, off, h⟩
      · cases h

/-! ### Where each is refused -/

theorem displayOperation_refused {i : Instr} {body : Link → State → Out Unit} {s : State}
    (h : ¬OfferedOnDisplay s) : ∃ r, displayOperation i body s = .refused r := by
  unfold displayOperation
  split
  · exact ⟨_, rfl⟩
  · split
    · exact ⟨_, rfl⟩
    · split
      · rename_i op mode _ link hl
        exact absurd ⟨by simpa using op, by simpa using mode, by simp [hl]⟩ h
      · exact ⟨_, rfl⟩

theorem hostOperation_refused {i : Instr} {offered : Option Transport → Bool} {run : State → Stepped} {s : State}
    (h : ¬(s.op = none ∧ s.mode = .ready ∧ offered s.transport = true)) :
    ∃ r, hostOperation i offered run s = .refused r := by
  unfold hostOperation
  split
  · exact ⟨_, rfl⟩
  · split
    · exact ⟨_, rfl⟩
    · split
      · rename_i op mode off
        exact absurd ⟨by simpa using op, by simpa using mode, off⟩ h
      · exact ⟨_, rfl⟩

theorem construction_refused {i : Instr} {body : State → Out Unit} {s : State}
    (h : ¬(s.op = none ∧ s.mode = .unconstructed)) : ∃ r, construction i body s = .refused r := by
  unfold construction
  split
  · exact ⟨_, rfl⟩
  · split
    · exact ⟨_, rfl⟩
    · rename_i op mode
      exact absurd ⟨by simpa using op, by simpa using mode⟩ h

theorem inlineSteps_refused {offered : Option Transport → Bool} {body : State → Out Unit} {s : State}
    (h : ¬(InsideOperation s ∧ offered s.transport = true)) : ∃ r, inlineSteps offered body s = .refused r := by
  unfold inlineSteps
  split
  · exact ⟨_, rfl⟩
  · split
    · exact ⟨_, rfl⟩
    · split
      · rename_i op mode off
        refine absurd ⟨⟨by simpa using op, ?_⟩, off⟩ h
        by_contra hm
        exact mode (by simpa [not_or] using hm)
      · exact ⟨_, rfl⟩

theorem constructionSteps_refused {offered : Option Transport → Bool} {body : State → Out Unit} {s : State}
    (h : ¬(s.op ≠ none ∧ s.mode = .constructing ∧ offered s.transport = true)) :
    ∃ r, constructionSteps offered body s = .refused r := by
  unfold constructionSteps
  split
  · exact ⟨_, rfl⟩
  · split
    · exact ⟨_, rfl⟩
    · split
      · rename_i op mode off
        exact absurd ⟨by simpa using op, by simpa using mode, off⟩ h
      · exact ⟨_, rfl⟩

/-! ### How an accepted one ends -/

theorem conclude_cases {x : Out Unit} {t : State} (h : conclude x = .next t) :
    (∃ u, x = .ok () u ∧ t = endOperation .ok u) ∨ ∃ f u, x = .fail f u ∧ t = endOperation (.fail f) u := by
  cases x with
  | ok a u => cases h; exact .inl ⟨u, rfl, rfl⟩
  | fail f u => cases h; exact .inr ⟨f, u, rfl, rfl⟩
  | stuck r => cases h

theorem concludeValue_cases {x : Out Level} {t : State} (h : concludeValue x = .next t) :
    (∃ v u, x = .ok v u ∧ t = endOperation (.okValue v) u) ∨ ∃ f u, x = .fail f u ∧ t = endOperation (.fail f) u := by
  cases x with
  | ok a u => cases h; exact .inl ⟨a, u, rfl, rfl⟩
  | fail f u => cases h; exact .inr ⟨f, u, rfl, rfl⟩
  | stuck r => cases h

theorem concludeInline_cases {x : Out Unit} {t : State} (h : concludeInline x = .next t) :
    x = .ok () t ∨ ∃ f u, x = .fail f u ∧
      t = if u.mode = .constructing then takeConstructionFailure f u else takeFailure f u := by
  cases x with
  | ok a u => cases h; exact .inl rfl
  | fail f u => cases h; exact .inr ⟨f, u, rfl, rfl⟩
  | stuck r => cases h

theorem concludeConstruction_cases {x : Out Unit} {t : State} (h : concludeConstruction x = .next t) :
    (∃ u, x = .ok () u ∧ t = endOperation .ok { u with mode := .ready }) ∨
      ∃ f u, x = .fail f u ∧ t = takeConstructionFailure f u := by
  cases x with
  | ok a u => cases h; exact .inl ⟨u, rfl, rfl⟩
  | fail f u => cases h; exact .inr ⟨f, u, rfl, rfl⟩
  | stuck r => cases h

/-- Only a hang keeps an operation from a next state. -/
theorem conclude_completes {x : Out Unit} (h : ∀ r, x ≠ .stuck r) : ∃ t, conclude x = .next t := by
  cases x with
  | stuck r => exact absurd rfl (h r)
  | ok a u => exact ⟨_, rfl⟩
  | fail f u => exact ⟨_, rfl⟩

theorem concludeValue_completes {x : Out Level} (h : ∀ r, x ≠ .stuck r) : ∃ t, concludeValue x = .next t := by
  cases x with
  | stuck r => exact absurd rfl (h r)
  | ok a u => exact ⟨_, rfl⟩
  | fail f u => exact ⟨_, rfl⟩

theorem concludeInline_completes {x : Out Unit} (h : ∀ r, x ≠ .stuck r) : ∃ t, concludeInline x = .next t := by
  cases x with
  | stuck r => exact absurd rfl (h r)
  | ok a u => exact ⟨_, rfl⟩
  | fail f u => exact ⟨_, rfl⟩

theorem concludeConstruction_completes {x : Out Unit} (h : ∀ r, x ≠ .stuck r) :
    ∃ t, concludeConstruction x = .next t := by
  cases x with
  | stuck r => exact absurd rfl (h r)
  | ok a u => exact ⟨_, rfl⟩
  | fail f u => exact ⟨_, rfl⟩

/-- Log 3: every LCD row is the raw send of its byte, whatever class the byte is of. -/
theorem exec_lcdByte {rs : Level} {c : Byte} {i : Instr} (h : decode (.lcdByte rs c) = .ok i) (s : State) :
    exec i s = displayOperation i (fun link => sendInstruction link c rs) s := by
  cases rs with
  | true => cases h; rfl
  | false =>
    have back : ∀ c : Byte, ∀ i, decodeCommand c = .ok i → encode i = .lcdByte false c := by
      have all : ∀ c : Byte, (decodeCommand c).toOption.all (fun i => decide (encode i = .lcdByte false c)) = true := by
        decide
      intro c i h
      have e := all c
      rw [h] at e
      exact of_decide_eq_true e
    have e := back c i h
    have raw : ∀ i, decodeCommand c = .ok i → ∀ j, i = j → encode j = .lcdByte false c → exec j s =
        displayOperation j (fun link => sendInstruction link c false) s := by
      intro i hi j hj ej
      simp only [decodeCommand] at hi
      split_ifs at hi
      all_goals
        cases hi
        cases hj
        simp only [encode, Presented.lcdByte.injEq, true_and] at ej
        exact congrArg (fun b => displayOperation _ (fun link => sendInstruction link b false) s) ej
    exact raw i h i rfl e

/-- A raw send of the attached transport, under whichever operation's name. -/
theorem rawSend_eq (i : Instr) (b : Byte) (rs : Level) (s : State) :
    rawSend b rs s = displayOperation i (fun link => sendInstruction link b rs) s := by
  have alike : ∀ (j : Instr) (link : Link),
      conclude (sendInstruction link b rs (accept j s)) = conclude (sendInstruction link b rs (accept i s)) :=
    fun j link => conclude_alike (alike_sendInstruction _ _ _ (alike_accept _ _ _))
  have gpio := alike (.gpioSendInstruction b rs) .gpio
  have i2c := alike (.i2cSendInstruction b rs) .i2c
  simp only [rawSend, exec, execGpioSendInstruction, execI2cSendInstruction, hostOperation, displayOperation]
  simp only [sendInstruction] at gpio i2c ⊢
  rcases s.transport with _ | _ | _ | _ | _ <;> simp [onGpio, onI2c, linkOf, gpio, i2c]

end Sys2Proof.Laws
end

