-- ==== Sys2Proof/Laws/Expander.lean ====
section
/-!
SUPPORT. What one bus event and one expander primitive can do, said once: refused before anything, hung, or one event
with its answer.
-/

namespace Sys2Proof.Laws

open Sys2Proof.Machine Sys2Proof.Safety

/-- One bus event: the trace, the sequencer and the answers, nothing else. -/
def Bused (s u : State) (e : Event) : Prop :=
  u = { s with trace := s.trace ++ [e], phase := s.phase + 1, env := u.env } ∧ (BusAnswers s → BusAnswers u)

theorem Bused.blocked {s u : State} {e : Event} (h : Bused s u e) {r : Fault} (b : Blocked u r) : Blocked s r := by
  have f := h.1
  cases r with
  | busNeverAnswers => exact fun a => b (h.2 a)
  | eventNeverReturns => exact fun a => b (eventsReturn_later a (by rw [f]) (by rw [f]; simp))

theorem bused (e : Event) (env : Env) {s : State} (h : BusAnswers s → BusAnswers { s with env := env }) :
    Bused s { emit e s with env := env } e := ⟨rfl, h⟩

theorem busWrite_cases (b : Byte) (s : State) :
    (∃ r, busWrite b s = .stuck r ∧ Blocked s r) ∨
      ∃ u, Bused s u (.i2cWrite s.addr b) ∧
        (busWrite b s = .ok () u ∨ ∃ c, busWrite b s = .fail (.transportError c) u) := by
  have never : replyOf s.env.writes Config.freeWrite s.env.draws = .never → ¬BusAnswers s :=
    fun h b => replyOf_ne_never b.2.1 _ _ h
  have ans : BusAnswers s → BusAnswers { s with
      env := { s.env with writes := s.env.writes.tail, draws := s.env.draws + 1 } } := fun h =>
    ⟨h.1, fun m => h.2.1 (List.mem_of_mem_tail m), h.2.2⟩
  unfold busWrite
  revert never
  cases replyOf s.env.writes Config.freeWrite s.env.draws with
  | answer a => exact fun _ => .inr ⟨_, bused _ _ ans, .inl rfl⟩
  | failure c => exact fun _ => .inr ⟨_, bused _ _ ans, .inr ⟨c, rfl⟩⟩
  | never => exact fun h => .inl ⟨_, rfl, h rfl⟩

theorem busRead_cases (s : State) :
    (∃ r, busRead s = .stuck r ∧ Blocked s r) ∨
      ∃ u, Bused s u (.i2cRead s.addr) ∧
        ((∃ a, busRead s = .ok a u) ∨ ∃ c, busRead s = .fail (.transportError c) u) := by
  have never : replyOf s.env.reads Config.freeRead s.env.draws = .never → ¬BusAnswers s :=
    fun h b => replyOf_ne_never b.2.2 _ _ h
  have ans : BusAnswers s → BusAnswers { s with
      env := { s.env with reads := s.env.reads.tail, draws := s.env.draws + 1 } } := fun h =>
    ⟨h.1, h.2.1, fun m => h.2.2 (List.mem_of_mem_tail m)⟩
  unfold busRead
  revert never
  cases replyOf s.env.reads Config.freeRead s.env.draws with
  | answer a => exact fun _ => .inr ⟨_, bused _ _ ans, .inl ⟨a, rfl⟩⟩
  | failure c => exact fun _ => .inr ⟨_, bused _ _ ans, .inr ⟨c, rfl⟩⟩
  | never => exact fun h => .inl ⟨_, rfl, h rfl⟩

theorem busScan_cases (s : State) :
    (∃ r, busScan s = .stuck r ∧ Blocked s r) ∨
      ∃ u, Bused s u .i2cScan ∧
        ((∃ a, busScan s = .ok a u) ∨ ∃ c, busScan s = .fail (.transportError c) u) := by
  have never : replyOf s.env.scans Config.freeScan s.env.draws = .never → ¬BusAnswers s :=
    fun h b => replyOf_ne_never b.1 _ _ h
  have ans : BusAnswers s → BusAnswers { s with
      env := { s.env with scans := s.env.scans.tail, draws := s.env.draws + 1 } } := fun h =>
    ⟨fun m => h.1 (List.mem_of_mem_tail m), h.2.1, h.2.2⟩
  unfold busScan
  revert never
  cases replyOf s.env.scans Config.freeScan s.env.draws with
  | answer a => exact fun _ => .inr ⟨_, bused _ _ ans, .inl ⟨a, rfl⟩⟩
  | failure c => exact fun _ => .inr ⟨_, bused _ _ ans, .inr ⟨c, rfl⟩⟩
  | never => exact fun h => .inl ⟨_, rfl, h rfl⟩

/-- The state `release` leaves (R138): the bus released once. -/
def afterRelease (s : State) : State :=
  { (if s.released then s else { emit .busRelease s with released := true }) with mode := .released }

/-- R138: it ends ok there unless `BusRelease` never returns. -/
theorem returning_releaseBus (s : State) : Returning s (releaseBus s) (afterRelease s) := by
  unfold releaseBus afterRelease
  cases s.released with
  | true => exact .inl rfl
  | false =>
    rcases emitReturning_cases .busRelease s with h | ⟨h, b⟩
    · exact .inl (by rw [h]; rfl)
    · exact .inr ⟨by rw [h]; rfl, b⟩

/-- Bus events and the two expander registers, nothing else. -/
def Touched (s u : State) (evs : List Event) : Prop :=
  u = { s with
    trace := s.trace ++ evs, phase := u.phase, env := u.env, ioWrite := u.ioWrite, ioConfig := u.ioConfig } ∧
    (BusAnswers s → BusAnswers u)

theorem Touched.blocked {s u : State} {evs : List Event} (h : Touched s u evs) {r : Fault} (b : Blocked u r) :
    Blocked s r := by
  have f := h.1
  cases r with
  | busNeverAnswers => exact fun a => b (h.2 a)
  | eventNeverReturns => exact fun a => b (eventsReturn_later a (by rw [f]) (by rw [f]; simp))

/-- R135: refused before anything, or one write of the whole `IO_WRITE` byte. -/
theorem changePin_cases (pin : Int) (v : Level) (s : State) :
    (∃ f, changePin pin v s = .fail f s ∧ f.failureClass ≠ .deviceError ∧ (legalPin pin = true → ¬MayWrite s)) ∨
    (∃ r, changePin pin v s = .stuck r ∧ Blocked s r) ∨
    (∃ u, legalPin pin = true ∧ Touched s u [.i2cWrite s.addr u.ioWrite] ∧ u.ioConfig = s.ioConfig ∧
      u.ioWrite = setBit s.ioWrite pin.toNat v ∧
      (changePin pin v s = .ok () u ∨ ∃ c, changePin pin v s = .fail (.transportError c) u)) := by
  unfold changePin
  cases hl : legalPin pin with
  | false => exact .inl ⟨_, rfl, by simp [Failure.failureClass], by simp⟩
  | true =>
    simp only [require_true, andThen_ok]
    cases h : (decide (s.cfg.pinModePolicy = .permissive) || !s.ioConfig.getLsbD pin.toNat) with
    | false => exact .inl ⟨_, rfl, by simp [Failure.failureClass], fun _ m => by rcases m with m | m <;> simp [m] at h⟩
    | true =>
      simp only [require_true, andThen_ok]
      rcases busWrite_cases (setBit s.ioWrite pin.toNat v) { s with ioWrite := setBit s.ioWrite pin.toNat v } with
        ⟨r, hr, hb⟩ | ⟨u, hu, ho⟩
      · exact .inr (.inl ⟨r, hr, hb⟩)
      · have e := hu.1
        refine .inr (.inr ⟨u, trivial, ⟨?_, hu.2⟩, by rw [e], by rw [e], ho⟩)
        rw [e]

/-- R134: refused before anything, or one write of the whole `IO_CONFIG` byte. -/
theorem changePinMode_cases (pin : Int) (v : Bool) (s : State) :
    (∃ f, changePinMode pin v s = .fail f s ∧ f.failureClass ≠ .deviceError ∧ legalPin pin = false) ∨
    (∃ r, changePinMode pin v s = .stuck r ∧ Blocked s r) ∨
    (∃ u, legalPin pin = true ∧ Touched s u [.i2cWrite s.addr u.ioConfig] ∧ u.ioWrite = s.ioWrite ∧
      u.ioConfig = setBit s.ioConfig pin.toNat v ∧
      (changePinMode pin v s = .ok () u ∨ ∃ c, changePinMode pin v s = .fail (.transportError c) u)) := by
  unfold changePinMode
  cases hl : legalPin pin with
  | false => exact .inl ⟨_, rfl, by simp [Failure.failureClass], rfl⟩
  | true =>
    simp only [require_true, andThen_ok]
    rcases busWrite_cases (setBit s.ioConfig pin.toNat v) { s with ioConfig := setBit s.ioConfig pin.toNat v } with
      ⟨r, hr, hb⟩ | ⟨u, hu, ho⟩
    · exact .inr (.inl ⟨r, hr, hb⟩)
    · have e := hu.1
      refine .inr (.inr ⟨u, trivial, ⟨?_, hu.2⟩, by rw [e], by rw [e], ho⟩)
      rw [e]

/-- R136: refused before anything, or one read. -/
theorem samplePin_cases (pin : Int) (s : State) :
    (∃ f, samplePin pin s = .fail f s ∧ f.failureClass ≠ .deviceError) ∨
    (∃ r, samplePin pin s = .stuck r ∧ Blocked s r) ∨
    (∃ u, Bused s u (.i2cRead s.addr) ∧
      ((∃ v, samplePin pin s = .ok v u) ∨ ∃ c, samplePin pin s = .fail (.transportError c) u)) := by
  unfold samplePin
  cases hl : legalPin pin with
  | false => exact .inl ⟨_, rfl, by simp [Failure.failureClass]⟩
  | true =>
    simp only [require_true, andThen_ok]
    cases h : (decide (s.cfg.pinModePolicy = .permissive) || s.ioConfig.getLsbD pin.toNat) with
    | false => exact .inl ⟨_, rfl, by simp [Failure.failureClass]⟩
    | true =>
      simp only [require_true, andThen_ok]
      rcases busRead_cases s with ⟨r, hr, hb⟩ | ⟨u, hu, ⟨a, ho⟩ | ⟨c, ho⟩⟩
      · exact .inr (.inl ⟨r, by rw [hr]; rfl, hb⟩)
      · exact .inr (.inr ⟨u, hu, .inl ⟨_, by rw [ho]; rfl⟩⟩)
      · exact .inr (.inr ⟨u, hu, .inr ⟨c, by rw [ho]; rfl⟩⟩)

/-- R130: refused before anything, or one scan. -/
theorem attachExpander_cases (a : Int) (s : State) :
    attachExpander a s = .fail (.invalidAddress a) s ∨
    (∃ r, attachExpander a s = .stuck r ∧ Blocked s r) ∨
    (∃ u, Bused s u .i2cScan ∧ legalAddress s.cfg.addrPolicy a = true ∧
      ((∃ f, attachExpander a s = .fail f u) ∨
        attachExpander a s = .ok () { u with
          addr := BitVec.ofInt 7 a, ioConfig := 0x00#8, ioWrite := 0x00#8, released := false })) := by
  unfold attachExpander
  cases hl : legalAddress s.cfg.addrPolicy a with
  | false => exact .inl rfl
  | true =>
    simp only [require_true, andThen_ok]
    rcases busScan_cases s with ⟨r, hr, hb⟩ | ⟨u, hu, ⟨found, ho⟩ | ⟨c, ho⟩⟩
    · exact .inr (.inl ⟨r, by rw [hr]; rfl, hb⟩)
    · refine .inr (.inr ⟨u, hu, trivial, ?_⟩)
      rw [ho]
      simp only [bind_ok]
      cases found.contains (BitVec.ofInt 7 a) with
      | false => exact .inl ⟨_, rfl⟩
      | true => exact .inr rfl
    · exact .inr (.inr ⟨u, hu, trivial, .inl ⟨_, by rw [ho]; rfl⟩⟩)

end Sys2Proof.Laws
end

