-- ==== Sys2Proof/Laws/Perform.lean ====
section
/-!
SUPPORT. Commands over I2C in sequence, whatever the bus answers: whole when every write is answered ok, cut at the write
that fails, hung at the write that is never answered (42_i2c_transport.md R198, 70_reset_and_hazards.md R346).
-/

namespace Sys2Proof.Laws

open Sys2Proof.Machine Sys2Proof.Safety

/-- What a run of commands over I2C amounts to: its events, and what it leaves in the registers it writes. -/
structure Effect where
  events : List Event
  levels : Byte
  ib : Option Byte
  nib : Nibble
  sent : List Sent
  dcb : BitVec 3

/-- The state after the whole run; `rest` are the answers left. -/
def Effect.after (e : Effect) (rest : List (Reply Unit)) (s : State) : State :=
  { afterWrites (writeCount e.events) rest s with
    trace := s.trace ++ e.events
    phase := s.phase + e.events.length
    ioWrite := e.levels
    ib := e.ib
    rsel := some false
    nib := some e.nib
    sent := s.sent ++ e.sent
    dcb := e.dcb }

theorem mayWrite_after {e : Effect} {rest : List (Reply Unit)} {s : State} (m : MayWrite s) :
    MayWrite (e.after rest s) := m

/-- One run, then another. -/
def Effect.andThen (e f : Effect) : Effect := { f with events := e.events ++ f.events, sent := e.sent ++ f.sent }

/-- A minimum wait after the run. -/
def Effect.thenWait (e : Effect) (t : Nat) : Effect := { e with events := e.events ++ waitEvent t }

/-- A minimum wait before the run. -/
def Effect.afterWait (e : Effect) (t : Nat) : Effect := { e with events := waitEvent t ++ e.events }

/-- `evs` is `full` up to its write number `k + 1`, to this address. -/
def EndsAtWrite (a : BusAddr) (k : Nat) (evs full : List Event) : Prop :=
  evs <+: full ∧ writeCount evs = k + 1 ∧ ∃ f, evs.getLast? = some (.i2cWrite a f)

/-- `u` is `s` some events later, `n` of them writes, but for the registers a failed construction discards. -/
def Left (s u : State) (n : Nat) (rest : List (Reply Unit)) (evs : List Event) (sent : List Sent) : Prop :=
  u.mode = s.mode ∧ discardRegisters u = discardRegisters { afterWrites n rest s with
    trace := s.trace ++ evs
    sent := s.sent ++ sent }

/-- The first `k` writes from `s` are answered ok, the next one so. -/
def FirstBad (k : Nat) (r : Reply Unit) (rest : List (Reply Unit)) (s : State) : Prop :=
  s.env.writes = List.replicate k (.answer ()) ++ r :: rest

/-- `x`, started in `s`, is the run `e`, whatever the bus answers; every wait returns. -/
structure Performs (s : State) (x : Out Unit) (e : Effect) : Prop where
  whole : EventsReturn s → ∀ rest, NextWritesOk (writeCount e.events) rest s → x = .ok () (e.after rest s)
  cut : EventsReturn s → ∀ k c rest, k < writeCount e.events → FirstBad k (.failure c) rest s →
    ∃ u evs sent, x = .fail (.transportError c) u ∧ Left s u (k + 1) rest evs sent ∧
      EndsAtWrite s.addr k evs e.events ∧ sent <+: e.sent
  hung : EventsReturn s → ∀ k rest, k < writeCount e.events → FirstBad k .never rest s → x = .stuck .busNeverAnswers

theorem returns_after {e : Effect} {rest : List (Reply Unit)} {s : State} (ret : EventsReturn s) :
    EventsReturn (e.after rest s) := eventsReturn_later ret rfl (by simp [Effect.after])

theorem EndsAtWrite.append_right {a : BusAddr} {k : Nat} {evs full more : List Event} (h : EndsAtWrite a k evs full) :
    EndsAtWrite a k evs (full ++ more) :=
  ⟨h.1.trans (List.prefix_append _ _), h.2⟩

theorem EndsAtWrite.append_left {a : BusAddr} {k : Nat} {evs full : List Event} (before : List Event)
    (h : EndsAtWrite a k evs full) : EndsAtWrite a (writeCount before + k) (before ++ evs) (before ++ full) := by
  obtain ⟨p, c, f, l⟩ := h
  refine ⟨(List.prefix_append_right_inj before).mpr p, by rw [writeCount_append, c, Nat.add_assoc], f, ?_⟩
  rw [List.getLast?_append, l]
  rfl

/-- Two runs in sequence. -/
theorem performs_andThen {s : State} {x : Out Unit} {k : State → Out Unit} {e f : Effect} (h : Performs s x e)
    (hk : ∀ rest, Performs (e.after rest s) (k (e.after rest s)) f) : Performs s (x.andThen k) (e.andThen f) := by
  have count : writeCount (e.andThen f).events = writeCount e.events + writeCount f.events := writeCount_append _ _
  have later : ∀ n r rest, ¬n < writeCount e.events → FirstBad n r rest s →
      NextWritesOk (writeCount e.events) (List.replicate (n - writeCount e.events) (.answer ()) ++ r :: rest) s := by
    intro n r rest hn hb
    rw [NextWritesOk, hb, ← List.append_assoc, ← List.replicate_add]
    congr 3
    omega
  constructor
  · intro ret rest hr
    rw [NextWritesOk, count, List.replicate_add, List.append_assoc] at hr
    rw [h.whole ret _ hr, andThen_ok, (hk _).whole (returns_after ret) rest rfl]
    simp [Effect.after, Effect.andThen, afterWrites, writeCount_append, Nat.add_assoc]
  · intro ret n c rest hn hb
    by_cases hlt : n < writeCount e.events
    · obtain ⟨u, evs, sent, hu, left, ends, pre⟩ := h.cut ret n c rest hlt hb
      exact ⟨u, evs, sent, by rw [hu, andThen_fail], left, ends.append_right, pre.trans (List.prefix_append _ _)⟩
    · have w := h.whole ret _ (later n _ rest hlt hb)
      obtain ⟨u, evs, sent, hu, left, ends, pre⟩ :=
        (hk _).cut (returns_after ret) (n - writeCount e.events) c rest (by omega) rfl
      refine ⟨u, e.events ++ evs, e.sent ++ sent, by rw [w, andThen_ok, hu], ⟨left.1, left.2.trans ?_⟩, ?_,
        (List.prefix_append_right_inj _).mpr pre⟩
      · simp [discardRegisters, Effect.after, afterWrites]
        omega
      · have i := ends.append_left e.events
        rwa [Nat.add_sub_cancel' (by omega)] at i
  · intro ret n rest hn hb
    by_cases hlt : n < writeCount e.events
    · rw [h.hung ret n rest hlt hb]
      rfl
    · rw [h.whole ret _ (later n _ rest hlt hb), andThen_ok]
      exact (hk _).hung (returns_after ret) (n - writeCount e.events) rest (by omega) rfl

theorem performs_thenWait {s : State} {x : Out Unit} {e : Effect} (t : Nat) (h : Performs s x e) :
    Performs s (Machine.thenWait t x) (e.thenWait t) := by
  have count : writeCount (e.thenWait t).events = writeCount e.events := by
    simp [Effect.thenWait, writeCount_append, waitEvent, writeCount]
  constructor
  · intro ret rest hr
    rw [count] at hr
    rw [Machine.thenWait, h.whole ret rest hr, andThen_ok, wait_ok t (returns_after ret)]
    simp [Effect.after, count, afterWrites, emit]
    simp [Effect.thenWait, waitEvent, Nat.add_assoc]
  · intro ret n c rest hn hb
    rw [count] at hn
    obtain ⟨u, evs, sent, hu, left, ends, pre⟩ := h.cut ret n c rest hn hb
    exact ⟨u, evs, sent, by rw [Machine.thenWait, hu, andThen_fail], left, ends.append_right, pre⟩
  · intro ret n rest hn hb
    rw [count] at hn
    rw [Machine.thenWait, h.hung ret n rest hn hb]
    rfl

theorem performs_afterWait {s : State} {k : State → Out Unit} {e : Effect} {t : Nat}
    (h : Performs (emit (.wait t) s) (k (emit (.wait t) s)) e) :
    Performs s ((wait t s).andThen k) (e.afterWait t) := by
  have later : EventsReturn s → EventsReturn (emit (.wait t) s) := fun ret => eventsReturn_later ret rfl (by simp)
  have count : writeCount (e.afterWait t).events = writeCount e.events := by
    simp [Effect.afterWait, waitEvent, writeCount]
  constructor
  · intro ret rest hr
    rw [count] at hr
    rw [wait_ok t ret, andThen_ok, h.whole (later ret) rest hr]
    simp [Effect.after, count, afterWrites, emit]
    simp [Effect.afterWait, waitEvent]
    omega
  · intro ret n c rest hn hb
    rw [count] at hn
    obtain ⟨u, evs, sent, hu, left, ends, pre⟩ := h.cut (later ret) n c rest hn hb
    refine ⟨u, waitEvent t ++ evs, sent, by rw [wait_ok t ret, andThen_ok, hu], ⟨left.1, left.2.trans ?_⟩, ?_, pre⟩
    · simp [discardRegisters, afterWrites, emit, waitEvent]
    · have i := ends.append_left (waitEvent t)
      rwa [show writeCount (waitEvent t) + n = n by simp [waitEvent, writeCount]] at i
  · intro ret n rest hn hb
    rw [count] at hn
    rw [wait_ok t ret, andThen_ok]
    exact h.hung (later ret) n rest hn hb

theorem runEvents_never {evs : List Event} {s : State} (ret : EventsReturn s) (only : OnlyFrames s.addr evs) {k : Nat}
    {rest : List (Reply Unit)} (hk : k < writeCount evs) (h : FirstBad k .never rest s) :
    runEvents evs s = .stuck .busNeverAnswers := by
  induction evs generalizing s k with
  | nil => simp [writeCount] at hk
  | cons e tail ih =>
    have tailOnly : OnlyFrames s.addr tail := fun x hx => only x (by simp [hx])
    rcases only e (by simp) with ⟨f, rfl⟩ | ⟨t, rfl⟩
    · cases k with
      | zero =>
        simp only [runEvents, writeLevels]
        rw [busWrite_never (s := { s with ioWrite := f }) (rest := rest) h]
        rfl
      | succ k =>
        simp only [runEvents, writeLevels]
        have h : s.env.writes = .answer () :: (List.replicate k (.answer ()) ++ .never :: rest) := h
        rw [busWrite_ok (s := { s with ioWrite := f }) h, andThen_ok]
        exact ih (s := { afterWrites 1 (List.replicate k (Reply.answer ()) ++ .never :: rest) { s with ioWrite := f } with
            trace := s.trace ++ writeEvent s.addr f, phase := s.phase + 1 }) (eventsReturn_later ret rfl (by simp))
          tailOnly (k := k)
            (by simpa [writeCount] using hk) (by rfl)
    · simp only [runEvents, wait_ok t ret, andThen_ok]
      exact ih (s := emit (.wait t) s) (eventsReturn_later ret rfl (by simp)) tailOnly (by simpa [writeCount] using hk) h

/-- A nibble cycle whose write number `k + 1` is never answered. -/
theorem cycle_never {g : WriteGranularity} {a : BusAddr} {w : Byte} {n : Nibble} {rs : Level} {k : Nat}
    {rest : List (Reply Unit)} {s : State} (ret : EventsReturn s) (ha : s.addr = a) (hk : k < cycleWrites g) (h : FirstBad k .never rest s) :
    runEvents (cycleEvents g a w n rs) s = .stuck .busNeverAnswers := by
  subst ha
  exact runEvents_never ret (onlyFrames_cycle _ _ _ _ _) (by rw [writeCount_cycle]; exact hk) h

/-- What a construction that fails with this state leaves (R296). -/
theorem takeConstructionFailure_left {s u : State} {n : Nat} {rest : List (Reply Unit)} {evs : List Event}
    {sent : List Sent} {c : Cause} (h : Left s u n rest evs sent) :
    takeConstructionFailure (.transportError c) u =
      finished (.fail (.transportError c)) (discardRegisters { afterWrites n rest s with
        trace := s.trace ++ evs
        sent := s.sent ++ sent }) := by
  unfold takeConstructionFailure takeFailure endOperation finished
  rw [h.2]

/-- One nibble cycle, from a state in which the latches have been loaded and the entry made. -/
theorem performs_cycle {n : Nibble} {ib : Option Byte} {nib : Option Nibble} {sent : List Sent} {s : State}
    (m : MayWrite s) :
    Performs s (nibbleCycle n false { s with ib := ib, rsel := some false, nib := nib, sent := s.sent ++ sent })
      { events := cycleEvents s.cfg.granularity s.addr s.ioWrite n false
        levels := restFrame s.ioWrite n false, ib := ib, nib := n, sent := sent, dcb := s.dcb } := by
  have only := onlyFrames_cycle s.cfg.granularity s.addr s.ioWrite n false
  rw [nibbleCycle_eq n false { s with ib := ib, rsel := some false, nib := nib, sent := s.sent ++ sent } m]
  constructor
  · intro ret rest h
    refine (runEvents_allOk (s := latchNibble n
      { s with ib := ib, rsel := some false, nib := nib, sent := s.sent ++ sent }) ret only h).trans ?_
    simp [Effect.after, afterWrites, latchNibble]
  · intro ret k c rest hk hb
    obtain ⟨before, after, f, he, hn, hr⟩ := runEvents_failing (s := latchNibble n
      { s with ib := ib, rsel := some false, nib := nib, sent := s.sent ++ sent }) ret only hk hb
    refine ⟨_, before ++ writeEvent s.addr f, sent, hr, ⟨rfl, ?_⟩, ⟨⟨after, ?_⟩, ?_, f, ?_⟩, List.prefix_refl _⟩
    · simp [discardRegisters, afterWrites, latchNibble]
    · rw [he]
      simp [writeEvent, latchNibble]
    · rw [writeCount_append, hn]
      rfl
    · simp [writeEvent]
  · intro ret k rest hk hb
    exact runEvents_never (s := latchNibble n
      { s with ib := ib, rsel := some false, nib := nib, sent := s.sent ++ sent }) ret only hk hb

/-- What `DCB` held before the run does not matter. -/
theorem performs_setDcb {s : State} {x : Out Unit} {e : Effect} {d : BitVec 3} (h : Performs { s with dcb := d } x e) :
    Performs s x e :=
  ⟨h.whole, h.cut, h.hung⟩

/-- R192: a command over I2C. -/
def commandEffect (g : WriteGranularity) (a : BusAddr) (w : Byte) (b : Byte) (d : BitVec 3) : Effect where
  events := i2cSendEvents g a w b false
  levels := restFrame w (lowNibble b) false
  ib := some b
  nib := lowNibble b
  sent := [.byte b false]
  dcb := d

theorem performs_sendCommand {b : Byte} {s : State} (m : MayWrite s) :
    Performs s (sendCommand .i2c b s) (commandEffect s.cfg.granularity s.addr s.ioWrite b s.dcb) := by
  have first := performs_cycle (n := highNibble b) (ib := some b) (nib := s.nib) (sent := [.byte b false]) m
  have both := performs_andThen (k := nibbleCycle (lowNibble b) false)
    (f := { events := cycleEvents s.cfg.granularity s.addr (restFrame s.ioWrite (highNibble b) false) (lowNibble b) false
            levels := restFrame s.ioWrite (lowNibble b) false
            ib := some b, nib := lowNibble b, sent := [], dcb := s.dcb }) first fun rest => by
      have second := performs_cycle (n := lowNibble b) (ib := some b) (nib := some (highNibble b)) (sent := [])
        (s := Effect.after { events := cycleEvents s.cfg.granularity s.addr s.ioWrite (highNibble b) false
                             levels := restFrame s.ioWrite (highNibble b) false
                             ib := some b, nib := highNibble b, sent := [.byte b false], dcb := s.dcb } rest s) m
      simpa [Effect.after, restFrame_restFrame, afterWrites] using second
  exact both

end Sys2Proof.Laws
end

