-- ==== Sys2Proof/Laws/Initialise.lean ====
section
/-!
SUPPORT. The initialisation sequence in closed form over either transport, and what a whole construction runs
(43_display_init.md R222, R231; 42_i2c_transport.md R190).
-/

namespace Sys2Proof.Laws

open Sys2Proof.Machine Sys2Proof.Safety

/-- Steps that ended ok ended with their last step. -/
theorem andThen_last {x : Out Unit} {k : State → Out Unit} {u : State} (h : x.andThen k = .ok () u) :
    ∃ v, k v = .ok () u := by
  cases x with
  | ok a v => exact ⟨v, h⟩
  | fail f v => cases h
  | stuck r => cases h

/-- R226 in the spec's own form. -/
theorem functionSetByte_eq (w : Nat) (l : Bool) (f : Font) :
    functionSetByte w l f = 0x20#8 ||| (if w = 8 then 0x10#8 else 0x00#8) ||| (if l then 0x08#8 else 0x00#8)
      ||| (if f = .font5x10 then 0x04#8 else 0x00#8) := by
  cases f <;> rfl

theorem legalGeometry_iff {r c : Int} :
    legalGeometry r c = true ↔ (r = 1 ∨ r = 2 ∨ r = 4) ∧ (c = 16 ∨ c = 20) := by
  simp [legalGeometry, or_assoc]

theorem legalAddress_iff {p : AddrPolicy} {a : Int} :
    legalAddress p a = true ↔ (0x20 ≤ a ∧ a ≤ 0x27) ∨ (p = .dual ∧ 0x38 ≤ a ∧ a ≤ 0x3F) := by
  cases p <;> simp [legalAddress]

/-- A legal geometry is legal as the registers hold it. -/
theorem legalGeometry_toNat {r c : Int} (h : legalGeometry r c = true) :
    legalGeometry (r.toNat : Int) (c.toNat : Int) = true := by
  have e := legalGeometry_iff.mp h
  rw [Int.toNat_of_nonneg (by omega), Int.toNat_of_nonneg (by omega)]
  exact h

theorem lineFlagOf_toNat {r c : Int} (h : legalGeometry r c = true) : lineFlagOf r.toNat = (r != 1) := by
  rcases (legalGeometry_iff.mp h).1 with rfl | rfl | rfl <;> rfl

/-- R221, R224: the function set a validated geometry and a font give. -/
theorem functionSetByte_geometry {r c : Int} (h : legalGeometry r c = true) (f : Option Font) (w : Nat) :
    functionSetByte w (lineFlagOf r.toNat) (fontOrDefault f) =
      0x20#8 ||| (if w = 8 then 0x10#8 else 0x00#8) ||| (if r = 1 then 0x00#8 else 0x08#8)
        ||| (if f = some .font5x10 then 0x04#8 else 0x00#8) := by
  rw [functionSetByte_eq, lineFlagOf_toNat h]
  rcases f with _ | _ | _ <;> by_cases h : r = 1 <;> simp [h, fontOrDefault]

/-! ### GPIO -/

/-- The state a legacy send leaves on GPIO. -/
def afterLegacy (s : State) : State :=
  { emitAll (legacyEvents s.width) s with
    ib := if s.width = 8 then some 0x30#8 else s.ib
    rsel := some false
    nib := if s.width = 8 then s.nib else some 0x3#4
    sent := s.sent ++ [if s.width = 8 then .byte 0x30#8 false else .nibble 0x3#4 false] }

theorem returning_legacySend (s : State) : Returning s (legacySend .gpio s) (afterLegacy s) := by
  by_cases h : s.width = 8
  · have e : afterLegacy s =
        { afterSend 0x30#8 false s with phase := s.phase + (sendEvents s.width 0x30#8 false).length } := by
      simp [afterLegacy, h, afterSend, sendEvents, legacyEvents, emitAll, afterEvents]
    rw [e, legacySend, if_pos h]
    exact returning_gpioSend _ _ _
  · have e : afterLegacy s = emitAll (selectEvents false ++ nibbleEvents 0x3#4) (latchSingle 0x3#4 false s) := by
      simp [afterLegacy, h, latchSingle, legacyEvents, emitAll, afterEvents]
    rw [e, legacySend, if_neg h]
    exact returning_gpioSendSingle _ _ _

theorem returning_thenWait {s t : State} {x : Out Unit} (h : Returning s x t) (hangs : t.hangs = s.hangs)
    (grown : s.trace.length ≤ t.trace.length) (n : Nat) : Returning s (thenWait n x) (emitAll (waitEvent n) t) :=
  h.andThen hangs grown (returning_wait n t)

/-- The state a command leaves on GPIO. -/
def afterCommand (b : Byte) (s : State) : State :=
  { afterSend b false s with phase := s.phase + (sendEvents s.width b false).length }

theorem returning_sendCommand (b : Byte) (s : State) : Returning s (sendCommand .gpio b s) (afterCommand b s) :=
  returning_gpioSend b false s

/-- The state R227 to R229 leave on GPIO. -/
def afterFinish (s : State) : State :=
  afterCommand entryModeByte (emitAll (waitEvent tHome) (afterCommand clearByte
    (afterCommand (displayControlByte dcbAfterInit) { s with dcb := dcbAfterInit })))

/-- The state the whole sequence leaves on GPIO. -/
def afterInit (s : State) : State :=
  let s := emitAll (waitEvent tLegacy1) (afterLegacy (emitAll (waitEvent tPwr) s))
  let s := afterLegacy (emitAll (waitEvent tLegacy2) (afterLegacy s))
  afterFinish (afterCommand (functionSetByte s.width s.lineFlag s.font) s)

theorem afterLegacy_grown (s : State) : s.trace.length ≤ (afterLegacy s).trace.length := by simp [afterLegacy]

theorem afterCommand_grown (b : Byte) (s : State) : s.trace.length ≤ (afterCommand b s).trace.length := by
  simp [afterCommand, afterSend, afterEvents]

theorem emitAll_grown (evs : List Event) (s : State) : s.trace.length ≤ (emitAll evs s).trace.length := by simp

theorem returning_finish (s : State) :
    Returning s
      ((sendCommand .gpio (displayControlByte dcbAfterInit) { s with dcb := dcbAfterInit }).andThen fun s =>
        (thenWait tHome (sendCommand .gpio clearByte s)).andThen fun s => sendCommand .gpio entryModeByte s)
      (afterFinish s) := by
  refine ((returning_sendCommand _ { s with dcb := dcbAfterInit }).started rfl (Nat.le_refl _)).andThen rfl
    (afterCommand_grown _ { s with dcb := dcbAfterInit }) ?_
  refine (returning_thenWait (returning_sendCommand _ _) rfl (afterCommand_grown _ _) _).andThen rfl
    ((afterCommand_grown _ _).trans (emitAll_grown _ _)) ?_
  exact returning_sendCommand _ _

/-- R222 on GPIO: it ends ok there unless a wait never returns. -/
theorem returning_runInitialise (s : State) : Returning s (runInitialise .gpio s) (afterInit s) := by
  refine (returning_thenWait ((returning_wait tPwr s).andThen rfl (emitAll_grown _ _) (returning_legacySend _)) rfl
    ((emitAll_grown _ _).trans (afterLegacy_grown _)) _).andThen rfl
    (((emitAll_grown _ _).trans (afterLegacy_grown _)).trans (emitAll_grown _ _)) ?_
  refine (returning_thenWait (returning_legacySend _) rfl (afterLegacy_grown _) _).andThen rfl
    ((afterLegacy_grown _).trans (emitAll_grown _ _)) ?_
  refine (returning_legacySend _).andThen rfl (afterLegacy_grown _) ?_
  refine (returning_sendCommand _ _).andThen rfl (afterCommand_grown _ _) ?_
  exact returning_finish _

/-- R222 on GPIO, every wait returning: it ends ok, and this is all it does. -/
theorem runInitialise_gpio {s : State} (ret : EventsReturn s) (hw : s.width = 8 ∨ s.width = 4) :
    runInitialise .gpio s =
      .ok () { afterEvents (initEvents s.width (functionSetByte s.width s.lineFlag s.font)) s with
        phase := s.phase + (initEvents s.width (functionSetByte s.width s.lineFlag s.font)).length
        dcb := 0b100#3
        ib := some 0x06#8
        rsel := some false
        nib := if s.width = 8 then s.nib else some 0x6#4
        sent := s.sent ++ initSent s.width (functionSetByte s.width s.lineFlag s.font) } := by
  have e1 : displayControlByte dcbAfterInit = 0x0C#8 := rfl
  have e2 : entryModeByte = 0x06#8 := rfl
  have e3 : clearByte = 0x01#8 := rfl
  rw [(returning_runInitialise s).ok ret]
  simp only [afterInit, afterFinish, afterCommand, e1, e2, e3]
  rcases hw with h | h
  all_goals
    simp [emitAll, afterLegacy, afterSend, afterEvents, initEvents, initSent, h, pinsAfter_append, tPwr,
      tLegacy1, tLegacy2, tHome, dcbAfterInit]
    omega

/-- Its last send leaves RW and E low. -/
theorem runInitialise_low {s u : State} (h : runInitialise .gpio s = .ok () u) : LowPins u := by
  unfold runInitialise at h
  obtain ⟨_, h⟩ := andThen_last h
  obtain ⟨_, h⟩ := andThen_last h
  obtain ⟨_, h⟩ := andThen_last h
  obtain ⟨_, h⟩ := andThen_last h
  obtain ⟨_, h⟩ := andThen_last h
  obtain ⟨_, h⟩ := andThen_last h
  exact low_gpioSend h

/-- On GPIO it ends ok in every state and has only flowed, unless an event never returns. -/
theorem runInitialise_gpio_flow (s : State) :
    (∃ r, runInitialise .gpio s = .stuck r ∧ Blocked s r) ∨
      ∃ u, runInitialise .gpio s = .ok () u ∧ LowPins u ∧ Flow .gpio { s with dcb := u.dcb } u := by
  have h := along_runInitialise .gpio s
  cases hx : runInitialise .gpio s with
  | ok a u =>
    rw [hx] at h
    exact .inr ⟨u, rfl, runInitialise_low hx, h⟩
  | fail f u => rw [hx] at h; cases h.2.1
  | stuck r => rw [hx] at h; exact .inl ⟨r, rfl, h⟩

/-! ### I2C -/

/-- R224 over I2C: one nibble. -/
def legacyEffect (g : WriteGranularity) (a : BusAddr) (w : Byte) (ib : Option Byte) (d : BitVec 3) : Effect where
  events := cycleEvents g a w 0x3#4 false
  levels := restFrame w 0x3#4 false
  ib := ib
  nib := 0x3#4
  sent := [.nibble 0x3#4 false]
  dcb := d

/-- R227 to R229 over I2C. -/
def finishEffect (g : WriteGranularity) (a : BusAddr) (w : Byte) : Effect :=
  let w1 := restFrame w (lowNibble (displayControlByte dcbAfterInit)) false
  (commandEffect g a w (displayControlByte dcbAfterInit) dcbAfterInit).andThen <|
  ((commandEffect g a w1 clearByte dcbAfterInit).thenWait tHome).andThen <|
  commandEffect g a (restFrame w1 (lowNibble clearByte) false) entryModeByte dcbAfterInit

/-- R224 (the third legacy send) to R229 over I2C. -/
def configureEffect (g : WriteGranularity) (a : BusAddr) (w : Byte) (ib : Option Byte) (d : BitVec 3) (fs : Byte) :
    Effect :=
  let w1 := restFrame w 0x3#4 false
  (legacyEffect g a w ib d).andThen <|
  (commandEffect g a w1 fs d).andThen <|
  finishEffect g a (restFrame w1 (lowNibble fs) false)

/-- R222 over I2C from `IO_WRITE = w`. -/
def initEffect (g : WriteGranularity) (a : BusAddr) (w : Byte) (ib : Option Byte) (d : BitVec 3) (fs : Byte) : Effect :=
  let w1 := restFrame w 0x3#4 false
  (((legacyEffect g a w ib d).afterWait tPwr).thenWait tLegacy1).andThen <|
  ((legacyEffect g a w1 ib d).thenWait tLegacy2).andThen <|
  configureEffect g a (restFrame w1 0x3#4 false) ib d fs

theorem initEffect_events (g : WriteGranularity) (a : BusAddr) (w : Byte) (ib : Option Byte) (d : BitVec 3) (fs : Byte) :
    (initEffect g a w ib d fs).events = i2cInitEvents g a w fs := by
  simp [initEffect, configureEffect, finishEffect, legacyEffect, commandEffect, Effect.andThen, Effect.thenWait, Effect.afterWait, i2cInitEvents,
    waitEvent, restFrame_restFrame, lowNibble, tPwr, tLegacy1, tLegacy2, tHome, clearByte, entryModeByte,
    show displayControlByte dcbAfterInit = 0x0C#8 from rfl]

theorem writeCount_init (g : WriteGranularity) (a : BusAddr) (w fs : Byte) :
    writeCount (i2cInitEvents g a w fs) = 11 * cycleWrites g := by
  simp [i2cInitEvents, i2cSendEvents, writeCount_append, waitEvent, writeCount]
  omega

theorem initEffect_sent (g : WriteGranularity) (a : BusAddr) (w : Byte) (ib : Option Byte) (d : BitVec 3) (fs : Byte) :
    (initEffect g a w ib d fs).sent = initSent 4 fs := rfl

theorem initEffect_levels (g : WriteGranularity) (a : BusAddr) (w : Byte) (ib : Option Byte) (d : BitVec 3) (fs : Byte) :
    (initEffect g a w ib d fs).levels = restFrame w 0x6#4 false := by
  simp [initEffect, configureEffect, finishEffect, commandEffect, Effect.andThen, restFrame_restFrame, lowNibble, entryModeByte]

theorem performs_legacySend {s : State} (hw : s.width = 4) (m : MayWrite s) :
    Performs s (legacySend .i2c s) (legacyEffect s.cfg.granularity s.addr s.ioWrite s.ib s.dcb) := by
  simp only [legacySend, hw, sendNibble]
  rw [if_neg (by decide)]
  exact performs_cycle (n := legacyNibble) (sent := [.nibble 0x3#4 false]) (ib := s.ib) m

theorem performs_finish {s : State} (m : MayWrite s) :
    Performs s
      ((sendCommand .i2c (displayControlByte dcbAfterInit) { s with dcb := dcbAfterInit }).andThen fun s =>
        (thenWait tHome (sendCommand .i2c clearByte s)).andThen fun s => sendCommand .i2c entryModeByte s)
      (finishEffect s.cfg.granularity s.addr s.ioWrite) := by
  refine performs_andThen (performs_setDcb (d := dcbAfterInit)
    (performs_sendCommand (s := { s with dcb := dcbAfterInit }) m)) fun _ => ?_
  refine performs_andThen (performs_thenWait _ (performs_sendCommand m)) fun _ => ?_
  exact performs_sendCommand m

theorem performs_configure {s : State} (hw : s.width = 4) (m : MayWrite s) :
    Performs s
      ((legacySend .i2c s).andThen fun s =>
        (sendCommand .i2c (functionSetByte s.width s.lineFlag s.font) s).andThen fun s =>
        (sendCommand .i2c (displayControlByte dcbAfterInit) { s with dcb := dcbAfterInit }).andThen fun s =>
        (thenWait tHome (sendCommand .i2c clearByte s)).andThen fun s => sendCommand .i2c entryModeByte s)
      (configureEffect s.cfg.granularity s.addr s.ioWrite s.ib s.dcb (functionSetByte s.width s.lineFlag s.font)) := by
  have m1 : ∀ {e : Effect} {rest : List (Reply Unit)}, MayWrite (e.after rest s) := mayWrite_after m
  refine performs_andThen (performs_legacySend hw m) fun _ => ?_
  refine performs_andThen (performs_sendCommand m1) fun _ => ?_
  exact performs_finish (mayWrite_after m1)

/-- R222 over I2C, whatever the bus answers. -/
theorem performs_runInitialise (s : State) (hw : s.width = 4) (m : MayWrite s) :
    Performs s (runInitialise .i2c s) (initEffect s.cfg.granularity s.addr s.ioWrite s.ib s.dcb
      (functionSetByte s.width s.lineFlag s.font)) := by
  have m1 : ∀ {e : Effect} {rest : List (Reply Unit)}, MayWrite (e.after rest s) := mayWrite_after m
  have w1 : ∀ {e : Effect} {rest : List (Reply Unit)}, (e.after rest s).width = 4 := hw
  refine performs_andThen (performs_thenWait _ (performs_afterWait (performs_legacySend hw m))) fun _ => ?_
  refine performs_andThen (performs_thenWait _ (performs_legacySend w1 m1)) fun _ => ?_
  exact performs_configure hw (mayWrite_after m1)

/-- R222 over I2C with every write answered ok and every wait returning: it ends ok, and this is all it does. -/
theorem runInitialise_i2c {s : State} (ret : EventsReturn s) {rest : List (Reply Unit)} (hw : s.width = 4) (m : MayWrite s)
    (h : NextWritesOk (11 * cycleWrites s.cfg.granularity) rest s) :
    let evs := i2cInitEvents s.cfg.granularity s.addr s.ioWrite (functionSetByte s.width s.lineFlag s.font)
    runInitialise .i2c s = .ok () { afterWrites (11 * cycleWrites s.cfg.granularity) rest s with
      trace := s.trace ++ evs
      phase := s.phase + evs.length
      ioWrite := restFrame s.ioWrite 0x6#4 false
      ib := some 0x06#8
      rsel := some false
      nib := some 0x6#4
      sent := s.sent ++ initSent 4 (functionSetByte s.width s.lineFlag s.font)
      dcb := 0b100#3 } := by
  have p := (performs_runInitialise s hw m).whole ret rest (by rw [initEffect_events, writeCount_init]; exact h)
  simp only [Effect.after, initEffect_events, initEffect_sent, initEffect_levels, writeCount_init] at p
  exact p

/-- R198, R230 over I2C: the initialisation ends at the write that fails. -/
theorem runInitialise_cut {s : State} (ret : EventsReturn s) {k : Nat} {c : Cause} {rest : List (Reply Unit)} (hw : s.width = 4)
    (m : MayWrite s) (hk : k < 11 * cycleWrites s.cfg.granularity) (h : FirstBad k (.failure c) rest s) :
    ∃ u evs sent, runInitialise .i2c s = .fail (.transportError c) u ∧ Left s u (k + 1) rest evs sent ∧
      EndsAtWrite s.addr k evs
        (i2cInitEvents s.cfg.granularity s.addr s.ioWrite (functionSetByte s.width s.lineFlag s.font)) ∧
      sent <+: initSent 4 (functionSetByte s.width s.lineFlag s.font) := by
  have p := (performs_runInitialise s hw m).cut ret k c rest (by rw [initEffect_events, writeCount_init]; exact hk) h
  rw [initEffect_events, initEffect_sent] at p
  exact p

/-- R346 over I2C: it hangs at the write that is never answered. -/
theorem runInitialise_hung {s : State} (ret : EventsReturn s) {k : Nat} {rest : List (Reply Unit)} (hw : s.width = 4) (m : MayWrite s)
    (hk : k < 11 * cycleWrites s.cfg.granularity) (h : FirstBad k .never rest s) :
    runInitialise .i2c s = .stuck .busNeverAnswers :=
  (performs_runInitialise s hw m).hung ret k rest (by rw [initEffect_events, writeCount_init]; exact hk) h

end Sys2Proof.Laws
end

