-- ==== Sys2Proof/Laws/Compose.lean ====
section
/-!
SUPPORT. What a whole construction can do (41_gpio_transport.md R160, 42_i2c_transport.md R190, 43_display_init.md R231).
-/

namespace Sys2Proof.Laws

open Sys2Proof.Machine Sys2Proof.Safety

/-! ### Over GPIO -/

/-- R231 past its two checks. -/
theorem composeGpio_eq {l : List PinId} {r c : Int} (f : Option Font) (s : State) (hg : legalGeometry r c = true)
    (hl : legalPinCount l.length = true) :
    composeGpio l r c f s = runInitialise .gpio (writeGeometry r c f
      (if l.length = 7 then { s with pinList := l, transport := some .gpio4, width := 4 }
       else { s with pinList := l, transport := some .gpio8, width := 8 })) := by
  have steps : ∀ k : State → Out Unit, ((checkGeometry r c s).andThen fun s => (attachGpio l s).andThen k) =
      k (if l.length = 7 then { s with pinList := l, transport := some .gpio4, width := 4 }
         else { s with pinList := l, transport := some .gpio8, width := 8 }) := fun k => by
    simp only [checkGeometry, attachGpio, checkPinCount, hg, hl, require_true, andThen_ok]
  exact steps _

/-- R231: it hangs where a wait never returns, is refused before anything, or ends ok with the registers written and the
initialisation flowed. -/
theorem composeGpio_cases (l : List PinId) (r c : Int) (f : Option Font) (s : State) :
    (∃ q, composeGpio l r c f s = .stuck q ∧ Blocked s q) ∨
    (∃ e, composeGpio l r c f s = .fail e s ∧ e.failureClass ≠ .deviceError) ∨
    (legalGeometry r c = true ∧ ∃ u tr w, ((tr = .gpio4 ∧ w = 4) ∨ (tr = .gpio8 ∧ w = 8)) ∧
      composeGpio l r c f s = .ok () u ∧ LowPins u ∧
      Flow .gpio { writeGeometry r c f { s with pinList := l, transport := some tr, width := w } with dcb := u.dcb }
        u) := by
  cases hg : legalGeometry r c with
  | false =>
    exact .inr <| .inl ⟨.invalidGeometry r c, by simp only [composeGpio, checkGeometry, hg, require_false, andThen_fail],
      by simp [Failure.failureClass]⟩
  | true =>
    cases hl : legalPinCount l.length with
    | false =>
      exact .inr <| .inl ⟨.invalidPinCount l.length, by
        simp only [composeGpio, checkGeometry, attachGpio, checkPinCount, hg, hl, require_true, andThen_ok, require_false,
          andThen_fail], by simp [Failure.failureClass]⟩
    | true =>
      rw [composeGpio_eq f s hg hl]
      have same : ∀ {tr w q}, Blocked (writeGeometry r c f { s with pinList := l, transport := some tr, width := w }) q →
          Blocked s q := fun {_ _ q} b => by cases q <;> exact b
      by_cases h7 : l.length = 7
      · rw [if_pos h7]
        rcases runInitialise_gpio_flow
          (writeGeometry r c f { s with pinList := l, transport := some .gpio4, width := 4 }) with ⟨q, hq, b⟩ | ⟨u, h1, h2, h3⟩
        · exact .inl ⟨q, hq, same b⟩
        exact .inr <| .inr ⟨rfl, u, .gpio4, 4, .inl ⟨rfl, rfl⟩, h1, h2, h3⟩
      · rw [if_neg h7]
        rcases runInitialise_gpio_flow
          (writeGeometry r c f { s with pinList := l, transport := some .gpio8, width := 8 }) with ⟨q, hq, b⟩ | ⟨u, h1, h2, h3⟩
        · exact .inl ⟨q, hq, same b⟩
        exact .inr <| .inr ⟨rfl, u, .gpio8, 8, .inr ⟨rfl, rfl⟩, h1, h2, h3⟩

/-! ### Over I2C -/

/-- R190: the run of `setPinMode(p, Output)` with every write answered ok. -/
theorem makeOutputs_ok (l : List Int) (hl : ∀ p ∈ l, legalPin p = true) (s : State) (hc : s.ioConfig = 0x00#8)
    {rest : List (Reply Unit)} (h : NextWritesOk l.length rest s) :
    ∃ p, makeOutputs l s = .ok () { afterWrites l.length rest s with
      trace := s.trace ++ List.replicate l.length (.i2cWrite s.addr 0x00#8), phase := p } := by
  induction l generalizing s with
  | nil =>
    have e : s.env.writes = rest := h
    exact ⟨s.phase, by simp [makeOutputs, afterWrites, ← e]⟩
  | cons x l ih =>
    have z : setBit s.ioConfig x.toNat false = 0x00#8 := by rw [hc]; simp [setBit]
    have h' : s.env.writes = .answer () :: (List.replicate l.length (.answer ()) ++ rest) := h
    simp only [makeOutputs, changePinMode, hl x (by simp), require_true, andThen_ok, z]
    have hb := busWrite_ok (b := 0x00#8) (s := { s with ioConfig := 0x00#8 }) h'
    rw [hb, andThen_ok]
    obtain ⟨p, hp⟩ := ih (fun p hp => hl p (by simp [hp]))
      { afterWrites 1 (List.replicate l.length (Reply.answer ()) ++ rest) { s with ioConfig := 0x00#8 } with
        trace := s.trace ++ writeEvent s.addr 0x00#8, phase := s.phase + 1 } rfl (by rfl)
    refine ⟨p, hp.trans ?_⟩
    simp [afterWrites, writeEvent, List.replicate_succ, hc]
    omega

/-- R190: the run ends at the write that fails. -/
theorem makeOutputs_cut (l : List Int) (hl : ∀ p ∈ l, legalPin p = true) (s : State) (hc : s.ioConfig = 0x00#8)
    {k : Nat} {c : Cause} {rest : List (Reply Unit)} (hk : k < l.length) (h : FirstBad k (.failure c) rest s) :
    ∃ u, makeOutputs l s = .fail (.transportError c) u ∧
      Left s u (k + 1) rest (List.replicate (k + 1) (.i2cWrite s.addr 0x00#8)) [] := by
  induction l generalizing s k with
  | nil => cases hk
  | cons x l ih =>
    have z : setBit s.ioConfig x.toNat false = 0x00#8 := by rw [hc]; simp [setBit]
    simp only [makeOutputs, changePinMode, hl x (by simp), require_true, andThen_ok, z]
    cases k with
    | zero =>
      rw [busWrite_failure (s := { s with ioConfig := 0x00#8 }) (rest := rest) (by simpa [FirstBad] using h)]
      exact ⟨_, rfl, rfl, by simp [discardRegisters, afterWrites, writeEvent]⟩
    | succ k =>
      have h' : s.env.writes = .answer () :: (List.replicate k (.answer ()) ++ .failure c :: rest) := h
      rw [busWrite_ok (s := { s with ioConfig := 0x00#8 }) h', andThen_ok]
      obtain ⟨u, hu, left⟩ := ih (fun p hp => hl p (by simp [hp]))
        { afterWrites 1 (List.replicate k (Reply.answer ()) ++ .failure c :: rest) { s with ioConfig := 0x00#8 } with
          trace := s.trace ++ writeEvent s.addr 0x00#8, phase := s.phase + 1 } rfl (k := k) (by simpa using hk) (by rfl)
      refine ⟨u, hu, left.1, left.2.trans ?_⟩
      simp [discardRegisters, afterWrites, writeEvent, List.replicate_succ]
      omega

/-- R346: the run hangs at the write that is never answered. -/
theorem makeOutputs_hung (l : List Int) (hl : ∀ p ∈ l, legalPin p = true) (s : State) {k : Nat}
    {rest : List (Reply Unit)} (hk : k < l.length) (h : FirstBad k .never rest s) :
    makeOutputs l s = .stuck .busNeverAnswers := by
  induction l generalizing s k with
  | nil => cases hk
  | cons x l ih =>
    simp only [makeOutputs, changePinMode, hl x (by simp), require_true, andThen_ok]
    cases k with
    | zero =>
      rw [busWrite_never (s := { s with ioConfig := setBit s.ioConfig x.toNat false }) (rest := rest) (by simpa [FirstBad] using h)]
      rfl
    | succ k =>
      have h' : s.env.writes = .answer () :: (List.replicate k (.answer ()) ++ .never :: rest) := h
      rw [busWrite_ok (s := { s with ioConfig := setBit s.ioConfig x.toNat false }) h', andThen_ok]
      exact ih (fun p hp => hl p (by simp [hp])) _ (k := k) (by simpa using hk) (by rfl)

/-- R190: the same run in every state that starts from all outputs. -/
theorem makeOutputs_cases (l : List Int) (hl : ∀ p ∈ l, legalPin p = true) (s : State) (hc : s.ioConfig = 0x00#8) :
    (∃ r, makeOutputs l s = .stuck r ∧ Blocked s r) ∨
    ∃ u evs, Touched s u evs ∧ (∀ e ∈ evs, ∃ a, e = .i2cWrite a 0x00#8) ∧ u.ioWrite = s.ioWrite ∧
      u.ioConfig = 0x00#8 ∧ (makeOutputs l s = .ok () u ∨ ∃ c, makeOutputs l s = .fail (.transportError c) u) := by
  induction l generalizing s with
  | nil => exact .inr ⟨s, [], ⟨by simp, id⟩, by simp, rfl, hc, .inl rfl⟩
  | cons p l ih =>
    have z : setBit s.ioConfig p.toNat false = 0x00#8 := by rw [hc]; simp [setBit]
    simp only [makeOutputs]
    rcases changePinMode_cases p false s with ⟨f, _, _, h⟩ | ⟨r, hr, hb⟩ | ⟨u, _, ht, hw, hcc, ho | ⟨c, ho⟩⟩
    · rw [hl p (by simp)] at h; cases h
    · exact .inl ⟨r, by rw [hr]; rfl, hb⟩
    · rw [z] at hcc
      rw [ho]
      simp only [andThen_ok]
      rcases ih (fun q hq => hl q (by simp [hq])) u hcc with ⟨r, hr, hb⟩ | ⟨v, evs, ht', he, hw', hc', ho'⟩
      · exact .inl ⟨r, hr, ht.blocked hb⟩
      · refine .inr ⟨v, .i2cWrite s.addr 0x00#8 :: evs, ⟨?_, fun b => ht'.2 (ht.2 b)⟩, ?_, hw'.trans hw, hc', ho'⟩
        · have e := ht.1
          rw [hcc] at e
          rw [ht'.1, e]
          simp
        · simp
          exact he
    · rw [z] at hcc
      exact .inr ⟨u, [.i2cWrite s.addr 0x00#8], by rw [← hcc]; exact ht, by simp, hw, hcc, .inr ⟨c, by rw [ho]; rfl⟩⟩

/-- R190 past its geometry check. -/
theorem composeI2c_eq (a : Int) {r c : Int} (f : Option Font) (s : State) (hg : legalGeometry r c = true) :
    composeI2c a r c f s = (attachExpander a s).andThen fun s =>
      (makeOutputs [0, 1, 2, 3, 4, 5, 6, 7] s).andThen fun s =>
        runInitialise .i2c (writeGeometry r c f { s with transport := some .i2c, width := 4 }) := by
  have steps : ∀ k : State → Out Unit, (checkGeometry r c s).andThen k = k s := fun k => by
    simp only [checkGeometry, hg, require_true, andThen_ok]
  exact steps _

theorem writeCount_replicate (n : Nat) (a : BusAddr) (f : Byte) :
    writeCount (List.replicate n (.i2cWrite a f)) = n := by
  induction n with
  | zero => rfl
  | succ n ih => simp [List.replicate_succ, writeCount, ih]

/-- R190: past the checks and the scan, the eight configuration writes, then the initialisation. -/
theorem composeI2c_scanned {a r c : Int} (f : Option Font) {s : State} {found : List BusAddr}
    {scans : List (Reply (List BusAddr))} (hg : legalGeometry r c = true) (ha : legalAddress s.cfg.addrPolicy a = true)
    (hs : s.env.scans = .answer found :: scans) (hf : BitVec.ofInt 7 a ∈ found) :
    composeI2c a r c f s =
      (makeOutputs [0, 1, 2, 3, 4, 5, 6, 7] { s with
        trace := s.trace ++ [.i2cScan], phase := s.phase + 1
        env := { s.env with scans := scans, draws := s.env.draws + 1 }
        addr := BitVec.ofInt 7 a, ioConfig := 0x00#8, ioWrite := 0x00#8, released := false }).andThen fun s =>
          runInitialise .i2c (writeGeometry r c f { s with transport := some .i2c, width := 4 }) := by
  rw [composeI2c_eq a f s hg]
  simp only [attachExpander, ha, require_true, andThen_ok, busScan_cons hs, settle, bind_ok,
    List.contains_iff_mem.mpr hf]

/-- `s` with the scan of a probe behind it. -/
def scanned (scans : List (Reply (List BusAddr))) (s : State) : State :=
  { s with trace := s.trace ++ [.i2cScan], env := { s.env with scans := scans, draws := s.env.draws + 1 } }

/-- R190, R230: a construction over I2C ends at the configuration or initialisation write that fails. -/
theorem composeI2c_cut {a r c : Int} (f : Option Font) {s : State} {found : List BusAddr}
    {scans : List (Reply (List BusAddr))} {k : Nat} {cause : Cause} {rest : List (Reply Unit)}
    (hg : legalGeometry r c = true) (ha : legalAddress s.cfg.addrPolicy a = true)
    (hs : s.env.scans = .answer found :: scans) (hf : BitVec.ofInt 7 a ∈ found) (ret : EventsReturn s)
    (hk : k < 8 + 11 * cycleWrites s.cfg.granularity) (h : FirstBad k (.failure cause) rest s) :
    ∃ u evs sent, composeI2c a r c f s = .fail (.transportError cause) u ∧
      Left (scanned scans s) u (k + 1) rest evs sent ∧
      EndsAtWrite (BitVec.ofInt 7 a) k evs (List.replicate 8 (.i2cWrite (BitVec.ofInt 7 a) 0x00#8) ++
        i2cInitEvents s.cfg.granularity (BitVec.ofInt 7 a) 0x00#8
          (functionSetByte 4 (lineFlagOf r.toNat) (fontOrDefault f))) ∧
      sent <+: initSent 4 (functionSetByte 4 (lineFlagOf r.toNat) (fontOrDefault f)) := by
  rw [composeI2c_scanned f hg ha hs hf]
  generalize hs1 : ({ s with
    trace := s.trace ++ [.i2cScan], phase := s.phase + 1
    env := { s.env with scans := scans, draws := s.env.draws + 1 }
    addr := BitVec.ofInt 7 a, ioConfig := 0x00#8, ioWrite := 0x00#8, released := false } : State) = s1
  have w1 : s1.env.writes = s.env.writes := by rw [← hs1]
  have r1 : EventsReturn s1 := eventsReturn_later ret (by rw [← hs1]) (by rw [← hs1]; simp)
  have c1 : s1.ioConfig = 0x00#8 := by rw [← hs1]
  have a1 : s1.addr = BitVec.ofInt 7 a := by rw [← hs1]
  have legal : ∀ p ∈ ([0, 1, 2, 3, 4, 5, 6, 7] : List Int), legalPin p = true := by decide
  by_cases hlt : k < 8
  · obtain ⟨u, hu, left⟩ := makeOutputs_cut [0, 1, 2, 3, 4, 5, 6, 7] legal s1 c1 hlt (by rw [FirstBad, w1]; exact h)
    rw [a1] at left
    refine ⟨u, List.replicate (k + 1) (.i2cWrite (BitVec.ofInt 7 a) 0x00#8), [], by rw [hu, andThen_fail], ⟨left.1.trans (by rw [← hs1]; rfl), left.2.trans ?_⟩, ⟨?_, ?_, ?_⟩,
      List.nil_prefix⟩
    · rw [← hs1]
      rfl
    · exact List.IsPrefix.trans ⟨List.replicate (8 - (k + 1)) _, by rw [← List.replicate_add]; congr 1; omega⟩
        (List.prefix_append _ _)
    · exact writeCount_replicate _ _ _
    · exact ⟨0x00#8, by rw [List.getLast?_replicate]; simp⟩
  · have hw : NextWritesOk 8 (List.replicate (k - 8) (.answer ()) ++ .failure cause :: rest) s1 := by
      rw [NextWritesOk, w1, ← List.append_assoc, ← List.replicate_add]
      rw [show 8 + (k - 8) = k by omega]
      exact h
    obtain ⟨p, hp⟩ := makeOutputs_ok [0, 1, 2, 3, 4, 5, 6, 7] legal s1 c1 hw
    rw [hp, andThen_ok]
    obtain ⟨u, evs, sent, hu, left, ends, pre⟩ := runInitialise_cut (k := k - 8) (c := cause) (rest := rest)
      (s := writeGeometry r c f { afterWrites 8 (List.replicate (k - 8) (Reply.answer ()) ++ .failure cause :: rest) s1 with
        trace := s1.trace ++ List.replicate 8 (.i2cWrite s1.addr 0x00#8), phase := p
        transport := some .i2c, width := 4 }) (eventsReturn_later r1 rfl (by simp)) rfl (.inr c1)
      (by rw [← hs1]; show k - 8 < 11 * cycleWrites s.cfg.granularity; omega) rfl
    refine ⟨u, List.replicate 8 (.i2cWrite (BitVec.ofInt 7 a) 0x00#8) ++ evs, sent, hu,
      ⟨left.1.trans (by rw [← hs1]; rfl), left.2.trans ?_⟩, ?_, ?_⟩
    · rw [← hs1]
      simp [discardRegisters, afterWrites, writeGeometry, scanned]
      omega
    · have i := ends.append_left (List.replicate 8 (.i2cWrite (BitVec.ofInt 7 a) 0x00#8))
      rw [writeCount_replicate, show 8 + (k - 8) = k by omega] at i
      rw [← hs1] at i
      exact i
    · exact pre

/-- R346: it hangs at the configuration or initialisation write that is never answered. -/
theorem composeI2c_hung {a r c : Int} (f : Option Font) {s : State} {found : List BusAddr}
    {scans : List (Reply (List BusAddr))} {k : Nat} {rest : List (Reply Unit)}
    (hg : legalGeometry r c = true) (ha : legalAddress s.cfg.addrPolicy a = true)
    (hs : s.env.scans = .answer found :: scans) (hf : BitVec.ofInt 7 a ∈ found) (ret : EventsReturn s)
    (hk : k < 8 + 11 * cycleWrites s.cfg.granularity) (h : FirstBad k .never rest s) :
    composeI2c a r c f s = .stuck .busNeverAnswers := by
  rw [composeI2c_scanned f hg ha hs hf]
  generalize hs1 : ({ s with
    trace := s.trace ++ [.i2cScan], phase := s.phase + 1
    env := { s.env with scans := scans, draws := s.env.draws + 1 }
    addr := BitVec.ofInt 7 a, ioConfig := 0x00#8, ioWrite := 0x00#8, released := false } : State) = s1
  have w1 : s1.env.writes = s.env.writes := by rw [← hs1]
  have r1 : EventsReturn s1 := eventsReturn_later ret (by rw [← hs1]) (by rw [← hs1]; simp)
  have c1 : s1.ioConfig = 0x00#8 := by rw [← hs1]
  have legal : ∀ p ∈ ([0, 1, 2, 3, 4, 5, 6, 7] : List Int), legalPin p = true := by decide
  by_cases hlt : k < 8
  · rw [makeOutputs_hung [0, 1, 2, 3, 4, 5, 6, 7] legal s1 hlt (by rw [FirstBad, w1]; exact h)]
    rfl
  · have hw : NextWritesOk 8 (List.replicate (k - 8) (.answer ()) ++ .never :: rest) s1 := by
      rw [NextWritesOk, w1, ← List.append_assoc, ← List.replicate_add]
      rw [show 8 + (k - 8) = k by omega]
      exact h
    obtain ⟨p, hp⟩ := makeOutputs_ok [0, 1, 2, 3, 4, 5, 6, 7] legal s1 c1 hw
    rw [hp, andThen_ok]
    exact runInitialise_hung (k := k - 8) (rest := rest)
      (s := writeGeometry r c f { afterWrites 8 (List.replicate (k - 8) (Reply.answer ()) ++ .never :: rest) s1 with
        trace := s1.trace ++ List.replicate 8 (.i2cWrite s1.addr 0x00#8), phase := p
        transport := some .i2c, width := 4 }) (eventsReturn_later r1 rfl (by simp)) rfl (.inr c1)
      (by rw [← hs1]; show k - 8 < 11 * cycleWrites s.cfg.granularity; omega) rfl

/-- Steps of a construction: what they leave alone, the events they add, RW low in each. -/
structure Grew (s u : State) (evs : List Event) : Prop where
  cfg : u.cfg = s.cfg
  pending : u.pending = s.pending
  mode : u.mode = s.mode
  op : u.op = s.op
  trace : u.trace = s.trace ++ evs
  answers : BusAnswers s → BusAnswers u
  gpioLow : ∀ v, Event.pinSet 1 v ∈ evs → v = false
  i2cLow : s.ioWrite[1] = false → ∀ a b, Event.i2cWrite a b ∈ evs → b[1] = false
  hangs : u.hangs = s.hangs

theorem Grew.refl (s : State) : Grew s s [] := ⟨rfl, rfl, rfl, rfl, by simp, id, by simp, by simp, rfl⟩

theorem Grew.blocked {s u : State} {evs : List Event} (h : Grew s u evs) {r : Fault} (b : Blocked u r) :
    Blocked s r := by
  cases r with
  | busNeverAnswers => exact fun a => b (h.answers a)
  | eventNeverReturns => exact fun a => b (eventsReturn_later a h.hangs (by rw [h.trace]; simp))

theorem Flow.grew {link : Link} {s u : State} (h : Flow link s u) : ∃ evs, Grew s u evs := by
  obtain ⟨evs, e, _, a⟩ := h.events
  refine ⟨evs, h.cfg, h.pending, h.mode, h.op, e, h.answers, fun v hv => ?_, fun low x y hy => ?_, h.hangs⟩
  · have := a _ hv
    cases link <;> simp [Allowed] at this
    exact this
  · have := a _ hy
    cases link <;> simp [Allowed] at this
    exact this.2.1 low

theorem Bused.grew {s u : State} {e : Event} (h : Bused s u e) (hp : ∀ p v, e ≠ .pinSet p v)
    (hw : ∀ a b, e ≠ .i2cWrite a b) : Grew s u [e] := by
  have e1 := h.1
  refine ⟨by rw [e1], by rw [e1], by rw [e1], by rw [e1], by rw [e1], h.2, fun v hv => ?_, fun low x y hy => ?_,
    by rw [e1]⟩
  · simp at hv
    exact absurd hv.symm (hp _ _)
  · simp at hy
    exact absurd hy.symm (hw _ _)

/-- R190 in every state: it hangs where an answer never comes, fails, or ends ok with its registers written. -/
theorem composeI2c_cases (a r c : Int) (f : Option Font) (s : State) :
    (∃ q, composeI2c a r c f s = .stuck q ∧ Blocked s q) ∨
    (∃ u e evs, composeI2c a r c f s = .fail e u ∧ Grew s u evs) ∨
    (legalGeometry r c = true ∧ legalAddress s.cfg.addrPolicy a = true ∧
      ∃ u evs, composeI2c a r c f s = .ok () u ∧ Grew s u evs ∧
        (∀ a b, Event.i2cWrite a b ∈ evs → b[1] = false) ∧ u.transport = some .i2c ∧ u.width = 4 ∧
        u.rows = r.toNat ∧ u.cols = c.toNat ∧ u.lineFlag = lineFlagOf r.toNat ∧ u.addr = BitVec.ofInt 7 a ∧
        u.ioConfig = 0x00#8 ∧ u.ioWrite[1] = false ∧ u.released = false) := by
  cases hg : legalGeometry r c with
  | false =>
    exact .inr (.inl ⟨s, .invalidGeometry r c, [],
      by simp only [composeI2c, checkGeometry, hg, require_false, andThen_fail], Grew.refl s⟩)
  | true =>
    rw [composeI2c_eq a f s hg]
    rcases attachExpander_cases a s with h | ⟨q, h, hb⟩ | ⟨u, hu, hl, ⟨e, h⟩ | h⟩
    · exact .inr (.inl ⟨s, _, [], by rw [h]; rfl, Grew.refl s⟩)
    · exact .inl ⟨q, by rw [h]; rfl, hb⟩
    · exact .inr (.inl ⟨u, e, _, by rw [h]; rfl, hu.grew (by simp) (by simp)⟩)
    · rw [h, andThen_ok]
      have e1 := hu.1
      rcases makeOutputs_cases [0, 1, 2, 3, 4, 5, 6, 7] (by decide)
        { u with addr := BitVec.ofInt 7 a, ioConfig := 0x00#8, ioWrite := 0x00#8, released := false } rfl with
        ⟨q, hq, hb⟩ | ⟨v, evs, ht, he, hw, hc, ho⟩
      · exact .inl ⟨q, by rw [hq]; rfl, hu.blocked (by cases q <;> exact hb)⟩
      · have e2 := ht.1
        have low : ∀ x y, Event.i2cWrite x y ∈ Event.i2cScan :: evs → y[1] = false := fun x y hx => by
          simp at hx
          obtain ⟨_, h⟩ := he _ hx
          cases h
          rfl
        have pin : ∀ p x, Event.pinSet p x ∉ evs := fun p x hx => by
          obtain ⟨_, h⟩ := he _ hx
          cases h
        have g : Grew s v (.i2cScan :: evs) :=
          ⟨by rw [e2, e1], by rw [e2, e1], by rw [e2, e1], by rw [e2, e1], by rw [e2, e1]; simp,
            fun b => ht.2 (hu.2 b), fun x hx => absurd (by simpa using hx) (pin 1 x), fun _ => low, by rw [e2, e1]⟩
        rcases ho with ho | ⟨cc, ho⟩
        · rw [ho, andThen_ok]
          have ha := along_runInitialise .i2c (writeGeometry r c f { v with transport := some .i2c, width := 4 })
          have grown : ∀ d w,
              Flow .i2c { writeGeometry r c f { v with transport := some .i2c, width := 4 } with dcb := d } w →
              ∃ evs, Grew s w evs ∧ (∀ a b, Event.i2cWrite a b ∈ evs → b[1] = false) ∧ w.ioWrite[1] = false := by
            intro d w hf
            obtain ⟨ev, k⟩ := Flow.grew hf
            have lowv : v.ioWrite[1] = false := by simp [hw]
            have lows : ∀ x y, Event.i2cWrite x y ∈ Event.i2cScan :: evs ++ ev → y[1] = false := fun x y hx => by
              rcases List.mem_append.mp hx with hx | hx
              · exact low x y hx
              · exact k.i2cLow lowv x y hx
            refine ⟨_, ⟨k.cfg.trans g.cfg, k.pending.trans g.pending, k.mode.trans g.mode, k.op.trans g.op,
              k.trace.trans (by rw [← List.append_assoc, ← g.trace]; rfl), fun b => k.answers (g.answers b),
              fun x hx => ?_, fun _ => lows, k.hangs.trans g.hangs⟩, lows, hf.readWrite lowv⟩
            rcases List.mem_append.mp hx with hx | hx
            · exact absurd (by simpa using hx) (pin 1 x)
            · exact k.gpioLow x hx
          revert ha
          cases runInitialise .i2c (writeGeometry r c f { v with transport := some .i2c, width := 4 }) with
          | ok _ w =>
            intro ha
            obtain ⟨evs', g', lows, lw⟩ := grown _ _ ha
            refine .inr (.inr ⟨rfl, hl, w, evs', rfl, g', lows, ha.transport, ha.width, ha.rows, ha.cols,
              ha.lineFlag, ?_, ?_, lw, ?_⟩)
            · rw [ha.addr]
              simp only [writeGeometry]
              rw [e2]
            · rw [ha.ioConfig]
              exact hc
            · rw [ha.released]
              simp only [writeGeometry]
              rw [e2]
          | fail e w =>
            intro ha
            obtain ⟨evs', g', _⟩ := grown _ _ ha.1
            exact .inr (.inl ⟨w, e, evs', rfl, g'⟩)
          | stuck q => exact fun ha => .inl ⟨q, rfl, g.blocked (by cases q <;> exact ha)⟩
        · exact .inr (.inl ⟨v, _, _, by rw [ho]; rfl, g⟩)

end Sys2Proof.Laws
end

