-- ==== Sys2Proof/Laws/AlikeBuild.lean ====
section
/-!
SUPPORT. A construction's steps do not read `OP`, `PHASE` or the last result, so a composite answers the same under each
of its names (43_display_init.md R231).
-/

namespace Sys2Proof.Laws

open Sys2Proof.Machine Sys2Proof.Safety

theorem alike_sendNibble (link : Link) (n : Nibble) (rs : Level) {s t : State} (h : Alike s t) :
    AlikeOut (sendNibble link n rs s) (sendNibble link n rs t) := by
  cases link with
  | gpio => exact alike_gpioSendSingle n rs h
  | i2c =>
    obtain ⟨o, p, r, rfl⟩ := h
    exact alike_nibbleCycle _ _ (s := latchSingle n rs s) ⟨o, p, r, rfl⟩

theorem alike_thenWait (n : Nat) {x y : Out Unit} (h : AlikeOut x y) : AlikeOut (thenWait n x) (thenWait n y) :=
  alike_andThen h fun _ _ h => alike_wait n h

theorem alike_legacySend (link : Link) {s t : State} (h : Alike s t) :
    AlikeOut (legacySend link s) (legacySend link t) := by
  have w : t.width = s.width := by obtain ⟨o, p, r, rfl⟩ := h; rfl
  unfold legacySend
  rw [w]
  split
  · exact alike_sendInstruction _ _ _ h
  · exact alike_sendNibble _ _ _ h

theorem alike_runInitialise (link : Link) {s t : State} (h : Alike s t) :
    AlikeOut (runInitialise link s) (runInitialise link t) := by
  refine alike_andThen (alike_thenWait _ (alike_andThen (alike_wait _ h) fun s t h => alike_legacySend link h)) fun s t h => ?_
  refine alike_andThen (alike_thenWait _ (alike_legacySend link h)) fun s t h => ?_
  refine alike_andThen (alike_legacySend link h) fun s t h => ?_
  have w : t.width = s.width ∧ t.lineFlag = s.lineFlag ∧ t.font = s.font := by
    obtain ⟨o, p, r, rfl⟩ := h
    exact ⟨rfl, rfl, rfl⟩
  rw [w.1, w.2.1, w.2.2]
  refine alike_andThen (alike_sendInstruction _ _ _ h) fun s t h => ?_
  have d : Alike { s with dcb := dcbAfterInit } { t with dcb := dcbAfterInit } := by
    obtain ⟨o, p, r, rfl⟩ := h
    exact ⟨o, p, r, rfl⟩
  refine alike_andThen (alike_sendInstruction _ _ _ d) fun s t h => ?_
  exact alike_andThen (alike_thenWait _ (alike_sendInstruction _ _ _ h)) fun s t h => alike_sendInstruction _ _ _ h

theorem alike_composeGpio (l : List PinId) (r c : Int) (f : Option Font) {s t : State} (h : Alike s t) :
    AlikeOut (composeGpio l r c f s) (composeGpio l r c f t) := by
  refine alike_andThen (alike_require _ _ h) fun s t h => ?_
  refine alike_andThen (alike_andThen (alike_require _ _ h) fun s t h => ?_) fun s t h => ?_
  · obtain ⟨o, p, r, rfl⟩ := h
    refine ⟨rfl, o, p, r, ?_⟩
    split <;> rfl
  · obtain ⟨o, p, r, rfl⟩ := h; exact alike_runInitialise _ ⟨o, p, r, rfl⟩

theorem alike_makeOutputs (l : List Int) {s t : State} (h : Alike s t) :
    AlikeOut (makeOutputs l s) (makeOutputs l t) := by
  induction l generalizing s t with
  | nil => exact ⟨rfl, h⟩
  | cons x l ih =>
    refine alike_andThen (alike_andThen (alike_require _ _ h) fun s t h => ?_) fun s t h => ih h
    obtain ⟨o, p, r, rfl⟩ := h
    exact alike_busWrite _ ⟨o, p, r, rfl⟩

theorem alike_busScan {s t : State} (h : Alike s t) : AlikeOut (busScan s) (busScan t) := by
  obtain ⟨o, p, r, rfl⟩ := h
  simp only [busScan]
  cases replyOf s.env.scans Config.freeScan s.env.draws with
  | answer a => exact ⟨rfl, o, p + 1, r, rfl⟩
  | failure c => exact ⟨rfl, o, p + 1, r, rfl⟩
  | never => rfl

theorem alike_composeI2c (a r c : Int) (f : Option Font) {s t : State} (h : Alike s t) :
    AlikeOut (composeI2c a r c f s) (composeI2c a r c f t) := by
  refine alike_andThen (alike_require _ _ h) fun s t h => ?_
  refine alike_andThen (k := fun s => _) ?_ fun s t h => alike_andThen (alike_makeOutputs _ h) fun s t h => ?_
  · have w : t.cfg = s.cfg := by obtain ⟨o, p, r, rfl⟩ := h; rfl
    unfold attachExpander
    rw [w]
    refine alike_andThen (alike_require _ _ h) fun s t h => alike_bind (alike_busScan h) fun found s t h => ?_
    refine alike_andThen (alike_require _ _ h) fun s t h => ?_
    obtain ⟨o, p, r, rfl⟩ := h
    exact ⟨rfl, o, p, r, rfl⟩
  · obtain ⟨o, p, r, rfl⟩ := h; exact alike_runInitialise _ ⟨o, p, r, rfl⟩

/-- Constructions whose steps end alike answer alike. -/
theorem concludeConstruction_alike {x y : Out Unit} (h : AlikeOut x y) :
    concludeConstruction x = concludeConstruction y := by
  cases x with
  | ok a s =>
    cases y with
    | ok b t => obtain ⟨_, o, p, r, rfl⟩ := h; rfl
    | fail g t => exact h.elim
    | stuck q => exact h.elim
  | fail f s =>
    cases y with
    | ok b t => exact h.elim
    | fail g t => obtain ⟨rfl, o, p, r, rfl⟩ := h; rfl
    | stuck q => exact h.elim
  | stuck r =>
    cases y with
    | ok b t => exact h.elim
    | fail g t => exact h.elim
    | stuck q => exact congrArg Host.Outcome.fault h

/-- One composite answers the same under each of its names. -/
theorem construction_congr (i j : Instr) (b : State → Out Unit) (s : State)
    (h : ∀ s t, Alike s t → AlikeOut (b s) (b t)) : construction i b s = construction j b s := by
  unfold construction
  split
  · rfl
  · split
    · rfl
    · exact concludeConstruction_alike (h _ _ ⟨some j, 0, none, rfl⟩)

end Sys2Proof.Laws
end

