-- ==== Sys2Proof/Laws/Step.lean ====
section
/-!
SUPPORT. What one step of each kind of operation can do, said once, so that a claim over all instructions is a short case
analysis.
-/

namespace Sys2Proof.Laws

open Sys2Proof.Machine Sys2Proof.Safety

/-! ### E rests low -/

/-- The last two events since `s` are two frames: E low in the first, high in the second, which is the last written. -/
def Asserting (s t : State) : Prop :=
  t.ioWrite[2] = true ∧
    ∃ evs f, f[2] = false ∧ t.trace = s.trace ++ evs ++ [.i2cWrite s.addr f, .i2cWrite s.addr t.ioWrite]

/-- Steps over I2C leave E low where they found it low, but where they fail at the write that asserts it (R45; log 25). -/
def Rests (link : Link) (s : State) (x : Out Unit) : Prop :=
  link = .i2c → MayWrite s → s.ioWrite[2] = false →
    match x with
    | .ok _ t => t.ioWrite[2] = false
    | .fail _ t => t.ioWrite[2] = false ∨ Asserting s t
    | .stuck _ => True

theorem rests_ok (link : Link) (s : State) : Rests link s (.ok () s) := fun _ _ h => h

theorem rests_fail (link : Link) (s : State) (f : Failure) : Rests link s (.fail f s) := fun _ _ h => .inl h

theorem Asserting.of_flow {link : Link} {s t u : State} (flow : Flow link s t) (h : Asserting t u) : Asserting s u := by
  obtain ⟨high, evs, f, low, e⟩ := h
  obtain ⟨xs, ex, _⟩ := flow.events
  exact ⟨high, xs ++ evs, f, low, by rw [e, ex, flow.addr]; simp⟩

theorem rests_andThen {link : Link} {s : State} {x : Out Unit} {k : State → Out Unit} (ha : Along link s x)
    (hx : Rests link s x) (hk : ∀ t, Rests link t (k t)) : Rests link s (x.andThen k) := by
  intro hl m h
  cases x with
  | ok a t =>
    have r := hk t hl (ha.mayWrite m) (hx hl m h)
    simp only [andThen_ok]
    revert r
    cases k t with
    | ok b u => exact id
    | fail f u => exact fun r => r.imp_right (Asserting.of_flow ha)
    | stuck r => exact id
  | fail f t => exact hx hl m h
  | stuck r => trivial

/-- Each frame with E high comes right after one with E low; `p` is the frame written last, if nothing came between. -/
def GuardedRises : Option Byte → List Event → Prop
  | _, [] => True
  | p, .i2cWrite _ f :: rest => (f[2] = true → ∃ q, p = some q ∧ q[2] = false) ∧ GuardedRises (some f) rest
  | _, _ :: rest => GuardedRises none rest

/-- R193, R194, R197: a nibble cycle asserts E right after a frame with E low, and lowers it before the next. -/
theorem guardedRises_cycle (g : WriteGranularity) (a : BusAddr) {w : Byte} (n : Nibble) (rs : Level)
    (h : w[2] = false) : GuardedRises none (cycleEvents g a w n rs) := by
  cases g <;>
    simp [cycleEvents, pinWrites, cyclePins, waitEvent, writeEvent, GuardedRises, setBit_bit, restFrame, i2cFrame_bits, h]

/-- A run that fails ends at one of its frames, which is what `IO_WRITE` holds; where E is high in it, the frame before
has E low. -/
theorem runEvents_guarded {evs : List Event} {s t : State} {f : Failure} (only : OnlyFrames s.addr evs)
    (h : runEvents evs s = .fail f t) :
    ∀ p, GuardedRises p evs → t.ioWrite[2] = false ∨ Asserting s t ∨
      (∃ q, p = some q ∧ q[2] = false ∧ t.ioWrite[2] = true ∧ t.trace = s.trace ++ [.i2cWrite s.addr t.ioWrite]) := by
  induction evs generalizing s with
  | nil => cases h
  | cons e tail ih =>
    intro p hp
    have tailOnly : OnlyFrames s.addr tail := fun x hx => only x (by simp [hx])
    rcases only e (by simp) with ⟨b, rfl⟩ | ⟨n, rfl⟩
    · simp only [runEvents, writeLevels] at h
      rcases busWrite_cases b { s with ioWrite := b } with ⟨r, hr, _⟩ | ⟨u, hu, ho | ⟨c, ho⟩⟩
      · rw [hr] at h
        cases h
      · rw [ho, andThen_ok] at h
        have e := hu.1
        have addr : u.addr = s.addr := by rw [e]
        have trace : u.trace = s.trace ++ [.i2cWrite s.addr b] := by rw [e]
        rcases ih (by rw [addr]; exact tailOnly) h (some b) hp.2 with low | ⟨high, evs, q, low, et⟩ | ⟨q, hq, low, high, et⟩
        · exact .inl low
        · exact .inr (.inl ⟨high, .i2cWrite s.addr b :: evs, q, low, by rw [et, trace, addr]; simp⟩)
        · cases hq
          exact .inr (.inl ⟨high, [], b, low, by rw [et, trace, addr]; simp⟩)
      · rw [ho] at h
        cases h
        have e := hu.1
        have w : t.ioWrite = b := by rw [e]
        cases hb : b[2] with
        | false => exact .inl (by rw [w]; exact hb)
        | true =>
          obtain ⟨q, hq, low⟩ := hp.1 hb
          exact .inr (.inr ⟨q, hq, low, by rw [w]; exact hb, by rw [w, e]⟩)
    · simp only [runEvents] at h
      rcases wait_cases n s with hw | ⟨hw, _⟩ <;> rw [hw] at h
      on_goal 2 => cases h
      rcases ih (s := emit (.wait n) s) tailOnly h none hp with low | ⟨high, evs, q, low, et⟩ | ⟨q, hq, _⟩
      · exact .inl low
      · exact .inr (.inl ⟨high, .wait n :: evs, q, low, by rw [et]; simp⟩)
      · cases hq

theorem rests_nibbleCycle (n : Nibble) (rs : Level) (s : State) : Rests .i2c s (nibbleCycle n rs s) := by
  intro _ m h
  rw [nibbleCycle_eq n rs s m]
  cases hx : runEvents (cycleEvents s.cfg.granularity s.addr s.ioWrite n rs) (latchNibble n s) with
  | ok a t =>
    show t.ioWrite[2] = false
    rw [(runEvents_ok hx).2.2.2, lastFrame_cycle]
    simp [restFrame, i2cFrame_bits]
  | fail f t =>
    rcases runEvents_guarded (s := latchNibble n s) (onlyFrames_cycle _ s.addr _ _ _) hx none (guardedRises_cycle _ _ n rs h) with
      low | asserting | ⟨q, hq, _⟩
    · exact .inl low
    · exact .inr asserting
    · cases hq
  | stuck r => trivial

theorem rests_sendInstruction (link : Link) (b : Byte) (rs : Level) (s : State) :
    Rests link s (sendInstruction link b rs s) := by
  cases link with
  | gpio => rintro ⟨⟩
  | i2c =>
    exact rests_andThen (s := latchByte b rs s) (along_nibbleCycle _ _ _) (rests_nibbleCycle _ _ _)
      fun t => rests_nibbleCycle _ _ t

theorem rests_sendCommand (link : Link) (c : Byte) (s : State) : Rests link s (sendCommand link c s) :=
  rests_sendInstruction link c false s

theorem rests_sendData (link : Link) (l : List Byte) (s : State) : Rests link s (sendData link l s) := by
  induction l generalizing s with
  | nil => exact rests_ok link s
  | cons d rest ih => exact rests_andThen (along_sendInstruction _ _ _ _) (rests_sendInstruction _ _ _ _) ih

theorem rests_thenWait {link : Link} {s : State} {x : Out Unit} (ha : Along link s x) (h : Rests link s x) (t : Nat) :
    Rests link s (thenWait t x) :=
  rests_andThen ha h fun u _ _ low => by
    rcases wait_cases t u with e | ⟨e, _⟩ <;> rw [e]
    · exact low
    · trivial

/-! ### The display operations -/

/-- The rows that run over the attached transport: the LCD bytes and the operations of 44_display_ops.md. -/
def displayRow : Instr → Bool
  | .lcdClear | .lcdReturnHome _ | .lcdEntryModeSet _ _ | .lcdDisplayControl _ _ _ | .lcdCursorDisplayShift _ _ _
  | .lcdFunctionSet _ _ _ _ | .lcdCgramSelect _ | .lcdDdramSelect _ | .lcdData _
  | .clearDisplay | .returnHome | .displayOn | .displayOff | .cursorShow | .cursorHide | .cursorBlinkOn
  | .cursorBlinkOff | .displayShiftLeft | .displayShiftRight | .cursorShiftLeft | .cursorShiftRight
  | .setCursor _ _ | .print _ | .defineCustomGlyph _ _ => true
  | _ => false

/-- The six rows that write `DCB` (R242 to R247). -/
def writesDcb : Instr → Bool
  | .displayOn | .displayOff | .cursorShow | .cursorHide | .cursorBlinkOn | .cursorBlinkOff => true
  | _ => false

/-- How the steps of a display operation end: a run of sends, or a range failure before anything. -/
def BodyRuns (i : Instr) (body : Link → State → Out Unit) : Prop :=
  ∀ link s, Rests link s (body link s) ∧
    ((AlongDcb link s (body link s) ∧ (writesDcb i = false → Along link s (body link s))) ∨
      ∃ f, body link s = .fail f s ∧ f.failureClass ≠ .deviceError)

theorem bodyRuns_send {i : Instr} {body : Link → State → Out Unit} (h : ∀ link s, Along link s (body link s))
    (r : ∀ link s, Rests link s (body link s)) : BodyRuns i body :=
  fun link s => ⟨r link s, .inl ⟨alongDcb_same (h link s), fun _ => h link s⟩⟩

theorem bodyRuns_command (i : Instr) (c : Byte) : BodyRuns i fun link => sendCommand link c :=
  bodyRuns_send (fun link s => along_sendCommand link c s) fun link s => rests_sendCommand link c s

theorem bodyRuns_dcb {i : Instr} (h : writesDcb i = true) (change : BitVec 3 → BitVec 3) :
    BodyRuns i (changeDisplayControl change) :=
  fun link s => ⟨rests_sendCommand link _ { s with dcb := change s.dcb },
    .inl ⟨alongDcb_of_along (along_sendCommand link _ _), fun e => by simp [h] at e⟩⟩

theorem bodyRuns_wait (i : Instr) (c : Byte) (t : Nat) : BodyRuns i fun link s => thenWait t (sendCommand link c s) :=
  bodyRuns_send (fun link s => along_thenWait (along_sendCommand link c s) t)
    fun link s => rests_thenWait (along_sendCommand link c s) (rests_sendCommand link c s) t

theorem bodyRuns_moveCursor (i : Instr) (row column : Int) : BodyRuns i (moveCursor row column) := by
  intro link s
  unfold moveCursor
  split
  · exact bodyRuns_command i _ link s
  · exact ⟨rests_fail _ _ _, .inr ⟨_, rfl, by simp [Failure.failureClass]⟩⟩
  · exact ⟨rests_fail _ _ _, .inr ⟨_, rfl, by simp [Failure.failureClass]⟩⟩

theorem bodyRuns_sendGlyph (i : Instr) (slot : Int) (bitmap : List Byte) : BodyRuns i (sendGlyph slot bitmap) := by
  intro link s
  unfold sendGlyph
  cases legalSlot slot with
  | false => exact ⟨rests_fail _ _ _, .inr ⟨_, rfl, by simp [Failure.failureClass]⟩⟩
  | true =>
    cases decide (bitmap.length ≤ 8) with
    | false => exact ⟨rests_fail _ _ _, .inr ⟨_, rfl, by simp [Failure.failureClass]⟩⟩
    | true =>
      exact bodyRuns_send (i := i)
        (body := fun link s => (sendCommand link (cgramSelectByte slot.toNat) s).andThen (sendData link bitmap))
        (fun link s => along_andThen (along_sendCommand link _ s) fun t _ => along_sendData link _ t)
        (fun link s => rests_andThen (along_sendCommand link _ s) (rests_sendCommand link _ s)
          fun t => rests_sendData link _ t) link s

/-- A display row is refused, or its steps run. -/
theorem exec_displayRow {i : Instr} (h : displayRow i = true) (s : State) :
    (i.formError ≠ none ∧ ∃ r, exec i s = .refused r) ∨
      ∃ body, exec i s = displayOperation i body s ∧ BodyRuns i body := by
  cases i with
  | print codePoints =>
    simp only [exec, execPrint]
    cases e : (Instr.print codePoints).formError with
    | some err => exact .inl ⟨by simp, _, rfl⟩
    | none =>
      exact .inr ⟨_, rfl, bodyRuns_send (fun link s => along_sendData link _ s) fun link s => rests_sendData link _ s⟩
  | lcdData d =>
    exact .inr ⟨_, rfl, bodyRuns_send (fun link s => along_sendInstruction link d true s)
      fun link s => rests_sendInstruction link d true s⟩
  | clearDisplay => exact .inr ⟨_, rfl, bodyRuns_wait _ _ _⟩
  | returnHome => exact .inr ⟨_, rfl, bodyRuns_wait _ _ _⟩
  | displayOn => exact .inr ⟨_, rfl, bodyRuns_dcb rfl _⟩
  | displayOff => exact .inr ⟨_, rfl, bodyRuns_dcb rfl _⟩
  | cursorShow => exact .inr ⟨_, rfl, bodyRuns_dcb rfl _⟩
  | cursorHide => exact .inr ⟨_, rfl, bodyRuns_dcb rfl _⟩
  | cursorBlinkOn => exact .inr ⟨_, rfl, bodyRuns_dcb rfl _⟩
  | cursorBlinkOff => exact .inr ⟨_, rfl, bodyRuns_dcb rfl _⟩
  | setCursor row column => exact .inr ⟨_, rfl, bodyRuns_moveCursor _ _ _⟩
  | defineCustomGlyph slot bitmap => exact .inr ⟨_, rfl, bodyRuns_sendGlyph _ _ _⟩
  | lcdClear => exact .inr ⟨_, rfl, bodyRuns_command _ _⟩
  | lcdReturnHome _ => exact .inr ⟨_, rfl, bodyRuns_command _ _⟩
  | lcdEntryModeSet _ _ => exact .inr ⟨_, rfl, bodyRuns_command _ _⟩
  | lcdDisplayControl _ _ _ => exact .inr ⟨_, rfl, bodyRuns_command _ _⟩
  | lcdCursorDisplayShift _ _ _ => exact .inr ⟨_, rfl, bodyRuns_command _ _⟩
  | lcdFunctionSet _ _ _ _ => exact .inr ⟨_, rfl, bodyRuns_command _ _⟩
  | lcdCgramSelect _ => exact .inr ⟨_, rfl, bodyRuns_command _ _⟩
  | lcdDdramSelect _ => exact .inr ⟨_, rfl, bodyRuns_command _ _⟩
  | displayShiftLeft => exact .inr ⟨_, rfl, bodyRuns_command _ _⟩
  | displayShiftRight => exact .inr ⟨_, rfl, bodyRuns_command _ _⟩
  | cursorShiftLeft => exact .inr ⟨_, rfl, bodyRuns_command _ _⟩
  | cursorShiftRight => exact .inr ⟨_, rfl, bodyRuns_command _ _⟩
  | _ => cases h

/-- What a display row's step leaves: a state `u` that sends led to, with the result entered. -/
structure DisplayStep (i : Instr) (s u : State) (r : OpResult) (link : Link) : Prop where
  atRest : s.op = none
  ready : s.mode = .ready
  attached : linkOf s.transport = some link
  flow : Flow link { accept i s with dcb := u.dcb } u
  dcb : writesDcb i = false → u.dcb = s.dcb
  rests : link = .i2c → MayWrite s → s.ioWrite[2] = false → u.ioWrite[2] = false ∨ (r ≠ .ok ∧ Asserting s u)
  outcome : r = .ok ∨ ∃ f, r = .fail f ∧
    ((link = .i2c ∧ (MayWrite s → ∃ c, f = .transportError c)) ∨ (u = accept i s ∧ f.failureClass ≠ .deviceError))

theorem exec_display_next {i : Instr} (h : displayRow i = true) {s t : State} (ht : exec i s = .next t) :
    ∃ u r link, DisplayStep i s u r link ∧ t = endOperation r u := by
  rcases exec_displayRow h s with ⟨_, r, hr⟩ | ⟨body, hb, runs⟩
  · rw [hr] at ht; cases ht
  · rw [hb] at ht
    obtain ⟨op, mode, link, hl, hc⟩ := displayOperation_next ht
    obtain ⟨rests, along⟩ := runs link (accept i s)
    revert rests along hc
    cases body link (accept i s) with
    | ok a u =>
      intro hc rests along
      cases hc
      rcases along with ⟨hd, ha⟩ | ⟨f, hf, _⟩
      · exact ⟨u, .ok, link, ⟨op, mode, hl, hd, fun e => (ha e).dcb, fun l m e => .inl (rests l m e), .inl rfl⟩, rfl⟩
      · cases hf
    | fail f u =>
      intro hc rests along
      cases hc
      refine ⟨u, .fail f, link, ?_, rfl⟩
      rcases along with ⟨hd, ha⟩ | ⟨g, hg, hn⟩
      · exact ⟨op, mode, hl, hd.1, fun e => (ha e).1.dcb,
        fun l m e => (rests l m e).imp_right fun h => ⟨by simp, h⟩, .inr ⟨f, rfl, .inl hd.2⟩⟩
      · cases hg
        exact ⟨op, mode, hl, Flow.refl _ _, fun _ => rfl,
          fun l m e => (rests l m e).imp_right fun h => ⟨by simp, h⟩, .inr ⟨f, rfl, .inr ⟨rfl, hn⟩⟩⟩
    | stuck r => intro hc; cases hc

end Sys2Proof.Laws
end

