-- ==== Sys2Proof/Laws/HostStep.lean ====
section
/-!
SUPPORT. What a step of a transport, expander or format row can do, said once.
-/

namespace Sys2Proof.Laws

open Sys2Proof.Machine Sys2Proof.Safety

/-- The rows that construct, or are part of a construction. -/
def constructionRow : Instr → Bool
  | .initialise | .displayControllerConstruct _ _ _ | .constructOverGpio _ _ _ _ | .gpioTransportConstruct _
  | .i2cTransportConstruct _ _ _ _ _ | .portExpanderConstruct _ _ => true
  | _ => false

/-- Every row is a display row (Laws/Step.lean), a construction row (Laws/BuildStep.lean) or one of this file. -/
theorem row_cases (i : Instr) :
    displayRow i = true ∨ constructionRow i = true ∨ (displayRow i = false ∧ constructionRow i = false) := by
  cases displayRow i <;> cases constructionRow i <;> simp

/-- A step of a row that is neither a display row nor a construction row. -/
inductive HostStep (i : Instr) (s t : State) : Prop where
  /-- a GPIO send by the host, or one nibble inside a construction -/
  | gpioSent (u : State) (r : Option OpResult) (gpio : onGpio s.transport = true)
      (flow : Flow .gpio (if r.isSome then accept i s else s) u)
      (outcome : (s.op = none ∧ s.mode = .ready ∧ r = some .ok ∧ t = endOperation .ok u) ∨
        (s.op ≠ none ∧ s.mode = .constructing ∧ r = none ∧ t = u))
  /-- a pin vector inside an operation -/
  | vectorDriven (evs : List Event) (gpio : s.transport = some .gpio8 ∨ s.transport = some .gpio4)
      (inside : InsideOperation s) (after : t = emitAll evs s) (allowed : ∀ e ∈ evs, Allowed .gpio s e)
  /-- the dedicated backlight pin -/
  | backlightPin (v : Level) (row : i = .gpioBacklight v) (atRest : s.op = none) (ready : s.mode = .ready)
      (gpio : onGpio s.transport = true) (after : t = endOperation .ok (blSet v (accept i s)))
  /-- an I2C send by the host -/
  | i2cSent (u : State) (r : OpResult) (atRest : s.op = none) (ready : s.mode = .ready)
      (i2c : s.transport = some .i2c) (flow : Flow .i2c (accept i s) u) (after : t = endOperation r u)
      (outcome : r = .ok ∨ ∃ f, r = .fail f ∧ (MayWrite s → ∃ c, f = .transportError c))
      (rests : MayWrite s → s.ioWrite[2] = false → u.ioWrite[2] = false ∨ (r ≠ .ok ∧ Asserting s u))
  /-- one I2C nibble inside a construction -/
  | i2cNibble (u : State) (running : s.op ≠ none) (constructing : s.mode = .constructing)
      (i2c : s.transport = some .i2c) (flow : Flow .i2c s u) (after : t = u ∨ ∃ f, t = takeConstructionFailure f u)
  /-- the backlight bit of the expander -/
  | backlightBit (v : Level) (u : State) (r : OpResult) (row : i = .i2cBacklight v) (atRest : s.op = none)
      (ready : s.mode = .ready) (i2c : s.transport = some .i2c) (after : t = endOperation r u)
      (outcome : (u = accept i s ∧ (∃ f, r = .fail f ∧ f.failureClass ≠ .deviceError) ∧ ¬MayWrite s) ∨
        (Touched (accept i s) u [.i2cWrite s.addr u.ioWrite] ∧ u.ioConfig = s.ioConfig ∧
          u.ioWrite = setBit s.ioWrite 3 v ∧ (r = .ok ∨ ∃ c, r = .fail (.transportError c))))
  /-- `setPinMode`, `writePin`, `readPin` -/
  | expander (u : State) (r : OpResult) (evs : List Event) (atRest : s.op = none) (ready : s.mode = .ready)
      (alone : s.transport = some .expanderOnly) (after : t = endOperation r u) (touched : Touched (accept i s) u evs)
      (bus : ∀ e ∈ evs, (∃ a b, e = .i2cWrite a b) ∨ ∃ a, e = .i2cRead a)
      (outcome : (u = accept i s ∧ ∃ f, r = .fail f ∧ f.failureClass ≠ .deviceError) ∨
        (r = .ok ∨ (∃ v, r = .okValue v) ∨ ∃ c, r = .fail (.transportError c)))
  /-- a frame inside an operation -/
  | frame (u : State) (f : Byte) (inside : InsideOperation s)
      (bus : s.transport = some .expanderOnly ∨ (s.transport = some .i2c ∧
        (s.ioWrite[1] = false → u.ioWrite[1] = false) ∧ (s.ioConfig = 0x00#8 → u.ioConfig = 0x00#8)))
      (touched : Touched s u [.i2cWrite s.addr f]) (low : s.transport = some .i2c → f[1] = false)
      (after : t = u ∨ ∃ f, t = if s.mode = .constructing then takeConstructionFailure f u else takeFailure f u)
  /-- `release` -/
  | released (row : i = .release) (atRest : s.op = none) (mode : s.mode = .ready ∨ s.mode = .released)
      (bus : holdsBus s.transport = true) (after : t = endOperation .ok (afterRelease (accept .release s)))

/-- A frame's write, however it ends. -/
theorem hostStep_frame {i : Instr} {s t : State} {f : Byte} {s1 : State} (inside : InsideOperation s)
    (h : concludeInline (busWrite f s1) = .next t)
    (bus : s.transport = some .expanderOnly ∨ (s.transport = some .i2c ∧
      (s.ioWrite[1] = false → s1.ioWrite[1] = false) ∧ (s.ioConfig = 0x00#8 → s1.ioConfig = 0x00#8)))
    (low : s.transport = some .i2c → f[1] = false)
    (same : s1 = { s with ioWrite := s1.ioWrite, ioConfig := s1.ioConfig }) : HostStep i s t := by
  rcases busWrite_cases f s1 with ⟨r, hr, _⟩ | ⟨u, hu, ho⟩
  · rw [hr] at h
    cases h
  · have e := hu.1
    have touched : Touched s u [.i2cWrite s.addr f] := ⟨by rw [e, same], fun b => hu.2 (by rw [same]; exact b)⟩
    have mode : u.mode = s.mode := by rw [e, same]
    have w : u.ioWrite = s1.ioWrite := by rw [e]
    have c : u.ioConfig = s1.ioConfig := by rw [e]
    refine .frame u f inside (by rw [w, c]; exact bus) touched low ?_
    rcases ho with ho | ⟨c, ho⟩ <;> rw [ho] at h <;> cases h
    · exact .inl rfl
    · exact .inr ⟨_, by rw [mode]⟩

/-- Every next state of such a row is one of these. -/
theorem exec_host_next {i : Instr} {s t : State} (hd : displayRow i = false) (hc : constructionRow i = false)
    (h : exec i s = .next t) : HostStep i s t := by
  cases i with
  | frameI2c n bl e rw rs =>
    simp only [exec, execFrameI2c] at h
    obtain ⟨inside, off, hx⟩ := inlineSteps_next h
    have tr : s.transport = some .expanderOnly ∨ (s.transport = some .i2c ∧ rw = false) := by
      revert off
      cases s.transport with
      | none => intro h; cases h
      | some x => cases x <;> simp [holdsBus]
    refine hostStep_frame (f := i2cFrame n bl e rw rs) (s1 := { s with ioWrite := i2cFrame n bl e rw rs }) inside hx
      ?_ ?_ rfl
    · rcases tr with h | ⟨h, low⟩
      · exact .inl h
      · exact .inr ⟨h, fun _ => by simp [i2cFrame_bits, low], id⟩
    · rcases tr with h | ⟨_, low⟩
      · intro h'
        rw [h'] at h
        cases h
      · exact fun _ => by simp [i2cFrame_bits, low]
  | frameI2cConfig c =>
    simp only [exec, execFrameI2cConfig] at h
    obtain ⟨inside, off, hx⟩ := inlineSteps_next h
    have tr : s.transport = some .expanderOnly ∨ (s.transport = some .i2c ∧ c = 0x00#8) := by
      revert off
      cases s.transport with
      | none => intro h; cases h
      | some x => cases x <;> simp [holdsBus]
    refine hostStep_frame (f := c) (s1 := { s with ioConfig := c }) inside hx ?_ ?_ rfl
    · rcases tr with h | ⟨h, zero⟩
      · exact .inl h
      · exact .inr ⟨h, id, fun _ => zero⟩
    · rcases tr with h | ⟨_, zero⟩
      · intro h'
        rw [h'] at h
        cases h
      · exact fun _ => by simp [zero]
  | vectorGpio8 rs rw e d =>
    simp only [exec, execVectorGpio8, Instr.formError] at h
    cases rw with
    | true => cases h
    | false =>
      obtain ⟨inside, off, hx⟩ := inlineSteps_next h
      cases hx
      exact .vectorDriven _ (.inl (by simpa using off)) inside (drivePins_eq _ _) (by simp [dataLevels8, Allowed])
  | vectorGpio4 rs rw e d =>
    simp only [exec, execVectorGpio4, Instr.formError] at h
    cases rw with
    | true => cases h
    | false =>
      obtain ⟨inside, off, hx⟩ := inlineSteps_next h
      cases hx
      exact .vectorDriven _ (.inr (by simpa using off)) inside (drivePins_eq _ _) (by simp [dataLevels4, Allowed])
  | gpioSendInstruction b rs =>
    simp only [exec, execGpioSendInstruction] at h
    obtain ⟨op, mode, off, hx⟩ := hostOperation_next h
    have flow := along_gpioSend b rs (accept (.gpioSendInstruction b rs) s)
    rcases conclude_cases hx with ⟨u, hu, after⟩ | ⟨f, u, hu, _⟩ <;> rw [hu] at flow
    · exact .gpioSent u (some .ok) off flow (.inl ⟨op, mode, rfl, after⟩)
    · cases flow.2.1
  | gpioSendNibble n rs =>
    simp only [exec, execGpioSendNibble] at h
    obtain ⟨op, mode, off, hx⟩ := constructionSteps_next h
    have tr : s.transport = some .gpio4 := by simpa using off
    have flow := along_gpioSendSingle n rs s
    rcases concludeInline_cases hx with hu | ⟨f, u, hu, _⟩ <;> rw [hu] at flow
    · exact .gpioSent t none (by rw [tr]; rfl) flow (.inr ⟨op, mode, rfl, rfl⟩)
    · cases flow.2.1
  | gpioBacklight v =>
    simp only [exec, execGpioBacklight] at h
    obtain ⟨op, mode, off, hx⟩ := hostOperation_next h
    split at hx
    · cases hx
      exact .backlightPin v rfl op mode off rfl
    · cases hx
  | i2cSendInstruction b rs =>
    simp only [exec, execI2cSendInstruction] at h
    obtain ⟨op, mode, off, hx⟩ := hostOperation_next h
    have ha := along_i2cSend b rs (accept (.i2cSendInstruction b rs) s)
    have low := rests_sendInstruction .i2c b rs (accept (.i2cSendInstruction b rs) s) rfl
    simp only [sendInstruction] at low
    have tr : s.transport = some .i2c := by simpa [onI2c] using off
    rcases conclude_cases hx with ⟨u, hu, rfl⟩ | ⟨f, u, hu, rfl⟩
    · rw [hu] at ha low
      exact .i2cSent u .ok op mode tr ha rfl (.inl rfl) fun m l => .inl (low m l)
    · rw [hu] at ha low
      exact .i2cSent u (.fail f) op mode tr ha.1 rfl (.inr ⟨f, rfl, ha.2.2⟩)
        fun m l => (low m l).imp_right fun h => ⟨by simp, h⟩
  | i2cSendNibble n rs =>
    simp only [exec, execI2cSendNibble] at h
    obtain ⟨op, mode, off, hx⟩ := constructionSteps_next h
    have ha : Along .i2c s (i2cSendSingle n rs s) := along_sendNibble .i2c n rs s
    have tr : s.transport = some .i2c := by simpa [onI2c] using off
    rcases concludeInline_cases hx with hy | ⟨f, u, hy, rfl⟩
    · rw [hy] at ha
      exact .i2cNibble t op mode tr ha (.inl rfl)
    · rw [hy] at ha
      exact .i2cNibble u op mode tr ha.1 (.inr ⟨f, by rw [if_pos (ha.1.mode.trans mode)]⟩)
  | i2cBacklight v =>
    simp only [exec, execI2cBacklight] at h
    obtain ⟨op, mode, off, hx⟩ := hostOperation_next h
    have tr : s.transport = some .i2c := by simpa [onI2c] using off
    rcases changePin_cases 3 v (accept (.i2cBacklight v) s) with ⟨f, hf, hn, hm⟩ | ⟨r, hr, _⟩ | ⟨u, _, ht, hc, hw, he⟩
    · rw [hf] at hx
      cases hx
      exact .backlightBit v _ (.fail f) rfl op mode tr rfl (.inl ⟨rfl, ⟨f, rfl, hn⟩, hm (by decide)⟩)
    · rw [hr] at hx
      cases hx
    · rcases he with he | ⟨c, he⟩ <;> rw [he] at hx <;> cases hx
      · exact .backlightBit v u .ok rfl op mode tr rfl (.inr ⟨ht, hc, hw, .inl rfl⟩)
      · exact .backlightBit v u (.fail (.transportError c)) rfl op mode tr rfl (.inr ⟨ht, hc, hw, .inr ⟨c, rfl⟩⟩)
  | setPinMode pin m =>
    simp only [exec, execSetPinMode] at h
    obtain ⟨op, mode, off, hx⟩ := hostOperation_next h
    have tr : s.transport = some .expanderOnly := by simpa [offersExpander] using off
    have key : ∀ b, conclude (changePinMode pin b (accept (.setPinMode pin m) s)) = .next t →
        HostStep (.setPinMode pin m) s t := by
      intro b hx
      rcases changePinMode_cases pin b (accept (.setPinMode pin m) s) with
        ⟨f, hf, hn, _⟩ | ⟨r, hr, _⟩ | ⟨u, _, ht, hw, _, he⟩
      · rw [hf] at hx
        cases hx
        exact .expander _ (.fail f) [] op mode tr rfl ⟨by simp; rfl, id⟩ (by simp) (.inl ⟨rfl, f, rfl, hn⟩)
      · rw [hr] at hx
        cases hx
      · rcases he with he | ⟨c, he⟩ <;> rw [he] at hx <;> cases hx
        · exact .expander u .ok _ op mode tr rfl ht (by simp) (.inr (.inl rfl))
        · exact .expander u (.fail (.transportError c)) _ op mode tr rfl ht (by simp) (.inr (.inr (.inr ⟨c, rfl⟩)))
    cases m with
    | input => exact key _ hx
    | output => exact key _ hx
    | inputPullup => cases hx
    | outputPullup => cases hx
  | writePin pin v =>
    simp only [exec, execWritePin] at h
    obtain ⟨op, mode, off, hx⟩ := hostOperation_next h
    have tr : s.transport = some .expanderOnly := by simpa [offersExpander] using off
    rcases changePin_cases pin v (accept (.writePin pin v) s) with
      ⟨f, hf, hn, _⟩ | ⟨r, hr, _⟩ | ⟨u, _, ht, hw, _, he⟩
    · rw [hf] at hx
      cases hx
      exact .expander _ (.fail f) [] op mode tr rfl ⟨by simp; rfl, id⟩ (by simp) (.inl ⟨rfl, f, rfl, hn⟩)
    · rw [hr] at hx
      cases hx
    · rcases he with he | ⟨c, he⟩ <;> rw [he] at hx <;> cases hx
      · exact .expander u .ok _ op mode tr rfl ht (by simp) (.inr (.inl rfl))
      · exact .expander u (.fail (.transportError c)) _ op mode tr rfl ht (by simp) (.inr (.inr (.inr ⟨c, rfl⟩)))
  | readPin pin =>
    simp only [exec, execReadPin] at h
    obtain ⟨op, mode, off, hx⟩ := hostOperation_next h
    have tr : s.transport = some .expanderOnly := by simpa [offersExpander] using off
    rcases samplePin_cases pin (accept (.readPin pin) s) with ⟨f, hf, hn⟩ | ⟨r, hr, _⟩ | ⟨u, hu, he⟩
    · rw [hf] at hx
      cases hx
      exact .expander _ (.fail f) [] op mode tr rfl ⟨by simp; rfl, id⟩ (by simp) (.inl ⟨rfl, f, rfl, hn⟩)
    · rw [hr] at hx
      cases hx
    · have e := hu.1
      have ht : Touched (accept (.readPin pin) s) u [.i2cRead s.addr] := ⟨by rw [e]; rfl, hu.2⟩
      rcases he with ⟨v, he⟩ | ⟨c, he⟩ <;> rw [he] at hx <;> cases hx
      · exact .expander u (.okValue v) _ op mode tr rfl ht (by simp) (.inr (.inr (.inl ⟨v, rfl⟩)))
      · exact .expander u (.fail (.transportError c)) _ op mode tr rfl ht (by simp) (.inr (.inr (.inr ⟨c, rfl⟩)))
  | release =>
    simp only [exec, execRelease] at h
    split at h
    · cases h
    · split at h
      · cases h
      · split at h
        · rename_i op mode bus
          rcases returning_releaseBus (accept .release s) with e | ⟨e, _⟩ <;> rw [e] at h <;> cases h
          refine .released rfl (by simpa using op) ?_ bus rfl
          by_contra hm
          exact mode (by simpa [not_or] using hm)
        · cases h
  | initialise => simp [constructionRow] at hc
  | displayControllerConstruct _ _ _ => simp [constructionRow] at hc
  | constructOverGpio _ _ _ _ => simp [constructionRow] at hc
  | gpioTransportConstruct _ => simp [constructionRow] at hc
  | i2cTransportConstruct _ _ _ _ _ => simp [constructionRow] at hc
  | portExpanderConstruct _ _ => simp [constructionRow] at hc
  | _ => simp [displayRow] at hd

end Sys2Proof.Laws
end

