-- ==== Sys2Proof/Laws/BuildStep.lean ====
section
/-!
SUPPORT. What a step of a construction row can do, said once (60_exceptions.md R305).
-/

namespace Sys2Proof.Laws

open Sys2Proof.Machine Sys2Proof.Safety

/-- Where a construction's steps start: a fresh construction, or the one in progress. -/
def Starts (i : Instr) (s s0 : State) : Prop :=
  (s0 = startConstruction i s ∧ s.mode = .unconstructed ∧ s.op = none) ∨
    (s0 = s ∧ s.mode = .constructing ∧ s.op ≠ none)

/-- A step of a construction row. -/
inductive BuildStep (i : Instr) (s t : State) : Prop where
  /-- a construction failure -/
  | failed (s0 u : State) (f : Failure) (evs : List Event) (starts : Starts i s s0) (grew : Grew s0 u evs)
      (bus : s.mode = .constructing → evs = [] ∨ s.transport = some .i2c) (after : t = takeConstructionFailure f u)
  /-- the pin list attached by the construction in progress -/
  | attached (constructing : s.mode = .constructing) (running : s.op ≠ none) (free : s.transport = none)
      (after : ∃ l, t = { s with pinList := l, transport := some .gpio4, width := 4 } ∨
        t = { s with pinList := l, transport := some .gpio8, width := 8 })
  /-- the initialisation of the construction in progress, in line or as its end -/
  | initialised (link : Link) (s1 u : State) (constructing : s.mode = .constructing) (running : s.op ≠ none)
      (attached : linkOf s.transport = some link)
      (geometry : (s1 = s ∧ legalGeometry s.rows s.cols = true) ∨
        ∃ r c f, legalGeometry r c = true ∧ s1 = writeGeometry r c f s)
      (flow : Flow link { s1 with dcb := u.dcb } u) (low : link = .gpio → LowPins u)
      (after : t = u ∨ t = endOperation .ok { u with mode := .ready })
  /-- a whole construction over GPIO -/
  | gpio (u : State) (l : List PinId) (r c : Int) (f : Option Font) (tr : Transport) (w : Nat)
      (fresh : s.mode = .unconstructed) (atRest : s.op = none)
      (kind : (tr = .gpio4 ∧ w = 4) ∨ (tr = .gpio8 ∧ w = 8)) (geometry : legalGeometry r c = true) (low : LowPins u)
      (flow : Flow .gpio { writeGeometry r c f
        { startConstruction i s with pinList := l, transport := some tr, width := w } with dcb := u.dcb } u)
      (after : t = endOperation .ok { u with mode := .ready })
  /-- a whole construction over I2C -/
  | i2c (u : State) (evs : List Event) (a r c : Int) (fresh : s.mode = .unconstructed) (atRest : s.op = none)
      (geometry : legalGeometry r c = true) (legal : legalAddress s.cfg.addrPolicy a = true)
      (grew : Grew (startConstruction i s) u evs) (rwLow : ∀ a b, Event.i2cWrite a b ∈ evs → b[1] = false)
      (transport : u.transport = some .i2c) (width : u.width = 4) (rows : u.rows = r.toNat) (cols : u.cols = c.toNat)
      (lineFlag : u.lineFlag = lineFlagOf r.toNat) (addr : u.addr = BitVec.ofInt 7 a) (outputs : u.ioConfig = 0x00#8)
      (low : u.ioWrite[1] = false) (released : u.released = false)
      (after : t = endOperation .ok { u with mode := .ready })
  /-- the expander alone -/
  | expander (u : State) (a : Int) (fresh : s.mode = .unconstructed) (atRest : s.op = none)
      (bus : Bused (startConstruction i s) u .i2cScan) (legal : legalAddress s.cfg.addrPolicy a = true)
      (after : t = endOperation .ok { u with
        mode := .ready, transport := some .expanderOnly, addr := BitVec.ofInt 7 a
        ioConfig := 0x00#8, ioWrite := 0x00#8, released := false })

theorem linkOf_i2c {t : Option Transport} (h : linkOf t = some .i2c) : t = some .i2c := by
  rcases t with _ | _ | _ | _ | _ <;> first | rfl | cases h

/-- The initialisation of a construction in progress, however it ends. -/
theorem buildStep_initialise {i : Instr} {link : Link} {s s1 t : State} (hm : s.mode = .constructing)
    (ho : s.op ≠ none) (hl : linkOf s.transport = some link)
    (h1 : (s1 = s ∧ legalGeometry s.rows s.cols = true) ∨
      ∃ r c f, legalGeometry r c = true ∧ s1 = writeGeometry r c f s)
    (h : concludeConstruction (runInitialise link s1) = .next t ∨ concludeInline (runInitialise link s1) = .next t) :
    BuildStep i s t := by
  have ha := along_runInitialise link s1
  have mode1 : s1.mode = .constructing := by
    rcases h1 with ⟨rfl, _⟩ | ⟨r, c, f, _, rfl⟩
    · exact hm
    · exact hm
  have done : ∀ u, runInitialise link s1 = .ok () u → (t = u ∨ t = endOperation .ok { u with mode := .ready }) →
      BuildStep i s t := fun u hu after => by
    rw [hu] at ha
    exact .initialised link s1 u hm ho hl h1 ha (by rintro rfl; exact runInitialise_low hu) after
  have failed : ∀ f u, runInitialise link s1 = .fail f u → t = takeConstructionFailure f u → BuildStep i s t :=
    fun f u hu after => by
      rw [hu] at ha
      obtain ⟨evs, g⟩ := Flow.grew ha.1
      refine .failed s u f evs (.inr ⟨rfl, hm, ho⟩) ?_ (fun _ => .inr (linkOf_i2c (by rw [hl, ha.2.1]))) after
      rcases h1 with ⟨rfl, _⟩ | ⟨r, c, f, _, rfl⟩
      · exact ⟨g.cfg, g.pending, g.mode, g.op, g.trace, g.answers, g.gpioLow, g.i2cLow, g.hangs⟩
      · exact ⟨g.cfg, g.pending, g.mode, g.op, g.trace, g.answers, g.gpioLow, g.i2cLow, g.hangs⟩
  rcases h with h | h
  · rcases concludeConstruction_cases h with ⟨u, hu, after⟩ | ⟨f, u, hu, after⟩
    · exact done u hu (.inr after)
    · exact failed f u hu after
  · rcases concludeInline_cases h with hu | ⟨f, u, hu, after⟩
    · exact done t hu (.inl rfl)
    · have mode : u.mode = .constructing := by
        have e := ha
        rw [hu] at e
        exact e.1.mode.trans mode1
      rw [if_pos mode] at after
      exact failed f u hu after

/-- A part of a construction that took a step. -/
theorem constructionPart_next {i : Instr} {fits : Bool} {check : State → Out Unit} {run : State → Stepped}
    {s t : State} (h : constructionPart i fits check run s = .next t) :
    (s.op ≠ none ∧ s.mode = .constructing ∧ fits = true ∧ run s = .next t) ∨
    (s.op = none ∧ s.mode = .unconstructed ∧ ∃ f u, check (startConstruction i s) = .fail f u ∧
      t = takeConstructionFailure f u) := by
  unfold constructionPart at h
  split at h
  · rename_i op
    split at h
    · rename_i inside
      refine .inl ⟨fun e => ?_, inside.1, inside.2, h⟩
      rw [e] at op
      cases op
    · cases h
  · rename_i op
    split at h
    · cases h
    · rename_i mode
      refine .inr ⟨by simpa using op, by simpa using mode, ?_⟩
      split at h
      · cases h
      · rename_i f u e
        cases h
        exact ⟨f, u, e, rfl⟩
      · cases h

/-- A whole construction over GPIO, under whichever operation's name. -/
theorem buildStep_gpio {i : Instr} {l : List PinId} {r c : Int} {f : Option Font} {s t : State}
    (h : construction i (composeGpio l r c f) s = .next t) : BuildStep i s t := by
  obtain ⟨op, mode, hx⟩ := construction_next h
  rcases composeGpio_cases l r c f (startConstruction i s) with ⟨q, hq, _⟩ | ⟨e, he, _⟩ | ⟨hg, u, tr, w, htr, hu, low, fl⟩
  · rw [hq] at hx
    cases hx
  · rw [he] at hx
    cases hx
    exact .failed _ _ _ [] (.inl ⟨rfl, mode, op⟩) (Grew.refl _) (fun _ => .inl rfl) rfl
  · rw [hu] at hx
    cases hx
    exact .gpio u l r c f tr w mode op htr hg low fl rfl

/-- A whole construction over I2C, under whichever operation's name. -/
theorem buildStep_i2c {i : Instr} {a r c : Int} {f : Option Font} {s t : State}
    (h : construction i (composeI2c a r c f) s = .next t) : BuildStep i s t := by
  obtain ⟨op, mode, hx⟩ := construction_next h
  rcases composeI2c_cases a r c f (startConstruction i s) with
    ⟨q, hq, _⟩ | ⟨u, e, evs, he, g⟩ | ⟨hg, hl, u, evs, hu, g, rw, h1, h2, h3, h4, h5, h6, h7, h8, h9⟩
  · rw [hq] at hx
    cases hx
  · rw [he] at hx
    cases hx
    exact .failed _ _ _ evs (.inl ⟨rfl, mode, op⟩) g (fun m => by rw [mode] at m; cases m) rfl
  · rw [hu] at hx
    cases hx
    exact .i2c u evs a r c mode op hg hl g rw h1 h2 h3 h4 h5 h6 h7 h8 h9 rfl

/-- R221 over an attached transport, past its check. -/
theorem constructController_eq (link : Link) {r c : Int} (f : Option Font) (s : State) (hg : legalGeometry r c = true) :
    constructController link r c f s = runInitialise link (writeGeometry r c f s) := by
  have steps : ∀ k : State → Out Unit, (checkGeometry r c s).andThen k = k s := fun k => by
    simp only [checkGeometry, hg, require_true, andThen_ok]
  exact steps _

theorem constructController_bad (link : Link) {r c : Int} (f : Option Font) (s : State)
    (hg : legalGeometry r c = false) : constructController link r c f s = .fail (.invalidGeometry r c) s := by
  simp only [constructController, checkGeometry, hg, require_false, andThen_fail]

/-- Every next state of a construction row is one of these. -/
theorem exec_build_next {i : Instr} {s t : State} (hc : constructionRow i = true) (h : exec i s = .next t) :
    BuildStep i s t := by
  cases i with
  | initialise =>
    simp only [exec, execInitialise] at h
    split at h
    · cases h
    · rename_i op
      split at h
      · cases h
      · rename_i hm
        split at h
        · rename_i link hl hg
          exact buildStep_initialise (by simpa using hm) (by simpa using op) hl (.inl ⟨rfl, hg⟩) (.inr h)
        · cases h
  | displayControllerConstruct r c operands =>
    obtain ⟨f, carrier⟩ := operands
    cases carrier with
    | gpio l => exact buildStep_gpio h
    | i2c b a => exact buildStep_i2c h
    | attached =>
      simp only [exec, execDisplayControllerConstruct] at h
      rcases constructionPart_next h with ⟨op, hm, _, hx⟩ | ⟨op, hm, e, u, hx, after⟩
      · split at hx
        · rename_i link hl
          cases hgg : legalGeometry r c with
          | false =>
            rw [constructController_bad link f s hgg] at hx
            cases hx
            exact .failed s s _ [] (.inr ⟨rfl, hm, op⟩) (Grew.refl _) (fun _ => .inl rfl) rfl
          | true =>
            rw [constructController_eq link f s hgg] at hx
            exact buildStep_initialise hm op hl (.inr ⟨r, c, f, hgg, rfl⟩) (.inl hx)
        · cases hx
      · unfold checkGeometry require raise at hx
        split at hx
        · cases hx
        · cases hx
          exact .failed _ _ _ [] (.inl ⟨rfl, hm, op⟩) (Grew.refl _) (fun _ => .inl rfl) after
  | constructOverGpio l r c f => exact buildStep_gpio h
  | gpioTransportConstruct l =>
    simp only [exec, execGpioTransportConstruct] at h
    rcases constructionPart_next h with ⟨op, hm, free, hx⟩ | ⟨op, hm, e, u, hx, after⟩
    · have free : s.transport = none := by simpa using free
      simp only [attachGpio, checkPinCount] at hx
      cases hl : legalPinCount l.length with
      | false =>
        rw [hl] at hx
        simp only [require_false, andThen_fail, concludeInline, hm, if_true] at hx
        cases hx
        exact .failed _ _ _ [] (.inr ⟨rfl, hm, op⟩) (Grew.refl _) (fun _ => .inl rfl) rfl
      | true =>
        rw [hl] at hx
        cases hx
        refine .attached hm op free ⟨l, ?_⟩
        split
        · exact .inl rfl
        · exact .inr rfl
    · unfold checkPinCount require raise at hx
      split at hx
      · cases hx
      · cases hx
        exact .failed _ _ _ [] (.inl ⟨rfl, hm, op⟩) (Grew.refl _) (fun _ => .inl rfl) after
  | i2cTransportConstruct b a r c f => exact buildStep_i2c h
  | portExpanderConstruct b a =>
    simp only [exec, execPortExpanderConstruct] at h
    obtain ⟨op, mode, hx⟩ := construction_next h
    rcases attachExpander_cases a (startConstruction (.portExpanderConstruct b a) s) with
      he | ⟨q, hq, _⟩ | ⟨u, hu, hl, ⟨e, he⟩ | he⟩
    · rw [he] at hx
      cases hx
      exact .failed _ _ _ [] (.inl ⟨rfl, mode, op⟩) (Grew.refl _) (fun _ => .inl rfl) rfl
    · rw [hq] at hx
      cases hx
    · rw [he] at hx
      cases hx
      exact .failed _ _ _ _ (.inl ⟨rfl, mode, op⟩) (hu.grew (by simp) (by simp))
        (fun m => by rw [mode] at m; cases m) rfl
    · rw [he] at hx
      cases hx
      exact .expander u a mode op hu hl rfl
  | _ => simp [constructionRow] at hc

end Sys2Proof.Laws
end

