-- ==== Sys2Proof/Laws/Codec.lean ====
section
/-!
SUPPORT. The readers and writers of operand values and of bit fields undo each other (30_encoding.md section 3, R114).
-/

namespace Sys2Proof.Laws

@[simp] theorem byteOf_bits (d : Byte) :
    byteOf (d.getLsbD 0) (d.getLsbD 1) (d.getLsbD 2) (d.getLsbD 3) (d.getLsbD 4) (d.getLsbD 5) (d.getLsbD 6)
      (d.getLsbD 7) = d := by
  revert d
  decide

@[simp] theorem nibbleOf_bits (n : Nibble) :
    nibbleOf (n.getLsbD 0) (n.getLsbD 1) (n.getLsbD 2) (n.getLsbD 3) = n := by
  revert n
  decide

theorem byteOperand_value (b : Byte) : byteOperand (byteValue b) = some b := by
  revert b
  decide

theorem nibbleOperand_value (n : Nibble) : nibbleOperand (n.toNat : Int) = some n := by
  revert n
  decide

theorem levelOperand_value (v : Bool) : levelOperand (levelValue v) = some v := by
  revert v
  decide

theorem fontOperand_value (f : Option Font) : fontOperand (fontValue f) = some f := by
  rcases f with _ | _ | _ <;> decide

theorem modeOperand_value (m : PinMode) : modeOperand (modeValue m) = some m := by
  cases m <;> decide

theorem natOperand_value (n : Nat) : natOperand (n : Int) = some n := by
  simp [natOperand]

/-- A list of operand values comes back. -/
theorem operandList_value {α : Type} {read : Int → Option α} {value : α → Int} (h : ∀ a, read (value a) = some a)
    (l : List α) : operandList read (l.map value) = some l := by
  induction l with
  | nil => rfl
  | cons a l ih => simp only [List.map_cons, operandList, h, ih]

theorem byteValue_operand {x : Int} {b : Byte} (h : byteOperand x = some b) : byteValue b = x := by
  unfold byteOperand at h
  split at h
  · cases h
    simp [byteValue, BitVec.toNat_ofInt]
    omega
  · cases h

theorem nibbleValue_operand {x : Int} {n : Nibble} (h : nibbleOperand x = some n) : (n.toNat : Int) = x := by
  unfold nibbleOperand at h
  split at h
  · cases h
    simp [BitVec.toNat_ofInt]
    omega
  · cases h

theorem levelValue_operand {x : Int} {v : Bool} (h : levelOperand x = some v) : levelValue v = x := by
  unfold levelOperand at h
  split at h
  · cases h
    simp [levelValue, *]
  · split at h <;> cases h
    simp [levelValue, *]

theorem natValue_operand {x : Int} {n : Nat} (h : natOperand x = some n) : Int.ofNat n = x := by
  unfold natOperand at h
  split at h <;> cases h
  simpa

theorem fontValue_operand {x : Int} {f : Option Font} (h : fontOperand x = some f) : fontValue f = x := by
  unfold fontOperand at h
  repeat' split at h
  all_goals cases h <;> simp [fontValue, *]

theorem modeValue_operand {x : Int} {m : PinMode} (h : modeOperand x = some m) : modeValue m = x := by
  unfold modeOperand at h
  repeat' split at h
  all_goals cases h <;> simp [modeValue, *]

/-- A list of operand values is written as it was read. -/
theorem listValue_operand {α : Type} {read : Int → Option α} {value : α → Int}
    (h : ∀ x a, read x = some a → value a = x) (l : List Int) :
    ∀ m : List α, operandList read l = some m → m.map value = l := by
  induction l with
  | nil =>
    intro m hm
    cases hm
    rfl
  | cons a l ih =>
    intro m hm
    unfold operandList at hm
    split at hm
    · rename_i x xs h1 h2
      cases hm
      simp [h _ _ h1, ih _ h2]
    · cases hm

theorem transportOperands_values (t : TransportOperands) : transportOperands (transportValues t) = some t := by
  cases t with
  | attached => rfl
  | gpio l =>
    have e : operandList natOperand (l.map Int.ofNat) = some l := operandList_value natOperand_value l
    simp only [transportValues, transportOperands, e, if_true, Option.map_some]
  | i2c b a => simp [transportValues, transportOperands, natOperand_value]

theorem transportValues_operands {l : List Int} {t : TransportOperands} (h : transportOperands l = some t) :
    transportValues t = l := by
  unfold transportOperands at h
  split at h
  · cases h
    rfl
  · split at h
    · simp only [Option.map_eq_some_iff] at h
      obtain ⟨m, hm, rfl⟩ := h
      simp [transportValues, listValue_operand (fun _ _ => natValue_operand) _ _ hm, *]
    · split at h
      · split at h
        · simp only [Option.map_eq_some_iff] at h
          obtain ⟨m, hm, rfl⟩ := h
          have e := natValue_operand hm
          simp only [transportValues, *]
        · cases h
      · cases h

/-- A command byte that decodes gives a well-formed instruction. -/
theorem decodeCommand_wellFormed {c : Byte} {i : Instr} (h : decodeCommand c = .ok i) : i.WellFormed := by
  unfold decodeCommand at h
  repeat' split at h
  all_goals first | (cases h; rfl) | cases h

end Sys2Proof.Laws
end

