-- ==== Sys2Proof/Laws/Hang.lean ====
section
/-!
SUPPORT. Where an event that never returns strikes (70_reset_and_hazards.md R346, 93_implementation_defined.md U25): steps
run against the same steps from the state in which every event returns. One lemma per shared operation, so that a claim
over every instruction cites them and unfolds nothing.
-/

namespace Sys2Proof.Laws

open Sys2Proof.Machine Sys2Proof.Safety

variable {α β : Type}

/-- The same state with every event returning. -/
def free (s : State) : State := { s with hangs := none }

/-- `t` with the place that hangs of `s`. -/
def given (s t : State) : State := { t with hangs := s.hangs }

theorem free_given {s t : State} (h : t.hangs = none) : free (given s t) = t := by
  cases t; cases h; rfl

/-- How steps from `s` end (second), where from `free s` they end so (first). -/
def HangsWith (s : State) : Out α → Out α → Prop
  | .ok a t, y => s.trace <+: t.trace ∧ t.hangs = none ∧
      (HangsOnTheWay s t → y = .stuck .eventNeverReturns) ∧ (¬HangsOnTheWay s t → y = .ok a (given s t))
  | .fail f t, y => s.trace <+: t.trace ∧ t.hangs = none ∧
      (HangsOnTheWay s t → y = .stuck .eventNeverReturns) ∧ (¬HangsOnTheWay s t → y = .fail f (given s t))
  | .stuck _, y => ∃ r, y = .stuck r

/-- Steps that hang exactly where their trace would hold the event that never returns. -/
def Tracks (f : State → Out α) : Prop := ∀ s, HangsWith s (f (free s)) (f s)

/-! ### The way so far, and the way from there -/

theorem getElem?_of_prefix {xs ys : List Event} {k : Nat} (h : xs <+: ys) (hk : k < xs.length) : ys[k]? = xs[k]? := by
  obtain ⟨zs, rfl⟩ := h
  exact List.getElem?_append_left hk

theorem hangsOnTheWay_longer {s t u : State} (h : HangsOnTheWay s t) (grown : t.trace <+: u.trace) :
    HangsOnTheWay s u := by
  obtain ⟨k, hk, le, e⟩ := h
  have lt : k < t.trace.length := by
    by_contra ge
    rw [List.getElem?_eq_none (Nat.not_lt.mp ge)] at e
    simp at e
  exact ⟨k, hk, le, by rw [getElem?_of_prefix grown lt]; exact e⟩

/-- Past a way that did not hang, whether the rest hangs is asked of the rest alone. -/
theorem hangsOnTheWay_rest {s t u : State} (h : ¬HangsOnTheWay s t) (grown : s.trace <+: t.trace)
    (on : t.trace <+: u.trace) : HangsOnTheWay (given s t) u ↔ HangsOnTheWay s u := by
  constructor
  · rintro ⟨k, hk, le, e⟩
    exact ⟨k, hk, Nat.le_trans grown.length_le le, e⟩
  · rintro ⟨k, hk, le, e⟩
    refine ⟨k, hk, ?_, e⟩
    by_contra lt
    exact h ⟨k, hk, le, by rw [← getElem?_of_prefix on (Nat.not_le.mp lt)]; exact e⟩

theorem tracks_bind {f : State → Out α} {k : α → State → Out β} (hf : Tracks f) (hk : ∀ a, Tracks (k a)) :
    Tracks fun s => (f s).bind k := by
  intro s
  have h := hf s
  show HangsWith s ((f (free s)).bind k) ((f s).bind k)
  generalize f (free s) = x at h ⊢
  generalize f s = y at h ⊢
  cases x with
  | stuck r =>
    obtain ⟨q, rfl⟩ := h
    exact ⟨q, rfl⟩
  | fail g t => exact ⟨h.1, h.2.1, fun w => by rw [h.2.2.1 w]; rfl, fun w => by rw [h.2.2.2 w]; rfl⟩
  | ok a t =>
    obtain ⟨grown, still, hangs, goes⟩ := h
    have next := hk a (given s t)
    rw [free_given still] at next
    show HangsWith s (k a t) (y.bind k)
    by_cases w : HangsOnTheWay s t
    · rw [hangs w]
      generalize k a t = z at next ⊢
      cases z with
      | stuck r => exact ⟨_, rfl⟩
      | ok b u => exact ⟨grown.trans next.1, next.2.1, fun _ => rfl, fun n => absurd (hangsOnTheWay_longer w next.1) n⟩
      | fail g u => exact ⟨grown.trans next.1, next.2.1, fun _ => rfl, fun n => absurd (hangsOnTheWay_longer w next.1) n⟩
    · rw [goes w]
      show HangsWith s (k a t) (k a (given s t))
      generalize k a t = z at next ⊢
      cases z with
      | stuck r => exact next
      | ok b u =>
        have same := hangsOnTheWay_rest w grown next.1
        exact ⟨grown.trans next.1, next.2.1, fun x => next.2.2.1 (same.mpr x), fun x => next.2.2.2 (mt same.mp x)⟩
      | fail g u =>
        have same := hangsOnTheWay_rest w grown next.1
        exact ⟨grown.trans next.1, next.2.1, fun x => next.2.2.1 (same.mpr x), fun x => next.2.2.2 (mt same.mp x)⟩

theorem tracks_andThen {f : State → Out α} {k : State → Out β} (hf : Tracks f) (hk : Tracks k) :
    Tracks fun s => (f s).andThen k := tracks_bind hf fun _ => hk

/-- Steps whose operand is read from the state, not from its place that hangs. -/
theorem tracks_reading (read : State → β) (same : ∀ s, read (free s) = read s) {f : β → State → Out α}
    (h : ∀ b, Tracks (f b)) : Tracks fun s => f (read s) s := fun s => by
  simp only [same s]
  exact h (read s) s

theorem tracks_ite {c : Prop} [Decidable c] {f g : State → Out α} (hf : Tracks f) (hg : Tracks g) :
    Tracks fun s => if c then f s else g s := by
  by_cases h : c
  · simpa only [h, if_true] using hf
  · simpa only [h, if_false] using hg

/-! ### Steps that always return -/

/-- An update that does not touch the place that hangs and emits neither a wait nor a bus release. -/
def Quiet (f : State → State) : Prop := ∀ s, f (free s) = free (f s) ∧ (f s).hangs = s.hangs ∧
  ∃ evs, (f s).trace = s.trace ++ evs ∧ Event.busRelease ∉ evs ∧ ∀ d, Event.wait d ∉ evs

theorem quiet_update {f : State → State} (commutes : ∀ s, f (free s) = free (f s)) (hangs : ∀ s, (f s).hangs = s.hangs)
    (trace : ∀ s, (f s).trace = s.trace) : Quiet f := fun s =>
  ⟨commutes s, hangs s, [], by simp [trace s], by simp, by simp⟩

theorem hangsWith_of_quiet {s t : State} (hangs : t.hangs = s.hangs)
    (events : ∃ evs, t.trace = s.trace ++ evs ∧ Event.busRelease ∉ evs ∧ ∀ d, Event.wait d ∉ evs) :
    s.trace <+: (free t).trace ∧ (free t).hangs = none ∧ ¬HangsOnTheWay s (free t) ∧ given s (free t) = t := by
  obtain ⟨evs, trace, release, wait⟩ := events
  refine ⟨⟨evs, trace.symm⟩, rfl, ?_, by cases t; cases hangs; rfl⟩
  rintro ⟨k, _, le, e⟩
  have at_ : ∀ e, (free t).trace[k]? = some e → e ∈ evs := fun e h => by
    rw [show (free t).trace = s.trace ++ evs from trace, List.getElem?_append_right le] at h
    exact List.mem_of_getElem? h
  rcases e with e | ⟨d, e⟩
  · exact release (at_ _ e)
  · exact wait d (at_ _ e)

theorem tracks_ok {f : State → State} (a : α) (h : Quiet f) : Tracks fun s => .ok a (f s) := fun s => by
  obtain ⟨commutes, hangs, events⟩ := h s
  obtain ⟨grown, none, way, back⟩ := hangsWith_of_quiet hangs events
  simp only [commutes]
  exact ⟨grown, none, fun w => absurd w way, fun _ => by rw [back]⟩

theorem tracks_fail {f : State → State} (g : Failure) (h : Quiet f) : Tracks fun s => (.fail g (f s) : Out α) :=
  fun s => by
  obtain ⟨commutes, hangs, events⟩ := h s
  obtain ⟨grown, none, way, back⟩ := hangsWith_of_quiet hangs events
  simp only [commutes]
  exact ⟨grown, none, fun w => absurd w way, fun _ => by rw [back]⟩

theorem quiet_id : Quiet fun s => s := quiet_update (fun _ => rfl) (fun _ => rfl) fun _ => rfl

/-- Steps after such an update. -/
theorem tracks_after {f : State → State} {k : State → Out α} (hf : Quiet f) (hk : Tracks k) : Tracks fun s => k (f s) :=
  tracks_andThen (tracks_ok () hf) hk

/-- Steps after an update of registers only. -/
theorem tracks_update {f : State → State} {k : State → Out α} (hk : Tracks k)
    (commutes : ∀ s, f (free s) = free (f s)) (hangs : ∀ s, (f s).hangs = s.hangs)
    (trace : ∀ s, (f s).trace = s.trace) : Tracks fun s => k (f s) :=
  tracks_after (quiet_update commutes hangs trace) hk

theorem tracks_require (c : Bool) (f : Failure) : Tracks (require c f) := by
  cases c
  · exact tracks_fail f quiet_id
  · exact tracks_ok () quiet_id

/-- A bus event hangs by its answer, not by its place. -/
theorem tracks_settle {f : State → State} (r : Reply α) (h : Quiet f) : Tracks fun s => settle r (f s) := by
  cases r with
  | answer a => exact tracks_ok a h
  | failure c => exact tracks_fail _ h
  | never => exact fun s => ⟨_, rfl⟩

theorem quiet_emit {e : Event} {f : State → State} (release : e ≠ .busRelease) (wait : ∀ d, e ≠ .wait d)
    (commutes : ∀ s, f (free s) = free (f s)) (hangs : ∀ s, (f s).hangs = s.hangs)
    (trace : ∀ s, (f s).trace = s.trace ++ [e]) : Quiet f := fun s =>
  ⟨commutes s, hangs s, [e], trace s, by simpa using Ne.symm release, by simpa using fun d => Ne.symm (wait d)⟩

theorem quiet_pinSet (p : Position) (v : Level) : Quiet (pinSet p v) :=
  quiet_emit (e := .pinSet p v) (by simp) (by simp) (fun _ => rfl) (fun _ => rfl) fun _ => rfl

theorem quiet_blSet (v : Level) : Quiet (blSet v) :=
  quiet_emit (e := .blSet v) (by simp) (by simp) (fun _ => rfl) (fun _ => rfl) fun _ => rfl

theorem quiet_comp {f g : State → State} (hf : Quiet f) (hg : Quiet g) : Quiet fun s => g (f s) := fun s => by
  obtain ⟨cf, hangsF, xs, tf, rf, wf⟩ := hf s
  obtain ⟨cg, hangsG, ys, tg, rg, wg⟩ := hg (f s)
  refine ⟨(congrArg g cf).trans cg, hangsG.trans hangsF, xs ++ ys, by rw [tg, tf, List.append_assoc], ?_, fun d => ?_⟩
  · simp [rf, rg]
  · simp [wf d, wg d]

theorem quiet_drivePins (l : List (Position × Level)) : Quiet (drivePins l) := by
  induction l with
  | nil => exact quiet_id
  | cons x rest ih => exact quiet_comp (f := pinSet x.1 x.2) (quiet_pinSet x.1 x.2) ih

/-! ### Events answered with nothing -/

/-- The one place where a wait or a bus release hangs is its own. -/
theorem tracks_emitReturning {e : Event} (kind : e = .busRelease ∨ ∃ d, e = .wait d) : Tracks (emitReturning e) := by
  intro s
  have goes : emitReturning e (free s) = .ok () (emit e (free s)) := rfl
  have way : HangsOnTheWay s (emit e (free s)) ↔ s.hangs = some s.trace.length := by
    constructor
    · rintro ⟨k, hk, le, at_⟩
      have lt : k < (s.trace ++ [e]).length := by
        by_contra ge
        rw [show (emit e (free s)).trace = s.trace ++ [e] from rfl, List.getElem?_eq_none (Nat.not_lt.mp ge)] at at_
        simp at at_
      simp only [List.length_append, List.length_cons, List.length_nil] at lt
      rw [hk, show k = s.trace.length by omega]
    · intro h
      refine ⟨_, h, Nat.le_refl _, ?_⟩
      rw [show (emit e (free s)).trace = s.trace ++ [e] from rfl, List.getElem?_concat_length]
      simpa using kind
  rw [goes]
  refine ⟨⟨[e], rfl⟩, rfl, fun w => ?_, fun w => ?_⟩
  · simp only [emitReturning, way.mp w, if_true]
  · simp only [emitReturning, mt way.mpr w, if_false]
    rfl

theorem tracks_wait (d : Nat) : Tracks (wait d) := tracks_emitReturning (.inr ⟨d, rfl⟩)

/-! ### Bus events -/

theorem tracks_busWrite (b : Byte) : Tracks (busWrite b) :=
  tracks_reading (fun s => replyOf s.env.writes Config.freeWrite s.env.draws) (fun _ => rfl) fun r =>
    tracks_settle r (f := fun s => { emit (.i2cWrite s.addr b) s with
      env := { s.env with writes := s.env.writes.tail, draws := s.env.draws + 1 } }) fun s =>
    ⟨rfl, rfl, [.i2cWrite s.addr b], rfl, by simp, by simp⟩

theorem tracks_busScan : Tracks busScan :=
  tracks_reading (fun s => replyOf s.env.scans Config.freeScan s.env.draws) (fun _ => rfl) fun r =>
    tracks_settle r (f := fun s => { emit .i2cScan s with
      env := { s.env with scans := s.env.scans.tail, draws := s.env.draws + 1 } }) fun s =>
    ⟨rfl, rfl, [.i2cScan], rfl, by simp, by simp⟩

theorem tracks_busRead : Tracks busRead :=
  tracks_reading (fun s => replyOf s.env.reads Config.freeRead s.env.draws) (fun _ => rfl) fun r =>
    tracks_settle r (f := fun s => { emit (.i2cRead s.addr) s with
      env := { s.env with reads := s.env.reads.tail, draws := s.env.draws + 1 } }) fun s =>
    ⟨rfl, rfl, [.i2cRead s.addr], rfl, by simp, by simp⟩

/-! ### Sends -/

theorem tracks_gpioPulse : Tracks gpioPulse :=
  tracks_andThen (tracks_after (quiet_pinSet 2 false) (tracks_wait tEn)) <|
    tracks_andThen (tracks_after (quiet_pinSet 2 true) (tracks_wait tEn)) (tracks_ok () (quiet_pinSet 2 false))

theorem tracks_gpioNibble (n : Nibble) : Tracks (gpioNibble n) :=
  tracks_after (f := latchNibble n) (k := fun s => gpioPulse (drivePins (dataLevels4 n) s))
    (quiet_update (fun _ => rfl) (fun _ => rfl) fun _ => rfl) (tracks_after (quiet_drivePins _) tracks_gpioPulse)

theorem quiet_gpioSelect (rs : Level) : Quiet (gpioSelect rs) :=
  quiet_comp (f := pinSet 0 rs) (quiet_pinSet 0 rs) (quiet_pinSet 1 false)

theorem tracks_gpioSend (b : Byte) (rs : Level) : Tracks (gpioSend b rs) :=
  tracks_after (f := fun s => gpioSelect rs (latchByte b rs s))
    (k := fun s => if s.width = 8 then gpioPulse (drivePins (dataLevels8 b) s)
      else (gpioNibble (highNibble b) s).andThen (gpioNibble (lowNibble b)))
    (quiet_comp (f := latchByte b rs) (quiet_update (fun _ => rfl) (fun _ => rfl) fun _ => rfl) (quiet_gpioSelect rs)) <|
  tracks_reading (fun s => s.width) (fun _ => rfl) (f := fun w s => if w = 8 then gpioPulse (drivePins (dataLevels8 b) s)
      else (gpioNibble (highNibble b) s).andThen (gpioNibble (lowNibble b))) fun _ =>
    tracks_ite (tracks_after (quiet_drivePins _) tracks_gpioPulse)
      (tracks_andThen (tracks_gpioNibble _) (tracks_gpioNibble _))

theorem tracks_gpioSendSingle (n : Nibble) (rs : Level) : Tracks (gpioSendSingle n rs) :=
  tracks_after (f := latchSingle n rs) (k := fun s => gpioNibble n (gpioSelect rs s))
    (quiet_update (fun _ => rfl) (fun _ => rfl) fun _ => rfl) (tracks_after (quiet_gpioSelect rs) (tracks_gpioNibble n))

theorem tracks_changePin (pin : Int) (v : Level) : Tracks (changePin pin v) :=
  tracks_andThen (tracks_require _ _) <| tracks_andThen
    (tracks_reading (fun s => s.cfg.pinModePolicy = .permissive || !s.ioConfig.getLsbD pin.toNat) (fun _ => rfl)
      fun c => tracks_require c _) <|
    tracks_reading (fun s => setBit s.ioWrite pin.toNat v) (fun _ => rfl)
      (f := fun levels s => busWrite levels { s with ioWrite := levels }) fun levels =>
      tracks_update (tracks_busWrite levels) (fun _ => rfl) (fun _ => rfl) fun _ => rfl

theorem tracks_changePins (l : List (Int × Level)) : Tracks (changePins l) := by
  induction l with
  | nil => exact tracks_ok () quiet_id
  | cons x rest ih => exact tracks_andThen (tracks_changePin x.1 x.2) ih

theorem tracks_changePinMode (pin : Int) (input : Bool) : Tracks (changePinMode pin input) :=
  tracks_andThen (tracks_require _ _) <|
    tracks_reading (fun s => setBit s.ioConfig pin.toNat input) (fun _ => rfl)
      (f := fun config s => busWrite config { s with ioConfig := config }) fun config =>
      tracks_update (tracks_busWrite config) (fun _ => rfl) (fun _ => rfl) fun _ => rfl

theorem tracks_samplePin (pin : Int) : Tracks (samplePin pin) :=
  tracks_andThen (tracks_require _ _) <| tracks_andThen
    (tracks_reading (fun s => s.cfg.pinModePolicy = .permissive || s.ioConfig.getLsbD pin.toNat) (fun _ => rfl)
      fun c => tracks_require c _) <|
    tracks_bind tracks_busRead fun _ => tracks_ok _ quiet_id

theorem tracks_writeLevels (f : Byte) : Tracks (writeLevels f) :=
  tracks_update (f := fun s => { s with ioWrite := f }) (tracks_busWrite f) (fun _ => rfl) (fun _ => rfl) fun _ => rfl

theorem tracks_nibbleCycle (n : Nibble) (rs : Level) : Tracks (nibbleCycle n rs) :=
  tracks_reading (fun s => s.cfg.granularity) (fun _ => rfl)
    (f := fun g s => match g with
      | .perPin => nibbleCyclePerPin n rs (latchNibble n s)
      | .perPhase => nibbleCyclePerPhase n rs (latchNibble n s)) fun g => by
    cases g with
    | perPin =>
      exact tracks_update (tracks_andThen (tracks_changePins _) <| tracks_andThen (tracks_changePin _ _) <|
        tracks_andThen (tracks_wait _) (tracks_changePin _ _)) (fun _ => rfl) (fun _ => rfl) fun _ => rfl
    | perPhase =>
      refine tracks_update (f := latchNibble n) ?_ (fun _ => rfl) (fun _ => rfl) fun _ => rfl
      have set : ∀ v, Tracks fun s => writeLevels (setBit s.ioWrite 2 v) s := fun v =>
        tracks_reading (fun s => setBit s.ioWrite 2 v) (fun _ => rfl) tracks_writeLevels
      exact tracks_andThen (tracks_reading (fun s => i2cFrame n (s.ioWrite.getLsbD 3) false false rs) (fun _ => rfl)
        tracks_writeLevels) <| tracks_andThen (set true) <| tracks_andThen (tracks_wait _) (set false)

theorem tracks_sendInstruction (link : Link) (b : Byte) (rs : Level) : Tracks (sendInstruction link b rs) := by
  cases link with
  | gpio => exact tracks_gpioSend b rs
  | i2c =>
    exact tracks_andThen (tracks_update (f := latchByte b rs) (tracks_nibbleCycle _ _) (fun _ => rfl) (fun _ => rfl)
      fun _ => rfl) (tracks_nibbleCycle _ _)

theorem tracks_sendNibble (link : Link) (n : Nibble) (rs : Level) : Tracks (sendNibble link n rs) := by
  cases link with
  | gpio => exact tracks_gpioSendSingle n rs
  | i2c =>
    exact tracks_update (f := latchSingle n rs) (tracks_nibbleCycle _ _) (fun _ => rfl) (fun _ => rfl) fun _ => rfl

theorem tracks_sendData (link : Link) (l : List Byte) : Tracks (sendData link l) := by
  induction l with
  | nil => exact tracks_ok () quiet_id
  | cons d rest ih => exact tracks_andThen (tracks_sendInstruction _ _ _) ih

theorem tracks_thenWait (d : Nat) {f : State → Out Unit} (h : Tracks f) : Tracks fun s => thenWait d (f s) :=
  tracks_andThen h (tracks_wait d)

/-! ### Constructions, the expander's release -/

theorem tracks_legacySend (link : Link) : Tracks (legacySend link) :=
  tracks_reading (fun s => s.width) (fun _ => rfl)
    (f := fun w s => if w = 8 then sendCommand link legacyByte s else sendNibble link legacyNibble false s) fun _ =>
    tracks_ite (tracks_sendInstruction _ _ _) (tracks_sendNibble _ _ _)

theorem tracks_runInitialise (link : Link) : Tracks (runInitialise link) := by
  have send : ∀ c, Tracks fun s => sendCommand link c s := fun c => tracks_sendInstruction link c false
  refine tracks_andThen (tracks_thenWait _ (tracks_andThen (tracks_wait _) (tracks_legacySend link))) <|
    tracks_andThen (tracks_thenWait _ (tracks_legacySend link)) <| tracks_andThen (tracks_legacySend link) <|
    tracks_andThen (tracks_reading (fun s => functionSetByte s.width s.lineFlag s.font) (fun _ => rfl) send) <|
    tracks_andThen ?_ <| tracks_andThen (tracks_thenWait _ (send _)) (send _)
  exact tracks_update (f := fun s => { s with dcb := dcbAfterInit }) (send _) (fun _ => rfl) (fun _ => rfl) fun _ => rfl

theorem tracks_attachExpander (address : Int) : Tracks (attachExpander address) :=
  tracks_andThen (tracks_reading (fun s => legalAddress s.cfg.addrPolicy address) (fun _ => rfl) fun c =>
      tracks_require c _) <|
    tracks_bind tracks_busScan fun _ => tracks_andThen (tracks_require _ _) <|
      tracks_ok () (quiet_update (fun _ => rfl) (fun _ => rfl) fun _ => rfl)

theorem tracks_attachGpio (l : List PinId) : Tracks (attachGpio l) :=
  tracks_andThen (tracks_require _ _) <| tracks_ok () <|
    quiet_update (fun _ => by split <;> rfl) (fun _ => by split <;> rfl) (fun _ => by split <;> rfl)

theorem tracks_composeGpio (l : List PinId) (r c : Int) (f : Option Font) : Tracks (composeGpio l r c f) :=
  tracks_andThen (tracks_require _ _) <| tracks_andThen (tracks_attachGpio l) <|
    tracks_update (tracks_runInitialise .gpio) (fun _ => rfl) (fun _ => rfl) fun _ => rfl

theorem tracks_makeOutputs (l : List Int) : Tracks (makeOutputs l) := by
  induction l with
  | nil => exact tracks_ok () quiet_id
  | cons p rest ih => exact tracks_andThen (tracks_changePinMode p false) ih

theorem tracks_composeI2c (a r c : Int) (f : Option Font) : Tracks (composeI2c a r c f) :=
  tracks_andThen (tracks_require _ _) <| tracks_andThen (tracks_attachExpander a) <|
    tracks_andThen (tracks_makeOutputs _) <|
    tracks_update (tracks_runInitialise .i2c) (fun _ => rfl) (fun _ => rfl) fun _ => rfl

theorem tracks_constructController (link : Link) (r c : Int) (f : Option Font) :
    Tracks (constructController link r c f) :=
  tracks_andThen (tracks_require _ _) <|
    tracks_update (tracks_runInitialise link) (fun _ => rfl) (fun _ => rfl) fun _ => rfl

theorem tracks_releaseBus : Tracks releaseBus := by
  refine tracks_andThen (tracks_reading (fun s => s.released) (fun _ => rfl)
    (f := fun b s => if b then .ok () s else (emitReturning .busRelease s).andThen fun s => .ok () { s with released := true })
    fun b => ?_) (tracks_ok () (quiet_update (fun _ => rfl) (fun _ => rfl) fun _ => rfl))
  exact tracks_ite (tracks_ok () quiet_id) <| tracks_andThen (tracks_emitReturning (.inl rfl)) <|
    tracks_ok () (quiet_update (fun _ => rfl) (fun _ => rfl) fun _ => rfl)

/-! ### Operations -/

/-- How an operation ends from `s` (second), where from `free s` it ends so (first). -/
def StepsWith (s : State) : Stepped → Stepped → Prop
  | .next t, o => (HangsOnTheWay s t → o = .fault .eventNeverReturns) ∧ (¬HangsOnTheWay s t → o = .next (given s t))
  | .refused r, o => o = .refused r
  | .fault _, o => ∃ r, o = .fault r

theorem stepsWith_refused (s : State) (r : Refusal) : StepsWith s (.refused r) (.refused r) := rfl

/-- An operation that ends as its steps did, whichever way it closes them. -/
theorem stepsWith_closed {s : State} {x y : Out α} {close : Out α → Stepped} {onOk : α → State → State}
    {onFail : Failure → State → State} (h : HangsWith s x y) (stuck : ∀ r, close (.stuck r) = .fault r)
    (ok : ∀ a t, close (.ok a t) = .next (onOk a t)) (fail : ∀ f t, close (.fail f t) = .next (onFail f t))
    (okSame : ∀ a t, (onOk a t).trace = t.trace ∧ onOk a (given s t) = given s (onOk a t))
    (failSame : ∀ f t, (onFail f t).trace = t.trace ∧ onFail f (given s t) = given s (onFail f t)) :
    StepsWith s (close x) (close y) := by
  cases x with
  | stuck r =>
    obtain ⟨q, rfl⟩ := h
    rw [stuck, stuck]
    exact ⟨q, rfl⟩
  | ok a t =>
    rw [ok]
    have way : HangsOnTheWay s (onOk a t) ↔ HangsOnTheWay s t := by simp only [HangsOnTheWay, (okSame a t).1]
    exact ⟨fun w => by rw [h.2.2.1 (way.mp w), stuck], fun w => by rw [h.2.2.2 (mt way.mpr w), ok, (okSame a t).2]⟩
  | fail f t =>
    rw [fail]
    have way : HangsOnTheWay s (onFail f t) ↔ HangsOnTheWay s t := by simp only [HangsOnTheWay, (failSame f t).1]
    exact ⟨fun w => by rw [h.2.2.1 (way.mp w), stuck], fun w => by rw [h.2.2.2 (mt way.mpr w), fail, (failSame f t).2]⟩

theorem stepsWith_conclude {s : State} {x y : Out Unit} (h : HangsWith s x y) :
    StepsWith s (conclude x) (conclude y) :=
  stepsWith_closed h (fun _ => rfl) (fun _ _ => rfl) (fun _ _ => rfl) (fun _ _ => ⟨rfl, rfl⟩) fun _ _ => ⟨rfl, rfl⟩

theorem stepsWith_concludeValue {s : State} {x y : Out Level} (h : HangsWith s x y) :
    StepsWith s (concludeValue x) (concludeValue y) :=
  stepsWith_closed h (fun _ => rfl) (fun _ _ => rfl) (fun _ _ => rfl) (fun _ _ => ⟨rfl, rfl⟩) fun _ _ => ⟨rfl, rfl⟩

theorem stepsWith_concludeConstruction {s : State} {x y : Out Unit} (h : HangsWith s x y) :
    StepsWith s (concludeConstruction x) (concludeConstruction y) :=
  stepsWith_closed h (fun _ => rfl) (fun _ _ => rfl) (fun _ _ => rfl) (fun _ _ => ⟨rfl, rfl⟩) fun _ _ => ⟨rfl, rfl⟩

theorem stepsWith_concludeInline {s : State} {x y : Out Unit} (h : HangsWith s x y) :
    StepsWith s (concludeInline x) (concludeInline y) :=
  stepsWith_closed h (fun _ => rfl) (fun _ _ => rfl) (fun _ _ => rfl) (fun _ _ => ⟨rfl, rfl⟩) fun _ t =>
    ⟨by split <;> rfl, by by_cases mode : t.mode = .constructing <;> simp only [given, mode, if_true, if_false] <;> rfl⟩

theorem stepsWith_displayOperation {i : Instr} {body : Link → State → Out Unit} (h : ∀ link, Tracks (body link))
    (s : State) : StepsWith s (displayOperation i body (free s)) (displayOperation i body s) := by
  simp only [displayOperation]
  by_cases op : s.op.isSome = true
  · rw [if_pos (by exact op), if_pos op]; rfl
  · rw [if_neg (by exact op), if_neg op]
    by_cases mode : s.mode ≠ .ready
    · rw [if_pos (by exact mode), if_pos mode]; rfl
    · rw [if_neg (by exact mode), if_neg mode, show (free s).transport = s.transport from rfl]
      cases linkOf s.transport with
      | none => rfl
      | some link => exact stepsWith_conclude (h link (accept i s))

theorem stepsWith_hostOperation {i : Instr} {offered : Option Transport → Bool} {run : State → Stepped}
    (h : ∀ s, StepsWith s (run (free s)) (run s)) (s : State) :
    StepsWith s (hostOperation i offered run (free s)) (hostOperation i offered run s) := by
  simp only [hostOperation]
  by_cases op : s.op.isSome = true
  · rw [if_pos (by exact op), if_pos op]; rfl
  · rw [if_neg (by exact op), if_neg op]
    by_cases mode : s.mode ≠ .ready
    · rw [if_pos (by exact mode), if_pos mode]; rfl
    · rw [if_neg (by exact mode), if_neg mode, show (free s).transport = s.transport from rfl]
      cases offered s.transport with
      | false => rfl
      | true => exact h (accept i s)

theorem stepsWith_construction {i : Instr} {body : State → Out Unit} (h : Tracks body) (s : State) :
    StepsWith s (construction i body (free s)) (construction i body s) := by
  simp only [construction]
  by_cases op : s.op.isSome = true
  · rw [if_pos (by exact op), if_pos op]; rfl
  · rw [if_neg (by exact op), if_neg op]
    by_cases mode : s.mode ≠ .unconstructed
    · rw [if_pos (by exact mode), if_pos mode]; rfl
    · rw [if_neg (by exact mode), if_neg mode]
      exact stepsWith_concludeConstruction (h (startConstruction i s))

theorem stepsWith_inlineSteps {offered : Option Transport → Bool} {body : State → Out Unit} (h : Tracks body)
    (s : State) : StepsWith s (inlineSteps offered body (free s)) (inlineSteps offered body s) := by
  simp only [inlineSteps]
  by_cases op : s.op.isNone = true
  · rw [if_pos (by exact op), if_pos op]; rfl
  · rw [if_neg (by exact op), if_neg op]
    by_cases mode : s.mode ≠ .constructing ∧ s.mode ≠ .ready
    · rw [if_pos (by exact mode), if_pos mode]; rfl
    · rw [if_neg (by exact mode), if_neg mode, show (free s).transport = s.transport from rfl]
      cases offered s.transport with
      | false => rfl
      | true => exact stepsWith_concludeInline (h s)

theorem stepsWith_constructionSteps {offered : Option Transport → Bool} {body : State → Out Unit} (h : Tracks body)
    (s : State) : StepsWith s (constructionSteps offered body (free s)) (constructionSteps offered body s) := by
  simp only [constructionSteps]
  by_cases op : s.op.isNone = true
  · rw [if_pos (by exact op), if_pos op]; rfl
  · rw [if_neg (by exact op), if_neg op]
    by_cases mode : s.mode ≠ .constructing
    · rw [if_pos (by exact mode), if_pos mode]; rfl
    · rw [if_neg (by exact mode), if_neg mode, show (free s).transport = s.transport from rfl]
      cases offered s.transport with
      | false => rfl
      | true => exact stepsWith_concludeInline (h s)

/-- A part of a construction, whose own check is one `require`. -/
theorem stepsWith_constructionPart {i : Instr} {fits : Bool} {c : Bool} {f : Failure} {run : State → Stepped}
    (h : ∀ s, StepsWith s (run (free s)) (run s)) (s : State) :
    StepsWith s (constructionPart i fits (require c f) run (free s)) (constructionPart i fits (require c f) run s) := by
  simp only [constructionPart]
  by_cases op : s.op.isSome = true
  · rw [if_pos (by exact op), if_pos op]
    by_cases mode : s.mode = .constructing ∧ fits = true
    · rw [if_pos (by exact mode), if_pos mode]; exact h s
    · rw [if_neg (by exact mode), if_neg mode]; rfl
  · rw [if_neg (by exact op), if_neg op]
    by_cases mode : s.mode ≠ .unconstructed
    · rw [if_pos (by exact mode), if_pos mode]; rfl
    · rw [if_neg (by exact mode), if_neg mode]
      cases c with
      | true => rfl
      | false => exact stepsWith_concludeConstruction (tracks_fail f quiet_id (startConstruction i s))

end Sys2Proof.Laws
end

