-- ==== Sys2Proof/Laws/PerInstr.lean ====
section
/-!
SUPPORT. The statement made per instruction: each constructor is presented as its own row of spec/opcode_table.json, so
no two rows share a presentation.
-/

namespace Sys2Proof.Laws

/-- The row of spec/opcode_table.json, counted from 0, that an instruction is a constructor for. -/
def rowOf : Instr → Nat
  | .lcdClear => 0
  | .lcdReturnHome _ => 1
  | .lcdEntryModeSet _ _ => 2
  | .lcdDisplayControl _ _ _ => 3
  | .lcdCursorDisplayShift _ _ _ => 4
  | .lcdFunctionSet _ _ _ _ => 5
  | .lcdCgramSelect _ => 6
  | .lcdDdramSelect _ => 7
  | .lcdData _ => 8
  | .frameI2c _ _ _ _ _ => 9
  | .frameI2cConfig _ => 10
  | .vectorGpio8 _ _ _ _ => 11
  | .vectorGpio4 _ _ _ _ => 12
  | .clearDisplay => 13
  | .returnHome => 14
  | .displayOn => 15
  | .displayOff => 16
  | .cursorShow => 17
  | .cursorHide => 18
  | .cursorBlinkOn => 19
  | .cursorBlinkOff => 20
  | .displayShiftLeft => 21
  | .displayShiftRight => 22
  | .cursorShiftLeft => 23
  | .cursorShiftRight => 24
  | .setCursor _ _ => 25
  | .print _ => 26
  | .defineCustomGlyph _ _ => 27
  | .initialise => 28
  | .displayControllerConstruct _ _ _ => 29
  | .constructOverGpio _ _ _ _ => 30
  | .gpioTransportConstruct _ => 31
  | .gpioSendInstruction _ _ => 32
  | .gpioSendNibble _ _ => 33
  | .gpioBacklight _ => 34
  | .i2cTransportConstruct _ _ _ _ _ => 35
  | .i2cSendInstruction _ _ => 36
  | .i2cSendNibble _ _ => 37
  | .i2cBacklight _ => 38
  | .portExpanderConstruct _ _ => 39
  | .setPinMode _ _ => 40
  | .writePin _ _ => 41
  | .readPin _ => 42
  | .release => 43

/-- The row of a command byte, from its highest set bit (30_encoding.md R91, R117). -/
def commandRow (c : Byte) : Option Nat :=
  if c.getLsbD 7 then some 7 else if c.getLsbD 6 then some 6 else if c.getLsbD 5 then some 5
  else if c.getLsbD 4 then some 4 else if c.getLsbD 3 then some 3 else if c.getLsbD 2 then some 2
  else if c.getLsbD 1 then some 1 else if c.getLsbD 0 then some 0 else none

/-- The row a presentation is of. -/
def presentedRow : Presented → Option Nat
  | .lcdByte false c => commandRow c
  | .lcdByte true _ => some 8
  | .levelFrame _ => some 9
  | .configFrame _ => some 10
  | .pinVector levels => if levels.length = 11 then some 11 else if levels.length = 7 then some 12 else none
  | .term name _ => some name

/-- An instruction is presented as its own row. -/
def RowFormat.Statement (i : Instr) : Prop := presentedRow (encode i) = some (rowOf i)

theorem RowFormat.lcdClear : RowFormat.Statement (.lcdClear) := rfl

theorem RowFormat.lcdReturnHome (x : Bool) : RowFormat.Statement (.lcdReturnHome x) := by
  revert x
  unfold RowFormat.Statement
  decide

theorem RowFormat.lcdEntryModeSet (increment shift : Bool) :
    RowFormat.Statement (.lcdEntryModeSet increment shift) := by
  revert increment shift
  unfold RowFormat.Statement
  decide

theorem RowFormat.lcdDisplayControl (display cursor blink : Bool) :
    RowFormat.Statement (.lcdDisplayControl display cursor blink) := by
  revert display cursor blink
  unfold RowFormat.Statement
  decide

theorem RowFormat.lcdCursorDisplayShift (displayShift shiftRight : Bool) (x : BitVec 2) :
    RowFormat.Statement (.lcdCursorDisplayShift displayShift shiftRight x) := by
  revert displayShift shiftRight x
  unfold RowFormat.Statement
  decide

theorem RowFormat.lcdFunctionSet (eightBit twoLine font5x10 : Bool) (x : BitVec 2) :
    RowFormat.Statement (.lcdFunctionSet eightBit twoLine font5x10 x) := by
  revert eightBit twoLine font5x10 x
  unfold RowFormat.Statement
  decide

theorem RowFormat.lcdCgramSelect (a : BitVec 6) : RowFormat.Statement (.lcdCgramSelect a) := by
  revert a
  unfold RowFormat.Statement
  decide

theorem RowFormat.lcdDdramSelect (a : BitVec 7) : RowFormat.Statement (.lcdDdramSelect a) := by
  revert a
  unfold RowFormat.Statement
  decide

theorem RowFormat.lcdData (d : Byte) : RowFormat.Statement (.lcdData d) := rfl

theorem RowFormat.frameI2c (nibble : Nibble) (bl e rw rs : Level) :
    RowFormat.Statement (.frameI2c nibble bl e rw rs) := rfl

theorem RowFormat.frameI2cConfig (directions : Byte) : RowFormat.Statement (.frameI2cConfig directions) := rfl

theorem RowFormat.vectorGpio8 (rs rw e : Level) (d : Byte) : RowFormat.Statement (.vectorGpio8 rs rw e d) := rfl

theorem RowFormat.vectorGpio4 (rs rw e : Level) (n : Nibble) : RowFormat.Statement (.vectorGpio4 rs rw e n) := rfl

theorem RowFormat.clearDisplay : RowFormat.Statement (.clearDisplay) := rfl

theorem RowFormat.returnHome : RowFormat.Statement (.returnHome) := rfl

theorem RowFormat.displayOn : RowFormat.Statement (.displayOn) := rfl

theorem RowFormat.displayOff : RowFormat.Statement (.displayOff) := rfl

theorem RowFormat.cursorShow : RowFormat.Statement (.cursorShow) := rfl

theorem RowFormat.cursorHide : RowFormat.Statement (.cursorHide) := rfl

theorem RowFormat.cursorBlinkOn : RowFormat.Statement (.cursorBlinkOn) := rfl

theorem RowFormat.cursorBlinkOff : RowFormat.Statement (.cursorBlinkOff) := rfl

theorem RowFormat.displayShiftLeft : RowFormat.Statement (.displayShiftLeft) := rfl

theorem RowFormat.displayShiftRight : RowFormat.Statement (.displayShiftRight) := rfl

theorem RowFormat.cursorShiftLeft : RowFormat.Statement (.cursorShiftLeft) := rfl

theorem RowFormat.cursorShiftRight : RowFormat.Statement (.cursorShiftRight) := rfl

theorem RowFormat.setCursor (row column : Int) : RowFormat.Statement (.setCursor row column) := rfl

theorem RowFormat.print (codePoints : List Nat) : RowFormat.Statement (.print codePoints) := rfl

theorem RowFormat.defineCustomGlyph (slot : Int) (bitmap : List Byte) :
    RowFormat.Statement (.defineCustomGlyph slot bitmap) := rfl

theorem RowFormat.initialise : RowFormat.Statement (.initialise) := rfl

theorem RowFormat.displayControllerConstruct (rows columns : Int) (operands : ControllerOperands) :
    RowFormat.Statement (.displayControllerConstruct rows columns operands) := rfl

theorem RowFormat.constructOverGpio (pinList : List PinId) (rows columns : Int) (font : Option Font) :
    RowFormat.Statement (.constructOverGpio pinList rows columns font) := rfl

theorem RowFormat.gpioTransportConstruct (pinList : List PinId) :
    RowFormat.Statement (.gpioTransportConstruct pinList) := rfl

theorem RowFormat.gpioSendInstruction (byte : Byte) (registerSelect : Bool) :
    RowFormat.Statement (.gpioSendInstruction byte registerSelect) := rfl

theorem RowFormat.gpioSendNibble (nibble : Nibble) (registerSelect : Bool) :
    RowFormat.Statement (.gpioSendNibble nibble registerSelect) := rfl

theorem RowFormat.gpioBacklight (level : Level) : RowFormat.Statement (.gpioBacklight level) := rfl

theorem RowFormat.i2cTransportConstruct (busHandle : BusHandle) (address rows columns : Int) (font : Option Font) :
    RowFormat.Statement (.i2cTransportConstruct busHandle address rows columns font) := rfl

theorem RowFormat.i2cSendInstruction (byte : Byte) (registerSelect : Bool) :
    RowFormat.Statement (.i2cSendInstruction byte registerSelect) := rfl

theorem RowFormat.i2cSendNibble (nibble : Nibble) (registerSelect : Bool) :
    RowFormat.Statement (.i2cSendNibble nibble registerSelect) := rfl

theorem RowFormat.i2cBacklight (level : Level) : RowFormat.Statement (.i2cBacklight level) := rfl

theorem RowFormat.portExpanderConstruct (busHandle : BusHandle) (address : Int) :
    RowFormat.Statement (.portExpanderConstruct busHandle address) := rfl

theorem RowFormat.setPinMode (pin : Int) (mode : PinMode) : RowFormat.Statement (.setPinMode pin mode) := rfl

theorem RowFormat.writePin (pin : Int) (level : Level) : RowFormat.Statement (.writePin pin level) := rfl

theorem RowFormat.readPin (pin : Int) : RowFormat.Statement (.readPin pin) := rfl

theorem RowFormat.release : RowFormat.Statement (.release) := rfl

end Sys2Proof.Laws
end

