-- ==== Sys2Proof/Tests/Slice0.lean ====
section
/-!
SUPPORT. Tests. Expected values come from the spec: the vectors of 95_test_vectors.md (cited V-…) and the encodings of
30_encoding.md. The second half shows, for every obligation with hypotheses, states and operands that meet them.
-/

namespace Sys2Proof.Tests

open Sys2Proof.Machine Sys2Proof.Safety

/-! ### Small states -/

/-- `READY` on this transport, as a (2,16) construction leaves it. -/
def readyOn (t : Transport) (width : Nat) : State :=
  { State.reset with
    mode := .ready, transport := some t, width := width, rows := 2, cols := 16, lineFlag := true, dcb := 0b100#3
    pins := Vector.replicate 11 (some false), addr := 0x27#7, ioWrite := 0x60#8 }

def gpio8 : State := readyOn .gpio8 8
def gpio4 : State := readyOn .gpio4 4

def answers (n : Nat) (rest : List (Reply Unit)) : Env :=
  { scans := [], writes := List.replicate n (.answer ()) ++ rest, reads := [], draws := 0 }

/-- I2C at `IO_WRITE = w`, the next 16 writes answered ok. -/
def i2cAt (w : Byte) : State := { readyOn .i2c 4 with ioWrite := w, env := answers 16 [] }

/-- The same state under `per_phase`, six answers. -/
def i2cPhase (w : Byte) : State :=
  { i2cAt w with cfg := { Config.default with granularity := .perPhase }, env := answers 6 [] }

/-- The expander alone at these registers, one write and one read answered. -/
def expanderAt (config w status : Byte) : State :=
  { State.reset with
    mode := .ready, transport := some .expanderOnly, addr := 0x20#7, ioConfig := config, ioWrite := w
    env := { scans := [], writes := [.answer ()], reads := [.answer status], draws := 0 } }

/-- The same state with every answer a failure. -/
def expanderFailing (config w : Byte) : State :=
  { expanderAt config w 0x00#8 with
    env := { scans := [], writes := [.failure 7], reads := [.failure 7], draws := 0 } }

/-- Inside a construction, this transport attached, the geometry written. -/
def building (t : Transport) (width : Nat) : State :=
  { readyOn t width with
    mode := .constructing, op := some .initialise, pins := Vector.replicate 11 none, ioWrite := 0x00#8
    env := answers 88 [] }

/-- Inside a construction, nothing attached and no geometry yet. -/
def begun : State := { State.reset with mode := .constructing, op := some (.constructOverGpio [] 2 16 none) }

/-- Before any construction, with this answer to the scan and every write answered ok. -/
def scanned (a : Reply (List BusAddr)) : State :=
  { State.reset with env := { scans := [a], writes := List.replicate 96 (.answer ()), reads := [], draws := 0 } }

/-- What a step shows: its events and its result. -/
def shown : Stepped → Option (List Event × Option OpResult)
  | .next t => some (t.trace, t.result)
  | .fault _ => none
  | .refused _ => none

/-- What was handed to the transport. -/
def handed : Stepped → List Sent
  | .next t => t.sent
  | .fault _ => []
  | .refused _ => []

/-- The register the test reads, where the step answers a next state. -/
def leaves {α : Type} (read : State → α) : Stepped → Option α
  | .next t => some (read t)
  | .fault _ => none
  | .refused _ => none

/-- Why the step was refused. -/
def refusal : Stepped → Option Refusal
  | .next _ => none
  | .fault _ => none
  | .refused r => some r

/-- Why the machine stopped. -/
def stop : Stepped → Option Fault
  | .next _ => none
  | .fault r => some r
  | .refused _ => none

def isNext : Stepped → Bool
  | .next _ => true
  | .fault _ => false
  | .refused _ => false

def isFault : Stepped → Bool
  | .next _ => false
  | .fault _ => true
  | .refused _ => false

theorem next_of_isNext {o : Stepped} (h : isNext o = true) : ∃ t, o = .next t := by
  cases o with
  | next t => exact ⟨t, rfl⟩
  | fault r => cases h
  | refused r => cases h

/-- A trace of the compact notation, on I2C: a frame or a wait. -/
def frames (a : BusAddr) (l : List (Byte ⊕ Nat)) : List Event :=
  l.map fun x => match x with
    | .inl b => .i2cWrite a b
    | .inr t => .wait t

/-! ### WellFormed refuses what is no instruction -/

theorem test_form_codePoint : (Instr.print [0x48, 0x100]).formError = some (.codePointAbove255 256) := by decide

theorem test_form_vector8 : (Instr.vectorGpio8 false true false 0x00#8).formError = some .readWriteHigh := by decide

theorem test_form_vector4 : (Instr.vectorGpio4 false true false 0x0#4).formError = some .readWriteHigh := by decide

theorem test_form_edge : (Instr.print [0x00, 0xFF]).formError = none := by decide

/-! ### Decoding, each word written out from 30_encoding.md -/

theorem test_decode_clear : decode (.lcdByte false 0b00000001#8) = .ok .lcdClear := by decide
theorem test_decode_home : decode (.lcdByte false 0b00000011#8) = .ok (.lcdReturnHome true) := by decide
theorem test_decode_entry : decode (.lcdByte false 0b00000101#8) = .ok (.lcdEntryModeSet false true) := by decide
theorem test_decode_control :
    decode (.lcdByte false 0b00001001#8) = .ok (.lcdDisplayControl false false true) := by decide
theorem test_decode_shift :
    decode (.lcdByte false 0b00011001#8) = .ok (.lcdCursorDisplayShift true false 0b01#2) := by decide
theorem test_decode_function :
    decode (.lcdByte false 0b00101000#8) = .ok (.lcdFunctionSet false true false 0b00#2) := by decide
theorem test_decode_cgram : decode (.lcdByte false 0b01111000#8) = .ok (.lcdCgramSelect 0b111000#6) := by decide
theorem test_decode_ddram : decode (.lcdByte false 0b11100111#8) = .ok (.lcdDdramSelect 0x67#7) := by decide
theorem test_decode_data : decode (.lcdByte true 0b00000001#8) = .ok (.lcdData 0x01#8) := by decide
theorem test_decode_frame :
    decode (.levelFrame 0b10001001#8) = .ok (.frameI2c 0x8#4 true false false true) := by decide
theorem test_decode_config : decode (.configFrame 0b00100001#8) = .ok (.frameI2cConfig 0x21#8) := by decide
theorem test_decode_vector8 :
    decode (.pinVector [true, false, false, true, false, false, false, false, false, false, true]) =
      .ok (.vectorGpio8 true false false 0b10000001#8) := by decide
theorem test_decode_vector4 :
    decode (.pinVector [false, false, true, true, false, true, false]) =
      .ok (.vectorGpio4 false false true 0b0101#4) := by decide
theorem test_decode_vectorLength : decode (.pinVector [true, false]) = .error (.badVectorLength 2) := by decide
theorem test_decode_term : decode (.term 27 [3, 0x04, 0x0E]) = .ok (.defineCustomGlyph 3 [0x04#8, 0x0E#8]) := by decide
theorem test_decode_byteRange : decode (.term 32 [0x100, 1]) = .error (.badOperands 32) := by decide

/-! ### LCD bytes: the bytes and flags handed over, as given -/

theorem test_lcdClear : handed (exec .lcdClear gpio8) = [.byte 0x01#8 false] := by decide
theorem test_lcdReturnHome : handed (exec (.lcdReturnHome true) gpio8) = [.byte 0x03#8 false] := by decide
theorem test_lcdEntryModeSet : handed (exec (.lcdEntryModeSet true false) gpio8) = [.byte 0x06#8 false] := by decide
theorem test_lcdDisplayControl :
    handed (exec (.lcdDisplayControl true false true) gpio4) = [.byte 0x0D#8 false] := by decide
theorem test_lcdCursorDisplayShift :
    handed (exec (.lcdCursorDisplayShift true true 0b00#2) gpio4) = [.byte 0x1C#8 false] := by decide
theorem test_lcdFunctionSet :
    handed (exec (.lcdFunctionSet true true true 0b00#2) gpio8) = [.byte 0x3C#8 false] := by decide
theorem test_lcdCgramSelect : handed (exec (.lcdCgramSelect 0x18#6) gpio8) = [.byte 0x58#8 false] := by decide
theorem test_lcdDdramSelect : handed (exec (.lcdDdramSelect 0x45#7) (i2cAt 0x60#8)) = [.byte 0xC5#8 false] := by decide
theorem test_lcdData : handed (exec (.lcdData 0x48#8) (i2cAt 0x60#8)) = [.byte 0x48#8 true] := by decide

/-! ### The two other formats -/

/-- P2: the frame that asserts E for the low nibble of 'A'. -/
theorem test_frameI2c :
    leaves (fun t => (t.ioWrite, t.trace)) (exec (.frameI2c 0x1#4 true true false true) (building .i2c 4)) =
      some (0x1D#8, [.i2cWrite 0x27#7 0x1D#8]) := by decide

/-- R190: the configuration frame of a construction. -/
theorem test_frameI2cConfig :
    leaves (fun t => (t.ioConfig, t.trace)) (exec (.frameI2cConfig 0x00#8) (building .i2c 4)) =
      some (0x00#8, [.i2cWrite 0x27#7 0x00#8]) := by decide

/-- V-G8-5: the levels of 0xA5 as data. -/
theorem test_vectorGpio8 :
    leaves (fun t => t.pins.toList) (exec (.vectorGpio8 true false false 0xA5#8) (building .gpio8 8)) =
      some [some true, some false, some false, some true, some false, some true, some false, some false, some true,
        some false, some true] := by decide

/-- V-G4-7: the levels of the nibble 0x3 as a command. -/
theorem test_vectorGpio4 :
    leaves (fun t => t.pins.toList.take 7) (exec (.vectorGpio4 false false false 0x3#4) (building .gpio4 4)) =
      some [some false, some false, some false, some true, some true, some false, some false] := by decide

/-! ### GPIO sends -/

/-- V-G8-2. -/
theorem test_gpioSendInstruction_8 :
    shown (exec (.gpioSendInstruction 0x48#8 true) gpio8) =
      some ([.pinSet 0 true, .pinSet 1 false, .pinSet 3 false, .pinSet 4 false, .pinSet 5 false, .pinSet 6 true,
        .pinSet 7 false, .pinSet 8 false, .pinSet 9 true, .pinSet 10 false, .pinSet 2 false, .wait 40, .pinSet 2 true,
        .wait 40, .pinSet 2 false], some .ok) := by decide

/-- V-G4-5. -/
theorem test_gpioSendInstruction_4 :
    shown (exec (.gpioSendInstruction 0xA5#8 true) gpio4) =
      some ([.pinSet 0 true, .pinSet 1 false, .pinSet 3 false, .pinSet 4 true, .pinSet 5 false, .pinSet 6 true,
        .pinSet 2 false, .wait 40, .pinSet 2 true, .wait 40, .pinSet 2 false, .pinSet 3 true, .pinSet 4 false,
        .pinSet 5 true, .pinSet 6 false, .pinSet 2 false, .wait 40, .pinSet 2 true, .wait 40, .pinSet 2 false],
        some .ok) := by decide

/-- V-G4-7. -/
theorem test_gpioSendNibble :
    shown (exec (.gpioSendNibble 0x3#4 false) (building .gpio4 4)) =
      some ([.pinSet 0 false, .pinSet 1 false, .pinSet 3 true, .pinSet 4 true, .pinSet 5 false, .pinSet 6 false,
        .pinSet 2 false, .wait 40, .pinSet 2 true, .wait 40, .pinSet 2 false], none) := by decide

/-- R168 without the pin: no operation. -/
theorem test_gpioBacklight_absent : refusal (exec (.gpioBacklight true) gpio8) = some .noBacklightPin := by decide

/-- R168 with it. -/
theorem test_gpioBacklight :
    shown (exec (.gpioBacklight true) { gpio8 with cfg := { Config.default with hasBlPin := true } }) =
      some ([.blSet true], some .ok) := by decide

/-! ### I2C sends -/

/-- V-I-2, `per_pin`. -/
theorem test_i2cSendInstruction_perPin :
    leaves (fun t => (t.trace, t.ioWrite)) (exec (.i2cSendInstruction 0x48#8 true) (i2cAt 0x08#8)) =
      some (frames 0x27#7 [.inl 0x09#8, .inl 0x09#8, .inl 0x09#8, .inl 0x09#8, .inl 0x49#8, .inl 0x49#8, .inl 0x4D#8,
        .inr 40, .inl 0x49#8, .inl 0x49#8, .inl 0x49#8, .inl 0x49#8, .inl 0x49#8, .inl 0x09#8, .inl 0x89#8,
        .inl 0x8D#8, .inr 40, .inl 0x89#8], 0x89#8) := by decide

/-- V-I-6, `per_phase`. -/
theorem test_i2cSendInstruction_perPhase :
    leaves (fun t => (t.trace, t.ioWrite)) (exec (.i2cSendInstruction 0xC5#8 false) (i2cPhase 0x68#8)) =
      some (frames 0x27#7 [.inl 0xC8#8, .inl 0xCC#8, .inr 40, .inl 0xC8#8, .inl 0x58#8, .inl 0x5C#8, .inr 40,
        .inl 0x58#8], 0x58#8) := by decide

/-- V-I-7. -/
theorem test_i2cSendNibble :
    leaves (fun t => (t.trace, t.ioWrite)) (exec (.i2cSendNibble 0x3#4 false) (building .i2c 4)) =
      some (frames 0x27#7 [.inl 0x00#8, .inl 0x00#8, .inl 0x10#8, .inl 0x30#8, .inl 0x30#8, .inl 0x30#8, .inl 0x34#8,
        .inr 40, .inl 0x30#8], 0x30#8) := by decide

/-- V-I-8. -/
theorem test_i2cBacklight_on :
    leaves (fun t => (t.trace, t.ioWrite)) (exec (.i2cBacklight true) (i2cAt 0x60#8)) =
      some ([.i2cWrite 0x27#7 0x68#8], 0x68#8) := by decide

/-- V-I-9. -/
theorem test_i2cBacklight_off :
    leaves (fun t => (t.trace, t.ioWrite)) (exec (.i2cBacklight false) (i2cAt 0x68#8)) =
      some ([.i2cWrite 0x27#7 0x60#8], 0x60#8) := by decide

/-- V-F7: the write that first asserts E fails. -/
theorem test_i2cSend_failsAtAssert :
    leaves (fun t => (t.trace, t.ioWrite, t.result, t.mode))
        (exec .clearDisplay { i2cAt 0x60#8 with env := answers 6 [.failure 9] }) =
      some (frames 0x27#7 [.inl 0x60#8, .inl 0x60#8, .inl 0x60#8, .inl 0x40#8, .inl 0x00#8, .inl 0x00#8, .inl 0x04#8],
        0x04#8, some (.fail (.transportError 9)), .ready) := by decide

/-- U25: a write that is never answered. -/
theorem test_i2cSend_hangs :
    stop (exec (.i2cSendInstruction 0x00#8 false) { i2cAt 0x60#8 with env := answers 0 [.never] }) =
      some .busNeverAnswers := by decide

/-- R346, U25: the first hold of a send's second pulse, place 16 of its trace (R164), never returns. -/
theorem test_gpioSend_waitNeverReturns :
    stop (exec (.gpioSendInstruction 0x00#8 false) { gpio4 with hangs := some 16 }) = some .eventNeverReturns := by decide

/-- The same place on the byte transport lies past its fifteen events (R163): the send ends. -/
theorem test_gpioSend_returns :
    shown (exec (.gpioSendInstruction 0x00#8 false) { gpio8 with hangs := some 16 }) =
      some (byte8Events 0x00#8 false, some .ok) := by decide

/-! ### Display operations -/

/-- V-D-1: 16 events on `gpio8`, the last the wait. -/
theorem test_clearDisplay :
    leaves (fun t => (t.sent, t.trace.length, t.trace.getLast?)) (exec .clearDisplay gpio8) =
      some ([.byte 0x01#8 false], 16, some (.wait 2000)) := by decide

/-- R346 with R240: its own wait, place 15 on `gpio8`, never returns. -/
theorem test_clearDisplay_waitNeverReturns :
    stop (exec .clearDisplay { gpio8 with hangs := some 15 }) = some .eventNeverReturns := by decide

/-- V-D-2: 21 events on `gpio4`. -/
theorem test_returnHome :
    leaves (fun t => (t.sent, t.trace.length, t.trace.getLast?)) (exec .returnHome gpio4) =
      some ([.byte 0x02#8 false], 21, some (.wait 2000)) := by decide

/-- V-D-7 to V-D-12, each from the state its row starts from. -/
theorem test_cursorShow :
    leaves (fun t => (t.sent, t.dcb)) (exec .cursorShow gpio8) = some ([.byte 0x0E#8 false], 0b110#3) := by decide
theorem test_cursorBlinkOn :
    leaves (fun t => (t.sent, t.dcb)) (exec .cursorBlinkOn { gpio8 with dcb := 0b110#3 }) =
      some ([.byte 0x0F#8 false], 0b111#3) := by decide
theorem test_displayOff :
    leaves (fun t => (t.sent, t.dcb)) (exec .displayOff { gpio8 with dcb := 0b111#3 }) =
      some ([.byte 0x0B#8 false], 0b011#3) := by decide
theorem test_cursorHide :
    leaves (fun t => (t.sent, t.dcb)) (exec .cursorHide { gpio4 with dcb := 0b011#3 }) =
      some ([.byte 0x09#8 false], 0b001#3) := by decide
theorem test_displayOn :
    leaves (fun t => (t.sent, t.dcb)) (exec .displayOn { gpio4 with dcb := 0b001#3 }) =
      some ([.byte 0x0D#8 false], 0b101#3) := by decide
theorem test_cursorBlinkOff :
    leaves (fun t => (t.sent, t.dcb)) (exec .cursorBlinkOff { gpio4 with dcb := 0b101#3 }) =
      some ([.byte 0x0C#8 false], 0b100#3) := by decide

/-- V-F15: the shadow keeps the change when the send fails. -/
theorem test_cursorShow_fails :
    leaves (fun t => (t.dcb, t.trace.length)) (exec .cursorShow { i2cAt 0x60#8 with env := answers 0 [.failure 1] }) =
      some (0b110#3, 1) := by decide

/-- V-D-3 to V-D-6. -/
theorem test_displayShiftLeft : handed (exec .displayShiftLeft gpio8) = [.byte 0x18#8 false] := by decide
theorem test_displayShiftRight : handed (exec .displayShiftRight gpio8) = [.byte 0x1C#8 false] := by decide
theorem test_cursorShiftLeft : handed (exec .cursorShiftLeft gpio4) = [.byte 0x10#8 false] := by decide
theorem test_cursorShiftRight : handed (exec .cursorShiftRight gpio4) = [.byte 0x14#8 false] := by decide

/-- V-D-19: the last position of (4,20). -/
theorem test_setCursor_last :
    handed (exec (.setCursor 3 19) { gpio8 with rows := 4, cols := 20 }) = [.byte 0xE7#8 false] := by decide

/-- V-F14. -/
theorem test_setCursor_outside :
    shown (exec (.setCursor 2 99) gpio8) = some ([], some (.fail (.cursorOutOfRange 2 99))) := by decide

/-- V-D-20. -/
theorem test_print : handed (exec (.print [0x48, 0x69]) gpio4) = [.byte 0x48#8 true, .byte 0x69#8 true] := by decide

/-- V-D-24. -/
theorem test_print_refused : refusal (exec (.print [0x100]) gpio4) = some (.illFormed (.codePointAbove255 256)) := by decide

/-- V-D-32: bits 7..5 go out as given. -/
theorem test_defineCustomGlyph :
    handed (exec (.defineCustomGlyph 7 [0xFF#8, 0xE0#8]) gpio8) =
      [.byte 0x78#8 false, .byte 0xFF#8 true, .byte 0xE0#8 true] := by decide

/-- V-D-36: the slot is checked first. -/
theorem test_defineCustomGlyph_order :
    shown (exec (.defineCustomGlyph 8 (List.replicate 9 0x00#8)) gpio8) =
      some ([], some (.fail (.invalidGlyphSlot 8))) := by decide

/-! ### Construction -/

/-- V-N-1: the instruction trace, 109 events, 57 660 us. -/
theorem test_constructOverGpio :
    leaves (fun t => (t.sent, t.trace.length, totalWait t.trace, t.mode))
        (exec (.constructOverGpio [0, 1, 2, 3, 4, 5, 6, 7, 8, 9, 10] 2 16 none) State.reset) =
      some ([.byte 0x30#8 false, .byte 0x30#8 false, .byte 0x30#8 false, .byte 0x38#8 false, .byte 0x0C#8 false,
        .byte 0x01#8 false, .byte 0x06#8 false], 109, 57660, .ready) := by decide +kernel

/-- V-F3: the geometry is checked first. -/
theorem test_constructOverGpio_order :
    shown (exec (.constructOverGpio [0, 1, 2, 3, 4, 5, 6, 7] 3 16 none) State.reset) =
      some ([], some (.fail (.invalidGeometry 3 16))) := by decide

/-- V-N-3: 112 events, 57 540 us, `IO_WRITE = 0x60`. -/
theorem test_i2cTransportConstruct :
    leaves (fun t => (t.trace.length, totalWait t.trace, t.ioWrite, t.mode))
        (exec (.i2cTransportConstruct 0 0x27 2 16 none) (scanned (.answer [0x27#7]))) =
      some (112, 57540, 0x60#8, .ready) := by decide +kernel

/-- V-F11: the third configuration write fails. -/
theorem test_i2cTransportConstruct_fails :
    leaves (fun t => (t.trace, t.result, t.mode))
        (exec (.i2cTransportConstruct 0 0x27 2 16 none)
          { State.reset with
            env := { scans := [.answer [0x27#7]], writes := [.answer (), .answer (), .failure 3], reads := []
                     draws := 0 } }) =
      some ([.i2cScan, .i2cWrite 0x27#7 0x00#8, .i2cWrite 0x27#7 0x00#8, .i2cWrite 0x27#7 0x00#8],
        some (.fail (.transportError 3)), .unconstructed) := by decide

/-- R160. -/
theorem test_gpioTransportConstruct :
    leaves (fun t => (t.transport, t.width, t.trace, t.mode)) (exec (.gpioTransportConstruct [0, 1, 2, 3, 4, 5, 6]) begun) =
      some (some .gpio4, 4, [], .constructing) := by decide

/-- R160: a list of 8 fails. -/
theorem test_gpioTransportConstruct_fails :
    leaves (fun t => (t.trace, t.result, t.mode))
        (exec (.gpioTransportConstruct [0, 1, 2, 3, 4, 5, 6, 7]) State.reset) =
      some ([], some (.fail (.invalidPinCount 8)), .unconstructed) := by decide

/-- R221, D6: `LINEFLAG` is 1 for four rows; V-N-2's size. -/
theorem test_displayControllerConstruct :
    leaves (fun t => (t.rows, t.cols, t.lineFlag, t.font, t.mode, t.trace.length))
        (exec (.displayControllerConstruct 4 20 ⟨some .font5x10, .gpio [0, 1, 2, 3, 4, 5, 6]⟩) State.reset) =
      some (4, 20, true, .font5x10, .ready, 117) := by decide +kernel

/-- R220, R221 as the last part of a construction over I2C: R230's count. -/
theorem test_displayControllerConstruct_attached :
    leaves (fun t => (t.rows, t.mode, t.result, t.trace.length))
        (exec (.displayControllerConstruct 1 16 ⟨none, .attached⟩) { building .i2c 4 with rows := 0, cols := 0 }) =
      some (1, .ready, some .ok, 103) := by decide +kernel

/-- V-N-2: the instruction trace on `gpio4`, 117 events; the construction goes on. -/
theorem test_initialise :
    leaves (fun t => (t.sent, t.trace.length, t.dcb, t.mode)) (exec .initialise (building .gpio4 4)) =
      some ([.nibble 0x3#4 false, .nibble 0x3#4 false, .nibble 0x3#4 false, .byte 0x28#8 false, .byte 0x0C#8 false,
        .byte 0x01#8 false, .byte 0x06#8 false], 117, 0b100#3, .constructing) := by decide +kernel

/-! ### The port expander -/

/-- V-X-7. -/
theorem test_portExpanderConstruct :
    leaves (fun t => (t.trace, t.addr, t.mode)) (exec (.portExpanderConstruct 0 0x3F) (scanned (.answer [0x3F#7]))) =
      some ([.i2cScan], 0x3F#7, .ready) := by decide

/-- V-X-8. -/
theorem test_portExpanderConstruct_illegal :
    shown (exec (.portExpanderConstruct 0 0x40) (scanned (.answer [0x3F#7]))) =
      some ([], some (.fail (.invalidAddress 0x40))) := by decide

/-- V-X-24. -/
theorem test_setPinMode :
    leaves (fun t => (t.trace, t.ioConfig, t.ioWrite)) (exec (.setPinMode 0 .input) (expanderAt 0x20#8 0x81#8 0x00#8)) =
      some ([.i2cWrite 0x20#7 0x21#8], 0x21#8, 0x81#8) := by decide

/-- V-X-34: the update stays when the write fails. -/
theorem test_setPinMode_fails :
    leaves (fun t => (t.ioConfig, t.result)) (exec (.setPinMode 6 .input) (expanderFailing 0x20#8 0x83#8)) =
      some (0x60#8, some (.fail (.transportError 7))) := by decide

/-- V-X-18. -/
theorem test_writePin :
    leaves (fun t => (t.trace, t.ioConfig, t.ioWrite)) (exec (.writePin 7 true) (expanderAt 0x00#8 0x09#8 0x00#8)) =
      some ([.i2cWrite 0x20#7 0x89#8], 0x00#8, 0x89#8) := by decide

/-- V-X-27. -/
theorem test_writePin_input :
    shown (exec (.writePin 5 true) (expanderAt 0x20#8 0x81#8 0x00#8)) =
      some ([], some (.fail (.notConfiguredAsOutput 5))) := by decide

/-- V-X-28. -/
theorem test_readPin :
    shown (exec (.readPin 5) (expanderAt 0x20#8 0x81#8 0xA5#8)) =
      some ([.i2cRead 0x20#7], some (.okValue true)) := by decide

/-- V-X-29. -/
theorem test_readPin_low :
    shown (exec (.readPin 5) (expanderAt 0x20#8 0x81#8 0x5A#8)) =
      some ([.i2cRead 0x20#7], some (.okValue false)) := by decide

/-- V-X-36. -/
theorem test_release :
    leaves (fun t => (t.trace, t.mode)) (exec .release (expanderAt 0x20#8 0x81#8 0x00#8)) =
      some ([.busRelease], .released) := by decide

/-- U25 with R138. -/
theorem test_release_neverReturns :
    stop (exec .release { expanderAt 0x20#8 0x81#8 0x00#8 with hangs := some 0 }) = some .eventNeverReturns := by decide

/-- V-X-37. -/
theorem test_release_again :
    shown (exec .release { expanderAt 0x20#8 0x81#8 0x00#8 with mode := .released, released := true }) =
      some ([], some .ok) := by decide

/-! ### One step -/

/-- V-F16: nothing runs before a construction. -/
theorem test_step_wrongMode :
    refusal (step { State.reset with pending := [.term 13 []] }) = some (.wrongMode .unconstructed) := by decide

/-- The first instruction after reset, placed as the host's interface places it (log 19): R92's byte, sent whole. -/
theorem test_step_placedWord :
    leaves (fun t => (t.sent.getLast?, t.trace.length)) (step (State.reset.withFetchWord 8 0x01)) =
      some (some (.byte 0x01#8 false), 109 + 15) := by decide +kernel

/-! ## Witnesses: states and operands that meet every hypothesis of each obligation -/

/-- `expander_only`, a write answered by a failure or not. -/
def expanderPlain : State := expanderAt 0x20#8 0x81#8 0xA5#8

/-- An expander operation still in progress. -/
def expanderInside : State := { expanderPlain with op := some .release }

/-- I2C with the next answers given. -/
def i2cWith (writes : List (Reply Unit)) : State :=
  { i2cAt 0x60#8 with env := { scans := [], writes := writes, reads := [], draws := 0 } }

/-- Before a construction over I2C: the device found, `k` writes answered ok, the next one so. -/
def probed (k : Nat) (r : Reply Unit) : State :=
  { State.reset with
    env := { scans := [.answer [0x27#7]], writes := List.replicate k (.answer ()) ++ [r], reads := [], draws := 0 } }

/-- Inside a construction over I2C, `k` writes answered ok, the next one so. -/
def buildingWith (k : Nat) (r : Reply Unit) : State := { building .i2c 4 with env := answers k [r] }

/-- The expander alone, nothing answered. -/
def expanderHanging : State :=
  { expanderPlain with env := { scans := [], writes := [.never], reads := [.never], draws := 0 } }

/-- A state whose next operation is this. -/
def presenting (p : Presented) (s : State) : State := { s with pending := [p] }

theorem returning_of_none {s : State} (h : s.hangs = none) : EventsReturn s := fun k hk => by rw [h] at hk; cases hk

theorem gpio8_ready : ReadyOnGpio gpio8 := .inl ⟨⟨rfl, rfl, rfl⟩, rfl⟩

theorem gpio4_ready : ReadyOnGpio gpio4 := .inr ⟨⟨rfl, rfl, rfl⟩, rfl⟩

theorem i2c_ready (w : Byte) : ReadyOnI2c (i2cAt w) := ⟨⟨rfl, rfl, rfl⟩, rfl⟩

theorem gpio8_inv : Inv gpio8 := by constructor <;> decide

theorem i2c_inv : Inv (i2cAt 0x60#8) := by constructor <;> decide

theorem expander_inv : Inv expanderPlain := by constructor <;> decide

theorem building_inv : Inv (building .gpio4 4) := by constructor <;> decide

/-- Every class at both ends of its range. -/
theorem witness_CommandClassByMatchAndMask :
    0x01#8 &&& 0xFF#8 = 0x01#8 ∧ 0x02#8 &&& 0xFE#8 = 0x02#8 ∧ 0x03#8 &&& 0xFE#8 = 0x02#8 ∧
    0x04#8 &&& 0xFC#8 = 0x04#8 ∧ 0x07#8 &&& 0xFC#8 = 0x04#8 ∧ 0x08#8 &&& 0xF8#8 = 0x08#8 ∧
    0x0F#8 &&& 0xF8#8 = 0x08#8 ∧ 0x10#8 &&& 0xF0#8 = 0x10#8 ∧ 0x1F#8 &&& 0xF0#8 = 0x10#8 ∧
    0x20#8 &&& 0xE0#8 = 0x20#8 ∧ 0x3F#8 &&& 0xE0#8 = 0x20#8 ∧ 0x40#8 &&& 0xC0#8 = 0x40#8 ∧
    0x7F#8 &&& 0xC0#8 = 0x40#8 ∧ 0x80#8 &&& 0x80#8 = 0x80#8 ∧ 0xFF#8 &&& 0x80#8 = 0x80#8 := by decide

theorem witness_EncodedInstructionDecodesBack :
    (Instr.print [0, 255]).WellFormed ∧ (Instr.vectorGpio8 true false true 0xFF#8).WellFormed := by decide

theorem witness_DecodedPresentationEncodesBack : decode (.term 25 [-1, 5]) = .ok (.setCursor (-1) 5) := by decide

theorem witness_StepRunsThePresentedInstruction :
    (presenting (.term 26 [0xFF]) gpio8).pending = [.term 26 [0xFF]] ∧
    decode (.term 26 [0xFF]) = .ok (.print [0xFF]) ∧ (Instr.print [0xFF]).WellFormed := by decide

theorem witness_StepRefusesWhatIsNoInstruction :
    gpio8.pending = [] ∧ decode (.lcdByte false 0x00#8) = .error .noCommandClass ∧
    decode (.term 26 [0x100]) = .ok (.print [0x100]) ∧
    (Instr.print [0x100]).formError = some (.codePointAbove255 256) := by decide

theorem witness_PlacedWordRunsNext :
    decodeTableWord 8 0x01 = some .lcdClear ∧ decodeTableWord 8 0xFF = some (.lcdDdramSelect 0x7F#7) := by decide

theorem witness_Gpio8SendInstruction : ReadyIn .gpio8 gpio8 ∧ gpio8.width = 8 ∧ EventsReturn gpio8 :=
  ⟨⟨rfl, rfl, rfl⟩, rfl, returning_of_none rfl⟩

theorem witness_Gpio4SendInstruction : ReadyIn .gpio4 gpio4 ∧ gpio4.width = 4 ∧ EventsReturn gpio4 :=
  ⟨⟨rfl, rfl, rfl⟩, rfl, returning_of_none rfl⟩

theorem witness_GpioSendNibble :
    InsideConstruction .gpio4 (building .gpio4 4) ∧ EventsReturn (building .gpio4 4) ∧ gpio4.op = none :=
  ⟨⟨by decide, rfl, rfl⟩, returning_of_none rfl, rfl⟩

theorem witness_BacklightOnEitherTransport :
    ReadyIn .gpio4 gpio4 ∧ gpio4.cfg.hasBlPin = false ∧
    ReadyIn .gpio8 { gpio8 with cfg := { Config.default with hasBlPin := true } } ∧
    ReadyOnI2c (i2cWith [.answer ()]) ∧ (i2cWith [.answer ()]).env.writes = .answer () :: [] ∧
    ReadyOnI2c (i2cWith [.failure 9]) ∧ (i2cWith [.failure 9]).env.writes = .failure 9 :: [] :=
  ⟨⟨rfl, rfl, rfl⟩, rfl, ⟨rfl, rfl, rfl⟩, ⟨⟨rfl, rfl, rfl⟩, rfl⟩, rfl, ⟨⟨rfl, rfl, rfl⟩, rfl⟩, rfl⟩

theorem witness_PinVectorsDriveEveryPosition :
    InsideOperation (building .gpio8 8) ∧ InsideOperation (building .gpio4 4) ∧
    (building .gpio8 8).transport = some .gpio8 ∧ (building .gpio4 4).transport = some .gpio4 :=
  ⟨⟨by decide, .inl rfl⟩, ⟨by decide, .inl rfl⟩, rfl, rfl⟩

theorem witness_LcdBytesAreSentAsGiven :
    decode (.lcdByte false 0x03#8) = .ok (.lcdReturnHome true) ∧ ReadyOnGpio gpio8 ∧ EventsReturn gpio8 ∧
    ReadyOnI2c (i2cAt 0x60#8) ∧ EventsReturn (i2cAt 0x60#8) ∧
    NextWritesOk (2 * cycleWrites (i2cAt 0x60#8).cfg.granularity) [] (i2cAt 0x60#8) :=
  ⟨by decide, gpio8_ready, returning_of_none rfl, i2c_ready _, returning_of_none rfl, rfl⟩

theorem witness_ClearHomeAndShiftsOnGpio : ReadyOnGpio gpio4 ∧ EventsReturn gpio4 :=
  ⟨gpio4_ready, returning_of_none rfl⟩

/-- The place that hangs may lie behind. -/
theorem witness_DisplayControlOnGpio :
    ReadyOnGpio gpio8 ∧ EventsReturn gpio8 ∧ EventsReturn { gpio8 with trace := [.wait 40], hangs := some 0 } :=
  ⟨gpio8_ready, returning_of_none rfl, fun k hk => by cases hk; decide⟩

/-- The first and the last position of (1,16) and of (4,20). -/
theorem witness_SetCursorOnGpio :
    ReadyOnGpio { gpio8 with rows := 4, cols := 20 } ∧ EventsReturn { gpio8 with rows := 4, cols := 20 } ∧
    legalGeometry 4 20 = true ∧ (0 : Int) ≤ 3 ∧
    (3 : Int) < (4 : Nat) ∧ (0 : Int) ≤ 19 ∧ (19 : Int) < (20 : Nat) ∧
    ReadyOnGpio { gpio4 with rows := 1, cols := 16 } ∧ EventsReturn { gpio4 with rows := 1, cols := 16 } ∧
    legalGeometry 1 16 = true ∧ (0 : Int) < (1 : Nat) ∧
    (15 : Int) < (16 : Nat) :=
  ⟨.inl ⟨⟨rfl, rfl, rfl⟩, rfl⟩, returning_of_none rfl, by decide, by decide, by decide, by decide, by decide,
    .inr ⟨⟨rfl, rfl, rfl⟩, rfl⟩, returning_of_none rfl, by decide, by decide, by decide⟩

theorem witness_PrintOnGpio : ReadyOnGpio gpio8 ∧ EventsReturn gpio8 ∧ ∀ c ∈ [0, 255], c ≤ 255 :=
  ⟨gpio8_ready, returning_of_none rfl, by decide⟩

/-- Both ends of the slots and of the bitmap's length. -/
theorem witness_DefineCustomGlyphOnGpio :
    ReadyOnGpio gpio8 ∧ EventsReturn gpio8 ∧ (0 : Int) ≤ 0 ∧ (7 : Int) ≤ 7 ∧ ([] : List Byte).length ≤ 8 ∧
    (List.replicate 8 0x1F#8).length ≤ 8 := ⟨gpio8_ready, returning_of_none rfl, by decide⟩

theorem witness_DisplayControlExpands :
    gpio8.dcb.getLsbD 2 = true ∧ gpio8.dcb.getLsbD 1 = false ∧ gpio8.dcb.getLsbD 0 = false := by decide

theorem witness_SetCursorExpands :
    legalGeometry gpio8.rows gpio8.cols = true ∧ (0 : Int) ≤ 1 ∧ (1 : Int) < gpio8.rows ∧ (0 : Int) ≤ 15 ∧
    (15 : Int) < gpio8.cols ∧ ReadyOnDisplay gpio8 ∧
    ¬((0 : Int) ≤ 2 ∧ (2 : Int) < gpio8.rows ∧ (0 : Int) ≤ 0 ∧ (0 : Int) < gpio8.cols) ∧
    ¬((0 : Int) ≤ 1 ∧ (1 : Int) < gpio8.rows ∧ (0 : Int) ≤ 16 ∧ (16 : Int) < gpio8.cols) :=
  ⟨by decide, by decide, by decide, by decide, by decide, ⟨rfl, rfl, by decide⟩, by decide, by decide⟩

theorem witness_CursorAddressesAreDistinct :
    legalGeometry 4 20 = true ∧ 3 < 4 ∧ 19 < 20 ∧ rowOffset 3 = some 0x54 ∧
    ddramSelectByte 0x54 19 = ddramSelectByte 0x54 19 := by decide

theorem witness_PrintExpands :
    255 ≤ 255 ∧ (∀ d ∈ [0, 255], d ≤ 255) ∧ ReadyOnDisplay (i2cAt 0x60#8) := ⟨by decide, by decide, rfl, rfl, by decide⟩

theorem witness_OperandsWithoutEffectAreRefused :
    256 ∈ [0, 256] ∧ 255 < 256 ∧ ReadyIn .expanderOnly expanderPlain := ⟨by decide, by decide, rfl, rfl, rfl⟩

theorem witness_DefineCustomGlyphExpands :
    (0 : Int) ≤ 7 ∧ (7 : Int) ≤ 7 ∧ (List.replicate 8 0xFF#8).length ≤ 8 := by decide

/-- The neighbours just outside each range. -/
theorem witness_DisplayRangeErrors :
    ReadyOnDisplay gpio8 ∧
    (∀ p ∈ [((2 : Int), (0 : Int)), (0, 16), (-1, 0), (0, -1)],
      ¬(0 ≤ p.1 ∧ p.1 < gpio8.rows ∧ 0 ≤ p.2 ∧ p.2 < gpio8.cols)) ∧
    (∀ slot ∈ [(-1 : Int), 8], ¬(0 ≤ slot ∧ slot ≤ 7)) ∧ 8 < (List.replicate 9 0x00#8).length :=
  ⟨⟨rfl, rfl, by decide⟩, by decide, by decide, by decide⟩

theorem witness_I2cSendInstruction :
    ReadyOnI2c (i2cAt 0x60#8) ∧ EventsReturn (i2cAt 0x60#8) ∧
    NextWritesOk (2 * cycleWrites (i2cAt 0x60#8).cfg.granularity) [] (i2cAt 0x60#8) ∧
    ReadyOnI2c (i2cPhase 0x08#8) ∧ EventsReturn (i2cPhase 0x08#8) ∧
    NextWritesOk (2 * cycleWrites (i2cPhase 0x08#8).cfg.granularity) [] (i2cPhase 0x08#8) ∧
    (i2cAt 0x60#8).ioWrite.getLsbD 2 = false :=
  ⟨i2c_ready _, returning_of_none rfl, rfl, ⟨⟨rfl, rfl, rfl⟩, rfl⟩, returning_of_none rfl, rfl, by decide⟩

/-- The first write fails, and the last. -/
theorem witness_I2cSendEndsAtTheFailingWrite :
    ReadyOnI2c (i2cWith [.failure 9]) ∧ EventsReturn (i2cWith [.failure 9]) ∧ 0 < 2 * cycleWrites .perPin ∧
    (i2cWith [.failure 9]).env.writes = List.replicate 0 (.answer ()) ++ .failure 9 :: [] ∧
    15 < 2 * cycleWrites .perPin ∧
    (i2cWith (List.replicate 15 (.answer ()) ++ [.failure 9])).env.writes =
      List.replicate 15 (.answer ()) ++ .failure 9 :: [] :=
  ⟨⟨⟨rfl, rfl, rfl⟩, rfl⟩, returning_of_none rfl, by decide, rfl, by decide, rfl⟩

theorem witness_I2cSendNibble :
    InsideConstruction .i2c (building .i2c 4) ∧ (building .i2c 4).ioConfig = 0x00#8 ∧ EventsReturn (building .i2c 4) ∧
    NextWritesOk (cycleWrites (building .i2c 4).cfg.granularity) (List.replicate 80 (.answer ())) (building .i2c 4) ∧
    (i2cAt 0x60#8).op = none := ⟨⟨by decide, rfl, rfl⟩, rfl, returning_of_none rfl, rfl, rfl⟩

theorem witness_FramesWriteTheirRegister :
    InsideOperation (building .i2c 4) ∧ (building .i2c 4).transport = some .i2c ∧
    (building .i2c 4).env.writes = .answer () :: List.replicate 87 (.answer ()) ∧ InsideOperation expanderInside ∧
    expanderInside.transport = some .expanderOnly ∧ expanderInside.env.writes = .answer () :: [] ∧
    InsideOperation { expanderFailing 0x00#8 0x00#8 with op := some .release } ∧
    (expanderFailing 0x00#8 0x00#8).env.writes = .failure 7 :: [] :=
  ⟨⟨by decide, .inl rfl⟩, rfl, rfl, ⟨by decide, .inr rfl⟩, rfl, rfl, ⟨by decide, .inr rfl⟩, rfl⟩

/-- Pins 0 and 7, and the pins just outside. -/
theorem witness_SetPinModeWritesDirections :
    ReadyIn .expanderOnly expanderPlain ∧ (0 : Int) ≤ 0 ∧ (7 : Int) ≤ 7 ∧ expanderPlain.env.writes = .answer () :: [] ∧
    (expanderFailing 0x20#8 0x83#8).env.writes = .failure 7 :: [] ∧ ¬((0 : Int) ≤ -1 ∧ (-1 : Int) ≤ 7) ∧
    ¬((0 : Int) ≤ 8 ∧ (8 : Int) ≤ 7) := ⟨⟨rfl, rfl, rfl⟩, by decide, by decide, rfl, rfl, by decide, by decide⟩

/-- Pin 0 an output, pin 5 an input, the pins just outside. -/
theorem witness_WritePinWritesLevels :
    ReadyIn .expanderOnly expanderPlain ∧ expanderPlain.ioConfig.getLsbD 0 = false ∧
    expanderPlain.env.writes = .answer () :: [] ∧ (expanderFailing 0x20#8 0x83#8).env.writes = .failure 7 :: [] ∧
    ¬(expanderPlain.cfg.pinModePolicy = .permissive ∨ expanderPlain.ioConfig.getLsbD 5 = false) ∧
    ¬((0 : Int) ≤ 8 ∧ (8 : Int) ≤ 7) := ⟨⟨rfl, rfl, rfl⟩, by decide, rfl, rfl, by decide, by decide⟩

/-- Pin 5 an input, pin 4 an output, the pins just outside. -/
theorem witness_ReadPinReturnsTheStatusBit :
    ReadyIn .expanderOnly expanderPlain ∧ expanderPlain.ioConfig.getLsbD 5 = true ∧
    expanderPlain.env.reads = .answer 0xA5#8 :: [] ∧ (expanderFailing 0x20#8 0x83#8).env.reads = .failure 7 :: [] ∧
    ¬(expanderPlain.cfg.pinModePolicy = .permissive ∨ expanderPlain.ioConfig.getLsbD 4 = true) ∧
    ¬((0 : Int) ≤ 8 ∧ (8 : Int) ≤ 7) := ⟨⟨rfl, rfl, rfl⟩, by decide, rfl, rfl, by decide, by decide⟩

theorem witness_ReleaseIsExactlyOnce :
    expanderPlain.op = none ∧ expanderPlain.mode = .ready ∧ expanderPlain.transport = some .expanderOnly ∧
    expanderPlain.released = false ∧ expanderPlain.hangs ≠ some expanderPlain.trace.length ∧
    { expanderPlain with hangs := some 0 }.hangs = some expanderPlain.trace.length ∧
    { expanderPlain with released := true }.released = true ∧ ∃ t, exec .release expanderPlain = .next t :=
  ⟨rfl, rfl, rfl, rfl, by decide, rfl, rfl, next_of_isNext (by decide)⟩

/-- The pins just outside the range. -/
theorem witness_PinRangeErrors :
    ReadyIn .expanderOnly expanderPlain ∧ ¬((0 : Int) ≤ -1 ∧ (-1 : Int) ≤ 7) ∧ ¬((0 : Int) ≤ 8 ∧ (8 : Int) ≤ 7) :=
  ⟨⟨rfl, rfl, rfl⟩, by decide, by decide⟩

/-- Pins 0 and 7. -/
theorem witness_WritesPreserveUnrelatedBits :
    ReadyIn .expanderOnly expanderPlain ∧ 0 ≤ 7 ∧ 7 ≤ 7 ∧ 7 ≠ 0 ∧ expanderPlain.env.writes = .answer () :: [] ∧
    expanderPlain.ioConfig.getLsbD 0 = false ∧ expanderPlain.ioConfig.getLsbD 7 = false :=
  ⟨⟨rfl, rfl, rfl⟩, by decide, by decide, by decide, rfl, by decide, by decide⟩

/-- An answered write and a failing one. -/
theorem witness_NoWriteIsElided :
    ReadyIn .expanderOnly expanderPlain ∧ 0 ≤ 7 ∧ expanderPlain.env.writes = .answer () :: [] ∧
    Reply.answer () ≠ .never ∧ expanderPlain.ioConfig.getLsbD 0 = false ∧
    ReadyIn .expanderOnly (expanderFailing 0x20#8 0x83#8) ∧
    (expanderFailing 0x20#8 0x83#8).env.writes = .failure 7 :: [] ∧ (Reply.failure 7 : Reply Unit) ≠ .never :=
  ⟨⟨rfl, rfl, rfl⟩, by decide, rfl, by decide, by decide, ⟨rfl, rfl, rfl⟩, rfl, by decide⟩

/-- Addresses at the edges of both ranges and just outside; the scan's three answers. -/
theorem witness_PortExpanderConstruct :
    State.reset.mode = .unconstructed ∧ State.reset.op = none ∧
    (∀ a ∈ [(0x20 : Int), 0x27], 0x20 ≤ a ∧ a ≤ 0x27) ∧ (∀ a ∈ [(0x38 : Int), 0x3F], 0x38 ≤ a ∧ a ≤ 0x3F) ∧
    (∀ a ∈ [(0x1F : Int), 0x28, 0x37, 0x40], ¬((0x20 ≤ a ∧ a ≤ 0x27) ∨ (0x38 ≤ a ∧ a ≤ 0x3F))) ∧
    (scanned (.answer [0x3F#7])).env.scans = .answer [0x3F#7] :: [] ∧ BitVec.ofInt 7 0x3F ∈ [0x3F#7] ∧
    BitVec.ofInt 7 0x27 ∉ [0x3F#7] ∧ (scanned (.failure 1)).env.scans = .failure 1 :: [] :=
  ⟨rfl, rfl, by decide, by decide, by decide, rfl, by decide, by decide, rfl⟩

theorem witness_ConstructOverGpio :
    State.reset.mode = .unconstructed ∧ State.reset.op = none ∧ EventsReturn State.reset ∧ legalGeometry 1 16 = true ∧
    legalGeometry 4 20 = true ∧ [0, 1, 2, 3, 4, 5, 6].length = 7 ∧ [0, 1, 2, 3, 4, 5, 6, 7, 8, 9, 10].length = 11 :=
  ⟨rfl, rfl, returning_of_none rfl, by decide, by decide, rfl, rfl⟩

/-- Each clause's inputs, one of them just outside what the clause before it accepts; the first write of a construction
fails, and the last. -/
theorem witness_ConstructionRejections :
    State.reset.mode = .unconstructed ∧ State.reset.op = none ∧ ¬((3 : Int) = 1 ∨ (3 : Int) = 2 ∨ (3 : Int) = 4) ∧
    [0, 1, 2, 3, 4, 5, 6, 7].length ≠ 7 ∧ [0, 1, 2, 3, 4, 5, 6, 7].length ≠ 11 ∧
    legalAddress State.reset.cfg.addrPolicy 0x40 = false ∧ legalAddress State.reset.cfg.addrPolicy 0x3F = true ∧
    (scanned (.answer [0x26#7])).env.scans = .answer [0x26#7] :: [] ∧ BitVec.ofInt 7 0x27 ∉ [0x26#7] ∧
    (scanned (.failure 1)).env.scans = .failure 1 :: [] ∧
    (∀ k ∈ [0, 95], k < 8 + 11 * cycleWrites (probed k (.failure 5)).cfg.granularity ∧
      (probed k (.failure 5)).env.writes = List.replicate k (.answer ()) ++ .failure 5 :: [] ∧
      (probed k (.failure 5)).env.scans = .answer [0x27#7] :: [] ∧ BitVec.ofInt 7 0x27 ∈ [0x27#7] ∧
      (probed k (.failure 5)).mode = .unconstructed ∧ (probed k (.failure 5)).op = none) ∧
    ∀ k, EventsReturn (probed k (.failure 5)) :=
  ⟨rfl, rfl, by decide, by decide, by decide, by decide, by decide, rfl, by decide, rfl, by decide,
    fun _ => returning_of_none rfl⟩

theorem witness_ConstructOverI2c :
    (scanned (.answer [0x27#7])).mode = .unconstructed ∧ (scanned (.answer [0x27#7])).op = none ∧
    EventsReturn (scanned (.answer [0x27#7])) ∧
    legalGeometry 4 20 = true ∧ legalAddress (scanned (.answer [0x27#7])).cfg.addrPolicy 0x27 = true ∧
    (scanned (.answer [0x27#7])).env.scans = .answer [0x27#7] :: [] ∧ BitVec.ofInt 7 0x27 ∈ [0x27#7] ∧
    NextWritesOk (8 + 11 * cycleWrites (scanned (.answer [0x27#7])).cfg.granularity) [] (scanned (.answer [0x27#7])) :=
  ⟨rfl, rfl, returning_of_none rfl, by decide, by decide, rfl, by decide, rfl⟩

theorem witness_GpioTransportConstruct :
    State.reset.mode = .unconstructed ∧ State.reset.op = none ∧ begun.op ≠ none ∧ begun.mode = .constructing ∧
    begun.transport = none ∧ [0, 1, 2, 3, 4, 5, 6].length = 7 ∧ [0, 1, 2, 3, 4, 5, 6, 7, 8, 9, 10].length = 11 ∧
    ([] : List PinId).length ≠ 7 ∧ ([] : List PinId).length ≠ 11 := by decide

/-- The last clauses: inside a construction over I2C and over GPIO, no geometry written; the initialisation ends either
way. -/
theorem witness_DisplayControllerConstruct :
    (EventsReturn State.reset ∧ EventsReturn { building .gpio4 4 with rows := 0 }) ∧
    State.reset.mode = .unconstructed ∧ State.reset.op = none ∧ legalGeometry 2 16 = true ∧
    legalGeometry 3 16 = false ∧ [0, 1, 2, 3, 4, 5, 6].length = 7 ∧
    (∀ s ∈ [{ building .i2c 4 with rows := 0 }, { building .gpio4 4 with rows := 0 }, { building .gpio8 8 with rows := 0 }],
      s.op ≠ none ∧ s.mode = .constructing ∧ legalGeometry s.rows s.cols = false) ∧
    (building .i2c 4).transport = some .i2c ∧ (building .gpio4 4).transport = some .gpio4 ∧
    (building .gpio4 4).width = 4 ∧ (building .gpio8 8).transport = some .gpio8 ∧ (building .gpio8 8).width = 8 ∧
    isNext (exec .initialise (building .i2c 4)) = true ∧
    isFault (exec .initialise (buildingWith 3 .never)) = true :=
  ⟨⟨returning_of_none rfl, returning_of_none rfl⟩, by decide +kernel⟩

/-- The first write of an initialisation fails, and the last. -/
theorem witness_Initialise :
    (EventsReturn (building .gpio8 8) ∧ EventsReturn (building .gpio4 4) ∧ EventsReturn (building .i2c 4) ∧
      ∀ k, EventsReturn (buildingWith k (.failure 5))) ∧
    (building .gpio8 8).op ≠ none ∧ (building .gpio8 8).mode = .constructing ∧
    legalGeometry (building .gpio8 8).rows (building .gpio8 8).cols = true ∧
    (building .gpio8 8).transport = some .gpio8 ∧ (building .gpio8 8).width = 8 ∧
    (building .gpio4 4).transport = some .gpio4 ∧ (building .gpio4 4).width = 4 ∧
    (building .i2c 4).transport = some .i2c ∧ (building .i2c 4).ioConfig = 0x00#8 ∧
    NextWritesOk (11 * cycleWrites (building .i2c 4).cfg.granularity) [] (building .i2c 4) ∧
    (∀ k ∈ [0, 87], k < 11 * cycleWrites (buildingWith k (.failure 5)).cfg.granularity ∧
      (buildingWith k (.failure 5)).env.writes = List.replicate k (.answer ()) ++ .failure 5 :: []) ∧
    gpio8.op = none :=
  ⟨⟨returning_of_none rfl, returning_of_none rfl, returning_of_none rfl, fun _ => returning_of_none rfl⟩,
    by decide, rfl, by decide, rfl, rfl, rfl, rfl, rfl, rfl, rfl, by decide, rfl⟩

theorem presenting_inv : Inv (presenting (.term 13 []) gpio8) := by constructor <;> decide

theorem witness_StepKeepsInvariant :
    Inv (presenting (.term 13 []) gpio8) ∧ (presenting (.term 13 []) gpio8).op = none ∧
    ∃ t, step (presenting (.term 13 []) gpio8) = .next t :=
  ⟨presenting_inv, rfl, next_of_isNext (by decide)⟩

theorem witness_CompletesExactlyWhereOffered :
    BusAnswers (i2cAt 0x60#8) ∧ EventsReturn (i2cAt 0x60#8) ∧ Offered .clearDisplay (i2cAt 0x60#8) ∧
    ¬Offered .clearDisplay State.reset :=
  ⟨by unfold BusAnswers; decide, returning_of_none rfl, ⟨rfl, rfl, by decide⟩, fun h => by cases h.2.1⟩

/-- One step from each mode, a failing construction among them. -/
theorem witness_LifecycleTransitions :
    (∃ t, exec (.constructOverGpio [] 2 16 none) State.reset = .next t) ∧
    (∃ t, exec (.portExpanderConstruct 0 0x3F) (scanned (.answer [0x3F#7])) = .next t) ∧
    (∃ t, exec (.gpioSendNibble 0x3#4 false) (building .gpio4 4) = .next t) ∧
    (∃ t, exec .release expanderPlain = .next t) ∧
    ∃ t, exec .release { expanderPlain with mode := .released, released := true } = .next t :=
  ⟨next_of_isNext (by decide), next_of_isNext (by decide), next_of_isNext (by decide), next_of_isNext (by decide),
    next_of_isNext (by decide)⟩

theorem witness_ConfigurationIsFixed : gpio8.mode = .ready ∧ ∃ t, exec .displayOff gpio8 = .next t :=
  ⟨rfl, next_of_isNext (by decide)⟩

theorem witness_PinsFollowTheTrace :
    (∃ t, exec .displayOff gpio8 = .next t) ∧ gpio8.mode ≠ .unconstructed ∧
    leaves (fun t => t.mode) (exec .displayOff gpio8) = some .ready := ⟨next_of_isNext (by decide), by decide, by decide⟩

theorem presenting_i2c_inv : Inv (presenting (.term 38 [1]) (i2cAt 0x60#8)) := by constructor <;> decide

theorem witness_ReadWriteIsNeverHigh :
    Inv (presenting (.term 38 [1]) (i2cAt 0x60#8)) ∧
    (presenting (.term 38 [1]) (i2cAt 0x60#8)).transport ≠ some .expanderOnly ∧
    ∃ t, step (presenting (.term 38 [1]) (i2cAt 0x60#8)) = .next t :=
  ⟨presenting_i2c_inv, by decide, next_of_isNext (by decide)⟩

theorem witness_GpioNeverTouchesABus :
    gpio8.mode = .ready ∧ onGpio gpio8.transport = true ∧ gpio8.op = none ∧ ∃ t, exec .returnHome gpio8 = .next t :=
  ⟨rfl, rfl, rfl, next_of_isNext (by decide)⟩

theorem witness_RejectedCallHasNoSideEffect :
    Inv gpio8 ∧ gpio8.mode = .ready ∧ (∃ t, exec (.setCursor 2 0) gpio8 = .next t) ∧
    leaves (fun t => t.result) (exec (.setCursor 2 0) gpio8) = some (some (.fail (.cursorOutOfRange 2 0))) ∧
    (Failure.cursorOutOfRange 2 0).failureClass ≠ .deviceError :=
  ⟨gpio8_inv, rfl, next_of_isNext (by decide), by decide, by decide⟩

theorem witness_BacklightBitIsKept :
    Inv (i2cAt 0x60#8) ∧ ReadyIn .i2c (i2cAt 0x60#8) ∧ (∀ v, Instr.lcdClear ≠ .i2cBacklight v) ∧
    ∃ t, exec .lcdClear (i2cAt 0x60#8) = .next t :=
  ⟨i2c_inv, ⟨rfl, rfl, rfl⟩, fun _ h => (by cases h), next_of_isNext (by decide)⟩

/-- An operation that ends ok, and one that fails at the write that asserts E (V-F7). -/
theorem witness_EnableRestsLowOnI2c :
    Inv (i2cAt 0x60#8) ∧ ReadyIn .i2c (i2cAt 0x60#8) ∧ (i2cAt 0x60#8).ioWrite.getLsbD 2 = false ∧
    (∃ t, exec .lcdClear (i2cAt 0x60#8) = .next t) ∧
    leaves (fun t => (t.result, t.ioWrite.getLsbD 2))
        (exec .lcdClear (i2cWith (List.replicate 6 (.answer ()) ++ [.failure 9]))) =
      some (some (.fail (.transportError 9)), true) :=
  ⟨i2c_inv, ⟨rfl, rfl, rfl⟩, by decide, next_of_isNext (by decide), by decide⟩

theorem witness_OnlyTheirOperationsWriteDcbAndBl :
    gpio8.mode = .ready ∧ (∃ t, exec (.lcdDisplayControl false true true) gpio8 = .next t) ∧
    (∀ j ∈ [Instr.displayOn, .displayOff, .cursorShow, .cursorHide, .cursorBlinkOn, .cursorBlinkOff],
      Instr.lcdDisplayControl false true true ≠ j) ∧
    ∀ v, Instr.lcdDisplayControl false true true ≠ .gpioBacklight v :=
  ⟨rfl, next_of_isNext (by decide), by decide, fun _ h => by cases h⟩

/-- A state for each clause, the write that is not answered the first one and the last one. -/
theorem witness_EventsThatNeverReturnAreTheOnlyFaults :
    isFault (exec .clearDisplay (i2cWith [.never])) = true ∧
    isFault (exec .clearDisplay { gpio8 with hangs := some 15 }) = true ∧ (∀ k, EventsReturn (probed k .never)) ∧
    (∀ writes, EventsReturn (i2cWith writes)) ∧ (∀ k, EventsReturn (buildingWith k .never)) ∧
    (scanned .never).env.scans = .never :: [] ∧ (scanned .never).mode = .unconstructed ∧ (scanned .never).op = none ∧
    legalAddress (scanned .never).cfg.addrPolicy 0x27 = true ∧ legalGeometry 4 20 = true ∧
    (∀ k ∈ [0, 95], k < 8 + 11 * cycleWrites (probed k .never).cfg.granularity ∧
      (probed k .never).env.writes = List.replicate k (.answer ()) ++ .never :: [] ∧
      (probed k .never).env.scans = .answer [0x27#7] :: []) ∧
    ReadyOnI2c (i2cWith (List.replicate 15 (.answer ()) ++ [.never])) ∧ 15 < 2 * cycleWrites .perPin ∧
    InsideConstruction .i2c (buildingWith 7 .never) ∧ 7 < cycleWrites .perPin ∧
    (∀ k ∈ [0, 87], k < 11 * cycleWrites (buildingWith k .never).cfg.granularity ∧
      (buildingWith k .never).env.writes = List.replicate k (.answer ()) ++ .never :: []) ∧
    (buildingWith 7 .never).ioConfig = 0x00#8 ∧ (buildingWith 7 .never).width = 4 ∧
    legalGeometry (buildingWith 7 .never).rows (buildingWith 7 .never).cols = true ∧
    ReadyIn .expanderOnly expanderHanging ∧ expanderHanging.env.writes = .never :: [] ∧
    expanderHanging.ioConfig.getLsbD 0 = false ∧ expanderHanging.ioConfig.getLsbD 5 = true ∧
    expanderHanging.env.reads = .never :: [] ∧ InsideOperation (buildingWith 0 .never) :=
  ⟨by decide, by decide, fun _ => returning_of_none rfl, fun _ => returning_of_none rfl, fun _ => returning_of_none rfl,
    rfl, rfl, rfl, by decide, by decide, by decide, ⟨⟨rfl, rfl, rfl⟩, rfl⟩, by decide,
    ⟨by decide, rfl, rfl⟩, by decide, by decide, rfl, rfl, by decide, ⟨rfl, rfl, rfl⟩, rfl, by decide, by decide, rfl,
    ⟨by decide, .inl rfl⟩⟩

/-- The place that hangs on the way, at a wait and at the bus release; past the way; at an event that is neither; and the
two other outcomes. -/
theorem witness_HangsExactlyWhereAWaitNeverReturns :
    isNext (exec .clearDisplay gpio8) = true ∧
    leaves (fun t => (t.trace[15]?, t.trace[16]?, t.trace[0]?)) (exec .clearDisplay gpio8) =
      some (some (.wait 2000), none, some (.pinSet 0 false)) ∧
    leaves (fun t => t.trace[0]?) (exec .release expanderPlain) = some (some .busRelease) ∧
    refusal (exec .clearDisplay State.reset) = some (.wrongMode .unconstructed) ∧
    isFault (exec .clearDisplay (i2cWith [.never])) = true ∧
    isNext (exec .clearDisplay { gpio8 with hangs := some 16 }) = true ∧
    isNext (exec .clearDisplay { gpio8 with hangs := some 0 }) = true := by decide

end Sys2Proof.Tests
end

section
/-!
PROOFS. 20_memory.md: what `ROWOFF` holds for the rows of a legal geometry, what `moveCursor` does inside and outside
the geometry, and the obligation about `setCursor`.
-/

namespace Sys2Proof.Proofs

open Sys2Proof.Machine Sys2Proof.Safety Sys2Proof.Laws

/-- No legal geometry exceeds 4 x 20. -/
theorem legalGeometry_le {rows cols : Nat} (h : legalGeometry rows cols = true) : rows ≤ 4 ∧ cols ≤ 20 := by
  have := legalGeometry_iff.mp h
  omega

theorem legalCursor_iff {rows cols : Nat} {row column : Int} :
    legalCursor rows cols row column = true ↔ 0 ≤ row ∧ row < rows ∧ 0 ≤ column ∧ column < cols := by
  simp [legalCursor]

/-- R60: the table the spec writes out. -/
theorem rowOffset_eq_getD {r : Nat} (h : r < 4) : rowOffset r = some ([0x00, 0x40, 0x14, 0x54].getD r 0) := by
  interval_cases r <;> rfl

/-- The largest offset is that of the last row. -/
theorem rowOffset_le {r o : Nat} (h : rowOffset r = some o) : o ≤ 0x54 := by
  unfold rowOffset at h
  split at h <;> cases h <;> decide

theorem moveCursor_inside {row column : Int} {s : State} {offset : Nat}
    (inside : legalCursor s.rows s.cols row column = true) (entry : rowOffset row.toNat = some offset) (link : Link) :
    moveCursor row column link s = sendCommand link (ddramSelectByte offset column.toNat) s := by
  simp [moveCursor, inside, entry]

theorem moveCursor_outside {row column : Int} {s : State}
    (outside : legalCursor s.rows s.cols row column = false) (link : Link) :
    moveCursor row column link s = .fail (.cursorOutOfRange row column) s := by
  simp [moveCursor, outside, raise]

/-- R252: an accepted position is one DDRAM-select over the attached transport, in whatever state. -/
theorem exec_setCursor_inside {row column : Int} {s : State} {offset : Nat}
    (inside : legalCursor s.rows s.cols row column = true) (entry : rowOffset row.toNat = some offset) :
    exec (.setCursor row column) s = rawSend (ddramSelectByte offset column.toNat) false s := by
  rw [rawSend_eq (.setCursor row column)]
  refine displayOperation_congr s fun link => ?_
  rw [moveCursor_inside (s := accept (.setCursor row column) s) inside entry]
  exact alike_sendInstruction link _ false (Alike.refl _)

/-- R252: a rejected position ends the operation where it began. -/
theorem exec_setCursor_outside {row column : Int} {s : State} (ready : ReadyOnDisplay s)
    (outside : legalCursor s.rows s.cols row column = false) :
    exec (.setCursor row column) s = .next (finished (.fail (.cursorOutOfRange row column)) s) := by
  obtain ⟨mode, op, attached⟩ := ready
  obtain ⟨link, hlink⟩ := Option.ne_none_iff_exists'.mp attached
  calc exec (.setCursor row column) s
      = conclude (moveCursor row column link (accept (.setCursor row column) s)) := displayOperation_ready op mode hlink
    _ = conclude (.fail (.cursorOutOfRange row column) (accept (.setCursor row column) s)) := by
        rw [moveCursor_outside (s := accept (.setCursor row column) s) outside]
    _ = .next (finished (.fail (.cursorOutOfRange row column)) s) := rfl

/-- Settles O22: the geometry bounds the row by the table's four entries and the sum by the last row's last column. -/
theorem setCursorExpands : Obligations.SetCursorExpands := by
  intro s row column geometry
  obtain ⟨hrows, hcols⟩ := legalGeometry_le geometry
  constructor
  · intro row_nonneg row_lt column_nonneg column_lt
    have entry := rowOffset_eq_getD (r := row.toNat) (by omega)
    have offset_le := rowOffset_le entry
    have inside := legalCursor_iff.mpr ⟨row_nonneg, row_lt, column_nonneg, column_lt⟩
    exact ⟨exec_setCursor_inside inside entry, by omega⟩
  · intro ready outside
    exact ⟨exec_setCursor_outside ready (Bool.eq_false_iff.mpr (mt legalCursor_iff.mp outside)), rfl⟩

end Sys2Proof.Proofs
end

section
/-!
PROOFS. 40_port_expander.md: the one write a pin operation ends with, what it carries when no bit changes, and the
obligation that it is emitted all the same.
-/

namespace Sys2Proof.Proofs

open Sys2Proof.Machine Sys2Proof.Safety Sys2Proof.Laws

/-- R109: a bit set to the level it holds. -/
theorem setBit_same (x : Byte) {i : Nat} (hi : i < 8) : setBit x i (x.getLsbD i) = x := by
  refine BitVec.eq_of_getElem_eq fun q hq => ?_
  rw [setBit_bit x hi hq]
  split
  case isTrue same => subst same; exact BitVec.getLsbD_eq_getElem hq
  case isFalse => rfl

theorem legalPin_natCast {p : Nat} (hp : p ≤ 7) : legalPin p = true := by
  simp [legalPin]; omega

/-- R134: past the range check, one write of the whole `IO_CONFIG` byte. -/
theorem changePinMode_eq {pin : Int} (legal : legalPin pin = true) (input : Bool) (s : State) :
    changePinMode pin input s =
      busWrite (setBit s.ioConfig pin.toNat input) { s with ioConfig := setBit s.ioConfig pin.toNat input } := by
  simp [changePinMode, legal]

/-- R135: past the range check and the direction check of this one pin, one write of the whole `IO_WRITE` byte. -/
theorem changePin_allowed {pin : Int} (legal : legalPin pin = true) {s : State}
    (allowed : s.cfg.pinModePolicy = .permissive ∨ s.ioConfig.getLsbD pin.toNat = false) (v : Level) :
    changePin pin v s = writeLevels (setBit s.ioWrite pin.toNat v) s := by
  have check : (decide (s.cfg.pinModePolicy = .permissive) || !s.ioConfig.getLsbD pin.toNat) = true := by
    rcases allowed with h | h <;> simp [h]
  simp [changePin, legal, check, writeLevels]

theorem changePinMode_same {p : Nat} (hp : p ≤ 7) {s : State} {input : Bool} (held : s.ioConfig.getLsbD p = input) :
    changePinMode p input s = busWrite s.ioConfig s := by
  rw [changePinMode_eq (legalPin_natCast hp), Int.toNat_natCast, ← held, setBit_same s.ioConfig (by omega)]

theorem changePin_same {p : Nat} (hp : p ≤ 7) {s : State} {v : Level} (held : s.ioWrite.getLsbD p = v)
    (allowed : s.cfg.pinModePolicy = .permissive ∨ s.ioConfig.getLsbD p = false) :
    changePin p v s = busWrite s.ioWrite s := by
  rw [changePin_allowed (legalPin_natCast hp) allowed, Int.toNat_natCast, ← held, setBit_same s.ioWrite (by omega),
    writeLevels]

/-- R137: an operation that ends with a write has emitted it, answered ok or with a failure, and kept both registers. -/
theorem conclude_busWrite {b : Byte} {s : State} {reply : Reply Unit} {rest : List (Reply Unit)}
    (next : s.env.writes = reply :: rest) (answered : reply ≠ .never) :
    ∃ t, conclude (busWrite b s) = .next t ∧ t.ioWrite = s.ioWrite ∧ t.ioConfig = s.ioConfig ∧
      t.trace = s.trace ++ [.i2cWrite s.addr b] := by
  cases reply with
  | answer => exact ⟨_, congrArg conclude (busWrite_ok next), rfl, rfl, rfl⟩
  | failure cause => exact ⟨_, congrArg conclude (busWrite_failure next), rfl, rfl, rfl⟩
  | never => exact absurd rfl answered

theorem exec_writePin_ready {s : State} (ready : ReadyIn .expanderOnly s) (pin : Int) (v : Level) :
    exec (.writePin pin v) s = conclude (changePin pin v (accept (.writePin pin v) s)) := by
  obtain ⟨mode, op, transport⟩ := ready
  have offered : offersExpander s.transport = true := by rw [transport]; rfl
  change execWritePin pin v s = _
  rw [execWritePin, hostOperation_ready op mode offered]

/-- R134: input is the direction bit set, output the bit cleared. -/
theorem exec_setPinMode_ready {s : State} (ready : ReadyIn .expanderOnly s) (pin : Int) (input : Bool) :
    exec (.setPinMode pin (if input then .input else .output)) s =
      conclude (changePinMode pin input (accept (.setPinMode pin (if input then .input else .output)) s)) := by
  obtain ⟨mode, op, transport⟩ := ready
  have offered : offersExpander s.transport = true := by rw [transport]; rfl
  change execSetPinMode pin _ s = _
  rw [execSetPinMode, hostOperation_ready op mode offered]
  cases input <;> rfl

/-- Settles O39: setting a bit to what it holds leaves the byte, and the write of that byte does not ask whether it
changed. -/
theorem noWriteIsElided : Obligations.NoWriteIsElided := by
  intro s p reply rest ready hp next answered
  constructor
  · intro allowed
    rw [exec_writePin_ready ready, changePin_same (s := accept _ s) (v := s.ioWrite.getLsbD p) hp rfl allowed]
    obtain ⟨t, ended, levels, -, emitted⟩ := conclude_busWrite (s := accept _ s) next answered
    exact ⟨t, ended, levels, emitted⟩
  · rw [exec_setPinMode_ready ready, changePinMode_same (s := accept _ s) (input := s.ioConfig.getLsbD p) hp rfl]
    obtain ⟨t, ended, -, directions, emitted⟩ := conclude_busWrite (s := accept _ s) next answered
    exact ⟨t, ended, directions, emitted⟩

end Sys2Proof.Proofs
end

section
/-!
PROOFS. 30_encoding.md section 4: what listed levels driven inside a running operation answer, where they leave the pins
of each vector's form, and the obligation about the two pin vectors.
-/

namespace Sys2Proof.Proofs

open Sys2Proof.Machine Sys2Proof.Safety Sys2Proof.Laws

/-- R79, R306: listed levels driven inside a running operation are their `PinSet`s, emitted in order. -/
theorem inlineSteps_drivePins {s : State} {t : Transport} (inside : InsideOperation s) (transport : s.transport = some t)
    (levels : List (Position × Level)) :
    inlineSteps (· == some t) (fun s => .ok () (drivePins levels s)) s =
      .next (emitAll (levels.map fun x => .pinSet x.1 x.2) s) :=
  (inlineSteps_inside inside (by simp [transport])).trans (congrArg Host.Outcome.next (drivePins_eq levels s))

theorem exec_vectorGpio8_inside {s : State} (inside : InsideOperation s) (transport : s.transport = some .gpio8)
    (rs e : Level) (d : Byte) :
    exec (.vectorGpio8 rs false e d) s = .next (emitAll (selectEvents rs ++ dataEvents8 d ++ [.pinSet 2 e]) s) :=
  inlineSteps_drivePins inside transport ([(0, rs), (1, false)] ++ dataLevels8 d ++ [(2, e)])

theorem exec_vectorGpio4_inside {s : State} (inside : InsideOperation s) (transport : s.transport = some .gpio4)
    (rs e : Level) (n : Nibble) :
    exec (.vectorGpio4 rs false e n) s = .next (emitAll (selectEvents rs ++ dataEvents4 n ++ [.pinSet 2 e]) s) :=
  inlineSteps_drivePins inside transport ([(0, rs), (1, false)] ++ dataLevels4 n ++ [(2, e)])

/-- R102: the eleven levels leave no position as it was. -/
theorem pinsAfter_vectorGpio8 (pins : Vector (Option Level) 11) (rs e : Level) (d : Byte) :
    pinsAfter pins (selectEvents rs ++ dataEvents8 d ++ [.pinSet 2 e]) =
      #v[some rs, some false, some e, some (d.getLsbD 0), some (d.getLsbD 1), some (d.getLsbD 2), some (d.getLsbD 3),
        some (d.getLsbD 4), some (d.getLsbD 5), some (d.getLsbD 6), some (d.getLsbD 7)] := by
  ext1 q hq
  interval_cases q <;> simp [selectEvents, dataEvents8, pinsAfter]

/-- R103: the seven levels leave positions 7 to 10 as they were. -/
theorem pinsAfter_vectorGpio4 (pins : Vector (Option Level) 11) (rs e : Level) (n : Nibble) :
    pinsAfter pins (selectEvents rs ++ dataEvents4 n ++ [.pinSet 2 e]) =
      #v[some rs, some false, some e, some (n.getLsbD 0), some (n.getLsbD 1), some (n.getLsbD 2), some (n.getLsbD 3),
        pins[7], pins[8], pins[9], pins[10]] := by
  ext1 q hq
  interval_cases q <;> simp [selectEvents, dataEvents4, pinsAfter]

/-- Settles O13: a vector is its `PinSet`s emitted in order, and these name each position of its form once. -/
theorem pinVectorsDriveEveryPosition : Obligations.PinVectorsDriveEveryPosition := by
  intro s rs e d n inside
  refine ⟨fun transport => ?_, fun transport => ?_, rfl, rfl⟩
  · rw [exec_vectorGpio8_inside inside transport, ← pinsAfter_vectorGpio8 s.pins rs e d]
    rfl
  · rw [exec_vectorGpio4_inside inside transport, ← pinsAfter_vectorGpio4 s.pins rs e n]
    rfl

end Sys2Proof.Proofs
end

section
/-!
PROOFS. 44_display_ops.md: how an operation whose steps are one command ends, with and without a wait after it, and the
obligation about the operations that send a fixed byte.
-/

namespace Sys2Proof.Proofs

open Sys2Proof.Machine Sys2Proof.Safety Sys2Proof.Laws

/-- R307, R346: a wait as the last step joins the trace of what the steps before it left, or hangs there; only steps that
ended ok come to it (R300). -/
theorem conclude_thenWait (d : Nat) (x : Out Unit) :
    conclude (thenWait d x) = continueWith (conclude x) (thenWaited d) := by
  cases x with
  | ok a s =>
    change conclude (emitReturning (.wait d) s) = thenWaited d (endOperation .ok s)
    by_cases here : s.hangs = some s.trace.length
    · simp [emitReturning, thenWaited, endOperation, conclude, here]
    · simp [emitReturning, thenWaited, endOperation, conclude, here, emit]
  | fail f s => rfl
  | stuck r => rfl

theorem displayOperation_thenWait (i : Instr) (d : Nat) (body : Link → State → Out Unit) (s : State) :
    displayOperation i (fun link s => thenWait d (body link s)) s =
      continueWith (displayOperation i body s) (thenWaited d) := by
  unfold displayOperation
  split
  · rfl
  · split
    · rfl
    · split
      · exact conclude_thenWait d _
      · rfl

/-- R104: an operation that only sends a command is the raw send of its byte, whichever transport is attached. -/
theorem displayOperation_sendCommand (i : Instr) (c : Byte) (s : State) :
    displayOperation i (fun link => sendCommand link c) s = rawSend c false s :=
  (rawSend_eq i c false s).symm

theorem displayOperation_sendCommand_thenWait (i : Instr) (c : Byte) (d : Nat) (s : State) :
    displayOperation i (fun link s => thenWait d (sendCommand link c s)) s =
      continueWith (rawSend c false s) (thenWaited d) := by
  rw [displayOperation_thenWait i d fun link => sendCommand link c, displayOperation_sendCommand]

/-- Settles O20: each operation's steps are the command of its fixed byte, and after clear and home the wait of 2000 us. -/
theorem clearHomeAndShiftsExpand : Obligations.ClearHomeAndShiftsExpand := fun s =>
  ⟨displayOperation_sendCommand_thenWait .clearDisplay clearByte tHome s,
    displayOperation_sendCommand_thenWait .returnHome returnHomeByte tHome s,
    displayOperation_sendCommand .displayShiftLeft (shiftByte true false) s,
    displayOperation_sendCommand .displayShiftRight (shiftByte true true) s,
    displayOperation_sendCommand .cursorShiftLeft (shiftByte false false) s,
    displayOperation_sendCommand .cursorShiftRight (shiftByte false true) s⟩

end Sys2Proof.Proofs
end

section
/-!
PROOFS. 60_exceptions.md R285: the three pin operations outside 0..7 end at their range check, before any other check and
before any event, and the obligation about `InvalidPin`.
-/

namespace Sys2Proof.Proofs

open Sys2Proof.Machine Sys2Proof.Safety Sys2Proof.Laws

theorem legalPin_eq_false {pin : Int} (outside : ¬(0 ≤ pin ∧ pin ≤ 7)) : legalPin pin = false :=
  decide_eq_false outside

theorem changePinMode_outside {pin : Int} (outside : legalPin pin = false) (input : Bool) (s : State) :
    changePinMode pin input s = .fail (.invalidPin pin) s := by
  rw [changePinMode, outside, require_false, andThen_fail]

theorem changePin_outside {pin : Int} (outside : legalPin pin = false) (v : Level) (s : State) :
    changePin pin v s = .fail (.invalidPin pin) s := by
  rw [changePin, outside, require_false, andThen_fail]

theorem samplePin_outside {pin : Int} (outside : legalPin pin = false) (s : State) :
    samplePin pin s = .fail (.invalidPin pin) s := by
  rw [samplePin, outside, require_false, andThen_fail]

theorem exec_readPin_ready {s : State} (ready : ReadyIn .expanderOnly s) (pin : Int) :
    exec (.readPin pin) s = concludeValue (samplePin pin (accept (.readPin pin) s)) := by
  obtain ⟨mode, op, transport⟩ := ready
  have offered : offersExpander s.transport = true := by rw [transport]; rfl
  change execReadPin pin s = _
  rw [execReadPin, hostOperation_ready op mode offered]

/-- R16: a failure where the operation began leaves of it only its result. -/
theorem conclude_fail_accept (f : Failure) (i : Instr) (s : State) :
    conclude (.fail f (accept i s)) = .next (finished (.fail f) s) := rfl

theorem concludeValue_fail_accept (f : Failure) (i : Instr) (s : State) :
    concludeValue (.fail f (accept i s)) = .next (finished (.fail f) s) := rfl

theorem exec_setPinMode_outside {s : State} (ready : ReadyIn .expanderOnly s) {pin : Int}
    (outside : legalPin pin = false) (input : Bool) :
    exec (.setPinMode pin (if input then .input else .output)) s = .next (finished (.fail (.invalidPin pin)) s) := by
  rw [exec_setPinMode_ready ready, changePinMode_outside outside, conclude_fail_accept]

theorem exec_writePin_outside {s : State} (ready : ReadyIn .expanderOnly s) {pin : Int}
    (outside : legalPin pin = false) (v : Level) :
    exec (.writePin pin v) s = .next (finished (.fail (.invalidPin pin)) s) := by
  rw [exec_writePin_ready ready, changePin_outside outside, conclude_fail_accept]

theorem exec_readPin_outside {s : State} (ready : ReadyIn .expanderOnly s) {pin : Int}
    (outside : legalPin pin = false) :
    exec (.readPin pin) s = .next (finished (.fail (.invalidPin pin)) s) := by
  rw [exec_readPin_ready ready, samplePin_outside outside, concludeValue_fail_accept]

/-- Settles O37: each of the three operations begins with the range check, which fails in the state it was accepted in. -/
theorem pinRangeErrors : Obligations.PinRangeErrors := by
  intro s pin mode v ready range
  have outside := legalPin_eq_false range
  refine ⟨?_, exec_writePin_outside ready outside v, exec_readPin_outside ready outside, rfl⟩
  rintro (rfl | rfl)
  · exact exec_setPinMode_outside ready outside true
  · exact exec_setPinMode_outside ready outside false

end Sys2Proof.Proofs
end

section
/-!
PROOFS. 70_reset_and_hazards.md R346, 93_implementation_defined.md U25: every instruction run against the same one with
every event returning, and the obligation that it hangs exactly where its trace would hold the event that never returns.
-/

namespace Sys2Proof.Proofs

open Sys2Proof.Machine Sys2Proof.Safety Sys2Proof.Laws

theorem tracks_sendCommand (link : Link) (c : Byte) : Tracks (sendCommand link c) := tracks_sendInstruction link c false

theorem tracks_sendCommand_thenWait (c : Byte) (d : Nat) (link : Link) :
    Tracks fun s => thenWait d (sendCommand link c s) := tracks_thenWait d (tracks_sendCommand link c)

/-- R242 to R247: the shadow is read and written before the send, so no event lies before the send's. -/
theorem tracks_changeDisplayControl (change : BitVec 3 → BitVec 3) (link : Link) :
    Tracks (changeDisplayControl change link) :=
  tracks_reading (fun s => change s.dcb) (fun _ => rfl)
    (f := fun d s => sendCommand link (displayControlByte d) { s with dcb := d }) fun d =>
    tracks_update (f := fun s => { s with dcb := d }) (tracks_sendCommand link _) (fun _ => rfl) (fun _ => rfl)
      fun _ => rfl

/-- Log 18: a row inside the geometry but outside the table of R60. -/
theorem moveCursor_noEntry {row column : Int} {s : State} (inside : legalCursor s.rows s.cols row column = true)
    (noEntry : rowOffset row.toNat = none) (link : Link) :
    moveCursor row column link s = .fail (.cursorOutOfRange row column) s := by
  simp [moveCursor, inside, noEntry, raise]

theorem tracks_moveCursor (row column : Int) (link : Link) : Tracks (moveCursor row column link) := by
  intro s
  cases inside : legalCursor s.rows s.cols row column with
  | false =>
    rw [moveCursor_outside (s := free s) inside, moveCursor_outside inside]
    exact tracks_fail _ quiet_id s
  | true =>
    cases entry : rowOffset row.toNat with
    | none =>
      rw [moveCursor_noEntry (s := free s) inside entry, moveCursor_noEntry inside entry]
      exact tracks_fail _ quiet_id s
    | some offset =>
      rw [moveCursor_inside (s := free s) inside entry, moveCursor_inside inside entry]
      exact tracks_sendCommand link _ s

theorem tracks_sendGlyph (slot : Int) (bitmap : List Byte) (link : Link) : Tracks (sendGlyph slot bitmap link) :=
  tracks_andThen (tracks_require _ _) <| tracks_andThen (tracks_require _ _) <|
    tracks_andThen (tracks_sendCommand link _) (tracks_sendData link bitmap)

/-- A host operation whose steps track the place that hangs. -/
theorem stepsWith_hostOperation_conclude {i : Instr} {offered : Option Transport → Bool} {body : State → Out Unit}
    (h : Tracks body) (s : State) :
    StepsWith s (hostOperation i offered (fun s => conclude (body s)) (free s))
      (hostOperation i offered (fun s => conclude (body s)) s) :=
  stepsWith_hostOperation (fun s => stepsWith_conclude (h s)) s

/-- A choice that does not depend on the place that hangs. -/
theorem stepsWith_ite {c : Prop} [Decidable c] {s : State} {x x' y y' : Stepped} (hx : StepsWith s x x')
    (hy : StepsWith s y y') : StepsWith s (if c then x else y) (if c then x' else y') := by
  by_cases h : c
  · simpa only [h, if_true] using hx
  · simpa only [h, if_false] using hy

theorem stepsWith_execPrint (codePoints : List Nat) (s : State) :
    StepsWith s (execPrint codePoints (free s)) (execPrint codePoints s) := by
  unfold execPrint
  cases (Instr.print codePoints).formError with
  | some e => exact stepsWith_refused s _
  | none => exact stepsWith_displayOperation (fun link => tracks_sendData link _) s

theorem stepsWith_execSetPinMode (pin : Int) (mode : PinMode) (s : State) :
    StepsWith s (execSetPinMode pin mode (free s)) (execSetPinMode pin mode s) := by
  refine stepsWith_hostOperation (fun s => ?_) s
  cases mode with
  | input => exact stepsWith_conclude (tracks_changePinMode pin true s)
  | output => exact stepsWith_conclude (tracks_changePinMode pin false s)
  | inputPullup => exact stepsWith_refused s _
  | outputPullup => exact stepsWith_refused s _

theorem stepsWith_execGpioBacklight (v : Level) (s : State) :
    StepsWith s (execGpioBacklight v (free s)) (execGpioBacklight v s) :=
  stepsWith_hostOperation (fun s => stepsWith_ite (c := s.cfg.hasBlPin = true)
    (stepsWith_conclude (tracks_ok () (quiet_blSet v) s)) (stepsWith_refused s _)) s

theorem stepsWith_execVectorGpio8 (rs rw e : Level) (d : Byte) (s : State) :
    StepsWith s (execVectorGpio8 rs rw e d (free s)) (execVectorGpio8 rs rw e d s) := by
  unfold execVectorGpio8
  cases (Instr.vectorGpio8 rs rw e d).formError with
  | some err => exact stepsWith_refused s _
  | none =>
    exact stepsWith_inlineSteps
      (tracks_ok () (quiet_drivePins ([(0, rs), (1, rw)] ++ dataLevels8 d ++ [(2, e)]))) s

theorem stepsWith_execVectorGpio4 (rs rw e : Level) (n : Nibble) (s : State) :
    StepsWith s (execVectorGpio4 rs rw e n (free s)) (execVectorGpio4 rs rw e n s) := by
  unfold execVectorGpio4
  cases (Instr.vectorGpio4 rs rw e n).formError with
  | some err => exact stepsWith_refused s _
  | none =>
    exact stepsWith_inlineSteps
      (tracks_ok () (quiet_drivePins ([(0, rs), (1, rw)] ++ dataLevels4 n ++ [(2, e)]))) s

theorem stepsWith_execRelease (s : State) : StepsWith s (execRelease (free s)) (execRelease s) :=
  stepsWith_ite (c := s.op.isSome = true) (stepsWith_refused s _) <|
  stepsWith_ite (c := s.mode ≠ .ready ∧ s.mode ≠ .released) (stepsWith_refused s _) <|
  stepsWith_ite (c := holdsBus s.transport = true) (stepsWith_conclude (tracks_releaseBus (accept .release s)))
    (stepsWith_refused s _)

theorem stepsWith_execInitialise (s : State) : StepsWith s (execInitialise (free s)) (execInitialise s) := by
  refine stepsWith_ite (c := s.op.isNone = true) (stepsWith_refused s _) <|
    stepsWith_ite (c := s.mode ≠ .constructing) (stepsWith_refused s _) ?_
  simp only [show (free s).transport = s.transport from rfl, show hasGeometry (free s) = hasGeometry s from rfl]
  cases linkOf s.transport with
  | none => exact stepsWith_refused s _
  | some link =>
    cases hasGeometry s with
    | false => exact stepsWith_refused s _
    | true => exact stepsWith_concludeInline (tracks_runInitialise link s)

theorem stepsWith_execDisplayControllerConstruct (rows columns : Int) (operands : ControllerOperands) (s : State) :
    StepsWith s (execDisplayControllerConstruct rows columns operands (free s))
      (execDisplayControllerConstruct rows columns operands s) := by
  obtain ⟨font, transport⟩ := operands
  unfold execDisplayControllerConstruct
  cases transport with
  | gpio pinList => exact stepsWith_construction (tracks_composeGpio pinList rows columns font) s
  | i2c bus address => exact stepsWith_construction (tracks_composeI2c address rows columns font) s
  | attached =>
    refine stepsWith_constructionPart (fits := !hasGeometry s) (fun s => ?_) s
    simp only [show (free s).transport = s.transport from rfl]
    cases linkOf s.transport with
    | none => exact stepsWith_refused s _
    | some link => exact stepsWith_concludeConstruction (tracks_constructController link rows columns font s)

/-- U25 over every instruction: the acceptance is the same, and the steps accepted track the place that hangs. -/
theorem exec_stepsWith (i : Instr) (s : State) : StepsWith s (exec i (free s)) (exec i s) := by
  unfold exec
  cases i with
  | lcdClear | lcdReturnHome _ | lcdEntryModeSet _ _ | lcdDisplayControl _ _ _ | lcdCursorDisplayShift _ _ _
  | lcdFunctionSet _ _ _ _ | lcdCgramSelect _ | lcdDdramSelect _
  | displayShiftLeft | displayShiftRight | cursorShiftLeft | cursorShiftRight =>
    exact stepsWith_displayOperation (fun link => tracks_sendCommand link _) s
  | lcdData d => exact stepsWith_displayOperation (fun link => tracks_sendInstruction link d true) s
  | clearDisplay | returnHome => exact stepsWith_displayOperation (tracks_sendCommand_thenWait _ _) s
  | displayOn | displayOff | cursorShow | cursorHide | cursorBlinkOn | cursorBlinkOff =>
    exact stepsWith_displayOperation (tracks_changeDisplayControl _) s
  | setCursor row column => exact stepsWith_displayOperation (tracks_moveCursor row column) s
  | print codePoints => exact stepsWith_execPrint codePoints s
  | defineCustomGlyph slot bitmap => exact stepsWith_displayOperation (tracks_sendGlyph slot bitmap) s
  | frameI2c n bl e rw rs => exact stepsWith_inlineSteps (tracks_writeLevels _) s
  | frameI2cConfig c =>
    exact stepsWith_inlineSteps (tracks_update (f := fun s => { s with ioConfig := c }) (tracks_busWrite c)
      (fun _ => rfl) (fun _ => rfl) fun _ => rfl) s
  | vectorGpio8 rs rw e d => exact stepsWith_execVectorGpio8 rs rw e d s
  | vectorGpio4 rs rw e n => exact stepsWith_execVectorGpio4 rs rw e n s
  | gpioSendInstruction b rs => exact stepsWith_hostOperation_conclude (tracks_gpioSend b rs) s
  | gpioSendNibble n rs => exact stepsWith_constructionSteps (tracks_gpioSendSingle n rs) s
  | gpioBacklight v => exact stepsWith_execGpioBacklight v s
  | i2cSendInstruction b rs =>
    exact stepsWith_hostOperation_conclude (tracks_sendInstruction .i2c b rs) s
  | i2cSendNibble n rs => exact stepsWith_constructionSteps (tracks_sendNibble .i2c n rs) s
  | i2cBacklight v => exact stepsWith_hostOperation_conclude (tracks_changePin 3 v) s
  | setPinMode pin mode => exact stepsWith_execSetPinMode pin mode s
  | writePin pin v => exact stepsWith_hostOperation_conclude (tracks_changePin pin v) s
  | readPin pin =>
    exact stepsWith_hostOperation (run := fun s => concludeValue (samplePin pin s))
      (fun s => stepsWith_concludeValue (tracks_samplePin pin s)) s
  | release => exact stepsWith_execRelease s
  | initialise => exact stepsWith_execInitialise s
  | displayControllerConstruct rows columns operands =>
    exact stepsWith_execDisplayControllerConstruct rows columns operands s
  | constructOverGpio pinList rows columns font =>
    exact stepsWith_construction (tracks_composeGpio pinList rows columns font) s
  | gpioTransportConstruct pinList =>
    exact stepsWith_constructionPart (run := fun s => concludeInline (attachGpio pinList s))
      (fun s => stepsWith_concludeInline (tracks_attachGpio pinList s)) s
  | i2cTransportConstruct bus address rows columns font =>
    exact stepsWith_construction (tracks_composeI2c address rows columns font) s
  | portExpanderConstruct bus address =>
    exact stepsWith_construction (tracks_andThen (tracks_attachExpander address)
      (tracks_ok () (quiet_update (f := fun s => { s with transport := some .expanderOnly }) (fun _ => rfl)
        (fun _ => rfl) fun _ => rfl))) s

/-- Settles O59: what `StepsWith` says of each of the three ends the instruction has where every event returns. -/
theorem hangsExactlyWhereAWaitNeverReturns : Obligations.HangsExactlyWhereAWaitNeverReturns := by
  intro i s
  have h := exec_stepsWith i s
  refine ⟨fun t ht => ?_, fun r hr => ?_, fun r hr => ?_⟩
  · rwa [show exec i (free s) = .next t from ht] at h
  · rwa [show exec i (free s) = .refused r from hr] at h
  · rwa [show exec i (free s) = .fault r from hr] at h

end Sys2Proof.Proofs
end

section
/-!
PROOFS. 60_exceptions.md R306, 70_reset_and_hazards.md R346: every instruction answers a next state or hangs at what blocks
it exactly where it is offered, and is refused elsewhere; the obligation that it completes exactly there.
-/

namespace Sys2Proof.Proofs

open Sys2Proof.Machine Sys2Proof.Safety Sys2Proof.Laws

/-! ### Steps that hang only where they are blocked -/

/-- `x`, started in `s`, hangs at nothing but an answer that never comes or an event that never returns. -/
def HangsOnlyBlocked {α : Type} (s : State) (x : Out α) : Prop := ∀ r, x = .stuck r → Blocked s r

theorem hangsOnlyBlocked_ok {α : Type} (s t : State) (a : α) : HangsOnlyBlocked s (.ok a t) := nofun

theorem hangsOnlyBlocked_fail {α : Type} (s t : State) (f : Failure) : HangsOnlyBlocked s (.fail f t : Out α) := nofun

theorem hangsOnlyBlocked_stuck {α : Type} {s : State} {r : Fault} (h : Blocked s r) :
    HangsOnlyBlocked s (.stuck r : Out α) := by
  rintro _ ⟨⟩
  exact h

theorem hangsOnlyBlocked_require (c : Bool) (f : Failure) (s : State) : HangsOnlyBlocked s (require c f s) := by
  cases c
  · exact hangsOnlyBlocked_fail s s f
  · exact hangsOnlyBlocked_ok s s ()

/-- What follows cannot hang adds no hang. -/
theorem hangsOnlyBlocked_andThen {α β : Type} {s : State} {x : Out α} {k : State → Out β} (hx : HangsOnlyBlocked s x)
    (hk : ∀ t r, k t ≠ .stuck r) : HangsOnlyBlocked s (x.andThen k) := by
  cases x with
  | ok a t => exact fun r h => absurd h (hk t r)
  | fail f t => exact hangsOnlyBlocked_fail s t f
  | stuck r => exact hangsOnlyBlocked_stuck (hx r rfl)

/-- What blocks a state lies in its answers, its place that hangs and its trace. -/
theorem HangsOnlyBlocked.of_same {α : Type} {s t : State} {x : Out α} (h : HangsOnlyBlocked t x) (env : t.env = s.env)
    (hangs : t.hangs = s.hangs) (trace : t.trace = s.trace) : HangsOnlyBlocked s x := fun r e => by
  have blocked := h r e
  cases r with
  | busNeverAnswers => simpa only [Blocked, BusAnswers, env] using blocked
  | eventNeverReturns => simpa only [Blocked, EventsReturn, hangs, trace] using blocked

theorem hangsOnlyBlocked_of_along {α : Type} {link : Link} {s : State} {x : Out α} (h : Along link s x) :
    HangsOnlyBlocked s x := by
  rintro r rfl
  exact h

theorem hangsOnlyBlocked_of_alongDcb {link : Link} {s : State} {x : Out Unit} (h : AlongDcb link s x) :
    HangsOnlyBlocked s x := by
  rintro r rfl
  exact h

theorem hangsOnlyBlocked_of_returning {s t : State} {x : Out Unit} (h : Returning s x t) : HangsOnlyBlocked s x := by
  rcases h with rfl | ⟨rfl, blocked⟩
  · exact hangsOnlyBlocked_ok s t ()
  · exact hangsOnlyBlocked_stuck blocked

theorem hangsOnlyBlocked_of_bodyRuns {i : Instr} {body : Link → State → Out Unit} (h : BodyRuns i body) (link : Link)
    (s : State) : HangsOnlyBlocked s (body link s) := by
  obtain ⟨-, ⟨along, -⟩ | ⟨f, failed, -⟩⟩ := h link s
  · exact hangsOnlyBlocked_of_alongDcb along
  · rw [failed]
    exact hangsOnlyBlocked_fail s s f

theorem hangsOnlyBlocked_busWrite (b : Byte) (s : State) : HangsOnlyBlocked s (busWrite b s) := by
  rcases busWrite_cases b s with ⟨r, e, blocked⟩ | ⟨u, -, e | ⟨c, e⟩⟩ <;> rw [e]
  · exact hangsOnlyBlocked_stuck blocked
  · exact hangsOnlyBlocked_ok s u ()
  · exact hangsOnlyBlocked_fail s u _

theorem hangsOnlyBlocked_writeLevels (f : Byte) (s : State) : HangsOnlyBlocked s (writeLevels f s) :=
  (hangsOnlyBlocked_busWrite f { s with ioWrite := f }).of_same rfl rfl rfl

theorem hangsOnlyBlocked_writeDirections (d : Byte) (s : State) :
    HangsOnlyBlocked s (busWrite d { s with ioConfig := d }) :=
  (hangsOnlyBlocked_busWrite d { s with ioConfig := d }).of_same rfl rfl rfl

theorem hangsOnlyBlocked_changePin (pin : Int) (v : Level) (s : State) : HangsOnlyBlocked s (changePin pin v s) := by
  rcases changePin_cases pin v s with ⟨f, e, -⟩ | ⟨r, e, blocked⟩ | ⟨u, -, -, -, -, e | ⟨c, e⟩⟩ <;> rw [e]
  · exact hangsOnlyBlocked_fail s s f
  · exact hangsOnlyBlocked_stuck blocked
  · exact hangsOnlyBlocked_ok s u ()
  · exact hangsOnlyBlocked_fail s u _

theorem hangsOnlyBlocked_changePinMode (pin : Int) (input : Bool) (s : State) :
    HangsOnlyBlocked s (changePinMode pin input s) := by
  rcases changePinMode_cases pin input s with ⟨f, e, -⟩ | ⟨r, e, blocked⟩ | ⟨u, -, -, -, -, e | ⟨c, e⟩⟩ <;> rw [e]
  · exact hangsOnlyBlocked_fail s s f
  · exact hangsOnlyBlocked_stuck blocked
  · exact hangsOnlyBlocked_ok s u ()
  · exact hangsOnlyBlocked_fail s u _

theorem hangsOnlyBlocked_samplePin (pin : Int) (s : State) : HangsOnlyBlocked s (samplePin pin s) := by
  rcases samplePin_cases pin s with ⟨f, e, -⟩ | ⟨r, e, blocked⟩ | ⟨u, -, ⟨v, e⟩ | ⟨c, e⟩⟩ <;> rw [e]
  · exact hangsOnlyBlocked_fail s s f
  · exact hangsOnlyBlocked_stuck blocked
  · exact hangsOnlyBlocked_ok s u v
  · exact hangsOnlyBlocked_fail s u _

theorem hangsOnlyBlocked_attachExpander (address : Int) (s : State) :
    HangsOnlyBlocked s (attachExpander address s) := by
  rcases attachExpander_cases address s with e | ⟨r, e, blocked⟩ | ⟨u, -, -, ⟨f, e⟩ | e⟩ <;> rw [e]
  · exact hangsOnlyBlocked_fail s s _
  · exact hangsOnlyBlocked_stuck blocked
  · exact hangsOnlyBlocked_fail s u f
  · exact hangsOnlyBlocked_ok s _ ()

theorem hangsOnlyBlocked_attachGpio (pinList : List PinId) (s : State) : HangsOnlyBlocked s (attachGpio pinList s) :=
  hangsOnlyBlocked_andThen (hangsOnlyBlocked_require _ _ s) fun _ _ => nofun

theorem hangsOnlyBlocked_composeGpio (pinList : List PinId) (rows columns : Int) (font : Option Font) (s : State) :
    HangsOnlyBlocked s (composeGpio pinList rows columns font s) := by
  rcases composeGpio_cases pinList rows columns font s with
    ⟨r, e, blocked⟩ | ⟨f, e, -⟩ | ⟨-, u, _, _, -, e, -⟩ <;> rw [e]
  · exact hangsOnlyBlocked_stuck blocked
  · exact hangsOnlyBlocked_fail s s f
  · exact hangsOnlyBlocked_ok s u ()

theorem hangsOnlyBlocked_composeI2c (address rows columns : Int) (font : Option Font) (s : State) :
    HangsOnlyBlocked s (composeI2c address rows columns font s) := by
  rcases composeI2c_cases address rows columns font s with
    ⟨r, e, blocked⟩ | ⟨u, f, _, e, -⟩ | ⟨-, -, u, _, e, -⟩ <;> rw [e]
  · exact hangsOnlyBlocked_stuck blocked
  · exact hangsOnlyBlocked_fail s u f
  · exact hangsOnlyBlocked_ok s u ()

theorem hangsOnlyBlocked_constructController (link : Link) (rows columns : Int) (font : Option Font) (s : State) :
    HangsOnlyBlocked s (constructController link rows columns font s) := by
  cases geometry : legalGeometry rows columns with
  | false =>
    rw [constructController_bad link font s geometry]
    exact hangsOnlyBlocked_fail s s _
  | true =>
    rw [constructController_eq link font s geometry]
    exact (hangsOnlyBlocked_of_alongDcb (along_runInitialise link _)).of_same rfl rfl rfl

/-! ### Where an operation answers -/

/-- Where `offered`, the outcome is a next state or a hang at what blocks `s`; elsewhere a refusal. -/
def AnswersWhere (offered : Prop) (s : State) (o : Stepped) : Prop :=
  (offered → (∃ t, o = .next t) ∨ ∃ r, o = .fault r ∧ Blocked s r) ∧ (¬offered → ∃ r, o = .refused r)

variable {p q : Prop} {s : State} {o : Stepped}

theorem AnswersWhere.congr (h : AnswersWhere p s o) (same : p ↔ q) : AnswersWhere q s o := propext same ▸ h

theorem answersWhere_refused (r : Refusal) : AnswersWhere False s (.refused r) := ⟨False.elim, fun _ => ⟨r, rfl⟩⟩

theorem answersWhere_next (t : State) : AnswersWhere True s (.next t) := ⟨fun _ => .inl ⟨t, rfl⟩, (absurd trivial ·)⟩

/-- A check that refuses where `c` holds. -/
theorem answersWhere_unless {c : Prop} [Decidable c] {r : Refusal} (h : AnswersWhere p s o) :
    AnswersWhere (¬c ∧ p) s (if c then .refused r else o) := by
  by_cases hc : c
  · rw [if_pos hc]
    exact (answersWhere_refused r).congr (by simp [hc])
  · rw [if_neg hc]
    exact h.congr (by simp [hc])

/-- A check that refuses where `c` does not hold. -/
theorem answersWhere_when {c : Prop} [Decidable c] {r : Refusal} (h : AnswersWhere p s o) :
    AnswersWhere (c ∧ p) s (if c then o else .refused r) := by
  by_cases hc : c
  · rw [if_pos hc]
    exact h.congr (by simp [hc])
  · rw [if_neg hc]
    exact (answersWhere_refused r).congr (by simp [hc])

/-- An operation accepted ends as its steps did, whichever way it closes them. -/
theorem answersWhere_closed {α : Type} {x : Out α} {close : Out α → Stepped} (h : HangsOnlyBlocked s x)
    (stuck : ∀ r, close (.stuck r) = .fault r)
    (completes : ∀ {x}, (∀ r, x ≠ .stuck r) → ∃ t, close x = .next t) : AnswersWhere True s (close x) := by
  refine ⟨fun _ => ?_, (absurd trivial ·)⟩
  by_cases hung : ∃ r, x = .stuck r
  · obtain ⟨r, rfl⟩ := hung
    exact .inr ⟨r, stuck r, h r rfl⟩
  · exact .inl (completes (not_exists.mp hung))

theorem answersWhere_conclude {x : Out Unit} (h : HangsOnlyBlocked s x) : AnswersWhere True s (conclude x) :=
  answersWhere_closed h (fun _ => rfl) conclude_completes

theorem answersWhere_concludeValue {x : Out Level} (h : HangsOnlyBlocked s x) : AnswersWhere True s (concludeValue x) :=
  answersWhere_closed h (fun _ => rfl) concludeValue_completes

theorem answersWhere_concludeInline {x : Out Unit} (h : HangsOnlyBlocked s x) :
    AnswersWhere True s (concludeInline x) :=
  answersWhere_closed h (fun _ => rfl) concludeInline_completes

theorem answersWhere_concludeConstruction {x : Out Unit} (h : HangsOnlyBlocked s x) :
    AnswersWhere True s (concludeConstruction x) :=
  answersWhere_closed h (fun _ => rfl) concludeConstruction_completes

/-- What needs an attached transport is refused where there is none. -/
theorem answersWhere_displayOperation {i : Instr} {body : Link → State → Out Unit}
    (h : ∀ link s, HangsOnlyBlocked s (body link s)) (s : State) :
    AnswersWhere (OfferedOnDisplay s) s (displayOperation i body s) := by
  unfold displayOperation
  refine .congr (answersWhere_unless (answersWhere_unless (p := linkOf s.transport ≠ none) ?_))
    (by simp [OfferedOnDisplay])
  cases linkOf s.transport with
  | none => exact (answersWhere_refused _).congr (by simp)
  | some link => exact (answersWhere_conclude ((h link (accept i s)).of_same rfl rfl rfl)).congr (by simp)

theorem answersWhere_hostOperation {i : Instr} {offered : Option Transport → Bool} {run : State → Stepped}
    (h : AnswersWhere p s (run (accept i s))) :
    AnswersWhere (s.op = none ∧ s.mode = .ready ∧ offered s.transport = true ∧ p) s (hostOperation i offered run s) :=
  (answersWhere_unless (answersWhere_unless (answersWhere_when h))).congr (by simp)

theorem answersWhere_construction {i : Instr} {body : State → Out Unit} (h : ∀ s, HangsOnlyBlocked s (body s))
    (s : State) : AnswersWhere (s.op = none ∧ s.mode = .unconstructed) s (construction i body s) :=
  (answersWhere_unless (answersWhere_unless
    (answersWhere_concludeConstruction ((h (startConstruction i s)).of_same rfl rfl rfl)))).congr (by simp)

theorem answersWhere_inlineSteps {offered : Option Transport → Bool} {body : State → Out Unit}
    (h : HangsOnlyBlocked s (body s)) :
    AnswersWhere (InsideOperation s ∧ offered s.transport = true) s (inlineSteps offered body s) :=
  (answersWhere_unless (answersWhere_unless (answersWhere_when (answersWhere_concludeInline h)))).congr
    (by simp [InsideOperation, and_assoc, or_iff_not_imp_left])

theorem answersWhere_constructionSteps {offered : Option Transport → Bool} {body : State → Out Unit}
    (h : HangsOnlyBlocked s (body s)) :
    AnswersWhere (s.op ≠ none ∧ s.mode = .constructing ∧ offered s.transport = true) s
      (constructionSteps offered body s) :=
  (answersWhere_unless (answersWhere_unless (answersWhere_when (answersWhere_concludeInline h)))).congr (by simp)

/-- A part of a construction runs inside one; presented alone it answers the failure of its own check, or is refused. -/
theorem answersWhere_constructionPart {i : Instr} {fits c : Bool} {f : Failure} {run : State → Stepped}
    (h : AnswersWhere p s (run s)) :
    AnswersWhere ((s.op = none ∧ s.mode = .unconstructed ∧ c = false) ∨
      (s.op ≠ none ∧ s.mode = .constructing ∧ fits = true ∧ p)) s (constructionPart i fits (require c f) run s) := by
  unfold constructionPart
  cases op : s.op with
  | some j =>
    exact (answersWhere_when (c := s.mode = .constructing ∧ fits = true) h).congr (by simp [and_assoc])
  | none =>
    cases c with
    | true => exact (answersWhere_unless (c := s.mode ≠ .unconstructed) (answersWhere_refused _)).congr (by simp)
    | false => exact (answersWhere_unless (c := s.mode ≠ .unconstructed) (answersWhere_next _)).congr (by simp)

/-! ### Where each row is offered -/

theorem onGpio_iff {t : Option Transport} : onGpio t = true ↔ t = some .gpio4 ∨ t = some .gpio8 := by
  rcases t with _ | _ | _ | _ | _ <;> simp [onGpio]

theorem holdsBus_iff {t : Option Transport} : holdsBus t = true ↔ t = some .i2c ∨ t = some .expanderOnly := by
  rcases t with _ | _ | _ | _ | _ <;> simp [holdsBus]

/-- R253: a print is well formed exactly where each code point is a byte. -/
theorem formError_print_iff {codePoints : List Nat} :
    (Instr.print codePoints).formError = none ↔ ∀ c ∈ codePoints, c ≤ 255 := by
  simp [Instr.formError]

/-- The display rows are offered on a display, well formed. -/
theorem offered_displayRow {i : Instr} (h : displayRow i = true) (s : State) :
    Offered i s ↔ OfferedOnDisplay s ∧ i.formError = none := by
  cases i with
  | print codePoints => exact and_congr_right' formError_print_iff.symm
  | lcdClear | lcdReturnHome _ | lcdEntryModeSet _ _ | lcdDisplayControl _ _ _ | lcdCursorDisplayShift _ _ _
  | lcdFunctionSet _ _ _ _ | lcdCgramSelect _ | lcdDdramSelect _ | lcdData _ | clearDisplay | returnHome | displayOn
  | displayOff | cursorShow | cursorHide | cursorBlinkOn | cursorBlinkOff | displayShiftLeft | displayShiftRight
  | cursorShiftLeft | cursorShiftRight | setCursor _ _ | defineCustomGlyph _ _ => exact (and_iff_left rfl).symm
  | _ => cases h

/-- Only a print can be an ill-formed display row, and that is refused. -/
theorem exec_displayRow_illFormed {i : Instr} (h : displayRow i = true) (bad : i.formError ≠ none) (s : State) :
    ∃ r, exec i s = .refused r := by
  cases i with
  | print codePoints =>
    obtain ⟨e, he⟩ := Option.ne_none_iff_exists'.mp bad
    exact ⟨.illFormed e, by simp [exec, execPrint, he]⟩
  | vectorGpio8 _ _ _ _ | vectorGpio4 _ _ _ _ => cases h
  | _ => exact absurd rfl bad

theorem exec_displayRow_answersWhere {i : Instr} (h : displayRow i = true) (s : State) :
    AnswersWhere (Offered i s) s (exec i s) := by
  by_cases form : i.formError = none
  · obtain ⟨bad, -⟩ | ⟨body, run, runs⟩ := exec_displayRow h s
    · exact absurd form bad
    · rw [run]
      exact (answersWhere_displayOperation (hangsOnlyBlocked_of_bodyRuns runs) s).congr
        ((offered_displayRow h s).trans (and_iff_left form)).symm
  · obtain ⟨r, refused⟩ := exec_displayRow_illFormed h form s
    rw [refused]
    exact (answersWhere_refused r).congr (by simp [offered_displayRow h, form])

theorem execInitialise_answersWhere (s : State) : AnswersWhere (Offered .initialise s) s (execInitialise s) := by
  unfold execInitialise
  refine (answersWhere_unless (answersWhere_unless
    (p := linkOf s.transport ≠ none ∧ hasGeometry s = true) ?_)).congr (by simp [Offered, hasGeometry])
  cases linkOf s.transport with
  | none => exact (answersWhere_refused _).congr (by simp)
  | some link =>
    cases hasGeometry s with
    | false => exact (answersWhere_refused _).congr (by simp)
    | true =>
      exact (answersWhere_concludeInline (hangsOnlyBlocked_of_alongDcb (along_runInitialise link s))).congr (by simp)

theorem execDisplayControllerConstruct_answersWhere (rows columns : Int) (operands : ControllerOperands) (s : State) :
    AnswersWhere (Offered (.displayControllerConstruct rows columns operands) s) s
      (execDisplayControllerConstruct rows columns operands s) := by
  obtain ⟨font, transport⟩ := operands
  unfold execDisplayControllerConstruct
  cases transport with
  | gpio pinList => exact answersWhere_construction (hangsOnlyBlocked_composeGpio pinList rows columns font) s
  | i2c bus address => exact answersWhere_construction (hangsOnlyBlocked_composeI2c address rows columns font) s
  | attached =>
    refine (answersWhere_constructionPart (p := linkOf s.transport ≠ none) ?_).congr
      (by simp [Offered, hasGeometry, and_comm])
    cases linkOf s.transport with
    | none => exact (answersWhere_refused _).congr (by simp)
    | some link =>
      exact (answersWhere_concludeConstruction
        (hangsOnlyBlocked_constructController link rows columns font s)).congr (by simp)

theorem offersExpander_iff (t : Option Transport) : offersExpander t = true ↔ t = some .expanderOnly := beq_iff_eq

theorem onI2c_iff (t : Option Transport) : onI2c t = true ↔ t = some .i2c := beq_iff_eq

/-- The host operations of one transport. -/
theorem answersWhere_hostOperation_readyIn {i : Instr} {offered : Option Transport → Bool} {t : Transport}
    {run : State → Stepped} (h : AnswersWhere p s (run (accept i s)))
    (only : ∀ t', offered t' = true ↔ t' = some t) : AnswersWhere (ReadyIn t s ∧ p) s (hostOperation i offered run s) :=
  (answersWhere_hostOperation h).congr (by simp only [ReadyIn, only]; tauto)

/-- The host operations of the GPIO transports. -/
theorem answersWhere_hostOperation_onGpio {i : Instr} {run : State → Stepped}
    (h : AnswersWhere p s (run (accept i s))) :
    AnswersWhere ((ReadyIn .gpio4 s ∨ ReadyIn .gpio8 s) ∧ p) s (hostOperation i onGpio run s) :=
  (answersWhere_hostOperation h).congr (by simp only [ReadyIn, onGpio_iff]; tauto)

theorem answersWhere_hostOperation_conclude {i : Instr} {offered : Option Transport → Bool} {t : Transport}
    {body : State → Out Unit} (h : ∀ s, HangsOnlyBlocked s (body s)) (only : ∀ t', offered t' = true ↔ t' = some t)
    (s : State) : AnswersWhere (ReadyIn t s) s (hostOperation i offered (fun s => conclude (body s)) s) :=
  (answersWhere_hostOperation_readyIn (answersWhere_conclude ((h (accept i s)).of_same rfl rfl rfl)) only).congr
    (and_iff_left trivial)

theorem execSetPinMode_answersWhere (pin : Int) (mode : PinMode) (s : State) :
    AnswersWhere (Offered (.setPinMode pin mode) s) s (execSetPinMode pin mode s) := by
  refine answersWhere_hostOperation_readyIn ?_ offersExpander_iff
  have run : ∀ input, HangsOnlyBlocked s (changePinMode pin input (accept (.setPinMode pin mode) s)) := fun input =>
    (hangsOnlyBlocked_changePinMode pin input _).of_same rfl rfl rfl
  cases mode with
  | input => exact (answersWhere_conclude (run true)).congr (by simp)
  | output => exact (answersWhere_conclude (run false)).congr (by simp)
  | inputPullup => exact (answersWhere_refused _).congr (by simp)
  | outputPullup => exact (answersWhere_refused _).congr (by simp)

theorem execRelease_answersWhere (s : State) : AnswersWhere (Offered .release s) s (execRelease s) :=
  (answersWhere_unless (answersWhere_unless (answersWhere_when (answersWhere_conclude
    ((hangsOnlyBlocked_of_returning (returning_releaseBus (accept .release s))).of_same rfl rfl rfl))))).congr
    (by simp [Offered, holdsBus_iff, or_iff_not_imp_left])

theorem execVectorGpio8_answersWhere (rs rw e : Level) (d : Byte) (s : State) :
    AnswersWhere (Offered (.vectorGpio8 rs rw e d) s) s (execVectorGpio8 rs rw e d s) := by
  unfold execVectorGpio8
  cases rw with
  | true => exact (answersWhere_refused _).congr (by simp [Offered])
  | false => exact .congr (answersWhere_inlineSteps (hangsOnlyBlocked_ok s _ ())) (by simp [Offered])

theorem execVectorGpio4_answersWhere (rs rw e : Level) (n : Nibble) (s : State) :
    AnswersWhere (Offered (.vectorGpio4 rs rw e n) s) s (execVectorGpio4 rs rw e n s) := by
  unfold execVectorGpio4
  cases rw with
  | true => exact (answersWhere_refused _).congr (by simp [Offered])
  | false => exact .congr (answersWhere_inlineSteps (hangsOnlyBlocked_ok s _ ())) (by simp [Offered])

/-- R101: which frames a bus configuration carries. -/
theorem carriesFrame_iff {t : Option Transport} {unfit : Bool} :
    (holdsBus t && !(t == some .i2c && unfit)) = true ↔ t = some .expanderOnly ∨ (t = some .i2c ∧ unfit = false) := by
  rcases t with _ | _ | _ | _ | _ <;> simp [holdsBus]

theorem execGpioSendInstruction_answersWhere (b : Byte) (rs : Bool) (s : State) :
    AnswersWhere (Offered (.gpioSendInstruction b rs) s) s (execGpioSendInstruction b rs s) :=
  .congr (answersWhere_hostOperation_onGpio (answersWhere_conclude
    ((hangsOnlyBlocked_of_along (along_gpioSend b rs (accept (.gpioSendInstruction b rs) s))).of_same rfl rfl rfl)))
    (and_iff_left trivial)

theorem execGpioBacklight_answersWhere (v : Level) (s : State) :
    AnswersWhere (Offered (.gpioBacklight v) s) s (execGpioBacklight v s) :=
  answersWhere_hostOperation_onGpio (.congr (answersWhere_when (answersWhere_next _)) (and_iff_left trivial))

theorem execReadPin_answersWhere (pin : Int) (s : State) :
    AnswersWhere (Offered (.readPin pin) s) s (execReadPin pin s) :=
  .congr (answersWhere_hostOperation_readyIn (answersWhere_concludeValue
    ((hangsOnlyBlocked_samplePin pin (accept (.readPin pin) s)).of_same rfl rfl rfl)) offersExpander_iff)
    (and_iff_left trivial)

theorem execPortExpanderConstruct_answersWhere (bus : BusHandle) (address : Int) (s : State) :
    AnswersWhere (Offered (.portExpanderConstruct bus address) s) s (execPortExpanderConstruct bus address s) :=
  answersWhere_construction (body := fun s => (attachExpander address s).andThen fun s =>
      .ok () { s with transport := some .expanderOnly })
    (fun s => hangsOnlyBlocked_andThen (hangsOnlyBlocked_attachExpander address s) fun _ _ => nofun) s

/-- R306 and R346 over every instruction. -/
theorem exec_answersWhere (i : Instr) (s : State) : AnswersWhere (Offered i s) s (exec i s) := by
  unfold exec
  cases i with
  | frameI2c n bl e rw rs =>
    exact .congr (answersWhere_inlineSteps (hangsOnlyBlocked_writeLevels _ s)) (and_congr_right' carriesFrame_iff)
  | frameI2cConfig c =>
    exact .congr (answersWhere_inlineSteps (hangsOnlyBlocked_writeDirections c s))
      (and_congr_right' (carriesFrame_iff.trans (by simp)))
  | vectorGpio8 rs rw e d => exact execVectorGpio8_answersWhere rs rw e d s
  | vectorGpio4 rs rw e n => exact execVectorGpio4_answersWhere rs rw e n s
  | gpioSendInstruction b rs => exact execGpioSendInstruction_answersWhere b rs s
  | gpioSendNibble n rs =>
    exact .congr (answersWhere_constructionSteps (hangsOnlyBlocked_of_along (along_gpioSendSingle n rs s)))
      (by simp [Offered, InsideConstruction])
  | gpioBacklight v => exact execGpioBacklight_answersWhere v s
  | i2cSendInstruction b rs =>
    exact answersWhere_hostOperation_conclude (fun s => hangsOnlyBlocked_of_along (along_i2cSend b rs s)) onI2c_iff s
  | i2cSendNibble n rs =>
    exact .congr (answersWhere_constructionSteps (hangsOnlyBlocked_of_along (along_sendNibble .i2c n rs s)))
      (by simp [Offered, InsideConstruction, onI2c_iff])
  | i2cBacklight v => exact answersWhere_hostOperation_conclude (hangsOnlyBlocked_changePin 3 v) onI2c_iff s
  | setPinMode pin mode => exact execSetPinMode_answersWhere pin mode s
  | writePin pin v => exact answersWhere_hostOperation_conclude (hangsOnlyBlocked_changePin pin v) offersExpander_iff s
  | readPin pin => exact execReadPin_answersWhere pin s
  | release => exact execRelease_answersWhere s
  | initialise => exact execInitialise_answersWhere s
  | displayControllerConstruct rows columns operands =>
    exact execDisplayControllerConstruct_answersWhere rows columns operands s
  | constructOverGpio pinList rows columns font =>
    exact answersWhere_construction (hangsOnlyBlocked_composeGpio pinList rows columns font) s
  | gpioTransportConstruct pinList =>
    exact .congr (answersWhere_constructionPart (run := fun s => concludeInline (attachGpio pinList s))
      (answersWhere_concludeInline (hangsOnlyBlocked_attachGpio pinList s))) (by simp [Offered, legalPinCount])
  | i2cTransportConstruct bus address rows columns font =>
    exact answersWhere_construction (hangsOnlyBlocked_composeI2c address rows columns font) s
  | portExpanderConstruct bus address => exact execPortExpanderConstruct_answersWhere bus address s
  | _ => exact exec_displayRow_answersWhere rfl s

/-- Settles O48: what blocks an offered instruction is an answer that never comes or an event that never returns, and
the two premises exclude both. -/
theorem completesExactlyWhereOffered : Obligations.CompletesExactlyWhereOffered := by
  intro i s
  obtain ⟨answers, refused⟩ := exec_answersWhere i s
  refine ⟨fun bus returns offered => (answers offered).resolve_right ?_, refused⟩
  rintro ⟨r, -, blocked⟩
  cases r with
  | busNeverAnswers => exact blocked bus
  | eventNeverReturns => exact blocked returns

end Sys2Proof.Proofs
end

section
/-!
PROOFS. 70_reset_and_hazards.md R346: at which scan, write or read each operation over the bus hangs when that event is
never answered, and the obligation that such events are what faults.
-/

namespace Sys2Proof.Proofs

open Sys2Proof.Machine Sys2Proof.Safety Sys2Proof.Laws

/-! ### Steps that come to an event that is never answered -/

theorem attachExpander_hung {address : Int} {s : State} {scans : List (Reply (List BusAddr))}
    (legal : legalAddress s.cfg.addrPolicy address = true) (never : s.env.scans = .never :: scans) :
    attachExpander address s = .stuck .busNeverAnswers := by
  simp [attachExpander, legal, busScan_cons never]

theorem composeI2c_scan_hung {address rows columns : Int} (font : Option Font) {s : State}
    {scans : List (Reply (List BusAddr))} (geometry : legalGeometry rows columns = true)
    (legal : legalAddress s.cfg.addrPolicy address = true) (never : s.env.scans = .never :: scans) :
    composeI2c address rows columns font s = .stuck .busNeverAnswers := by
  rw [composeI2c_eq address font s geometry, attachExpander_hung legal never, andThen_stuck]

/-- Before the first bad answer, the writes are answered ok. -/
theorem nextWritesOk_of_firstBad {n k : Nat} {r : Reply Unit} {rest : List (Reply Unit)} {s : State}
    (h : FirstBad k r rest s) (before : n ≤ k) :
    NextWritesOk n (List.replicate (k - n) (.answer ()) ++ r :: rest) s := by
  rw [NextWritesOk, ← List.append_assoc, ← List.replicate_add, Nat.add_sub_cancel' before]
  exact h

theorem nibbleCycle_hung {n : Nibble} {rs : Level} {s : State} {k : Nat} {rest : List (Reply Unit)}
    (returns : EventsReturn s) (may : MayWrite s) (hk : k < cycleWrites s.cfg.granularity)
    (never : FirstBad k .never rest s) : nibbleCycle n rs s = .stuck .busNeverAnswers := by
  rw [nibbleCycle_eq n rs s may]
  exact cycle_never (s := latchNibble n s) returns rfl hk never

/-- R192: the write lies in the first cycle, or in the second once the first has ended ok. -/
theorem i2cSend_hung {b : Byte} {rs : Level} {s : State} {k : Nat} {rest : List (Reply Unit)}
    (returns : EventsReturn s) (may : MayWrite s) (hk : k < 2 * cycleWrites s.cfg.granularity)
    (never : FirstBad k .never rest s) : i2cSend b rs s = .stuck .busNeverAnswers := by
  unfold i2cSend
  by_cases first : k < cycleWrites s.cfg.granularity
  · rw [nibbleCycle_hung (s := latchByte b rs s) returns may first never, andThen_stuck]
  · rw [cycle_ok (s := latchByte b rs s) returns may (nextWritesOk_of_firstBad never (not_lt.mp first)), andThen_ok]
    exact nibbleCycle_hung (k := k - cycleWrites s.cfg.granularity) (eventsReturn_later returns rfl (by simp)) may
      (show k - cycleWrites s.cfg.granularity < cycleWrites s.cfg.granularity by omega) rfl

theorem writeLevels_hung {s : State} {rest : List (Reply Unit)} (never : s.env.writes = .never :: rest) (f : Byte) :
    writeLevels f s = .stuck .busNeverAnswers := busWrite_never (s := { s with ioWrite := f }) never

theorem changePin_hung {pin : Int} (legal : legalPin pin = true) {s : State}
    (allowed : s.cfg.pinModePolicy = .permissive ∨ s.ioConfig.getLsbD pin.toNat = false) {rest : List (Reply Unit)}
    (never : s.env.writes = .never :: rest) (v : Level) : changePin pin v s = .stuck .busNeverAnswers := by
  rw [changePin_allowed legal allowed, writeLevels_hung never]

theorem changePinMode_hung {pin : Int} (legal : legalPin pin = true) {s : State} {rest : List (Reply Unit)}
    (never : s.env.writes = .never :: rest) (input : Bool) :
    changePinMode pin input s = .stuck .busNeverAnswers := by
  rw [changePinMode_eq legal]
  exact busWrite_never never

theorem samplePin_hung {pin : Int} (legal : legalPin pin = true) {s : State}
    (allowed : s.cfg.pinModePolicy = .permissive ∨ s.ioConfig.getLsbD pin.toNat = true) {rest : List (Reply Byte)}
    (never : s.env.reads = .never :: rest) : samplePin pin s = .stuck .busNeverAnswers := by
  have check : (decide (s.cfg.pinModePolicy = .permissive) || s.ioConfig.getLsbD pin.toNat) = true := by
    simpa using allowed
  simp [samplePin, legal, check, busRead_cons never]

/-! ### Operations that come to one -/

theorem legalPin_of_range {pin : Int} (low : 0 ≤ pin) (high : pin ≤ 7) : legalPin pin = true :=
  decide_eq_true ⟨low, high⟩

theorem exec_portExpanderConstruct_hung {s : State} {address : Int} {scans : List (Reply (List BusAddr))}
    (fresh : s.mode = .unconstructed) (atRest : s.op = none) (legal : legalAddress s.cfg.addrPolicy address = true)
    (never : s.env.scans = .never :: scans) (bus : BusHandle) :
    exec (.portExpanderConstruct bus address) s = .fault .busNeverAnswers := by
  change execPortExpanderConstruct bus address s = _
  rw [execPortExpanderConstruct, construction_start atRest fresh,
    attachExpander_hung (s := startConstruction _ s) legal never]
  rfl

/-- A construction over I2C ends as its composite's steps do. -/
theorem exec_i2cTransportConstruct_hung {s : State} {bus : BusHandle} {address rows columns : Int} {font : Option Font}
    (fresh : s.mode = .unconstructed) (atRest : s.op = none)
    (hung : composeI2c address rows columns font
      (startConstruction (.i2cTransportConstruct bus address rows columns font) s) = .stuck .busNeverAnswers) :
    exec (.i2cTransportConstruct bus address rows columns font) s = .fault .busNeverAnswers :=
  (construction_start atRest fresh).trans (congrArg concludeConstruction hung)

/-- A host operation of one configuration ends as its steps do. -/
theorem hostOperation_hung {i : Instr} {offered : Option Transport → Bool} {body : State → Out Unit} {t : Transport}
    {s : State} (ready : ReadyIn t s) (offers : offered (some t) = true)
    (hung : body (accept i s) = .stuck .busNeverAnswers) :
    hostOperation i offered (fun s => conclude (body s)) s = .fault .busNeverAnswers := by
  obtain ⟨mode, atRest, transport⟩ := ready
  rw [hostOperation_ready atRest mode (by rw [transport]; exact offers), hung]
  rfl

theorem exec_i2cSendInstruction_hung {s : State} {k : Nat} {rest : List (Reply Unit)} (returns : EventsReturn s)
    (never : FirstBad k .never rest s) (ready : ReadyOnI2c s) (hk : k < 2 * cycleWrites s.cfg.granularity) (b : Byte)
    (rs : Level) : exec (.i2cSendInstruction b rs) s = .fault .busNeverAnswers :=
  hostOperation_hung ready.1 rfl (i2cSend_hung (s := accept _ s) returns (.inr ready.2) hk never)

theorem exec_i2cBacklight_hung {s : State} {rest : List (Reply Unit)} (never : s.env.writes = .never :: rest)
    (ready : ReadyOnI2c s) (v : Level) : exec (.i2cBacklight v) s = .fault .busNeverAnswers :=
  hostOperation_hung ready.1 rfl
    (changePin_hung (s := accept _ s) (by decide) (.inr (by simp [accept, ready.2])) never v)

theorem exec_i2cSendNibble_hung {s : State} {k : Nat} {rest : List (Reply Unit)} (returns : EventsReturn s)
    (never : FirstBad k .never rest s) (inside : InsideConstruction .i2c s) (outputs : s.ioConfig = 0x00#8)
    (hk : k < cycleWrites s.cfg.granularity) (n : Nibble) (rs : Level) :
    exec (.i2cSendNibble n rs) s = .fault .busNeverAnswers := by
  obtain ⟨running, constructing, transport⟩ := inside
  refine (constructionSteps_inside running constructing (by rw [transport]; rfl)).trans ?_
  rw [i2cSendSingle, nibbleCycle_hung (s := latchSingle n rs s) returns (.inr outputs) hk never]
  rfl

/-- R222: `initialise` inside a construction is its sequence in line. -/
theorem exec_initialise_inside {s : State} {t : Transport} {link : Link} (inside : InsideConstruction t s)
    (carries : linkOf (some t) = some link) (geometry : legalGeometry s.rows s.cols = true) :
    exec .initialise s = concludeInline (runInitialise link s) := by
  obtain ⟨running, constructing, transport⟩ := inside
  simp [exec, execInitialise, running, constructing, transport, carries, hasGeometry, geometry]

theorem exec_initialise_hung {s : State} {k : Nat} {rest : List (Reply Unit)} (returns : EventsReturn s)
    (never : FirstBad k .never rest s) (inside : InsideConstruction .i2c s) (outputs : s.ioConfig = 0x00#8)
    (width : s.width = 4) (geometry : legalGeometry s.rows s.cols = true)
    (hk : k < 11 * cycleWrites s.cfg.granularity) : exec .initialise s = .fault .busNeverAnswers := by
  rw [exec_initialise_inside inside rfl geometry, runInitialise_hung returns width (.inr outputs) hk never]
  rfl

theorem exec_setPinMode_hung {s : State} {rest : List (Reply Unit)} (never : s.env.writes = .never :: rest)
    (ready : ReadyIn .expanderOnly s) {pin : Int} (legal : legalPin pin = true) (input : Bool) :
    exec (.setPinMode pin (if input then .input else .output)) s = .fault .busNeverAnswers := by
  rw [exec_setPinMode_ready ready, changePinMode_hung (s := accept _ s) legal never]
  rfl

theorem exec_writePin_hung {s : State} {rest : List (Reply Unit)} (never : s.env.writes = .never :: rest)
    (ready : ReadyIn .expanderOnly s) {pin : Int} (legal : legalPin pin = true)
    (allowed : s.cfg.pinModePolicy = .permissive ∨ s.ioConfig.getLsbD pin.toNat = false) (v : Level) :
    exec (.writePin pin v) s = .fault .busNeverAnswers := by
  rw [exec_writePin_ready ready, changePin_hung (s := accept _ s) legal allowed never]
  rfl

theorem exec_readPin_hung {s : State} {rest : List (Reply Byte)} (never : s.env.reads = .never :: rest)
    (ready : ReadyIn .expanderOnly s) {pin : Int} (legal : legalPin pin = true)
    (allowed : s.cfg.pinModePolicy = .permissive ∨ s.ioConfig.getLsbD pin.toNat = true) :
    exec (.readPin pin) s = .fault .busNeverAnswers := by
  rw [exec_readPin_ready ready, samplePin_hung (s := accept _ s) legal allowed never]
  rfl

theorem exec_frameI2c_hung {s : State} {rest : List (Reply Unit)} (never : s.env.writes = .never :: rest)
    (inside : InsideOperation s) (bus : s.transport = some .expanderOnly ∨ s.transport = some .i2c) (n : Nibble)
    (bl e rs : Level) : exec (.frameI2c n bl e false rs) s = .fault .busNeverAnswers := by
  change execFrameI2c n bl e false rs s = _
  rw [execFrameI2c, inlineSteps_inside inside (carriesFrame_iff.mpr (bus.imp_right (⟨·, rfl⟩))),
    writeLevels_hung never]
  rfl

theorem exec_frameI2cConfig_hung {s : State} {rest : List (Reply Unit)} (never : s.env.writes = .never :: rest)
    (inside : InsideOperation s) {c : Byte}
    (bus : s.transport = some .expanderOnly ∨ (s.transport = some .i2c ∧ c = 0x00#8)) :
    exec (.frameI2cConfig c) s = .fault .busNeverAnswers := by
  have carried := carriesFrame_iff.mpr (bus.imp_right (And.imp_right fun zero => bne_eq_false_iff_eq.mpr zero))
  change execFrameI2cConfig c s = _
  rw [execFrameI2cConfig, inlineSteps_inside inside carried, busWrite_never (s := { s with ioConfig := c }) never]
  rfl

/-- R346, U25: nothing but what blocks the state faults. -/
theorem blocked_of_exec_fault {i : Instr} {s : State} {r : Fault} (h : exec i s = .fault r) : Blocked s r := by
  obtain ⟨answers, refused⟩ := exec_answersWhere i s
  by_cases offered : Offered i s
  · obtain ⟨t, next⟩ | ⟨q, fault, blocked⟩ := answers offered
    · cases h.symm.trans next
    · cases h.symm.trans fault
      exact blocked
  · obtain ⟨q, refusal⟩ := refused offered
    cases h.symm.trans refusal

/-- Settles O58: a fault is of what blocks the state, and each clause's operation comes to the event never answered. -/
theorem eventsThatNeverReturnAreTheOnlyFaults : Obligations.EventsThatNeverReturnAreTheOnlyFaults := by
  intro s
  refine ⟨fun i r fault => ?_, fun bus address rows columns font fresh atRest legal => ⟨?_, ?_⟩, ?_, ?_, ?_⟩
  · have blocked := blocked_of_exec_fault fault
    cases r with
    | busNeverAnswers => exact .inl ⟨rfl, blocked⟩
    | eventNeverReturns => exact .inr ⟨rfl, blocked⟩
  · exact fun scans never => ⟨exec_portExpanderConstruct_hung fresh atRest legal never bus, fun geometry =>
      exec_i2cTransportConstruct_hung fresh atRest
        (composeI2c_scan_hung font (s := startConstruction _ s) geometry legal never)⟩
  · exact fun found scans k rest geometry scan present returns hk never =>
      exec_i2cTransportConstruct_hung fresh atRest
        (composeI2c_hung font (s := startConstruction _ s) geometry legal scan present returns hk never)
  · exact fun k rest returns never => ⟨fun b rs ready hk => exec_i2cSendInstruction_hung returns never ready hk b rs,
      fun n rs inside outputs hk => exec_i2cSendNibble_hung returns never inside outputs hk n rs,
      fun inside outputs width geometry hk => exec_initialise_hung returns never inside outputs width geometry hk⟩
  · refine fun rest never => ⟨fun v ready => exec_i2cBacklight_hung never ready v, fun pin v ready low high => ?_,
      fun n bl e rs c inside bus => ?_⟩
    · have legal := legalPin_of_range low high
      exact ⟨exec_setPinMode_hung never ready legal v, fun allowed => exec_writePin_hung never ready legal allowed v⟩
    · exact ⟨exec_frameI2c_hung never inside bus n bl e rs, fun fits => exec_frameI2cConfig_hung never inside <|
        bus.elim .inl fun i2c => fits.imp_right fun zero => ⟨i2c, zero⟩⟩
  · exact fun pin rest ready low high allowed never =>
      exec_readPin_hung never ready (legalPin_of_range low high) allowed

end Sys2Proof.Proofs
end

section
/-!
PROOFS. 30_encoding.md sections 2 to 4 and 8: what each row's presentation decodes to, what each presentation that
decodes encodes back to, and the obligations that the two directions agree.
-/

namespace Sys2Proof.Proofs

open Sys2Proof.Machine Sys2Proof.Safety Sys2Proof.Laws

/-! ### From the instruction -/

/-- R114: a host operation comes back where its operands are read as they were written. -/
theorem decode_encode_of_readOperands {i : Instr} {name : Nat} {operands : List Int}
    (presented : encode i = .term name operands) (row : 13 ≤ name ∧ name ≤ 43)
    (read : readOperands name operands = some i) : decode (encode i) = .ok i := by
  rw [presented, decode, decodeTerm, if_pos row, read]

theorem operandList_nats (l : List Nat) : operandList natOperand (l.map Int.ofNat) = some l :=
  operandList_value natOperand_value l

theorem operandList_bytes (l : List Byte) : operandList byteOperand (l.map byteValue) = some l :=
  operandList_value byteOperand_value l

/-- R91: the eight command classes. Each class's opcode is its highest set bit, and its fields stand below it. -/
theorem decode_encode_command :
    (∀ x, decode (encode (.lcdReturnHome x)) = .ok (.lcdReturnHome x)) ∧
    (∀ increment shift, decode (encode (.lcdEntryModeSet increment shift)) = .ok (.lcdEntryModeSet increment shift)) ∧
    (∀ d c b, decode (encode (.lcdDisplayControl d c b)) = .ok (.lcdDisplayControl d c b)) ∧
    (∀ s r x, decode (encode (.lcdCursorDisplayShift s r x)) = .ok (.lcdCursorDisplayShift s r x)) ∧
    (∀ w l f x, decode (encode (.lcdFunctionSet w l f x)) = .ok (.lcdFunctionSet w l f x)) ∧
    (∀ a, decode (encode (.lcdCgramSelect a)) = .ok (.lcdCgramSelect a)) ∧
    (∀ a, decode (encode (.lcdDdramSelect a)) = .ok (.lcdDdramSelect a)) := by
  refine ⟨?_, ?_, ?_, ?_, ?_, ?_, ?_⟩ <;> decide

/-- R101. -/
theorem decode_encode_frameI2c : ∀ (n : Nibble) (bl e rw rs : Level),
    decode (encode (.frameI2c n bl e rw rs)) = .ok (.frameI2c n bl e rw rs) := by
  decide

/-- R102. -/
theorem decode_encode_vectorGpio8 (rs rw e : Level) (d : Byte) :
    decode (encode (.vectorGpio8 rs rw e d)) = .ok (.vectorGpio8 rs rw e d) :=
  congrArg (fun d => (Except.ok (Instr.vectorGpio8 rs rw e d) : Except DecodeError Instr)) (byteOf_bits d)

/-- R103. -/
theorem decode_encode_vectorGpio4 (rs rw e : Level) (n : Nibble) :
    decode (encode (.vectorGpio4 rs rw e n)) = .ok (.vectorGpio4 rs rw e n) :=
  congrArg (fun n => (Except.ok (Instr.vectorGpio4 rs rw e n) : Except DecodeError Instr)) (nibbleOf_bits n)

/-- Settles O5: a format's fields are read from the bits they were written to, an operation's operands from the values
they were written as. -/
theorem encodedInstructionDecodesBack : Obligations.EncodedInstructionDecodesBack := by
  intro i _
  obtain ⟨home, entry, control, shift, function, cgram, ddram⟩ := decode_encode_command
  cases i with
  | lcdReturnHome x => exact home x
  | lcdEntryModeSet increment shift => exact entry increment shift
  | lcdDisplayControl d c b => exact control d c b
  | lcdCursorDisplayShift s r x => exact shift s r x
  | lcdFunctionSet w l f x => exact function w l f x
  | lcdCgramSelect a => exact cgram a
  | lcdDdramSelect a => exact ddram a
  | frameI2c n bl e rw rs => exact decode_encode_frameI2c n bl e rw rs
  | vectorGpio8 rs rw e d => exact decode_encode_vectorGpio8 rs rw e d
  | vectorGpio4 rs rw e n => exact decode_encode_vectorGpio4 rs rw e n
  | lcdClear | lcdData _ | frameI2cConfig _ | clearDisplay | returnHome | displayOn | displayOff | cursorShow
  | cursorHide | cursorBlinkOn | cursorBlinkOff | displayShiftLeft | displayShiftRight | cursorShiftLeft
  | cursorShiftRight | setCursor _ _ | initialise | readPin _ | release => rfl
  | print codePoints =>
    exact decode_encode_of_readOperands rfl (by decide)
      (by simp only [readOperands, operandList_nats, Option.map_some])
  | defineCustomGlyph slot bitmap =>
    exact decode_encode_of_readOperands rfl (by decide)
      (by simp only [readOperands, operandList_bytes, Option.map_some])
  | gpioTransportConstruct pinList =>
    exact decode_encode_of_readOperands rfl (by decide)
      (by simp only [readOperands, operandList_nats, Option.map_some])
  | displayControllerConstruct rows columns operands =>
    exact decode_encode_of_readOperands rfl (by decide)
      (by simp only [readOperands, fontOperand_value, transportOperands_values])
  | constructOverGpio pinList rows columns font =>
    exact decode_encode_of_readOperands rfl (by decide)
      (by simp only [readOperands, fontOperand_value, operandList_nats])
  | gpioSendInstruction b rs | i2cSendInstruction b rs =>
    exact decode_encode_of_readOperands rfl (by decide)
      (by simp only [readOperands, byteOperand_value, levelOperand_value])
  | gpioSendNibble n rs | i2cSendNibble n rs =>
    exact decode_encode_of_readOperands rfl (by decide)
      (by simp only [readOperands, nibbleOperand_value, levelOperand_value])
  | gpioBacklight v | i2cBacklight v | writePin _ v =>
    exact decode_encode_of_readOperands rfl (by decide)
      (by simp only [readOperands, levelOperand_value, Option.map_some])
  | i2cTransportConstruct bus address rows columns font =>
    exact decode_encode_of_readOperands rfl (by decide)
      (by simp only [readOperands, Int.ofNat_eq_natCast, natOperand_value, fontOperand_value])
  | portExpanderConstruct bus address =>
    exact decode_encode_of_readOperands rfl (by decide)
      (by simp only [readOperands, Int.ofNat_eq_natCast, natOperand_value, Option.map_some])
  | setPinMode pin mode =>
    exact decode_encode_of_readOperands rfl (by decide)
      (by simp only [readOperands, modeOperand_value, Option.map_some])

/-! ### From the presentation -/

theorem encode_of_decodeCommand {c : Byte} {i : Instr} (h : decodeCommand c = .ok i) : encode i = .lcdByte false c := by
  have all : ∀ c : Byte, (decodeCommand c).toOption.all (fun i => decide (encode i = .lcdByte false c)) = true := by
    decide
  have agrees := all c
  rw [h] at agrees
  exact of_decide_eq_true agrees

theorem encode_decodeLevelFrame (f : Byte) : encode (decodeLevelFrame f) = .levelFrame f := by
  revert f
  decide

/-- The bits of a byte are the levels it was put together from. -/
theorem byteOf_getLsbD : ∀ b0 b1 b2 b3 b4 b5 b6 b7 : Bool,
    let d := byteOf b0 b1 b2 b3 b4 b5 b6 b7
    [d.getLsbD 0, d.getLsbD 1, d.getLsbD 2, d.getLsbD 3, d.getLsbD 4, d.getLsbD 5, d.getLsbD 6, d.getLsbD 7] =
      [b0, b1, b2, b3, b4, b5, b6, b7] := by
  decide

theorem nibbleOf_getLsbD : ∀ b0 b1 b2 b3 : Bool,
    let n := nibbleOf b0 b1 b2 b3
    [n.getLsbD 0, n.getLsbD 1, n.getLsbD 2, n.getLsbD 3] = [b0, b1, b2, b3] := by
  decide

theorem encode_of_decodeVector {levels : List Level} {i : Instr} (h : decodeVector levels = .ok i) :
    encode i = .pinVector levels := by
  revert h
  fun_cases decodeVector levels with
  | case1 rs rw e d0 d1 d2 d3 d4 d5 d6 d7 =>
    rintro ⟨⟩
    exact congrArg (fun data => Presented.pinVector (rs :: rw :: e :: data)) (byteOf_getLsbD d0 d1 d2 d3 d4 d5 d6 d7)
  | case2 rs rw e d4 d5 d6 d7 =>
    rintro ⟨⟩
    exact congrArg (fun data => Presented.pinVector (rs :: rw :: e :: data)) (nibbleOf_getLsbD d4 d5 d6 d7)
  | case3 => nofun

theorem nats_of_operandList {l : List Int} {m : List Nat} (h : operandList natOperand l = some m) :
    m.map Int.ofNat = l := listValue_operand (fun _ _ => natValue_operand) l m h

theorem bytes_of_operandList {l : List Int} {m : List Byte} (h : operandList byteOperand l = some m) :
    m.map byteValue = l := listValue_operand (fun _ _ => byteValue_operand) l m h

/-- R114: what was read from an operation's operands is written as it stood. The cases are the arms of `readOperands`, in
order; those with a `none` read nothing. -/
theorem encode_of_readOperands {name : Nat} {operands : List Int} {i : Instr} (h : readOperands name operands = some i) :
    encode i = .term name operands := by
  revert h
  fun_cases readOperands name operands
  all_goals intro h
  case case14 | case21 =>
    obtain ⟨l, read, rfl⟩ := Option.map_eq_some_iff.mp h
    simp only [encode, nats_of_operandList read]
  case case15 =>
    obtain ⟨l, read, rfl⟩ := Option.map_eq_some_iff.mp h
    simp only [encode, bytes_of_operandList read]
  case case26 | case33 | case36 =>
    obtain ⟨v, read, rfl⟩ := Option.map_eq_some_iff.mp h
    simp only [encode, levelValue_operand read]
  case case34 =>
    obtain ⟨bus, read, rfl⟩ := Option.map_eq_some_iff.mp h
    simp only [encode, natValue_operand read]
  case case35 =>
    obtain ⟨mode, read, rfl⟩ := Option.map_eq_some_iff.mp h
    simp only [encode, modeValue_operand read]
  all_goals cases h
  case case17 transport font => simp only [encode, fontValue_operand font, transportValues_operands transport]
  case case19 pins font => simp only [encode, fontValue_operand font, nats_of_operandList pins]
  case case22 level byte | case29 level byte => simp only [encode, byteValue_operand byte, levelValue_operand level]
  case case24 level nibble | case31 level nibble =>
    simp only [encode, nibbleValue_operand nibble, levelValue_operand level]
  case case27 font bus => simp only [encode, natValue_operand bus, fontValue_operand font]
  all_goals rfl

theorem encode_of_decodeTerm {name : Nat} {operands : List Int} {i : Instr} (h : decodeTerm name operands = .ok i) :
    encode i = .term name operands := by
  unfold decodeTerm at h
  split at h
  case isFalse => cases h
  case isTrue =>
    split at h
    case h_1 read => cases h; exact encode_of_readOperands read
    case h_2 => cases h

/-- Settles O6: each presentation's decoder loses none of its bits and none of its operands. -/
theorem decodedPresentationEncodesBack : Obligations.DecodedPresentationEncodesBack := by
  intro p i h
  cases p with
  | lcdByte rs c =>
    cases rs with
    | false => exact encode_of_decodeCommand h
    | true => cases h; rfl
  | levelFrame f => cases h; exact encode_decodeLevelFrame f
  | configFrame f => cases h; rfl
  | pinVector levels => exact encode_of_decodeVector h
  | term name operands => exact encode_of_decodeTerm h

/-! ### Words of the spec -/

/-- Settles O3: the decoder is evaluated at each word. -/
theorem specWordsDecode : Obligations.SpecWordsDecode := by
  unfold Obligations.SpecWordsDecode
  decide

/-- Settles O4: the masks of a byte pick the class of its highest set bit, for each of the 256 bytes. -/
theorem commandClassByMatchAndMask : Obligations.CommandClassByMatchAndMask := by
  unfold Obligations.CommandClassByMatchAndMask
  decide

end Sys2Proof.Proofs
end

section
/-!
PROOFS. 60_exceptions.md R305 and R306: how a step moves the lifecycle.
-/

namespace Sys2Proof.Proofs

open Sys2Proof.Machine Sys2Proof.Safety Sys2Proof.Laws

/-- R305: where a step starts and where it ends. -/
inductive Lifecycle (i : Instr) (s t : State) : Prop where
  /-- an operation, or a step of one, in `READY` -/
  | inReady (before : s.mode = .ready) (after : t.mode = .ready) (rest : s.op = none → t.op = none ∧ t.phase = 0)
  /-- a step of the construction in progress, which goes on or ends -/
  | inConstruction (before : s.mode = .constructing) (running : s.op ≠ none)
      (after : (t.mode = .constructing ∧ t.op ≠ none) ∨ t.mode = .ready ∨ t.mode = .unconstructed)
  /-- a construction from its start to its end -/
  | constructed (before : s.mode = .unconstructed) (atRest : s.op = none) (rest : t.op = none ∧ t.phase = 0)
      (after : t.mode = .ready ∨ t.mode = .unconstructed)
  /-- `release` -/
  | released (row : i = .release) (before : s.mode = .ready ∨ s.mode = .released)
    (rest : t.op = none ∧ t.phase = 0)
      (after : t.mode = .released)

theorem lifecycle_failed {i : Instr} {s s0 u t : State} {f : Failure} (starts : Starts i s s0)
    (after : t = takeConstructionFailure f u) : Lifecycle i s t := by
  subst after
  rcases starts with ⟨_, mode, op⟩ | ⟨_, mode, op⟩
  · exact .constructed mode op ⟨rfl, rfl⟩ (.inr rfl)
  · exact .inConstruction mode op (.inr (.inr rfl))

theorem lifecycle_displayStep {i : Instr} {s u : State} {r : OpResult} {link : Link} (h : DisplayStep i s u r link) :
    Lifecycle i s (endOperation r u) :=
  .inReady h.ready (h.flow.mode.trans h.ready) fun _ => ⟨rfl, rfl⟩

theorem lifecycle_hostStep {i : Instr} {s t : State} (h : HostStep i s t) : Lifecycle i s t := by
  cases h with
  | gpioSent u r gpio flow outcome =>
    rcases outcome with ⟨op, mode, rfl, rfl⟩ | ⟨op, mode, rfl, rfl⟩
    · exact .inReady mode (flow.mode.trans mode) fun _ => ⟨rfl, rfl⟩
    · exact .inConstruction mode op (.inl ⟨flow.mode.trans mode, by rw [flow.op]; exact op⟩)
  | vectorDriven evs gpio inside after allowed =>
    subst after
    rcases inside with ⟨op, mode | mode⟩
    · exact .inConstruction mode op (.inl ⟨mode, op⟩)
    · exact .inReady mode mode fun rest => absurd rest op
  | backlightPin v row atRest ready gpio after =>
    subst after
    exact .inReady ready ready fun _ => ⟨rfl, rfl⟩
  | i2cSent u r atRest ready i2c flow after outcome rests =>
    subst after
    exact .inReady ready (flow.mode.trans ready) fun _ => ⟨rfl, rfl⟩
  | i2cNibble u running constructing i2c flow after =>
    rcases after with rfl | ⟨f, rfl⟩
    · exact .inConstruction constructing running
        (.inl ⟨flow.mode.trans constructing, by rw [flow.op]; exact running⟩)
    · exact .inConstruction constructing running (.inr (.inr rfl))
  | backlightBit v u r row atRest ready i2c after outcome =>
    subst after
    refine .inReady ready ?_ fun _ => ⟨rfl, rfl⟩
    rcases outcome with ⟨rfl, _⟩ | ⟨⟨same, _⟩, _⟩
    · exact ready
    · rw [same]
      exact ready
  | expander u r evs atRest ready alone after touched bus outcome =>
    subst after
    refine .inReady ready ?_ fun _ => ⟨rfl, rfl⟩
    rw [touched.1]
    exact ready
  | frame u f inside bus touched low after =>
    have mode : u.mode = s.mode := by rw [touched.1]
    have op : u.op = s.op := by rw [touched.1]
    rcases inside with ⟨running, constructing | ready⟩
    · refine .inConstruction constructing running ?_
      rcases after with rfl | ⟨g, rfl⟩
      · exact .inl ⟨mode.trans constructing, by rw [op]; exact running⟩
      · rw [if_pos constructing]
        exact .inr (.inr rfl)
    · refine .inReady ready ?_ fun rest => absurd rest running
      rcases after with rfl | ⟨g, rfl⟩
      · exact mode.trans ready
      · rw [if_neg (by rw [ready]; decide)]
        exact mode.trans ready
  | released row atRest mode bus after =>
    subst after
    exact .released row mode ⟨rfl, rfl⟩ rfl

theorem lifecycle_buildStep {i : Instr} {s t : State} (h : BuildStep i s t) : Lifecycle i s t := by
  cases h with
  | failed s0 u f evs starts grew bus after => exact lifecycle_failed starts after
  | attached constructing running free after =>
    obtain ⟨l, rfl | rfl⟩ := after <;> exact .inConstruction constructing running (.inl ⟨constructing, running⟩)
  | initialised link s1 u constructing running attached geometry flow low after =>
    have mode : u.mode = .constructing := by
      rcases geometry with ⟨rfl, _⟩ | ⟨_, _, _, _, rfl⟩ <;> exact flow.mode.trans constructing
    have op : u.op = s.op := by
      rcases geometry with ⟨rfl, _⟩ | ⟨_, _, _, _, rfl⟩ <;> exact flow.op
    refine .inConstruction constructing running ?_
    rcases after with rfl | rfl
    · exact .inl ⟨mode, by rw [op]; exact running⟩
    · exact .inr (.inl rfl)
  | gpio u l r c f tr w fresh atRest kind geometry low flow after =>
    subst after
    exact .constructed fresh atRest ⟨rfl, rfl⟩ (.inl rfl)
  | i2c u evs a r c fresh atRest geometry legal grew rwLow transport width rows cols lineFlag addr outputs low released
      after =>
    subst after
    exact .constructed fresh atRest ⟨rfl, rfl⟩ (.inl rfl)
  | expander u a fresh atRest bus legal after =>
    subst after
    exact .constructed fresh atRest ⟨rfl, rfl⟩ (.inl rfl)

theorem exec_lifecycle {i : Instr} {s t : State} (h : exec i s = .next t) : Lifecycle i s t := by
  rcases row_cases i with hd | hc | ⟨hd, hc⟩
  · obtain ⟨u, r, link, run, rfl⟩ := exec_display_next hd h
    exact lifecycle_displayStep run
  · exact lifecycle_buildStep (exec_build_next hc h)
  · exact lifecycle_hostStep (exec_host_next hd hc h)

/-- Settles O49: read off the four ways a step moves the lifecycle. -/
theorem lifecycleTransitions : Obligations.LifecycleTransitions := by
  intro i s t h
  cases exec_lifecycle h with
  | inReady before after rest => simp [before, after]; exact fun op => (rest op).1
  | inConstruction before running after =>
    rcases after with ⟨after, _⟩ | after | after <;> simp [before, after, running]
  | constructed before atRest rest after => rcases after with after | after <;> simp [before, after, rest]
  | released row before rest after => rcases before with before | before <;> simp [before, after, rest, row]

/-- No construction row steps in `READY`. -/
theorem constructionRow_of_ready {i : Instr} {s t : State} (h : exec i s = .next t) (ready : s.mode = .ready) :
    constructionRow i = false := by
  cases hc : constructionRow i with
  | false => rfl
  | true =>
    have other : s.mode = .constructing ∨ s.mode = .unconstructed := by
      cases exec_build_next hc h with
      | failed s0 u f evs starts => rcases starts with ⟨_, mode, _⟩ | ⟨_, mode, _⟩ <;> simp [mode]
      | attached constructing => exact .inl constructing
      | initialised link s1 u constructing => exact .inl constructing
      | gpio u l r c f tr w fresh => exact .inr fresh
      | i2c u evs a r c fresh => exact .inr fresh
      | expander u a fresh => exact .inr fresh
    rw [ready] at other
    rcases other with other | other <;> cases other

end Sys2Proof.Proofs
end

section
/-!
PROOFS. What a step past construction does to the state and adds to the trace, said once for every row.
-/

namespace Sys2Proof.Proofs

open Sys2Proof.Machine Sys2Proof.Safety Sys2Proof.Laws

/-- What an event of an operation may be, past construction. -/
def Emitted (i : Instr) (s : State) : Event → Prop
  | .pinSet p v => p = 1 → v = false
  | .blSet v => i = .gpioBacklight v
  | .i2cScan => False
  | .i2cWrite _ b => holdsBus s.transport = true ∧ (s.transport = some .i2c → s.ioWrite[1] = false → b[1] = false)
  | .i2cRead _ => holdsBus s.transport = true
  | .busRelease => holdsBus s.transport = true
  | .wait _ => True

/-- A step past construction from `s` to `t`, with the events it adds. -/
structure Ran (i : Instr) (s t : State) (evs : List Event) : Prop where
  past : s.mode ≠ .unconstructed
  frame : t = { s with
    mode := t.mode, op := t.op, phase := t.phase, dcb := t.dcb, pins := t.pins, bl := t.bl, ioConfig := t.ioConfig
    ioWrite := t.ioWrite, released := t.released, ib := t.ib, rsel := t.rsel, nib := t.nib, env := t.env
    trace := s.trace ++ evs, sent := t.sent, result := t.result }
  /-- R170 -/
  pins : t.pins = pinsAfter s.pins evs
  emitted : ∀ e ∈ evs, Emitted i s e
  /-- R168 -/
  bl : (∀ v, i ≠ .gpioBacklight v) → t.bl = s.bl
  /-- R28 -/
  dcb : writesDcb i = false → t.dcb = s.dcb
  /-- R169 -/
  answers : onGpio s.transport = true → t.env = s.env
  /-- R45 -/
  low : s.op = none → LowPins s → LowPins t
  /-- R45 -/
  outputs : s.transport = some .i2c → s.ioConfig = 0x00#8 → t.ioConfig = 0x00#8
  /-- R199 -/
  readWrite : s.transport = some .i2c → s.ioWrite[1] = false → t.ioWrite[1] = false
  /-- R200 -/
  backlight : s.op = none → s.transport = some .i2c → (∀ v, i ≠ .i2cBacklight v) →
    t.ioWrite[3] = s.ioWrite[3] ∧ ∀ a b, Event.i2cWrite a b ∈ evs → b[3] = s.ioWrite[3]
  /-- R138 -/
  released : (t.released = s.released ∧ t.mode = s.mode) ∨
    (t.released = true ∧ t.mode = .released ∧ holdsBus s.transport = true)
  /-- R298, R299 -/
  failure : s.op = none → ∀ f, t.result = some (.fail f) →
    (onGpio s.transport = false ∧ ((s.transport = some .i2c → MayWrite s) → ∃ c, f = .transportError c)) ∨
      (t = endOperation (.fail f) (accept i s) ∧ f.failureClass ≠ .deviceError)

namespace Ran

variable {i : Instr} {s t : State} {evs : List Event}

theorem trace (h : Ran i s t evs) : t.trace = s.trace ++ evs := by rw [h.frame]
theorem cfg (h : Ran i s t evs) : t.cfg = s.cfg := by rw [h.frame]
theorem transport (h : Ran i s t evs) : t.transport = s.transport := by rw [h.frame]
theorem width (h : Ran i s t evs) : t.width = s.width := by rw [h.frame]
theorem rows (h : Ran i s t evs) : t.rows = s.rows := by rw [h.frame]
theorem cols (h : Ran i s t evs) : t.cols = s.cols := by rw [h.frame]
theorem lineFlag (h : Ran i s t evs) : t.lineFlag = s.lineFlag := by rw [h.frame]
theorem font (h : Ran i s t evs) : t.font = s.font := by rw [h.frame]
theorem pinList (h : Ran i s t evs) : t.pinList = s.pinList := by rw [h.frame]
theorem addr (h : Ran i s t evs) : t.addr = s.addr := by rw [h.frame]

end Ran

theorem onGpio_of_holdsBus {t : Option Transport} (h : holdsBus t = true) : onGpio t = false := by
  rcases t with _ | t
  · rfl
  · cases t <;> cases h <;> rfl

theorem onGpio_of_linkOf {t : Option Transport} {link : Link} (h : linkOf t = some link) :
    onGpio t = decide (link = .gpio) := by
  rcases t with _ | t
  · cases h
  · cases t <;> cases h <;> rfl

/-- What a send may emit, an operation may. -/
theorem emitted_of_allowed {i : Instr} {link : Link} {s : State} {e : Event} (attached : linkOf s.transport = some link)
    (h : Allowed link s e) : Emitted i s e := by
  cases link with
  | gpio => cases e <;> simp_all [Allowed, Emitted]
  | i2c =>
    have i2c := linkOf_i2c attached
    cases e <;> simp_all [Allowed, Emitted, holdsBus]

theorem backlight_of_allowed {s : State} {a : BusAddr} {b : Byte} (h : Allowed .i2c s (.i2cWrite a b)) :
    b[3] = s.ioWrite[3] := h.2.2

/-- Sends, begun where the operation was accepted and left where it ended. -/
theorem ran_flow {i : Instr} {link : Link} {s s0 u t : State} (past : s.mode ≠ .unconstructed)
    (attached : linkOf s.transport = some link)
    (begun : s0 = { s with op := s0.op, phase := s0.phase, result := s0.result, dcb := s0.dcb }) (flow : Flow link s0 u)
    (ended : t = { u with op := t.op, phase := t.phase, result := t.result })
    (dcb : writesDcb i = false → s0.dcb = s.dcb)
    (failure : s.op = none → ∀ f, t.result = some (.fail f) →
      (onGpio s.transport = false ∧ ((s.transport = some .i2c → MayWrite s) → ∃ c, f = .transportError c)) ∨
        (t = endOperation (.fail f) (accept i s) ∧ f.failureClass ≠ .deviceError)) :
    ∃ evs, Ran i s t evs := by
  obtain ⟨evs, trace, pins, allowed⟩ := flow.events
  have link0 : linkOf s0.transport = some link := by rw [begun]; exact attached
  have allowed' : ∀ e ∈ evs, Allowed link s e := fun e he => by
    have := allowed e he
    rw [begun] at this
    exact this
  have gpio := onGpio_of_linkOf attached
  refine ⟨evs, past, ?_, ?_, fun e he => emitted_of_allowed attached (allowed' e he), fun _ => ?_, fun h => ?_,
    fun h => ?_, fun _ h => ?_, fun _ h => ?_, fun _ h => ?_, fun _ i2c _ => ⟨?_, fun a b hb => ?_⟩,
    .inl ⟨?_, ?_⟩, failure⟩
  · rw [ended, flow.frame, trace, begun]
  · rw [ended, pins, begun]
  · rw [ended, flow.bl, begun]
  · rw [ended]
    exact flow.dcb.trans (dcb h)
  · rw [gpio] at h
    rw [ended, (flow.gpio (of_decide_eq_true h)).1, begun]
  · rw [ended]
    exact flow.low (by rw [begun]; exact h)
  · rw [ended, flow.ioConfig, begun]
    exact h
  · rw [ended]
    exact flow.readWrite (by rw [begun]; exact h)
  · rw [ended, flow.backlight, begun]
  · rw [i2c] at attached
    cases attached
    exact backlight_of_allowed (allowed' _ hb)
  · rw [ended, flow.released, begun]
  · rw [ended, flow.mode, begun]

theorem ran_displayStep {i : Instr} {s u : State} {r : OpResult} {link : Link} (h : DisplayStep i s u r link) :
    ∃ evs, Ran i s (endOperation r u) evs := by
  have gpio := onGpio_of_linkOf h.attached
  refine ran_flow (by rw [h.ready]; decide) h.attached (by rfl) h.flow rfl h.dcb fun _ f hf => ?_
  cases hf
  rcases h.outcome with ok | ⟨g, hg, ⟨rfl, cause⟩ | ⟨same, cls⟩⟩
  · cases ok
  · cases hg
    have i2c := linkOf_i2c h.attached
    exact .inl ⟨gpio, fun may => cause (may i2c)⟩
  · cases hg
    exact .inr ⟨by rw [same], cls⟩

/-- Bus events and the expander's registers, begun where the operation was accepted and left where it ended. -/
theorem ran_touched {i : Instr} {s s0 u t : State} {evs : List Event} (past : s.mode ≠ .unconstructed)
    (bus : holdsBus s.transport = true)
    (begun : s0 = { s with op := s0.op, phase := s0.phase, result := s0.result }) (touched : Touched s0 u evs)
    (ended : t = { u with op := t.op, phase := t.phase, result := t.result })
    (accesses : ∀ e ∈ evs,
      (∃ a b, e = .i2cWrite a b ∧ (s.transport = some .i2c → s.ioWrite[1] = false → b[1] = false)) ∨
        ∃ a, e = .i2cRead a)
    (outputs : s.transport = some .i2c → s.ioConfig = 0x00#8 → t.ioConfig = 0x00#8)
    (readWrite : s.transport = some .i2c → s.ioWrite[1] = false → t.ioWrite[1] = false)
    (backlight : s.op = none → s.transport = some .i2c → ∃ v, i = .i2cBacklight v)
    (failure : s.op = none → ∀ f, t.result = some (.fail f) →
      (onGpio s.transport = false ∧ ((s.transport = some .i2c → MayWrite s) → ∃ c, f = .transportError c)) ∨
        (t = endOperation (.fail f) (accept i s) ∧ f.failureClass ≠ .deviceError)) :
    Ran i s t evs := by
  have off := onGpio_of_holdsBus bus
  have still : ∀ (l : List Event) (pins : Vector (Option Level) 11),
      (∀ e ∈ l, (∃ a b, e = .i2cWrite a b) ∨ ∃ a, e = .i2cRead a) → pinsAfter pins l = pins := by
    intro l pins
    induction l with
    | nil => exact fun _ => rfl
    | cons e rest ih =>
      intro h
      rcases h e (by simp) with ⟨a, b, rfl⟩ | ⟨a, rfl⟩ <;> exact ih fun e he => h e (by simp [he])
  have same := touched.1
  have pins : t.pins = s.pins := by rw [ended, same, begun]
  refine ⟨past, ?_, ?_, fun e he => ?_, fun _ => ?_, fun _ => ?_, fun h => ?_, fun _ h => ?_, outputs, readWrite,
    fun op i2c other => ?_, .inl ⟨?_, ?_⟩, failure⟩
  · rw [ended, same, begun]
  · rw [pins, still]
    exact fun e he => (accesses e he).imp_left fun ⟨a, b, h, _⟩ => ⟨a, b, h⟩
  · rcases accesses e he with ⟨a, b, rfl, low⟩ | ⟨a, rfl⟩
    · exact ⟨bus, low⟩
    · exact bus
  · rw [ended, same, begun]
  · rw [ended, same, begun]
  · rw [off] at h
    cases h
  · rw [LowPins, pins]
    exact h
  · obtain ⟨v, row⟩ := backlight op i2c
    exact absurd row (other v)
  · rw [ended, same, begun]
  · rw [ended, same, begun]

/-- A pin vector, which only a running operation drives. -/
theorem ran_vector {i : Instr} {s : State} {evs : List Event} (inside : InsideOperation s)
    (allowed : ∀ e ∈ evs, Allowed .gpio s e) (gpio : s.transport = some .gpio8 ∨ s.transport = some .gpio4) :
    Ran i s (emitAll evs s) evs := by
  have attached : linkOf s.transport = some .gpio := by rcases gpio with h | h <;> rw [h] <;> rfl
  have notI2c : s.transport ≠ some .i2c := by rcases gpio with h | h <;> rw [h] <;> decide
  obtain ⟨running, mode⟩ := inside
  exact ⟨by rcases mode with h | h <;> rw [h] <;> decide, rfl, rfl,
    fun e he => emitted_of_allowed attached (allowed e he), fun _ => rfl, fun _ => rfl, fun _ => rfl,
    fun rest => absurd rest running, fun h => absurd h notI2c, fun h => absurd h notI2c,
    fun rest => absurd rest running, .inl ⟨rfl, rfl⟩, fun rest => absurd rest running⟩

/-- R168. -/
theorem ran_blSet (v : Level) {s : State} (ready : s.mode = .ready) (gpio : onGpio s.transport = true) :
    Ran (.gpioBacklight v) s (endOperation .ok (blSet v (accept (.gpioBacklight v) s))) [.blSet v] := by
  have notI2c : s.transport ≠ some .i2c := fun h => by rw [h] at gpio; cases gpio
  exact ⟨by rw [ready]; decide, rfl, rfl, by simp [Emitted], fun other => absurd rfl (other v), fun _ => rfl,
    fun _ => rfl, fun _ => id, fun h => absurd h notI2c, fun h => absurd h notI2c, fun _ h => absurd h notI2c,
    .inl ⟨rfl, rfl⟩, nofun⟩

/-- R138: the first `release`. -/
theorem release_first {s : State} (h : s.released = false) : endOperation .ok (afterRelease (accept .release s)) =
    finished .ok { s with trace := s.trace ++ [.busRelease], released := true, mode := .released } := by
  have h' : (accept .release s).released = false := h
  rw [afterRelease, h']
  rfl

/-- R138: every one after it. -/
theorem release_again {s : State} (h : s.released = true) : endOperation .ok (afterRelease (accept .release s)) =
    finished .ok { s with mode := .released } := by
  have h' : (accept .release s).released = true := h
  rw [afterRelease, h']
  rfl

theorem ran_release {s : State} (mode : s.mode = .ready ∨ s.mode = .released) (bus : holdsBus s.transport = true) :
    ∃ evs, Ran .release s (endOperation .ok (afterRelease (accept .release s))) evs := by
  have off := onGpio_of_holdsBus bus
  have past : s.mode ≠ .unconstructed := by rcases mode with h | h <;> rw [h] <;> decide
  cases released : s.released with
  | true =>
    rw [release_again released]
    exact ⟨[], past, by simp [finished], rfl, nofun, fun _ => rfl, fun _ => rfl, fun _ => rfl, fun _ => id, fun _ => id,
      fun _ => id, fun _ _ _ => ⟨rfl, nofun⟩, .inr ⟨released, rfl, bus⟩, nofun⟩
  | false =>
    rw [release_first released]
    exact ⟨[.busRelease], past, rfl, rfl, by simp [Emitted, bus], fun _ => rfl, fun _ => rfl, fun _ => rfl, fun _ => id,
      fun _ => id, fun _ => id, fun _ _ _ => ⟨rfl, by simp⟩, .inr ⟨rfl, rfl, bus⟩, nofun⟩

/-- A step of a row that constructs nothing, past construction: where it ends, or would have ended had its failure not
discarded the construction in progress. -/
theorem ran_hostStep {i : Instr} {s t : State} (h : HostStep i s t) :
    ∃ u evs, Ran i s u evs ∧ (t = u ∨ (s.mode = .constructing ∧ ∃ f, t = takeConstructionFailure f u)) := by
  have may : ∀ {f : Failure}, (MayWrite s → ∃ c, f = .transportError c) → s.transport = some .i2c →
      (s.transport = some .i2c → MayWrite s) → ∃ c, f = .transportError c := fun cause i2c may => cause (may i2c)
  cases h with
  | gpioSent u r gpio flow outcome =>
    have attached : linkOf s.transport = some .gpio := by
      revert gpio
      rcases s.transport with _ | _ | _ | _ | _ <;> simp [onGpio, linkOf]
    rcases outcome with ⟨op, mode, rfl, rfl⟩ | ⟨op, mode, rfl, rfl⟩
    · obtain ⟨evs, ran⟩ := ran_flow (i := i) (s := s) (t := endOperation .ok u)
        (by rw [mode]; decide) attached (by rfl) flow rfl (fun _ => rfl) nofun
      exact ⟨_, evs, ran, .inl rfl⟩
    · obtain ⟨evs, ran⟩ := ran_flow (i := i) (s := s) (t := t) (by rw [mode]; decide) attached (by rfl) flow
        rfl (fun _ => rfl) fun rest => absurd rest op
      exact ⟨_, evs, ran, .inl rfl⟩
  | vectorDriven evs gpio inside after allowed =>
    exact ⟨t, evs, after ▸ ran_vector inside allowed gpio, .inl rfl⟩
  | backlightPin v row atRest ready gpio after =>
    subst row after
    exact ⟨_, _, ran_blSet v ready gpio, .inl rfl⟩
  | i2cSent u r atRest ready i2c flow after outcome rests =>
    subst after
    obtain ⟨evs, ran⟩ := ran_flow (i := i) (s := s) (t := endOperation r u) (by rw [ready]; decide)
      (by rw [i2c]; rfl) (by rfl) flow rfl (fun _ => rfl)
      fun _ f hf => by
        cases hf
        rcases outcome with ok | ⟨g, hg, cause⟩
        · cases ok
        · cases hg
          exact .inl ⟨by rw [i2c]; rfl, may cause i2c⟩
    exact ⟨_, evs, ran, .inl rfl⟩
  | i2cNibble u running constructing i2c flow after =>
    obtain ⟨evs, ran⟩ := ran_flow (i := i) (s := s) (t := u) (by rw [constructing]; decide) (by rw [i2c]; rfl)
      (by rfl) flow (by rfl) (fun _ => rfl)
      fun rest => absurd rest running
    exact ⟨u, evs, ran, after.imp_right fun failed => ⟨constructing, failed⟩⟩
  | backlightBit v u r row atRest ready i2c after outcome =>
    subst row after
    have bus : holdsBus s.transport = true := by rw [i2c]; rfl
    have off := onGpio_of_holdsBus bus
    rcases outcome with ⟨rfl, ⟨f, rfl, cls⟩, cannot⟩ | ⟨touched, config, levels, result⟩
    · refine ⟨endOperation (.fail f) (accept (.i2cBacklight v) s), [], ran_touched (by rw [ready]; decide) bus (by rfl)
        (u := accept (.i2cBacklight v) s) ⟨by simp; rfl, id⟩ rfl nofun
        (fun _ => id) (fun _ => id) (fun _ _ => ⟨v, rfl⟩) fun _ g hg => ?_, .inl rfl⟩
      cases hg
      exact .inr ⟨rfl, cls⟩
    · have low : s.ioWrite[1] = false → u.ioWrite[1] = false := fun h => by
        rw [levels, setBit_bit _ (by decide) (by decide)]
        exact h
      refine ⟨endOperation r u, _, ran_touched (by rw [ready]; decide) bus (by rfl) touched rfl ?_
        (fun _ h => ?_) (fun _ => low) (fun _ _ => ⟨v, rfl⟩)
        fun _ g hg => ?_, .inl rfl⟩
      · simpa using fun _ => low
      · exact config.trans h
      · cases hg
        rcases result with ok | ⟨c, hc⟩
        · cases ok
        · cases hc
          exact .inl ⟨off, fun _ => ⟨c, rfl⟩⟩
  | expander u r evs atRest ready alone after touched bus outcome =>
    subst after
    have holds : holdsBus s.transport = true := by rw [alone]; rfl
    have notI2c : s.transport ≠ some .i2c := by rw [alone]; decide
    refine ⟨endOperation r u, evs, ran_touched (by rw [ready]; decide) holds (by rfl) touched rfl
      (fun e he => (bus e he).imp_left ?_) (fun h => absurd h notI2c)
      (fun h => absurd h notI2c) (fun _ h => absurd h notI2c) fun _ g hg => ?_, .inl rfl⟩
    · exact fun ⟨a, b, h⟩ => ⟨a, b, h, fun i2c => absurd i2c notI2c⟩
    · cases hg
      rcases outcome with ⟨rfl, f, hf, cls⟩ | ok | ⟨v, ok⟩ | ⟨c, hc⟩
      · cases hf
        exact .inr ⟨rfl, cls⟩
      · cases ok
      · cases ok
      · cases hc
        exact .inl ⟨onGpio_of_holdsBus holds, fun _ => ⟨c, rfl⟩⟩
  | frame u f inside bus touched low after =>
    have past : s.mode ≠ .unconstructed := by rcases inside.2 with h | h <;> rw [h] <;> decide
    have holds : holdsBus s.transport = true := by rcases bus with h | h <;> simp [h, holdsBus]
    have ran : ∀ t, t = { u with op := t.op, phase := t.phase, result := t.result } → Ran i s t [.i2cWrite s.addr f] :=
      fun t ended => by
        have kept : s.transport = some .i2c → (s.ioWrite[1] = false → u.ioWrite[1] = false) ∧
            (s.ioConfig = 0x00#8 → u.ioConfig = 0x00#8) := fun i2c => by
          rcases bus with h | h
          · rw [h] at i2c
            cases i2c
          · exact h.2
        refine ran_touched past holds (by rfl) touched ended ?_ (fun i2c => ?_) (fun i2c => ?_)
          (fun rest => absurd rest inside.1) fun rest => absurd rest inside.1
        · simpa using fun i2c _ => low i2c
        · rw [ended]
          exact (kept i2c).2
        · rw [ended]
          exact (kept i2c).1
    rcases after with rfl | ⟨g, rfl⟩
    · exact ⟨t, _, ran t rfl, .inl rfl⟩
    · by_cases constructing : s.mode = .constructing
      · exact ⟨u, _, ran u rfl, .inr ⟨constructing, g, if_pos constructing⟩⟩
      · exact ⟨takeFailure g u, _, ran _ rfl, .inl (if_neg constructing)⟩
  | released row atRest mode bus after =>
    subst row after
    obtain ⟨evs, ran⟩ := ran_release mode bus
    exact ⟨_, evs, ran, .inl rfl⟩

theorem exec_ran {i : Instr} {s t : State} (hc : constructionRow i = false) (h : exec i s = .next t) :
    ∃ u evs, Ran i s u evs ∧ (t = u ∨ (s.mode = .constructing ∧ ∃ f, t = takeConstructionFailure f u)) := by
  cases hd : displayRow i with
  | true =>
    obtain ⟨u, r, link, step, rfl⟩ := exec_display_next hd h
    obtain ⟨evs, ran⟩ := ran_displayStep step
    exact ⟨_, evs, ran, .inl rfl⟩
  | false => exact ran_hostStep (exec_host_next hd hc h)

theorem exec_ran_ready {i : Instr} {s t : State} (ready : s.mode = .ready) (h : exec i s = .next t) :
    ∃ evs, Ran i s t evs := by
  obtain ⟨u, evs, ran, rfl | ⟨constructing, _⟩⟩ := exec_ran (constructionRow_of_ready h ready) h
  · exact ⟨evs, ran⟩
  · rw [ready] at constructing
    cases constructing

end Sys2Proof.Proofs
end

section
/-!
PROOFS. The claims over every instruction that are read off what a step past construction does (`Ran`) and what a step
of a construction does (`BuildStep`).
-/

namespace Sys2Proof.Proofs

open Sys2Proof.Machine Sys2Proof.Safety Sys2Proof.Laws

/-! ### The trace and the levels -/

theorem starts_cfg {i : Instr} {s s0 : State} (h : Starts i s s0) : s0.cfg = s.cfg := by
  rcases h with ⟨rfl, _⟩ | ⟨rfl, _⟩ <;> rfl

/-- No step of a construction changes a parameter. -/
theorem cfg_buildStep {i : Instr} {s t : State} (h : BuildStep i s t) : t.cfg = s.cfg := by
  cases h with
  | failed s0 u f evs starts grew bus after =>
    subst after
    exact grew.cfg.trans (starts_cfg starts)
  | attached constructing running free after => obtain ⟨l, rfl | rfl⟩ := after <;> rfl
  | initialised link s1 u constructing running attached geometry flow low after =>
    have cfg : u.cfg = s.cfg := by
      rcases geometry with ⟨rfl, _⟩ | ⟨_, _, _, _, rfl⟩ <;> exact flow.cfg
    rcases after with rfl | rfl <;> exact cfg
  | gpio u l r c f tr w fresh atRest kind geometry low flow after =>
    subst after
    exact flow.cfg
  | i2c u evs a r c fresh atRest geometry legal grew rwLow transport width rows cols lineFlag addr outputs low released
      after =>
    subst after
    exact grew.cfg
  | expander u a fresh atRest bus legal after =>
    subst after
    exact (bus.grew (by simp) (by simp)).cfg

/-- Settles O50: past construction only the registers of `Ran.frame` are written. -/
theorem configurationIsFixed : Obligations.ConfigurationIsFixed := by
  intro i s t h
  constructor
  · cases hc : constructionRow i with
    | true => exact cfg_buildStep (exec_build_next hc h)
    | false =>
      obtain ⟨u, evs, ran, rfl | ⟨_, f, rfl⟩⟩ := exec_ran hc h <;> exact ran.cfg
  · intro ready
    obtain ⟨evs, ran⟩ := exec_ran_ready ready h
    exact ⟨ran.transport, ran.width, ran.rows, ran.cols, ran.lineFlag, ran.font, ran.pinList, ran.addr⟩

/-- Settles O51: a `PinSet` writes its position and no other step does; a construction from `UNCONSTRUCTED` and a
failure, which discards the levels, are left out. -/
theorem pinsFollowTheTrace : Obligations.PinsFollowTheTrace := by
  intro i s t h before after
  cases hc : constructionRow i with
  | false =>
    obtain ⟨u, evs, ran, rfl | ⟨_, f, rfl⟩⟩ := exec_ran hc h
    · exact ⟨evs, ran.trace, ran.pins⟩
    · exact absurd rfl after
  | true =>
    cases exec_build_next hc h with
    | failed s0 u f evs starts grew bus ended => exact absurd (by rw [ended]; rfl) after
    | attached constructing running free ended =>
      obtain ⟨l, rfl | rfl⟩ := ended <;> exact ⟨[], by simp, rfl⟩
    | initialised link s1 u constructing running attached geometry flow low ended =>
      obtain ⟨evs, trace, pins, _⟩ := flow.events
      have same : s1.trace = s.trace ∧ s1.pins = s.pins := by
        rcases geometry with ⟨rfl, _⟩ | ⟨_, _, _, _, rfl⟩ <;> exact ⟨rfl, rfl⟩
      refine ⟨evs, ?_, ?_⟩
      · rw [← same.1]
        rcases ended with rfl | rfl <;> exact trace
      · rw [← same.2]
        rcases ended with rfl | rfl <;> exact pins
    | gpio u l r c f tr w fresh => exact absurd fresh before
    | i2c u evs a r c fresh => exact absurd fresh before
    | expander u a fresh => exact absurd fresh before

/-- Settles O53: on GPIO no event past construction is the bus's, and none fails. -/
theorem gpioNeverTouchesABus : Obligations.GpioNeverTouchesABus := by
  intro i s t ready gpio h
  obtain ⟨evs, ran⟩ := exec_ran_ready ready h
  have noBus : holdsBus s.transport ≠ true := fun bus => by
    rw [onGpio_of_holdsBus bus] at gpio
    cases gpio
  refine ⟨ran.answers gpio, fun rest cause failed => ?_, evs, ran.trace, fun a b =>
    ⟨fun hb => noBus (ran.emitted _ hb).1, fun hb => noBus (ran.emitted _ hb), ran.emitted _,
      fun hb => noBus (ran.emitted _ hb)⟩⟩
  rcases ran.failure rest _ failed with ⟨off, _⟩ | ⟨_, cls⟩
  · rw [gpio] at off
    cases off
  · exact cls rfl

theorem writesDcb_iff {i : Instr} :
    writesDcb i = true ↔ i = .displayOn ∨ i = .displayOff ∨ i = .cursorShow ∨ i = .cursorHide ∨ i = .cursorBlinkOn ∨
      i = .cursorBlinkOff := by
  cases i <;> simp [writesDcb]

/-- Settles O57: of `DCB`, `BL` and the backlight pin, past construction. -/
theorem onlyTheirOperationsWriteDcbAndBl : Obligations.OnlyTheirOperationsWriteDcbAndBl := by
  intro i s t ready h
  obtain ⟨evs, ran⟩ := exec_ran_ready ready h
  refine ⟨fun on off shown hidden blinkOn blinkOff => ran.dcb ?_, fun other =>
    ⟨ran.bl other, evs, ran.trace, fun v hv => ?_⟩⟩
  · rw [← Bool.not_eq_true, writesDcb_iff]
    simp only [on, off, shown, hidden, blinkOn, blinkOff, or_self, not_false_eq_true]
  · exact other v (ran.emitted _ hv)

/-! ### Under the invariant -/

/-- R304: in `READY` nothing is in progress. -/
theorem atRest_of_ready {s : State} (inv : Inv s) (ready : s.mode = .ready) : s.op = none := by
  by_contra running
  have constructing := inv.inProgress.mp running
  rw [ready] at constructing
  cases constructing

/-- R45: on I2C every pin may be written. -/
theorem mayWrite_of_inv {s : State} (inv : Inv s) (i2c : s.transport = some .i2c) : MayWrite s :=
  .inr (inv.i2cLow i2c).1

/-- Settles O54: a failure that is not the bus's comes before anything is done. -/
theorem rejectedCallHasNoSideEffect : Obligations.RejectedCallHasNoSideEffect := by
  intro i s t f inv ready h failed cls
  obtain ⟨evs, ran⟩ := exec_ran_ready ready h
  have rest := atRest_of_ready inv ready
  rcases ran.failure rest f failed with ⟨_, cause⟩ | ⟨same, _⟩
  · obtain ⟨c, rfl⟩ := cause (mayWrite_of_inv inv)
    exact absurd rfl cls
  · rw [same]
    have phase := inv.phaseAtRest rest
    simp only [endOperation, accept, ← rest, ← phase]

/-- Settles O55. -/
theorem backlightBitIsKept : Obligations.BacklightBitIsKept := by
  intro i s t inv ready other h
  obtain ⟨mode, rest, i2c⟩ := ready
  obtain ⟨evs, ran⟩ := exec_ran_ready mode h
  obtain ⟨shadow, frames⟩ := ran.backlight rest i2c other
  exact ⟨shadow, evs, ran.trace, frames⟩

/-- The expander's registers are `release`'s to keep. -/
theorem release_ioWrite (s : State) : (endOperation .ok (afterRelease (accept .release s))).ioWrite = s.ioWrite := by
  cases h : s.released with
  | true => rw [release_again h]; rfl
  | false => rw [release_first h]; rfl

/-- Settles O56: a send asserts E right after a frame with E low and lowers it in the next, so a failure leaves it high
at the asserting frame alone; `i2c.backlight` and `release` do not touch it. -/
theorem enableRestsLowOnI2c : Obligations.EnableRestsLowOnI2c := by
  intro i s t inv ready low h
  obtain ⟨mode, rest, i2c⟩ := ready
  have may := mayWrite_of_inv inv i2c
  have hc := constructionRow_of_ready h mode
  have asserted : ∀ {u : State} {r : OpResult}, (u.ioWrite[2] = false ∨ (r ≠ .ok ∧ Asserting s u)) →
      (r ≠ .ok → ∃ c, r = .fail (.transportError c)) →
      (endOperation r u).ioWrite.getLsbD 2 = false ∨
        ∃ cause evs f, (endOperation r u).result = some (.fail (.transportError cause)) ∧
          (endOperation r u).ioWrite.getLsbD 2 = true ∧ f.getLsbD 2 = false ∧
          (endOperation r u).trace =
            s.trace ++ evs ++ [.i2cWrite s.addr f, .i2cWrite s.addr (endOperation r u).ioWrite] := by
    rintro u r (rests | ⟨notOk, high, evs, f, lowFrame, trace⟩) cause
    · exact .inl rests
    · obtain ⟨c, rfl⟩ := cause notOk
      exact .inr ⟨c, evs, f, rfl, high, lowFrame, trace⟩
  cases hd : displayRow i with
  | true =>
    obtain ⟨u, r, link, step, rfl⟩ := exec_display_next hd h
    have attached := step.attached
    rw [i2c] at attached
    cases attached
    rcases step.outcome with rfl | ⟨f, rfl, ⟨_, cause⟩ | ⟨rfl, _⟩⟩
    · exact asserted (step.rests rfl may low) fun notOk => absurd rfl notOk
    · obtain ⟨c, rfl⟩ := cause may
      exact asserted (step.rests rfl may low) fun _ => ⟨c, rfl⟩
    · exact .inl low
  | false =>
    cases exec_host_next hd hc h with
    | gpioSent u r gpio flow outcome => rw [i2c] at gpio; cases gpio
    | vectorDriven evs gpio inside after allowed => exact absurd rest inside.1
    | backlightPin v row atRest ready gpio after => rw [i2c] at gpio; cases gpio
    | i2cSent u r atRest ready _ flow after outcome rests =>
      subst after
      refine asserted (rests may low) fun notOk => ?_
      rcases outcome with ok | ⟨f, rfl, cause⟩
      · exact absurd ok notOk
      · obtain ⟨c, rfl⟩ := cause may
        exact ⟨c, rfl⟩
    | i2cNibble u running constructing _ flow after => exact absurd rest running
    | backlightBit v u r row atRest ready _ after outcome =>
      subst after
      rcases outcome with ⟨rfl, _⟩ | ⟨_, _, levels, _⟩
      · exact .inl low
      · refine .inl ?_
        show u.ioWrite[2] = false
        rw [levels, setBit_bit _ (by decide) (by decide)]
        exact low
    | expander u r evs atRest ready alone after touched bus outcome => rw [i2c] at alone; cases alone
    | frame u f inside bus touched lowFrame after => exact absurd rest inside.1
    | released row atRest mode bus after =>
      subst row after
      exact .inl (by rw [release_ioWrite]; exact low)

end Sys2Proof.Proofs
end

section
/-!
PROOFS. 10_state.md R45: the invariant holds before any construction and every step keeps it; with it RW is never high.
-/

namespace Sys2Proof.Proofs

open Sys2Proof.Machine Sys2Proof.Safety Sys2Proof.Laws

/-! ### States that meet the invariant -/

/-- R44, R305: before a construction and after a failed one. -/
theorem inv_of_blank {s : State} (h : s = discardRegisters s) : Inv s := by
  have mode : s.mode = .unconstructed := by rw [h]; rfl
  have op : s.op = none := by rw [h]; rfl
  have phase : s.phase = 0 := by rw [h]; rfl
  have transport : s.transport = none := by rw [h]; rfl
  have released : s.released = false := by rw [h]; rfl
  have rows : s.rows = 0 := by rw [h]; rfl
  exact {
    inProgress := by simp [op, mode]
    phaseAtRest := fun _ => phase
    blank := fun _ => h
    configured := by simp [mode]
    releasedIff := by simp [released, mode]
    releasedBus := by simp [mode]
    width8 := by simp [transport]
    width4 := by simp [transport]
    geometry := by simp [mode]
    lineFlag := by simp [rows, legalGeometry]
    gpioLow := by simp [mode]
    i2cLow := by simp [transport]
    address := by simp [transport, holdsBus] }

theorem inv_takeConstructionFailure (f : Failure) (s : State) : Inv (takeConstructionFailure f s) := inv_of_blank rfl

/-- Settles O2: nothing has been written there. -/
theorem resetSatisfiesInvariant : Obligations.ResetSatisfiesInvariant := ⟨inv_of_blank rfl, rfl⟩

/-- R45: what a completed construction has to have set up. -/
theorem inv_of_constructed {s : State} (mode : s.mode = .ready) (op : s.op = none) (phase : s.phase = 0)
    (released : s.released = false) (configured : s.transport ≠ none)
    (width8 : s.transport = some .gpio8 → s.width = 8)
    (width4 : s.transport = some .gpio4 ∨ s.transport = some .i2c → s.width = 4)
    (geometry : linkOf s.transport ≠ none → legalGeometry s.rows s.cols = true)
    (lineFlag : legalGeometry s.rows s.cols = true → s.lineFlag = lineFlagOf s.rows)
    (gpioLow : onGpio s.transport = true → LowPins s)
    (i2cLow : s.transport = some .i2c → s.ioConfig = 0x00#8 ∧ s.ioWrite.getLsbD 1 = false)
    (address : holdsBus s.transport = true → legalAddress s.cfg.addrPolicy s.addr.toNat = true) : Inv s where
  inProgress := by simp [op, mode]
  phaseAtRest _ := phase
  blank := by simp [mode]
  configured _ := configured
  releasedIff := by simp [released, mode]
  releasedBus := by simp [mode]
  width8 := width8
  width4 := width4
  geometry _ := geometry
  lineFlag := lineFlag
  gpioLow _ := gpioLow
  i2cLow := i2cLow
  address := address

/-- A legal address is the one the seven bits of `ADDR` hold. -/
theorem legalAddress_ofInt {p : AddrPolicy} {a : Int} (h : legalAddress p a = true) :
    legalAddress p ((BitVec.ofInt 7 a).toNat : Int) = true := by
  have range := legalAddress_iff.mp h
  have same : ((BitVec.ofInt 7 a).toNat : Int) = a := by
    rw [BitVec.toNat_ofInt]
    omega
  rw [same]
  exact h

/-! ### Steps past construction -/

/-- R44, R45: a step past construction, wherever it ends. -/
theorem inv_ran {i : Instr} {s t : State} {evs : List Event} (inv : Inv s) (ran : Ran i s t evs)
    (life : Lifecycle i s t) : Inv t := by
  have rested : s.mode ≠ .constructing → t.op = none ∧ t.phase = 0 := fun outside => by
    cases life with
    | inReady before after rest => exact rest (atRest_of_ready inv before)
    | inConstruction before running after => exact absurd before outside
    | constructed before => exact absurd before ran.past
    | released row before rest after => exact rest
  have inside : s.mode = .constructing → t.op ≠ none ∧ t.mode = .constructing := fun constructing => by
    have same : t.mode = .constructing ∨ t.mode = .released :=
      ran.released.imp (fun h => h.2.trans constructing) fun h => h.2.1
    cases life with
    | inReady before => rw [constructing] at before; cases before
    | inConstruction before running after =>
      rcases after with ⟨mode, op⟩ | after | after
      · exact ⟨op, mode⟩
      · rcases same with h | h <;> rw [after] at h <;> cases h
      · rcases same with h | h <;> rw [after] at h <;> cases h
    | constructed before => exact absurd before ran.past
    | released row before => rw [constructing] at before; rcases before with h | h <;> cases h
  have mode : t.mode = s.mode ∨ t.mode = .released := ran.released.imp (·.2) (·.2.1)
  have ready : t.mode = .ready → s.mode = .ready := fun h => by
    rcases mode with same | same <;> rw [h] at same
    · exact same.symm
    · cases same
  exact {
    inProgress := by
      by_cases constructing : s.mode = .constructing
      · obtain ⟨op, mode⟩ := inside constructing
        exact ⟨fun _ => mode, fun _ => op⟩
      · refine ⟨fun running => absurd (rested constructing).1 running, fun h => ?_⟩
        rcases mode with same | same <;> rw [h] at same
        · exact absurd same.symm constructing
        · cases same
    phaseAtRest := fun rest => by
      by_cases constructing : s.mode = .constructing
      · exact absurd rest (inside constructing).1
      · exact (rested constructing).2
    blank := fun h => by
      rcases mode with same | same <;> rw [h] at same
      · exact absurd same.symm ran.past
      · cases same
    configured := fun h => by rw [ran.transport]; exact inv.configured (ready h)
    releasedIff := by
      rcases ran.released with ⟨flag, mode⟩ | ⟨flag, mode, _⟩
      · rw [flag, mode]
        exact inv.releasedIff
      · simp [flag, mode]
    releasedBus := fun h => by
      rw [ran.transport]
      rcases ran.released with ⟨_, mode⟩ | ⟨_, _, bus⟩
      · exact inv.releasedBus (mode.symm.trans h)
      · exact bus
    width8 := by rw [ran.transport, ran.width]; exact inv.width8
    width4 := by rw [ran.transport, ran.width]; exact inv.width4
    geometry := fun h => by rw [ran.transport, ran.rows, ran.cols]; exact inv.geometry (ready h)
    lineFlag := by rw [ran.rows, ran.cols, ran.lineFlag]; exact inv.lineFlag
    gpioLow := fun h gpio => by
      rw [ran.transport] at gpio
      exact ran.low (atRest_of_ready inv (ready h)) (inv.gpioLow (ready h) gpio)
    i2cLow := fun i2c => by
      rw [ran.transport] at i2c
      obtain ⟨outputs, low⟩ := inv.i2cLow i2c
      exact ⟨ran.outputs i2c outputs, ran.readWrite i2c low⟩
    address := by rw [ran.transport, ran.addr, ran.cfg]; exact inv.address }

/-! ### Steps of a construction -/

/-- R305: what a step inside a construction has to keep. -/
theorem inv_of_constructing {s : State} (mode : s.mode = .constructing) (op : s.op ≠ none)
    (released : s.released = false) (width8 : s.transport = some .gpio8 → s.width = 8)
    (width4 : s.transport = some .gpio4 ∨ s.transport = some .i2c → s.width = 4)
    (lineFlag : legalGeometry s.rows s.cols = true → s.lineFlag = lineFlagOf s.rows)
    (i2cLow : s.transport = some .i2c → s.ioConfig = 0x00#8 ∧ s.ioWrite.getLsbD 1 = false)
    (address : holdsBus s.transport = true → legalAddress s.cfg.addrPolicy s.addr.toNat = true) : Inv s where
  inProgress := ⟨fun _ => mode, fun _ => op⟩
  phaseAtRest h := absurd h op
  blank := by simp [mode]
  configured := by simp [mode]
  releasedIff := by simp [released, mode]
  releasedBus := by simp [mode]
  width8 := width8
  width4 := width4
  geometry := by simp [mode]
  lineFlag := lineFlag
  gpioLow := by simp [mode]
  i2cLow := i2cLow
  address := address

theorem released_of_mode {s : State} (inv : Inv s) (h : s.mode ≠ .released) : s.released = false := by
  rw [← Bool.not_eq_true, inv.releasedIff]
  exact h

/-- R222: the initialisation of the construction in progress, in line or as its end. -/
theorem inv_initialised {link : Link} {s s1 u t : State} (inv : Inv s) (constructing : s.mode = .constructing)
    (running : s.op ≠ none) (attached : linkOf s.transport = some link)
    (geometry : (s1 = s ∧ legalGeometry s.rows s.cols = true) ∨
      ∃ r c f, legalGeometry r c = true ∧ s1 = writeGeometry r c f s)
    (flow : Flow link { s1 with dcb := u.dcb } u) (low : link = .gpio → LowPins u)
    (after : t = u ∨ t = endOperation .ok { u with mode := .ready }) : Inv t := by
  have same : s1 = { s with rows := s1.rows, cols := s1.cols, lineFlag := s1.lineFlag, font := s1.font } := by
    rcases geometry with ⟨rfl, _⟩ | ⟨_, _, _, _, rfl⟩ <;> rfl
  have legal : legalGeometry s1.rows s1.cols = true := by
    rcases geometry with ⟨rfl, h⟩ | ⟨_, _, _, h, rfl⟩
    · exact h
    · exact legalGeometry_toNat h
  have flag : s1.lineFlag = lineFlagOf s1.rows := by
    rcases geometry with ⟨rfl, h⟩ | ⟨_, _, _, _, rfl⟩
    · exact inv.lineFlag h
    · rfl
  have mode : u.mode = .constructing := flow.mode.trans (by rw [same]; exact constructing)
  have op : u.op ≠ none := by rw [flow.op, same]; exact running
  have before := released_of_mode inv (by rw [constructing]; decide)
  have released : u.released = false := flow.released.trans (by rw [same]; exact before)
  have transport : u.transport = s.transport := flow.transport.trans (by rw [same])
  have width : u.width = s.width := flow.width.trans (by rw [same])
  have lineFlag : u.lineFlag = lineFlagOf u.rows := by rw [flow.lineFlag, flow.rows]; exact flag
  have rowsCols : legalGeometry u.rows u.cols = true := by rw [flow.rows, flow.cols]; exact legal
  have outputs : u.transport = some .i2c → u.ioConfig = 0x00#8 ∧ u.ioWrite.getLsbD 1 = false := fun i2c => by
    rw [transport] at i2c
    obtain ⟨config, rw⟩ := inv.i2cLow i2c
    exact ⟨flow.ioConfig.trans (by rw [same]; exact config), flow.readWrite (by rw [same]; exact rw)⟩
  have address : holdsBus u.transport = true → legalAddress u.cfg.addrPolicy u.addr.toNat = true := by
    rw [transport, flow.cfg, flow.addr, same]
    exact inv.address
  have width8 : u.transport = some .gpio8 → u.width = 8 := by rw [transport, width]; exact inv.width8
  have width4 : u.transport = some .gpio4 ∨ u.transport = some .i2c → u.width = 4 := by
    rw [transport, width]
    exact inv.width4
  rcases after with rfl | rfl
  · exact inv_of_constructing mode op released width8 width4 (fun _ => lineFlag) outputs address
  · refine inv_of_constructed rfl rfl rfl released ?_ width8 width4 (fun _ => rowsCols) (fun _ => lineFlag) ?_ outputs
      address
    · show u.transport ≠ none
      intro h
      rw [← transport, h] at attached
      cases attached
    · intro gpio
      refine low ?_
      have h : onGpio s.transport = true := by rw [← transport]; exact gpio
      rw [onGpio_of_linkOf attached] at h
      exact of_decide_eq_true h

theorem inv_buildStep {i : Instr} {s t : State} (inv : Inv s) (h : BuildStep i s t) : Inv t := by
  cases h with
  | failed s0 u f evs starts grew bus after =>
    subst after
    exact inv_takeConstructionFailure f u
  | attached constructing running free after =>
    have released := released_of_mode inv (by rw [constructing]; decide)
    obtain ⟨l, rfl | rfl⟩ := after <;>
      exact inv_of_constructing constructing running released (by simp) (by simp) inv.lineFlag nofun nofun
  | initialised link s1 u constructing running attached geometry flow low after =>
    exact inv_initialised inv constructing running attached geometry flow low after
  | gpio u l r c f tr w fresh atRest kind geometry low flow after =>
    subst after
    have released := released_of_mode inv (by rw [fresh]; decide)
    have transport : u.transport = some tr := flow.transport
    have width : u.width = w := flow.width
    have rows : u.rows = r.toNat := flow.rows
    have cols : u.cols = c.toNat := flow.cols
    refine inv_of_constructed rfl rfl rfl ?_ ?_ ?_ ?_ (fun _ => ?_) (fun _ => ?_) (fun _ => low) ?_ ?_
    · exact flow.released.trans released
    · show u.transport ≠ none
      rw [transport]
      simp
    · show u.transport = _ → u.width = 8
      rcases kind with ⟨rfl, rfl⟩ | ⟨rfl, rfl⟩ <;> simp [transport, width]
    · show u.transport = _ ∨ u.transport = _ → u.width = 4
      rcases kind with ⟨rfl, rfl⟩ | ⟨rfl, rfl⟩ <;> simp [transport, width]
    · show legalGeometry u.rows u.cols = true
      rw [rows, cols]
      exact legalGeometry_toNat geometry
    · show u.lineFlag = lineFlagOf u.rows
      rw [rows]
      exact flow.lineFlag
    · show u.transport = _ → _
      rcases kind with ⟨rfl, rfl⟩ | ⟨rfl, rfl⟩ <;> simp [transport]
    · show holdsBus u.transport = true → _
      rcases kind with ⟨rfl, rfl⟩ | ⟨rfl, rfl⟩ <;> simp [transport, holdsBus]
  | i2c u evs a r c fresh atRest geometry legal grew rwLow transport width rows cols lineFlag addr outputs low released
      after =>
    subst after
    refine inv_of_constructed rfl rfl rfl released ?_ ?_ (fun _ => width) (fun _ => ?_) (fun _ => ?_) ?_
      (fun _ => ⟨outputs, low⟩) (fun _ => ?_)
    · show u.transport ≠ none
      rw [transport]
      simp
    · show u.transport = _ → _
      simp [transport]
    · show legalGeometry u.rows u.cols = true
      rw [rows, cols]
      exact legalGeometry_toNat geometry
    · show u.lineFlag = lineFlagOf u.rows
      rw [lineFlag, rows]
    · show onGpio u.transport = true → _
      simp [transport, onGpio]
    · show legalAddress u.cfg.addrPolicy u.addr.toNat = true
      rw [grew.cfg, addr]
      exact legalAddress_ofInt legal
  | expander u a fresh atRest bus legal after =>
    subst after
    have blank := inv.blank fresh
    have rows : u.rows = 0 := by rw [bus.1, blank]; rfl
    have cfg : u.cfg = s.cfg := by rw [bus.1]; rfl
    refine inv_of_constructed rfl rfl rfl rfl nofun nofun nofun nofun ?_ nofun nofun (fun _ => ?_)
    · show legalGeometry u.rows u.cols = true → _
      simp [rows, legalGeometry]
    · show legalAddress u.cfg.addrPolicy _ = true
      rw [cfg]
      exact legalAddress_ofInt legal

/-! ### The whole machine -/

theorem exec_keeps_inv {i : Instr} {s t : State} (inv : Inv s) (h : exec i s = .next t) : Inv t := by
  cases hc : constructionRow i with
  | true => exact inv_buildStep inv (exec_build_next hc h)
  | false =>
    have life := exec_lifecycle h
    obtain ⟨u, evs, ran, rfl | ⟨_, f, rfl⟩⟩ := exec_ran hc h
    · exact inv_ran inv ran life
    · exact inv_takeConstructionFailure f u

/-- Taking a presentation is no part of what the invariant speaks of. -/
theorem inv_pending {s : State} (inv : Inv s) (rest : List Presented) : Inv { s with pending := rest } :=
  { inv with blank := fun h => congrArg (fun s : State => { s with pending := rest }) (inv.blank h) }

/-- A step runs what it takes (R16). -/
theorem step_next {s t : State} (h : step s = .next t) :
    ∃ i rest, exec i { s with pending := rest } = .next t := by
  unfold step takeNext at h
  split at h
  · rename_i i u taken
    split at taken
    · cases taken
    · split at taken
      · cases taken
      · split at taken <;> cases taken
        exact ⟨_, _, h⟩
  · cases h

/-- Settles O47: a step is an instruction past construction, which keeps what `Ran` says, or one of a construction,
which leaves nothing where it fails and what R44 says where it ends. -/
theorem stepKeepsInvariant : Obligations.StepKeepsInvariant := by
  intro s t inv h
  obtain ⟨i, rest, run⟩ := step_next h
  exact ⟨exec_keeps_inv (inv_pending inv rest) run, (lifecycleTransitions i _ t run).2.2.2.2⟩

/-! ### RW -/

theorem starts_trace {i : Instr} {s s0 : State} (h : Starts i s s0) : s0.trace = s.trace := by
  rcases h with ⟨rfl, _⟩ | ⟨rfl, _⟩ <;> rfl

theorem readWrite_buildStep {i : Instr} {s t : State} (inv : Inv s) (h : BuildStep i s t) :
    ∃ evs, t.trace = s.trace ++ evs ∧ (∀ v, Event.pinSet 1 v ∈ evs → v = false) ∧
      ∀ a b, Event.i2cWrite a b ∈ evs → b.getLsbD 1 = false := by
  have blankLow : s.mode = .unconstructed → s.ioWrite[1] = false := fun fresh => by
    rw [inv.blank fresh]
    show (0x00#8 : Byte)[1] = false
    decide
  cases h with
  | failed s0 u f evs starts grew bus after =>
    subst after
    refine ⟨evs, grew.trace.trans (by rw [starts_trace starts]), grew.gpioLow, fun a b hb => ?_⟩
    rcases starts with ⟨rfl, fresh, _⟩ | ⟨rfl, constructing, _⟩
    · exact grew.i2cLow (blankLow fresh) a b hb
    · rcases bus constructing with rfl | i2c
      · cases hb
      · exact grew.i2cLow (inv.i2cLow i2c).2 a b hb
  | attached constructing running free after =>
    obtain ⟨l, rfl | rfl⟩ := after <;> exact ⟨[], by simp, nofun, nofun⟩
  | initialised link s1 u constructing running attached geometry flow low after =>
    obtain ⟨evs, trace, _, allowed⟩ := flow.events
    have same : s1.trace = s.trace ∧ s1.ioWrite = s.ioWrite := by
      rcases geometry with ⟨rfl, _⟩ | ⟨_, _, _, _, rfl⟩ <;> exact ⟨rfl, rfl⟩
    refine ⟨evs, ?_, fun v hv => ?_, fun a b hb => ?_⟩
    · rw [← same.1]
      rcases after with rfl | rfl <;> exact trace
    · cases link with
      | gpio => exact allowed _ hv rfl
      | i2c => exact (allowed _ hv).elim
    · cases link with
      | gpio => exact (allowed _ hb).elim
      | i2c =>
        refine (allowed _ hb).2.1 ?_
        show s1.ioWrite[1] = false
        rw [same.2]
        exact (inv.i2cLow (linkOf_i2c attached)).2
  | gpio u l r c f tr w fresh atRest kind geometry low flow after =>
    subst after
    obtain ⟨evs, grew⟩ := Flow.grew flow
    exact ⟨evs, grew.trace, grew.gpioLow, grew.i2cLow (blankLow fresh)⟩
  | i2c u evs a r c fresh atRest geometry legal grew rwLow transport width rows cols lineFlag addr outputs low released
      after =>
    subst after
    exact ⟨evs, grew.trace, grew.gpioLow, rwLow⟩
  | expander u a fresh atRest bus legal after =>
    subst after
    exact ⟨[.i2cScan], by rw [endOperation_trace, bus.1]; rfl, by simp, by simp⟩

theorem i2c_of_holdsBus {t : Option Transport} (bus : holdsBus t = true) (other : t ≠ some .expanderOnly) :
    t = some .i2c := by
  rcases t with _ | t
  · cases bus
  · cases t with
    | i2c => rfl
    | expanderOnly => exact absurd rfl other
    | gpio4 | gpio8 => cases bus

/-- Settles O52: RW is low in every pin event, and in every frame where it was low in `IO_WRITE` before, which the
invariant says on I2C. -/
theorem readWriteIsNeverHigh : Obligations.ReadWriteIsNeverHigh := by
  intro s t inv h
  obtain ⟨i, rest, run⟩ := step_next h
  have inv' := inv_pending inv rest
  cases hc : constructionRow i with
  | true =>
    obtain ⟨evs, trace, gpio, i2c⟩ := readWrite_buildStep inv' (exec_build_next hc run)
    exact ⟨evs, trace, gpio, fun _ => i2c⟩
  | false =>
    obtain ⟨u, evs, ran, after⟩ := exec_ran hc run
    refine ⟨evs, ?_, fun v hv => ran.emitted _ hv rfl, fun alone a b hb => ?_⟩
    · rcases after with rfl | ⟨_, f, rfl⟩ <;> exact ran.trace
    · obtain ⟨bus, low⟩ := ran.emitted _ hb
      have i2c := i2c_of_holdsBus bus alone
      exact low i2c (inv'.i2cLow i2c).2

end Sys2Proof.Proofs
end

section
/-!
PROOFS. 41_gpio_transport.md R163 to R166, R170, R171: the events of each GPIO form, the transfers they commit, the
levels they leave, and the obligations about the sends of the GPIO transport.
-/

namespace Sys2Proof.Proofs

open Sys2Proof.Machine Sys2Proof.Safety Sys2Proof.Laws

/-! ### What a form's events commit and leave -/

theorem gpioTransfers_append (w : Nat) (pins : Vector (Option Level) 11) (xs ys : List Event) :
    gpioTransfers w pins (xs ++ ys) = gpioTransfers w pins xs ++ gpioTransfers w (pinsAfter pins xs) ys := by
  induction xs generalizing pins with
  | nil => rfl
  | cons e rest ih =>
    cases e with
    | pinSet p v =>
      simp only [List.cons_append, gpioTransfers, pinsAfter, ih]
      split <;> rfl
    | _ => exact ih pins

theorem totalWait_append (xs ys : List Event) : totalWait (xs ++ ys) = totalWait xs + totalWait ys := by
  induction xs with
  | nil => simp [totalWait]
  | cons e rest ih => cases e <;> simp [totalWait, ih, Nat.add_assoc]

/-- R162: selecting commits nothing. -/
theorem gpioTransfers_select (w : Nat) (pins : Vector (Option Level) 11) (rs : Level) :
    gpioTransfers w pins (selectEvents rs) = [] := by
  simp [selectEvents, gpioTransfers]

/-- R67: nor does driving the data positions. -/
theorem gpioTransfers_data8 (w : Nat) (pins : Vector (Option Level) 11) (b : Byte) :
    gpioTransfers w pins (dataEvents8 b) = [] := by
  simp [dataEvents8, gpioTransfers]

/-- R68. -/
theorem gpioTransfers_data4 (w : Nat) (pins : Vector (Option Level) 11) (n : Nibble) :
    gpioTransfers w pins (dataEvents4 n) = [] := by
  simp [dataEvents4, gpioTransfers]

/-- Position 2 is E's: what a pulse presents does not depend on it. -/
theorem presentedLevels_enable (w : Nat) (pins : Vector (Option Level) 11) (v : Option Level) :
    presentedLevels w (pins.set 2 v) = presentedLevels w pins := by
  simp [presentedLevels]

/-- R166: a pulse starts from E low, so it commits what stands on the positions, once. -/
theorem gpioTransfers_pulse (w : Nat) (pins : Vector (Option Level) 11) :
    gpioTransfers w pins pulseEvents = [presentedLevels w pins] := by
  simp [pulseEvents, gpioTransfers, presentedLevels_enable]

theorem pinsAfter_pulse (pins : Vector (Option Level) 11) : pinsAfter pins pulseEvents = pins.set 2 (some false) := by
  ext1 q hq
  by_cases h : q = 2 <;> simp [pulseEvents, pinsAfter, Vector.getElem_set, h]

/-- R164, R165: one nibble's events commit it, where RS and RW have been driven. -/
theorem gpioTransfers_nibble (pins : Vector (Option Level) 11) (rs : Level) (n : Nibble) (hrs : pins[0] = some rs)
    (hrw : pins[1] = some false) :
    gpioTransfers 4 pins (nibbleEvents n) = [some { rs := rs, rw := false, data := n.setWidth 8 }] := by
  rw [nibbleEvents, gpioTransfers_append, gpioTransfers_data4, gpioTransfers_pulse]
  have data : nibbleOf n[0] n[1] n[2] n[3] = n := nibbleOf_bits n
  simp [presentedLevels, dataEvents4, pinsAfter, hrs, hrw, data]

/-- R165. -/
theorem gpioTransfers_single (pins : Vector (Option Level) 11) (rs : Level) (n : Nibble) :
    gpioTransfers 4 pins (selectEvents rs ++ nibbleEvents n) =
      [some { rs := rs, rw := false, data := n.setWidth 8 }] := by
  rw [gpioTransfers_append, gpioTransfers_select, List.nil_append]
  exact gpioTransfers_nibble _ rs n (by simp [selectEvents, pinsAfter]) (by simp [selectEvents, pinsAfter])

/-- R163. -/
theorem gpioTransfers_byte8 (pins : Vector (Option Level) 11) (b : Byte) (rs : Level) :
    gpioTransfers 8 pins (byte8Events b rs) = [some { rs := rs, rw := false, data := b }] := by
  rw [byte8Events, gpioTransfers_append, gpioTransfers_append, gpioTransfers_select, gpioTransfers_data8,
    gpioTransfers_pulse]
  have data : byteOf b[0] b[1] b[2] b[3] b[4] b[5] b[6] b[7] = b := byteOf_bits b
  simp [presentedLevels, selectEvents, dataEvents8, pinsAfter, data]

theorem highNibble_setWidth : ∀ b : Byte, (b.extractLsb' 4 4).setWidth 8 = b >>> 4 := by decide

theorem lowNibble_setWidth : ∀ b : Byte, (b.extractLsb' 0 4).setWidth 8 = b &&& 0x0F#8 := by decide

/-- R164: high nibble first. -/
theorem gpioTransfers_byte4 (pins : Vector (Option Level) 11) (b : Byte) (rs : Level) :
    gpioTransfers 4 pins (byte4Events b rs) =
      [some { rs := rs, rw := false, data := b >>> 4 }, some { rs := rs, rw := false, data := b &&& 0x0F#8 }] := by
  rw [byte4Events, gpioTransfers_append, gpioTransfers_single, gpioTransfers_nibble _ rs, highNibble_setWidth,
    lowNibble_setWidth, List.singleton_append]
  · simp [selectEvents, nibbleEvents, dataEvents4, pulseEvents, pinsAfter]
  · simp [selectEvents, nibbleEvents, dataEvents4, pulseEvents, pinsAfter]

theorem pinsAfter_byte8 (pins : Vector (Option Level) 11) (b : Byte) (rs : Level) :
    pinsAfter pins (byte8Events b rs) =
      #v[some rs, some false, some false, some (b.getLsbD 0), some (b.getLsbD 1), some (b.getLsbD 2),
        some (b.getLsbD 3), some (b.getLsbD 4), some (b.getLsbD 5), some (b.getLsbD 6), some (b.getLsbD 7)] := by
  rw [byte8Events, pinsAfter_append, pinsAfter_pulse]
  ext1 q hq
  interval_cases q <;> simp [selectEvents, dataEvents8, pinsAfter]

/-- The low nibble is what stays on the data positions. -/
theorem pinsAfter_byte4 (pins : Vector (Option Level) 11) (b : Byte) (rs : Level) :
    pinsAfter pins (byte4Events b rs) =
      #v[some rs, some false, some false, some (b.getLsbD 0), some (b.getLsbD 1), some (b.getLsbD 2),
        some (b.getLsbD 3), pins[7], pins[8], pins[9], pins[10]] := by
  rw [byte4Events, nibbleEvents, nibbleEvents, pinsAfter_append, pinsAfter_append, pinsAfter_pulse]
  ext1 q hq
  interval_cases q <;> simp [selectEvents, dataEvents4, pulseEvents, pinsAfter]

/-! ### The sends -/

theorem readyOnGpio_link {s : State} (ready : ReadyOnGpio s) :
    s.mode = .ready ∧ s.op = none ∧ linkOf s.transport = some .gpio := by
  rcases ready with ⟨⟨mode, op, transport⟩, _⟩ | ⟨⟨mode, op, transport⟩, _⟩ <;>
    exact ⟨mode, op, by rw [transport]; rfl⟩

theorem readyOnGpio_onGpio {s : State} (ready : ReadyOnGpio s) : onGpio s.transport = true := by
  rcases ready with ⟨⟨_, _, transport⟩, _⟩ | ⟨⟨_, _, transport⟩, _⟩ <;> rw [transport] <;> rfl

/-- R162 to R164: a raw send with every event returning. -/
theorem rawSend_gpio {s : State} (ready : ReadyOnGpio s) (ret : EventsReturn s) (b : Byte) (rs : Level) :
    rawSend b rs s = .next (finished .ok (afterSend b rs s)) := by
  obtain ⟨mode, op, link⟩ := readyOnGpio_link ready
  rw [rawSend_eq (.gpioSendInstruction b rs), displayOperation_ready op mode link, sendInstruction,
    gpioSend_ok b rs (s := accept (.gpioSendInstruction b rs) s) ret]
  rfl

theorem exec_gpioSendInstruction {s : State} (ready : ReadyOnGpio s) (ret : EventsReturn s) (b : Byte) (rs : Level) :
    exec (.gpioSendInstruction b rs) s = .next (finished .ok (afterSend b rs s)) := by
  rw [← rawSend_gpio ready ret, rawSend, if_pos (readyOnGpio_onGpio ready)]

/-- Settles O10: R162 with `WIDTH` 8 is R163's form. -/
theorem gpio8SendInstruction : Obligations.Gpio8SendInstruction := by
  intro s b rs ready width ret
  exact ⟨exec_gpioSendInstruction (.inl ⟨ready, width⟩) ret b rs, rfl, rfl, gpioTransfers_byte8 s.pins b rs,
    pinsAfter_byte8 s.pins b rs⟩

/-- Settles O11: R162 with `WIDTH` 4 is R164's form. -/
theorem gpio4SendInstruction : Obligations.Gpio4SendInstruction := by
  intro s b rs ready width ret
  exact ⟨exec_gpioSendInstruction (.inr ⟨ready, width⟩) ret b rs, rfl, rfl, gpioTransfers_byte4 s.pins b rs,
    pinsAfter_byte4 s.pins b rs⟩

/-- R306: what only a construction performs is refused where none is in progress. -/
theorem constructionSteps_atRest {offered : Option Transport → Bool} {body : State → Out Unit} {s : State}
    (rest : s.op = none) : constructionSteps offered body s = .refused .noOperationInProgress := by
  simp [constructionSteps, rest]

theorem exec_gpioSendNibble (n : Nibble) (rs : Level) (s : State) :
    exec (.gpioSendNibble n rs) s = constructionSteps (· == some .gpio4) (gpioSendSingle n rs) s := rfl

/-- Settles O12: the eleven events of R165 leave the construction in progress. -/
theorem gpioSendNibble : Obligations.GpioSendNibble := by
  intro s n rs
  rw [exec_gpioSendNibble]
  refine ⟨fun ⟨op, mode, transport⟩ ret => ⟨?_, gpioTransfers_single s.pins rs n⟩, constructionSteps_atRest⟩
  rw [constructionSteps_inside op mode (by rw [transport]; rfl), gpioSendSingle_ok n rs ret]
  rfl

end Sys2Proof.Proofs
end

section
/-!
PROOFS. 44_display_ops.md: each display operation as sends over the attached transport, in every state, and its end on
GPIO with every event returning.
-/

namespace Sys2Proof.Proofs

open Sys2Proof.Machine Sys2Proof.Safety Sys2Proof.Laws

/-! ### Expansion, in every state -/

theorem continueWith_ok (s : State) (k : State → Stepped) :
    continueWith (.next (finished .ok s)) k = k (finished .ok s) := rfl

/-- R16, R115: what follows steps that ended ok is an operation of its own, in the state they left. -/
theorem displayOperation_andThen (i j : Instr) {f g : Link → State → Out Unit}
    (along : ∀ link s, Along link s (f link s))
    (alike : ∀ link s t, Alike s t → AlikeOut (g link s) (g link t)) (s : State) :
    displayOperation i (fun link s => (f link s).andThen (g link)) s =
      continueWith (displayOperation i f s) (displayOperation j g) := by
  by_cases offered : OfferedOnDisplay s
  · obtain ⟨op, mode, attached⟩ := offered
    obtain ⟨link, hlink⟩ := Option.ne_none_iff_exists'.mp attached
    rw [displayOperation_ready op mode hlink, displayOperation_ready op mode hlink]
    have flow := along link (accept i s)
    revert flow
    cases f link (accept i s) with
    | ok a t =>
      intro flow
      have again : displayOperation j g (endOperation .ok t) = conclude (g link (accept j (endOperation .ok t))) :=
        displayOperation_ready rfl (flow.mode.trans mode) ((congrArg linkOf flow.transport).trans hlink)
      calc conclude (g link t)
          = conclude (g link (accept j (endOperation .ok t))) := conclude_alike (alike link t _ ⟨_, _, _, rfl⟩)
        _ = displayOperation j g (endOperation .ok t) := again.symm
    | fail f t => exact fun _ => rfl
    | stuck r => exact fun _ => rfl
  · unfold displayOperation
    split
    · rfl
    · split
      · rfl
      · split
        · rename_i op mode _ link hlink
          exact absurd ⟨by simpa using op, by simpa using mode, by rw [hlink]; simp⟩ offered
        · rfl

/-- R242 to R247: one function of `DCB` is stored, and sent. -/
theorem displayOperation_changeDisplayControl (i : Instr) (change : BitVec 3 → BitVec 3) (s : State) :
    displayOperation i (changeDisplayControl change) s =
      rawSend (displayControlByte (change s.dcb)) false { s with dcb := change s.dcb } := by
  rw [rawSend_eq i]
  rfl

/-- R28: the three flags, in the spec's form. -/
theorem withFlags_eq (dcb : BitVec 3) :
    (withDisplayFlag true dcb = dcb ||| 0b100#3 ∧ withDisplayFlag false dcb = dcb &&& 0b011#3) ∧
    (withCursorFlag true dcb = dcb ||| 0b010#3 ∧ withCursorFlag false dcb = dcb &&& 0b101#3) ∧
    (withBlinkFlag true dcb = dcb ||| 0b001#3 ∧ withBlinkFlag false dcb = dcb &&& 0b110#3) := by
  revert dcb
  decide

/-- R28: a flag changed is its bit changed and the other two kept. -/
theorem withFlags_bits (dcb : BitVec 3) (v : Bool) :
    withDisplayFlag v dcb = BitVec.ofBool v ++ BitVec.ofBool (dcb.getLsbD 1) ++ BitVec.ofBool (dcb.getLsbD 0) ∧
    withCursorFlag v dcb = BitVec.ofBool (dcb.getLsbD 2) ++ BitVec.ofBool v ++ BitVec.ofBool (dcb.getLsbD 0) ∧
    withBlinkFlag v dcb = BitVec.ofBool (dcb.getLsbD 2) ++ BitVec.ofBool (dcb.getLsbD 1) ++ BitVec.ofBool v := by
  revert dcb v
  decide

/-- R95: `0x08 | DCB`, bit by bit. -/
theorem displayControlByte_bits : ∀ d c b : Bool,
    displayControlByte (BitVec.ofBool d ++ BitVec.ofBool c ++ BitVec.ofBool b) =
      0x08#8 ||| bitAt d 2 ||| bitAt c 1 ||| bitAt b 0 := by
  decide

/-- Settles O21: each operation's function of `DCB` changes its one flag. -/
theorem displayControlExpands : Obligations.DisplayControlExpands := by
  rintro s d c b rfl rfl rfl
  have sent : ∀ (i : Instr) (change : BitVec 3 → BitVec 3) (d c b : Bool),
      change s.dcb = BitVec.ofBool d ++ BitVec.ofBool c ++ BitVec.ofBool b →
      displayOperation i (changeDisplayControl change) s =
        rawSend (0x08#8 ||| bitAt d 2 ||| bitAt c 1 ||| bitAt b 0) false
          { s with dcb := BitVec.ofBool d ++ BitVec.ofBool c ++ BitVec.ofBool b } := fun i change d c b changed => by
    rw [displayOperation_changeDisplayControl, changed, displayControlByte_bits]
  exact ⟨sent .displayOn _ _ _ _ (withFlags_bits _ true).1, sent .displayOff _ _ _ _ (withFlags_bits _ false).1,
    sent .cursorShow _ _ _ _ (withFlags_bits _ true).2.1, sent .cursorHide _ _ _ _ (withFlags_bits _ false).2.1,
    sent .cursorBlinkOn _ _ _ _ (withFlags_bits _ true).2.2, sent .cursorBlinkOff _ _ _ _ (withFlags_bits _ false).2.2⟩

/-- R253: the code points an operand of `print` may hold. -/
theorem exec_print {codePoints : List Nat} (bytes : ∀ c ∈ codePoints, c ≤ 255) (s : State) :
    exec (.print codePoints) s =
      displayOperation (.print codePoints) (fun link s => sendData link (codePoints.map (BitVec.ofNat 8)) s) s := by
  have formed := formError_print_iff.mpr bytes
  change execPrint codePoints s = _
  rw [execPrint, formed]

theorem exec_print_nil {s : State} (ready : ReadyOnDisplay s) : exec (.print []) s = .next (finished .ok s) := by
  obtain ⟨mode, op, attached⟩ := ready
  obtain ⟨link, hlink⟩ := Option.ne_none_iff_exists'.mp attached
  rw [exec_print (by simp), displayOperation_ready op mode hlink]
  rfl

/-- R253: the first character, then the rest. -/
theorem exec_print_cons {c : Nat} {rest : List Nat} (bytes : ∀ d ∈ c :: rest, d ≤ 255) (s : State) :
    exec (.print (c :: rest)) s = continueWith (rawSend (BitVec.ofNat 8 c) true s) (exec (.print rest)) := by
  have followed : exec (.print rest) = displayOperation (.print rest) fun link s =>
      sendData link (rest.map (BitVec.ofNat 8)) s := funext (exec_print fun d hd => bytes d (by simp [hd]))
  rw [exec_print bytes, rawSend_eq (.print (c :: rest)), followed]
  exact displayOperation_andThen (.print (c :: rest)) (.print rest)
    (fun link s => along_sendInstruction link (BitVec.ofNat 8 c) true s) (fun link _ _ => alike_sendData link _) s

/-- Settles O24. -/
theorem printExpands : Obligations.PrintExpands := fun s _ _ first others =>
  ⟨exec_print_nil, exec_print_cons (List.forall_mem_cons.mpr ⟨first, others⟩) s⟩

/-- R106: three bits of the slot, shifted to bits 5..3. -/
theorem cgramSelectByte_eq {slot : Nat} (legal : slot ≤ 7) :
    cgramSelectByte slot = 0x40#8 ||| BitVec.ofNat 8 (8 * slot) := by
  interval_cases slot <;> rfl

theorem sendGlyph_accepted {slot : Int} {bitmap : List Byte} (legal : 0 ≤ slot ∧ slot ≤ 7) (short : bitmap.length ≤ 8)
    (link : Link) (s : State) :
    sendGlyph slot bitmap link s =
      (sendCommand link (cgramSelectByte slot.toNat) s).andThen (sendData link bitmap) := by
  simp [sendGlyph, legalSlot, legal, short]

/-- A byte is the code point it stands for. -/
theorem map_ofNat_toNat (bitmap : List Byte) : (bitmap.map BitVec.toNat).map (BitVec.ofNat 8) = bitmap := by
  simp [List.map_map, Function.comp_def]

theorem bytes_toNat (bitmap : List Byte) : ∀ c ∈ bitmap.map BitVec.toNat, c ≤ 255 := by
  intro c hc
  obtain ⟨d, _, rfl⟩ := List.mem_map.mp hc
  have := d.isLt
  omega

/-- Settles O26: past its two checks, a glyph is its CGRAM-select and the print of its bytes. -/
theorem defineCustomGlyphExpands : Obligations.DefineCustomGlyphExpands := by
  intro s slot bitmap slot_nonneg slot_le short
  have followed : exec (.print (bitmap.map BitVec.toNat)) =
      displayOperation (.print (bitmap.map BitVec.toNat)) fun link s => sendData link bitmap s := by
    funext s
    rw [exec_print (bytes_toNat bitmap), map_ofNat_toNat]
  have steps : ∀ link s, sendGlyph slot bitmap link s =
      (sendCommand link (cgramSelectByte slot.toNat) s).andThen (sendData link bitmap) :=
    sendGlyph_accepted ⟨slot_nonneg, slot_le⟩ short
  rw [followed, ← cgramSelectByte_eq (slot := slot.toNat) (by omega), rawSend_eq (.defineCustomGlyph slot bitmap)]
  change displayOperation (.defineCustomGlyph slot bitmap) (sendGlyph slot bitmap) s = _
  rw [funext fun link => funext (steps link)]
  exact displayOperation_andThen _ _ (fun link s => along_sendCommand link _ s)
    (fun link _ _ => alike_sendData link _) s

/-! ### Range failures -/

/-- A display operation whose steps fail where they begin. -/
theorem displayOperation_fails {i : Instr} {body : Link → State → Out Unit} {s : State} {f : Failure}
    (ready : ReadyOnDisplay s) (fails : ∀ link, body link (accept i s) = .fail f (accept i s)) :
    displayOperation i body s = .next (finished (.fail f) s) := by
  obtain ⟨mode, op, attached⟩ := ready
  obtain ⟨link, hlink⟩ := Option.ne_none_iff_exists'.mp attached
  rw [displayOperation_ready op mode hlink, fails, conclude_fail_accept]

theorem sendGlyph_slot {slot : Int} (illegal : ¬(0 ≤ slot ∧ slot ≤ 7)) (bitmap : List Byte) (link : Link) (s : State) :
    sendGlyph slot bitmap link s = .fail (.invalidGlyphSlot slot) s := by
  have check : legalSlot slot = false := decide_eq_false illegal
  rw [sendGlyph, check, require_false, andThen_fail]

theorem sendGlyph_bitmap {slot : Int} {bitmap : List Byte} (legal : 0 ≤ slot ∧ slot ≤ 7) (long : 8 < bitmap.length)
    (link : Link) (s : State) : sendGlyph slot bitmap link s = .fail (.invalidBitmap bitmap.length) s := by
  have check : legalSlot slot = true := decide_eq_true legal
  have length : decide (bitmap.length ≤ 8) = false := decide_eq_false (by omega)
  rw [sendGlyph, check, require_true, andThen_ok, length, require_false, andThen_fail]

/-- Settles O27: the checks stand before every event, the slot's first. -/
theorem displayRangeErrors : Obligations.DisplayRangeErrors := by
  intro s ready
  refine ⟨fun row column outside => ⟨exec_setCursor_outside ready ?_, rfl⟩, fun slot bitmap illegal => ⟨?_, rfl⟩,
    fun slot bitmap slot_nonneg slot_le long => ⟨?_, rfl⟩⟩
  · exact Bool.eq_false_iff.mpr (mt legalCursor_iff.mp outside)
  · exact displayOperation_fails (i := .defineCustomGlyph slot bitmap) (body := sendGlyph slot bitmap) ready
      fun link => sendGlyph_slot illegal bitmap link _
  · exact displayOperation_fails (i := .defineCustomGlyph slot bitmap) (body := sendGlyph slot bitmap) ready
      fun link => sendGlyph_bitmap ⟨slot_nonneg, slot_le⟩ long link _

/-! ### DDRAM addresses -/

/-- R99: bit 7 and the seven bits of the sum. -/
theorem ddramSelectByte_toNat {o c : Nat} (h : o + c < 128) : (ddramSelectByte o c).toNat = 0x80 + (o + c) := by
  have small : (o + c) % 2 ^ 8 = o + c := Nat.mod_eq_of_lt (by omega)
  rw [ddramSelectByte, BitVec.toNat_or, BitVec.toNat_ofNat, BitVec.toNat_ofNat, small]
  exact (Nat.two_pow_add_eq_or_of_lt (i := 7) h 1).symm

theorem ddramSelectByte_eq {o c : Nat} (h : o + c < 128) : ddramSelectByte o c = BitVec.ofNat 8 (0x80 + o + c) := by
  apply BitVec.eq_of_toNat_eq
  rw [ddramSelectByte_toNat h, BitVec.toNat_ofNat]
  omega

/-- Settles O23: below 0x80 the byte gives back the sum, and the table's entries are farther apart than the columns that
may be between them. -/
theorem cursorAddressesAreDistinct : Obligations.CursorAddressesAreDistinct := by
  intro rows cols r c r' c' o o' legal hr hr' hc hc' entry entry' same
  obtain ⟨hrows, hcols⟩ := legalGeometry_le legal
  have bound := rowOffset_le entry
  have bound' := rowOffset_le entry'
  have sums := congrArg BitVec.toNat same
  rw [ddramSelectByte_toNat (by omega), ddramSelectByte_toNat (by omega)] at sums
  have r_lt : r < 4 := by omega
  have r'_lt : r' < 4 := by omega
  interval_cases r <;> interval_cases r' <;> cases entry <;> cases entry' <;> omega

/-! ### On GPIO -/

theorem returns_afterSend {s : State} (ret : EventsReturn s) (r : OpResult) (b : Byte) (rs : Level) :
    EventsReturn (finished r (afterSend b rs s)) :=
  eventsReturn_later ret rfl (by simp [finished, afterSend, afterEvents])

theorem ready_afterSend {s : State} (ready : ReadyOnGpio s) (r : OpResult) (b : Byte) (rs : Level) :
    ReadyOnGpio (finished r (afterSend b rs s)) :=
  ready.imp (fun ⟨⟨mode, _, transport⟩, width⟩ => ⟨⟨mode, rfl, transport⟩, width⟩)
    fun ⟨⟨mode, _, transport⟩, width⟩ => ⟨⟨mode, rfl, transport⟩, width⟩

/-- R307: a wait that returns joins the trace. -/
theorem thenWaited_returns {s : State} (ret : EventsReturn s) (d : Nat) :
    thenWaited d s = .next (afterEvents (waitEvent d) s) := by
  have elsewhere : s.hangs ≠ some s.trace.length := fun h => Nat.lt_irrefl _ (ret _ h)
  rw [thenWaited, if_neg elsewhere]
  rfl

/-- Settles O15: the expansions of O20, each send on GPIO and the wait returning. -/
theorem clearHomeAndShiftsOnGpio : Obligations.ClearHomeAndShiftsOnGpio := by
  intro s ready ret
  obtain ⟨clear, home, left, right, cursorLeft, cursorRight⟩ := clearHomeAndShiftsExpand s
  have waited : ∀ b, continueWith (rawSend b false s) (thenWaited 2000) =
      .next (finished .ok (afterEvents (waitEvent 2000) (afterSend b false s))) := fun b => by
    rw [rawSend_gpio ready ret, continueWith_ok, thenWaited_returns (returns_afterSend ret .ok b false)]
    rfl
  rw [clear, home, left, right, cursorLeft, cursorRight]
  exact ⟨waited _, waited _, rawSend_gpio ready ret _ _, rawSend_gpio ready ret _ _, rawSend_gpio ready ret _ _,
    rawSend_gpio ready ret _ _⟩

/-- Settles O16: each operation's function of `DCB`, stored and sent. -/
theorem displayControlOnGpio : Obligations.DisplayControlOnGpio := by
  intro s ready ret
  have sent : ∀ (i : Instr) (change : BitVec 3 → BitVec 3) (d : BitVec 3), change s.dcb = d →
      displayOperation i (changeDisplayControl change) s =
        .next (finished .ok (afterSend (0x08#8 ||| d.setWidth 8) false { s with dcb := d })) :=
    fun i change d changed => by
    rw [displayOperation_changeDisplayControl, changed]
    exact rawSend_gpio (s := { s with dcb := d }) ready ret _ _
  obtain ⟨⟨on, off⟩, ⟨shown, hidden⟩, blinkOn, blinkOff⟩ := withFlags_eq s.dcb
  exact ⟨sent .displayOn _ _ on, sent .displayOff _ _ off, sent .cursorShow _ _ shown, sent .cursorHide _ _ hidden,
    sent .cursorBlinkOn _ _ blinkOn, sent .cursorBlinkOff _ _ blinkOff⟩

/-- Settles O17: an accepted position is its DDRAM-select, whose sum stays below 0x80. -/
theorem setCursorOnGpio : Obligations.SetCursorOnGpio := by
  intro s row column ready ret geometry row_nonneg row_lt column_nonneg column_lt
  obtain ⟨sent, small⟩ := (setCursorExpands s row column geometry).1 row_nonneg row_lt column_nonneg column_lt
  have byte := ddramSelectByte_eq (o := [0x00, 0x40, 0x14, 0x54].getD row.toNat 0) (c := column.toNat) (by omega)
  rw [sent, ← byte]
  exact rawSend_gpio ready ret _ _

theorem afterData_finished (l : List Byte) (r q : OpResult) (s : State) :
    finished q (afterData l (finished r s)) = finished q (afterData l s) := by
  induction l generalizing s with
  | nil => rfl
  | cons d rest ih => exact ih (afterSend d true s)

/-- R253 on GPIO: each character is sent in the state the one before it left. -/
theorem exec_print_gpio {codePoints : List Nat} (bytes : ∀ c ∈ codePoints, c ≤ 255) {s : State} (ready : ReadyOnGpio s)
    (ret : EventsReturn s) :
    exec (.print codePoints) s = .next (finished .ok (afterData (codePoints.map (BitVec.ofNat 8)) s)) := by
  induction codePoints generalizing s with
  | nil =>
    obtain ⟨mode, op, link⟩ := readyOnGpio_link ready
    exact exec_print_nil ⟨mode, op, by rw [link]; simp⟩
  | cons c rest ih =>
    rw [exec_print_cons bytes, rawSend_gpio ready ret, continueWith_ok,
      ih (fun d hd => bytes d (by simp [hd])) (ready_afterSend ready .ok _ _) (returns_afterSend ret .ok _ _),
      afterData_finished]
    rfl

/-- Settles O18. -/
theorem printOnGpio : Obligations.PrintOnGpio := fun _ _ ready ret bytes => exec_print_gpio bytes ready ret

/-- Settles O19: the CGRAM-select, then the print of the bitmap. -/
theorem defineCustomGlyphOnGpio : Obligations.DefineCustomGlyphOnGpio := by
  intro s slot bitmap ready ret slot_nonneg slot_le short
  have byte : 0x40#8 ||| BitVec.ofNat 8 (8 * slot.toNat) = BitVec.ofNat 8 (0x40 + 8 * slot.toNat) := by
    have small : slot.toNat ≤ 7 := by omega
    generalize slot.toNat = n at small
    interval_cases n <;> rfl
  rw [defineCustomGlyphExpands s slot bitmap slot_nonneg slot_le short, byte, rawSend_gpio ready ret, continueWith_ok,
    exec_print_gpio (bytes_toNat bitmap) (ready_afterSend ready .ok _ _) (returns_afterSend ret .ok _ _),
    map_ofNat_toNat, afterData_finished]

/-! ### What is refused -/

/-- Settles O25: the first code point above 255 is what is wrong with the operand; a pull-up mode passes the acceptance
and then has no step. -/
theorem operandsWithoutEffectAreRefused : Obligations.OperandsWithoutEffectAreRefused := by
  intro s
  refine ⟨fun codePoints c member above => ?_, fun pin ⟨mode, op, transport⟩ => ?_⟩
  · have found : (codePoints.find? (255 < ·)).isSome := List.find?_isSome.mpr ⟨c, member, by simpa using above⟩
    obtain ⟨d, hd⟩ := Option.isSome_iff_exists.mp found
    have formError : (Instr.print codePoints).formError = some (.codePointAbove255 d) := by
      rw [Instr.formError, hd, Option.map_some]
    refine ⟨d, by simpa using List.find?_some hd, List.mem_of_find?_eq_some hd, ?_⟩
    change execPrint codePoints s = _
    rw [execPrint, formError]
  · have offered : offersExpander s.transport = true := by rw [transport]; rfl
    constructor <;> rw [exec, execSetPinMode, hostOperation_ready op mode offered]

end Sys2Proof.Proofs
end

section
/-!
PROOFS. 42_i2c_transport.md: the transfers an I2C send's frames commit, where a send and a nibble end with every write
answered ok and with one that fails, the backlight, the frames presented alone, and the LCD bytes over either transport.
-/

namespace Sys2Proof.Proofs

open Sys2Proof.Machine Sys2Proof.Safety Sys2Proof.Laws

/-! ### What the frames of a send commit -/

/-- R101: a frame's high nibble is what it presents. -/
theorem frame_data {f : Byte} {n : Nibble} (h4 : f[4] = n[0]) (h5 : f[5] = n[1]) (h6 : f[6] = n[2]) (h7 : f[7] = n[3]) :
    f >>> 4 = n.setWidth 8 := by
  apply byte_ext
  simp [h4, h5, h6, h7]

/-- R201: a cycle begun with E low commits its nibble, and ends with E low. -/
theorem i2cTransfers_cycle (g : WriteGranularity) (a : BusAddr) {w : Byte} (low : w[2] = false) (n : Nibble)
    (rs : Level) (rest : List Event) :
    i2cTransfers false (cycleEvents g a w n rs ++ rest) =
      { rs := rs, rw := false, data := n.setWidth 8 } :: i2cTransfers false rest := by
  cases g with
  | perPin =>
    simp only [cycleEvents, pinWrites, cyclePins, waitEvent, writeEvent, List.cons_append, List.nil_append,
      i2cTransfers]
    simp [setBit_bit, restFrame, i2cFrame_bits, low]
    exact frame_data (by simp [setBit_bit]) (by simp [setBit_bit]) (by simp [setBit_bit]) (by simp [setBit_bit])
  | perPhase =>
    obtain ⟨_, _, _, _, h4, h5, h6, h7⟩ := i2cFrame_bits n (w.getLsbD 3) true false rs
    simp only [cycleEvents, waitEvent, writeEvent, List.cons_append, List.nil_append, i2cTransfers]
    simp [restFrame, strobeFrame, i2cFrame_bits]
    exact frame_data h4 h5 h6 h7

/-- R201: a send's two transfers are those of R164. -/
theorem i2cTransfers_send (g : WriteGranularity) (a : BusAddr) {w : Byte} (low : w[2] = false) (b : Byte) (rs : Level) :
    i2cTransfers false (i2cSendEvents g a w b rs) =
      [{ rs := rs, rw := false, data := b >>> 4 }, { rs := rs, rw := false, data := b &&& 0x0F#8 }] := by
  have rests : (restFrame w (b.extractLsb' 4 4) rs)[2] = false := by simp [restFrame, i2cFrame_bits]
  rw [i2cSendEvents, i2cTransfers_cycle g a low, ← List.append_nil (cycleEvents _ _ (restFrame _ _ _) _ _),
    i2cTransfers_cycle g a rests, highNibble_setWidth, lowNibble_setWidth]
  rfl

theorem totalWait_cycle (g : WriteGranularity) (a : BusAddr) (w : Byte) (n : Nibble) (rs : Level) :
    totalWait (cycleEvents g a w n rs) = 40 := by cases g <;> rfl

theorem totalWait_i2cSend (g : WriteGranularity) (a : BusAddr) (w b : Byte) (rs : Level) :
    totalWait (i2cSendEvents g a w b rs) = 80 := by
  rw [i2cSendEvents, totalWait_append, totalWait_cycle, totalWait_cycle]

/-! ### Sends -/

theorem rawSend_i2c_eq {s : State} (ready : ReadyOnI2c s) (b : Byte) (rs : Level) :
    rawSend b rs s = conclude (i2cSend b rs (accept (.i2cSendInstruction b rs) s)) := by
  obtain ⟨⟨mode, op, transport⟩, _⟩ := ready
  rw [rawSend_eq (.i2cSendInstruction b rs), displayOperation_ready op mode (link := .i2c) (by rw [transport]; rfl),
    sendInstruction]

theorem exec_i2cSendInstruction {s : State} (ready : ReadyOnI2c s) (b : Byte) (rs : Level) :
    exec (.i2cSendInstruction b rs) s = rawSend b rs s := by
  have off : onGpio s.transport ≠ true := by rw [ready.1.2.2]; decide
  rw [rawSend, if_neg off]

/-- R192: a raw send with every write answered ok and every event returning. -/
theorem rawSend_i2c {s : State} (ready : ReadyOnI2c s) (ret : EventsReturn s) {rest : List (Reply Unit)}
    (answers : NextWritesOk (2 * cycleWrites s.cfg.granularity) rest s) (b : Byte) (rs : Level) :
    rawSend b rs s = .next (finished .ok (afterI2cSend b rs rest s)) := by
  rw [rawSend_i2c_eq ready, i2cSend_ok (s := accept (.i2cSendInstruction b rs) s) ret (.inr ready.2) answers]
  rfl

/-- Settles O28. -/
theorem i2cSendInstruction : Obligations.I2cSendInstruction := by
  intro s b rs rest ready ret answers
  exact ⟨(exec_i2cSendInstruction ready b rs).trans (rawSend_i2c ready ret answers b rs), totalWait_i2cSend _ _ _ _ _,
    fun low => i2cTransfers_send _ _ low b rs⟩

/-- Settles O14: a byte that decodes is sent as it is, over whichever transport is attached. -/
theorem lcdBytesAreSentAsGiven : Obligations.LcdBytesAreSentAsGiven := by
  intro s rs c i rest decoded
  have raw : exec i s = rawSend c rs s := by rw [exec_lcdByte decoded, rawSend_eq i]
  rw [raw]
  exact ⟨rfl, fun ready ret => rawSend_gpio ready ret c rs, fun ready ret answers => rawSend_i2c ready ret answers c rs⟩

theorem exec_i2cSendNibble (n : Nibble) (rs : Level) (s : State) :
    exec (.i2cSendNibble n rs) s = constructionSteps onI2c (fun s => i2cSendSingle n rs s) s := rfl

/-- Settles O31: one nibble cycle leaves the construction in progress. -/
theorem i2cSendNibble : Obligations.I2cSendNibble := by
  intro s n rs rest
  rw [exec_i2cSendNibble]
  refine ⟨fun ⟨op, mode, transport⟩ outputs ret answers => ?_, constructionSteps_atRest⟩
  rw [constructionSteps_inside op mode (by rw [transport]; rfl), i2cSendSingle_ok ret (.inr outputs) answers]
  rfl

/-! ### The write that fails -/

/-- Where a run of frames ends at write `k`: nothing more is emitted, and `IO_WRITE` is the byte of that write. -/
structure FailedAt (a : BusAddr) (k : Nat) (evs full : List Event) (w : Byte) : Prop where
  initial : evs <+: full
  writes : writeCount evs = k + 1
  last : evs.getLast? = some (.i2cWrite a w)

theorem FailedAt.append_right {a : BusAddr} {k : Nat} {evs full : List Event} {w : Byte} (h : FailedAt a k evs full w)
    (rest : List Event) : FailedAt a k evs (full ++ rest) w :=
  ⟨h.initial.trans (List.prefix_append full rest), h.writes, h.last⟩

theorem FailedAt.append_left {a : BusAddr} {k : Nat} {evs full : List Event} {w : Byte} (h : FailedAt a k evs full w)
    (before : List Event) : FailedAt a (writeCount before + k) (before ++ evs) (before ++ full) w :=
  ⟨(List.prefix_append_right_inj before).mpr h.initial, by rw [writeCount_append, h.writes, Nat.add_assoc],
    by rw [List.getLast?_append, h.last]; rfl⟩

/-- The state a nibble cycle leaves, every write of it answered ok (R193). -/
def afterCycle (n : Nibble) (rs : Level) (rest : List (Reply Unit)) (s : State) : State :=
  { afterWrites (cycleWrites s.cfg.granularity) rest s with
    trace := s.trace ++ cycleEvents s.cfg.granularity s.addr s.ioWrite n rs
    phase := s.phase + cycleWrites s.cfg.granularity + 1
    ioWrite := restFrame s.ioWrite n rs
    nib := some n }

theorem nibbleCycle_ok {n : Nibble} {rs : Level} {s : State} (ret : EventsReturn s) (may : MayWrite s)
    {rest : List (Reply Unit)} (answers : NextWritesOk (cycleWrites s.cfg.granularity) rest s) :
    nibbleCycle n rs s = .ok () (afterCycle n rs rest s) := cycle_ok ret may answers

/-- R198: a nibble cycle ends at its failing write. -/
theorem cycle_failing {n : Nibble} {rs : Level} {s : State} (ret : EventsReturn s) (may : MayWrite s) {k : Nat}
    {cause : Cause} {rest : List (Reply Unit)} (hk : k < cycleWrites s.cfg.granularity)
    (answers : s.env.writes = List.replicate k (.answer ()) ++ .failure cause :: rest) :
    ∃ evs w p, FailedAt s.addr k evs (cycleEvents s.cfg.granularity s.addr s.ioWrite n rs) w ∧
      nibbleCycle n rs s = .fail (.transportError cause) { afterWrites (k + 1) rest s with
        trace := s.trace ++ evs, phase := p, ioWrite := w, nib := some n } := by
  obtain ⟨before, after, w, split, count, run⟩ := runEvents_failing (s := latchNibble n s) ret
    (onlyFrames_cycle s.cfg.granularity s.addr s.ioWrite n rs) (by rw [writeCount_cycle]; exact hk) answers
  refine ⟨before ++ writeEvent s.addr w, w, s.phase + before.length + 1, ⟨⟨after, ?_⟩, ?_, ?_⟩, ?_⟩
  · rw [split]
    simp [writeEvent]
  · rw [writeCount_append, count]
    rfl
  · simp [writeEvent]
  · rw [nibbleCycle_eq n rs s may, run]
    simp [afterWrites, latchNibble]

/-- R198: a send ends at its failing write, in the first cycle or the second. -/
theorem i2cSend_failing {b : Byte} {rs : Level} {s : State} (ret : EventsReturn s) (may : MayWrite s) {k : Nat}
    {cause : Cause} {rest : List (Reply Unit)} (hk : k < 2 * cycleWrites s.cfg.granularity)
    (answers : s.env.writes = List.replicate k (.answer ()) ++ .failure cause :: rest) :
    ∃ evs w p, FailedAt s.addr k evs (i2cSendEvents s.cfg.granularity s.addr s.ioWrite b rs) w ∧
      i2cSend b rs s = .fail (.transportError cause) { afterWrites (k + 1) rest s with
        trace := s.trace ++ evs
        phase := p
        sent := s.sent ++ [.byte b rs]
        ioWrite := w
        ib := some b
        rsel := some rs
        nib := some (if k < cycleWrites s.cfg.granularity then b.extractLsb' 4 4 else b.extractLsb' 0 4) } := by
  by_cases first : k < cycleWrites s.cfg.granularity
  · obtain ⟨evs, w, p, failed, run⟩ := cycle_failing (n := highNibble b) (rs := rs) (s := latchByte b rs s) ret may
      first answers
    refine ⟨evs, w, p, failed.append_right _, ?_⟩
    rw [i2cSend, run, andThen_fail, if_pos first]
    rfl
  · have later : k - cycleWrites s.cfg.granularity < cycleWrites s.cfg.granularity := by omega
    have split : NextWritesOk (cycleWrites s.cfg.granularity)
        (List.replicate (k - cycleWrites s.cfg.granularity) (.answer ()) ++ .failure cause :: rest) s := by
      rw [NextWritesOk, answers, ← List.append_assoc, ← List.replicate_add, Nat.add_sub_cancel' (by omega)]
    obtain ⟨evs, w, p, failed, run⟩ := cycle_failing (n := lowNibble b) (rs := rs) (rest := rest) (cause := cause)
      (s := afterCycle (highNibble b) rs
        (List.replicate (k - cycleWrites s.cfg.granularity) (.answer ()) ++ .failure cause :: rest) (latchByte b rs s))
      (eventsReturn_later ret rfl (by simp [afterCycle])) may later rfl
    have second := failed.append_left (cycleEvents s.cfg.granularity s.addr s.ioWrite (highNibble b) rs)
    rw [writeCount_cycle, Nat.add_sub_cancel' (by omega)] at second
    refine ⟨cycleEvents s.cfg.granularity s.addr s.ioWrite (highNibble b) rs ++ evs, w, p, second, ?_⟩
    rw [i2cSend, nibbleCycle_ok (s := latchByte b rs s) ret may split, andThen_ok, run, if_neg first]
    simp [afterCycle, afterWrites, latchByte, lowNibble]
    omega

/-- Settles O29. -/
theorem i2cSendEndsAtTheFailingWrite : Obligations.I2cSendEndsAtTheFailingWrite := by
  intro s b rs k cause rest ready ret hk answers
  obtain ⟨evs, w, p, failed, run⟩ := i2cSend_failing (b := b) (rs := rs) (s := accept (.i2cSendInstruction b rs) s) ret
    (.inr ready.2) hk answers
  refine ⟨evs, w, ?_, rfl, failed.initial, failed.writes, failed.last⟩
  rw [exec_i2cSendInstruction ready, rawSend_i2c_eq ready, run]
  rfl

/-! ### The backlight -/

/-- R109, R196: bit 3 of the shadow at the level given. -/
theorem setBit_backlight (w : Byte) (v : Level) :
    setBit w 3 v = (w &&& 0xF7#8) ||| (if v then 0x08#8 else 0x00#8) := rfl

/-- An operation that ends with its one write, answered ok. -/
theorem conclude_busWrite_ok {b : Byte} {s : State} {rest : List (Reply Unit)}
    (answer : s.env.writes = .answer () :: rest) :
    conclude (busWrite b s) =
      .next (finished .ok { afterWrites 1 rest s with trace := s.trace ++ writeEvent s.addr b }) := by
  rw [busWrite_ok answer]
  rfl

/-- An operation that ends with its one write, failing. -/
theorem conclude_busWrite_failure {b : Byte} {s : State} {rest : List (Reply Unit)} {cause : Cause}
    (answer : s.env.writes = .failure cause :: rest) :
    conclude (busWrite b s) = .next (finished (.fail (.transportError cause))
      { afterWrites 1 rest s with trace := s.trace ++ writeEvent s.addr b }) := by
  rw [busWrite_failure answer]
  rfl

theorem exec_gpioBacklight {s : State} (mode : s.mode = .ready) (op : s.op = none) (gpio : onGpio s.transport = true)
    (v : Level) :
    exec (.gpioBacklight v) s = if s.cfg.hasBlPin then
      .next (finished .ok { s with trace := s.trace ++ [.blSet v], bl := some v }) else .refused .noBacklightPin := by
  rw [exec, execGpioBacklight, hostOperation_ready op mode gpio]
  rfl

theorem exec_i2cBacklight {s : State} (ready : ReadyOnI2c s) (v : Level) :
    exec (.i2cBacklight v) s = conclude (writeLevels (setBit s.ioWrite 3 v) (accept (.i2cBacklight v) s)) := by
  obtain ⟨⟨mode, op, transport⟩, outputs⟩ := ready
  have may : MayWrite (accept (.i2cBacklight v) s) := .inr outputs
  rw [exec, execI2cBacklight, hostOperation_ready op mode (by rw [transport]; rfl), changePin_eq (by decide) may]
  rfl

/-- Settles O30. -/
theorem backlightOnEitherTransport : Obligations.BacklightOnEitherTransport := by
  intro s v rest
  refine ⟨fun ready => ?_, fun ready => ?_⟩
  · obtain ⟨mode, op, gpio⟩ : s.mode = .ready ∧ s.op = none ∧ onGpio s.transport = true := by
      rcases ready with ⟨mode, op, transport⟩ | ⟨mode, op, transport⟩ <;> exact ⟨mode, op, by rw [transport]; rfl⟩
    rw [exec_gpioBacklight mode op gpio]
    exact ⟨fun has => by rw [if_pos has], fun hasNot => by rw [hasNot]; rfl⟩
  · rw [exec_i2cBacklight ready, ← setBit_backlight]
    exact ⟨fun answer => conclude_busWrite_ok (s := { accept (.i2cBacklight v) s with ioWrite := _ }) answer,
      fun cause answer => conclude_busWrite_failure (s := { accept (.i2cBacklight v) s with ioWrite := _ }) answer⟩

/-! ### Frames presented alone -/

/-- R16, R305: a failing step ends the operation it is a step of, in its mode's way. -/
theorem concludeInline_fail (f : Failure) (s : State) : concludeInline (.fail f s) =
    .next (finished (.fail f) (if s.mode = .constructing then discardRegisters s else s)) := by
  rw [concludeInline]
  split <;> rfl

theorem exec_frameI2c {s : State} (inside : InsideOperation s) {rw : Level}
    (carried : s.transport = some .expanderOnly ∨ (s.transport = some .i2c ∧ rw = false)) (n : Nibble)
    (bl e rs : Level) :
    exec (.frameI2c n bl e rw rs) s =
      concludeInline (busWrite (i2cFrame n bl e rw rs) { s with ioWrite := i2cFrame n bl e rw rs }) := by
  have offered : (holdsBus s.transport && !(s.transport == some .i2c && rw)) = true := by
    rcases carried with h | ⟨h, h'⟩ <;> simp [h, holdsBus]
    exact h'
  rw [exec, execFrameI2c, inlineSteps_inside inside offered]
  rfl

theorem exec_frameI2cConfig {s : State} (inside : InsideOperation s) {c : Byte}
    (carried : s.transport = some .expanderOnly ∨ (s.transport = some .i2c ∧ c = 0x00#8)) :
    exec (.frameI2cConfig c) s = concludeInline (busWrite c { s with ioConfig := c }) := by
  have offered : (holdsBus s.transport && !(s.transport == some .i2c && c != 0x00#8)) = true := by
    rcases carried with h | ⟨h, h'⟩ <;> simp [h, holdsBus]
    exact h'
  rw [exec, execFrameI2cConfig, inlineSteps_inside inside offered]

/-- Settles O32: a frame is one write of its register, in line. -/
theorem framesWriteTheirRegister : Obligations.FramesWriteTheirRegister := by
  intro s n bl e rw rs c rest inside
  refine ⟨fun carried => ?_, fun carried => ?_⟩
  · rw [exec_frameI2c inside carried]
    let written := { s with ioWrite := i2cFrame n bl e rw rs }
    exact ⟨fun answer => congrArg concludeInline (busWrite_ok (s := written) answer),
      fun cause answer =>
        (congrArg concludeInline (busWrite_failure (s := written) answer)).trans (concludeInline_fail _ _)⟩
  · rw [exec_frameI2cConfig inside carried]
    let written := { s with ioConfig := c }
    exact ⟨fun answer => congrArg concludeInline (busWrite_ok (s := written) answer),
      fun cause answer =>
        (congrArg concludeInline (busWrite_failure (s := written) answer)).trans (concludeInline_fail _ _)⟩

end Sys2Proof.Proofs
end

section
/-!
PROOFS. 40_port_expander.md: the three pin operations, `release` and the construction of the expander alone.
-/

namespace Sys2Proof.Proofs

open Sys2Proof.Machine Sys2Proof.Safety Sys2Proof.Laws

/-! ### Pin operations -/

theorem legalPin_of_le {pin : Int} (nonneg : 0 ≤ pin) (le : pin ≤ 7) : legalPin pin = true :=
  decide_eq_true ⟨nonneg, le⟩

/-- R134: one write of `IO_CONFIG` with the direction of this pin. -/
theorem exec_setPinMode_write {s : State} (ready : ReadyIn .expanderOnly s) {pin : Int} (legal : legalPin pin = true)
    (input : Bool) :
    let i := Instr.setPinMode pin (if input then .input else .output)
    exec i s = conclude (busWrite (setBit s.ioConfig pin.toNat input)
      { accept i s with ioConfig := setBit s.ioConfig pin.toNat input }) := by
  refine (exec_setPinMode_ready ready pin input).trans ?_
  rw [changePinMode_eq legal]
  rfl

/-- R135: one write of `IO_WRITE` with the level of this pin. -/
theorem exec_writePin_write {s : State} (ready : ReadyIn .expanderOnly s) {pin : Int} (legal : legalPin pin = true)
    (allowed : s.cfg.pinModePolicy = .permissive ∨ s.ioConfig.getLsbD pin.toNat = false) (v : Level) :
    exec (.writePin pin v) s = conclude (busWrite (setBit s.ioWrite pin.toNat v)
      { accept (.writePin pin v) s with ioWrite := setBit s.ioWrite pin.toNat v }) := by
  rw [exec_writePin_ready ready, changePin_allowed (s := accept (.writePin pin v) s) legal allowed]
  rfl

/-- R135, `strict`: the direction check fails. -/
theorem changePin_forbidden {pin : Int} (legal : legalPin pin = true) {s : State}
    (forbidden : ¬(s.cfg.pinModePolicy = .permissive ∨ s.ioConfig.getLsbD pin.toNat = false)) (v : Level) :
    changePin pin v s = .fail (.notConfiguredAsOutput pin) s := by
  have check : (decide (s.cfg.pinModePolicy = .permissive) || !s.ioConfig.getLsbD pin.toNat) = false := by
    simpa using forbidden
  simp [changePin, legal, check]

/-- Settles O33. -/
theorem setPinModeWritesDirections : Obligations.SetPinModeWritesDirections := by
  intro s pin input rest ready
  refine ⟨fun nonneg le answer => ?_, fun cause nonneg le answer => ?_, fun outside => ?_⟩
  · rw [exec_setPinMode_write ready (legalPin_of_le nonneg le)]
    exact conclude_busWrite_ok (s := { accept _ s with ioConfig := _ }) answer
  · rw [exec_setPinMode_write ready (legalPin_of_le nonneg le)]
    exact conclude_busWrite_failure (s := { accept _ s with ioConfig := _ }) answer
  · exact exec_setPinMode_outside ready (legalPin_eq_false outside) input

/-- Settles O34. -/
theorem writePinWritesLevels : Obligations.WritePinWritesLevels := by
  intro s pin v rest ready
  refine ⟨fun nonneg le allowed answer => ?_, fun cause nonneg le allowed answer => ?_,
    fun nonneg le forbidden => ⟨?_, rfl⟩, fun outside => exec_writePin_outside ready (legalPin_eq_false outside) v⟩
  · rw [exec_writePin_write ready (legalPin_of_le nonneg le) allowed]
    exact conclude_busWrite_ok (s := { accept _ s with ioWrite := _ }) answer
  · rw [exec_writePin_write ready (legalPin_of_le nonneg le) allowed]
    exact conclude_busWrite_failure (s := { accept _ s with ioWrite := _ }) answer
  · rw [exec_writePin_ready ready, changePin_forbidden (s := accept _ s) (legalPin_of_le nonneg le) forbidden,
      conclude_fail_accept]

/-- R136: the requested bit of one read. -/
theorem samplePin_allowed {pin : Int} (legal : legalPin pin = true) {s : State}
    (allowed : s.cfg.pinModePolicy = .permissive ∨ s.ioConfig.getLsbD pin.toNat = true) :
    samplePin pin s = (busRead s).bind fun status t => .ok (statusBit status pin.toNat) t := by
  have check : (decide (s.cfg.pinModePolicy = .permissive) || s.ioConfig.getLsbD pin.toNat) = true := by
    rcases allowed with h | h <;> simp [h]
  simp [samplePin, legal, check]

theorem samplePin_forbidden {pin : Int} (legal : legalPin pin = true) {s : State}
    (forbidden : ¬(s.cfg.pinModePolicy = .permissive ∨ s.ioConfig.getLsbD pin.toNat = true)) :
    samplePin pin s = .fail (.notConfiguredAsInput pin) s := by
  have check : (decide (s.cfg.pinModePolicy = .permissive) || s.ioConfig.getLsbD pin.toNat) = false := by
    simpa using forbidden
  simp [samplePin, legal, check]

/-- R109: the bit of a status byte, in the spec's form. -/
theorem statusBit_eq (status : Byte) {i : Nat} (hi : i ≤ 7) : statusBit status i = ((status >>> i) &&& 1#8 == 1#8) := by
  have bits : ∀ i ≤ 7, ∀ status : Byte, statusBit status i = ((status >>> i) &&& 1#8 == 1#8) := by decide
  exact bits i hi status

/-- Settles O35. -/
theorem readPinReturnsTheStatusBit : Obligations.ReadPinReturnsTheStatusBit := by
  intro s pin rest ready
  rw [exec_readPin_ready ready]
  refine ⟨fun status nonneg le allowed answer => ?_, fun cause nonneg le allowed answer => ?_,
    fun nonneg le forbidden => ⟨?_, rfl⟩, fun outside => ?_⟩
  · rw [samplePin_allowed (s := accept _ s) (legalPin_of_le nonneg le) allowed, busRead_cons (s := accept _ s) answer,
      settle_answer, bind_ok, statusBit_eq status (by omega)]
    rfl
  · rw [samplePin_allowed (s := accept _ s) (legalPin_of_le nonneg le) allowed, busRead_cons (s := accept _ s) answer,
      settle_failure, bind_fail]
    rfl
  · rw [samplePin_forbidden (s := accept _ s) (legalPin_of_le nonneg le) forbidden, concludeValue_fail_accept]
  · rw [samplePin_outside (legalPin_eq_false outside), concludeValue_fail_accept]

/-- R140: setting a bit leaves the others. -/
theorem setBit_getLsbD (x : Byte) {p q : Nat} (hp : p ≤ 7) (hq : q ≤ 7) (v : Level) :
    (setBit x p v).getLsbD q = if q = p then v else x.getLsbD q := by
  have hq' : q < 8 := by omega
  rw [BitVec.getLsbD_eq_getElem hq', BitVec.getLsbD_eq_getElem hq']
  exact setBit_bit x (by omega) hq' v

/-- Settles O38: the byte written is the register with one bit set, of which O33 and O34 say the rest. -/
theorem writesPreserveUnrelatedBits : Obligations.WritesPreserveUnrelatedBits := by
  intro s p q v rest ready hp hq distinct answer
  have same : ∀ x : Byte, (setBit x p v).getLsbD p = v := fun x => by rw [setBit_getLsbD x hp hp, if_pos rfl]
  have other : ∀ x : Byte, (setBit x p v).getLsbD q = x.getLsbD q := fun x => by
    rw [setBit_getLsbD x hp hq, if_neg distinct]
  refine ⟨fun allowed => ?_, ?_⟩
  · exact ⟨_, (writePinWritesLevels s p v rest ready).1 (by omega) (by omega) allowed answer, rfl, same _,
      other _, rfl, rfl⟩
  · exact ⟨_, (setPinModeWritesDirections s p v rest ready).1 (by omega) (by omega) answer, rfl, same _,
      other _, rfl, rfl⟩

/-! ### Release -/

theorem exec_release {s : State} (op : s.op = none) (mode : s.mode = .ready ∨ s.mode = .released)
    (bus : holdsBus s.transport = true) : exec .release s = conclude (releaseBus (accept .release s)) := by
  have accepted : ¬(s.mode ≠ .ready ∧ s.mode ≠ .released) := by rcases mode with h | h <;> simp [h]
  rw [exec, execRelease, op, Option.isSome_none, if_neg Bool.false_ne_true, if_neg accepted, if_pos bus]

theorem holdsBus_of_or {t : Option Transport} (h : t = some .i2c ∨ t = some .expanderOnly) : holdsBus t = true := by
  rcases h with rfl | rfl <;> rfl

/-- R138: the first call, whose `BusRelease` returns or never does (R346). -/
theorem exec_release_first {s : State} (op : s.op = none) (mode : s.mode = .ready ∨ s.mode = .released)
    (bus : holdsBus s.transport = true) (held : s.released = false) :
    exec .release s = if s.hangs = some s.trace.length then .fault .eventNeverReturns else
      .next (finished .ok { s with trace := s.trace ++ [.busRelease], released := true, mode := .released }) := by
  have notYet : (accept .release s).released = false := held
  rw [exec_release op mode bus, releaseBus, notYet, if_neg Bool.false_ne_true, emitReturning, accept_hangs,
    accept_trace]
  by_cases never : s.hangs = some s.trace.length
  · rw [if_pos never, if_pos never]
    rfl
  · rw [if_neg never, if_neg never]
    rfl

/-- R138: every call after it. -/
theorem exec_release_again {s : State} (op : s.op = none) (mode : s.mode = .ready ∨ s.mode = .released)
    (bus : holdsBus s.transport = true) (gone : s.released = true) :
    exec .release s = .next (finished .ok { s with mode := .released }) := by
  have already : (accept .release s).released = true := gone
  rw [exec_release op mode bus, releaseBus, already, if_pos rfl]
  rfl

/-- Settles O36: `RELEASED` records the first call, after which a call changes nothing but the mode, and
then nothing. -/
theorem releaseIsExactlyOnce : Obligations.ReleaseIsExactlyOnce := by
  intro s op mode transport
  have bus := holdsBus_of_or transport
  refine ⟨fun held returns => ?_, fun held never => ?_, exec_release_again op mode bus, fun t step => ?_⟩
  · rw [exec_release_first op mode bus held, if_neg returns]
  · rw [exec_release_first op mode bus held, if_pos never]
  · cases held : s.released with
    | true =>
      rw [exec_release_again op mode bus held] at step
      cases step
      exact exec_release_again rfl (.inr rfl) bus held
    | false =>
      rw [exec_release_first op mode bus held] at step
      split at step
      · cases step
      · cases step
        exact exec_release_again rfl (.inr rfl) bus rfl

/-! ### The expander alone -/

theorem exec_portExpanderConstruct {s : State} (op : s.op = none) (mode : s.mode = .unconstructed) (bus : BusHandle)
    (address : Int) :
    exec (.portExpanderConstruct bus address) s = concludeConstruction
      ((attachExpander address (startConstruction (.portExpanderConstruct bus address) s)).andThen fun s =>
        .ok () { s with transport := some .expanderOnly }) := by
  rw [exec, execPortExpanderConstruct, construction_start op mode]

/-- R131: the range check precedes every event. -/
theorem attachExpander_illegal {address : Int} {s : State} (illegal : ¬legalAddress s.cfg.addrPolicy address = true) :
    attachExpander address s = .fail (.invalidAddress address) s := by
  rw [attachExpander, Bool.eq_false_iff.mpr illegal, require_false, andThen_fail]

/-- R132: past it, one scan. -/
theorem attachExpander_scan {address : Int} {s : State} (legal : legalAddress s.cfg.addrPolicy address = true)
    {answer : Reply (List BusAddr)} {rest : List (Reply (List BusAddr))} (next : s.env.scans = answer :: rest) :
    attachExpander address s = (settle answer { s with
      trace := s.trace ++ [.i2cScan], phase := s.phase + 1
      env := { s.env with scans := rest, draws := s.env.draws + 1 } }).bind fun found s =>
        (require (found.contains (BitVec.ofInt 7 address)) (.deviceNotFound address) s).andThen fun s =>
          .ok () { s with
            addr := BitVec.ofInt 7 address, ioConfig := 0x00#8, ioWrite := 0x00#8, released := false } := by
  rw [attachExpander, legal, require_true, andThen_ok, busScan_cons next]

/-- Settles O40: the checks of R131 and R132 in their order, with the scan between them. -/
theorem portExpanderConstruct : Obligations.PortExpanderConstruct := by
  intro s bus address rest mode op
  rw [exec_portExpanderConstruct op mode]
  generalize hs1 : startConstruction (.portExpanderConstruct bus address) s = s1
  have policy : s1.cfg.addrPolicy = s.cfg.addrPolicy := by rw [← hs1]; rfl
  have range := legalAddress_iff (p := s1.cfg.addrPolicy) (a := address)
  rw [policy] at range
  have scan : ∀ {answer}, s.env.scans = answer :: rest → s1.env.scans = answer :: rest := fun next => by
    rw [← hs1]
    exact next
  refine ⟨fun illegal => ⟨?_, rfl⟩, fun found legal next here => ?_, fun found legal next missing => ⟨?_, rfl⟩,
    fun cause legal next => ⟨?_, rfl⟩⟩
  · rw [attachExpander_illegal (by rw [policy, range]; exact illegal), andThen_fail, ← hs1]
    rfl
  · rw [attachExpander_scan (by rw [policy, range]; exact legal) (scan next), settle_answer, bind_ok,
      List.contains_iff_mem.mpr here, require_true, andThen_ok, andThen_ok, ← hs1]
    rfl
  · have absent : found.contains (BitVec.ofInt 7 address) = false := by simpa using missing
    rw [attachExpander_scan (by rw [policy, range]; exact legal) (scan next), settle_answer, bind_ok, absent,
      require_false, andThen_fail, andThen_fail, ← hs1]
    rfl
  · rw [attachExpander_scan (by rw [policy, range]; exact legal) (scan next), settle_failure, bind_fail, andThen_fail,
      ← hs1]
    rfl

end Sys2Proof.Proofs
end

section
/-!
PROOFS. 43_display_init.md: `initialise`, in line in a construction, and the construction over GPIO.
-/

namespace Sys2Proof.Proofs

open Sys2Proof.Machine Sys2Proof.Safety Sys2Proof.Laws

/-! ### Initialise -/

theorem exec_initialise_atRest {s : State} (rest : s.op = none) :
    exec .initialise s = .refused .noOperationInProgress := by
  rw [exec, execInitialise, rest, Option.isNone_none, if_pos rfl]

/-- R305: a step that fails inside a construction discards what it wrote. -/
theorem concludeInline_left {s u : State} {n : Nat} {rest : List (Reply Unit)} {evs : List Event} {sent : List Sent}
    {c : Cause} (constructing : s.mode = .constructing) (left : Left s u n rest evs sent) :
    concludeInline (.fail (.transportError c) u) =
      .next (finished (.fail (.transportError c)) (discardRegisters { afterWrites n rest s with
        trace := s.trace ++ evs
        sent := s.sent ++ sent })) := by
  rw [concludeInline, if_pos (left.1.trans constructing), takeConstructionFailure_left left]

/-- Settles O46: the sequence of R222, in line in the construction that calls it. -/
theorem initialise : Obligations.Initialise := by
  intro s rest
  refine ⟨exec_initialise_atRest, fun running constructing geometry => ?_⟩
  rw [← functionSetByte_eq]
  refine ⟨fun kind ret => ?_, fun transport width outputs ret => ⟨fun answers => ?_, fun k cause hk answers => ?_⟩⟩
  · obtain ⟨t, transport, carries, width⟩ :
        ∃ t, s.transport = some t ∧ linkOf (some t) = some .gpio ∧ (s.width = 8 ∨ s.width = 4) := by
      rcases kind with ⟨h, w⟩ | ⟨h, w⟩
      · exact ⟨_, h, rfl, .inl w⟩
      · exact ⟨_, h, rfl, .inr w⟩
    rw [exec_initialise_inside ⟨running, constructing, transport⟩ carries geometry, runInitialise_gpio ret width]
    rfl
  · rw [exec_initialise_inside ⟨running, constructing, transport⟩ rfl geometry,
      runInitialise_i2c ret width (.inr outputs) answers]
    rfl
  · obtain ⟨u, evs, sent, run, left, ⟨initial, writes, f, last⟩, entries⟩ :=
      runInitialise_cut ret width (.inr outputs) hk answers
    refine ⟨evs, sent, f, ?_, initial, writes, last, entries⟩
    rw [exec_initialise_inside ⟨running, constructing, transport⟩ rfl geometry, run,
      concludeInline_left constructing left]

/-! ### Over GPIO -/

theorem exec_constructOverGpio {s : State} (op : s.op = none) (mode : s.mode = .unconstructed) (pinList : List PinId)
    (rows columns : Int) (font : Option Font) :
    exec (.constructOverGpio pinList rows columns font) s = concludeConstruction
      (composeGpio pinList rows columns font (startConstruction (.constructOverGpio pinList rows columns font) s)) := by
  rw [exec, execConstructOverGpio, construction_start op mode]

theorem totalWait_waitEvent (t : Nat) : totalWait (waitEvent t) = t := rfl

theorem totalWait_byte8 (b : Byte) (rs : Level) : totalWait (byte8Events b rs) = 80 := rfl

theorem totalWait_byte4 (b : Byte) (rs : Level) : totalWait (byte4Events b rs) = 160 := rfl

theorem totalWait_select (rs : Level) : totalWait (selectEvents rs) = 0 := rfl

theorem totalWait_nibble (n : Nibble) : totalWait (nibbleEvents n) = 80 := rfl

/-- R230, R345: the events of the sequence and its waiting, with `WIDTH` 8. -/
theorem initEvents_counts8 (fs : Byte) : (initEvents 8 fs).length = 109 ∧ totalWait (initEvents 8 fs) = 57660 := by
  refine ⟨rfl, ?_⟩
  simp only [initEvents, legacyEvents, sendEvents, if_true, totalWait_append, totalWait_waitEvent, totalWait_byte8]

/-- With `WIDTH` 4. -/
theorem initEvents_counts4 (fs : Byte) : (initEvents 4 fs).length = 117 ∧ totalWait (initEvents 4 fs) = 57980 := by
  have four : ¬4 = 8 := by decide
  refine ⟨rfl, ?_⟩
  simp only [initEvents, legacyEvents, sendEvents, if_neg four, totalWait_append, totalWait_waitEvent, totalWait_byte4,
    totalWait_select, totalWait_nibble]

/-- Settles O41: the checks pass, and the rest is the initialisation with the registers written. -/
theorem constructOverGpio : Obligations.ConstructOverGpio := by
  intro s pinList rows columns font mode op ret geometry count
  refine ⟨?_, (initEvents_counts8 _).1, (initEvents_counts4 _).1, (initEvents_counts8 _).2, (initEvents_counts4 _).2⟩
  have legal : legalPinCount pinList.length = true := by rcases count with h | h <;> rw [h] <;> rfl
  have byte : 0x20#8 ||| (if pinList.length = 7 then 0x00#8 else 0x10#8) ||| (if rows = 1 then 0x00#8 else 0x08#8)
      ||| (if font = some .font5x10 then 0x04#8 else 0x00#8) =
      functionSetByte (if pinList.length = 7 then 4 else 8) (lineFlagOf rows.toNat) (fontOrDefault font) := by
    rw [functionSetByte_geometry geometry]
    rcases count with h | h <;> simp [h]
  rw [exec_constructOverGpio op mode, composeGpio_eq font _ geometry legal, byte, ← lineFlagOf_toNat geometry]
  rcases count with seven | eleven
  · simp only [if_pos seven]
    rw [runInitialise_gpio (s := writeGeometry rows columns font { startConstruction _ s with
      pinList := pinList, transport := some .gpio4, width := 4 }) ret (.inr rfl)]
    rfl
  · have notSeven : ¬pinList.length = 7 := by omega
    simp only [if_neg notSeven]
    rw [runInitialise_gpio (s := writeGeometry rows columns font { startConstruction _ s with
      pinList := pinList, transport := some .gpio8, width := 8 }) ret (.inl rfl)]
    rfl

end Sys2Proof.Proofs
end

section
/-!
PROOFS. 42_i2c_transport.md R190, 60_exceptions.md sections 3 and 6: the construction over I2C, and the failures of the
constructions over either transport.
-/

namespace Sys2Proof.Proofs

open Sys2Proof.Machine Sys2Proof.Safety Sys2Proof.Laws

theorem exec_i2cTransportConstruct {s : State} (op : s.op = none) (mode : s.mode = .unconstructed) (bus : BusHandle)
    (address rows columns : Int) (font : Option Font) :
    exec (.i2cTransportConstruct bus address rows columns font) s = concludeConstruction (composeI2c address rows
      columns font (startConstruction (.i2cTransportConstruct bus address rows columns font) s)) := by
  rw [exec, execI2cTransportConstruct, construction_start op mode]

/-- R221, R226: the function set on a 4-bit transport. -/
theorem functionSetByte_four {rows columns : Int} (geometry : legalGeometry rows columns = true) (font : Option Font) :
    functionSetByte 4 (lineFlagOf rows.toNat) (fontOrDefault font) =
      0x20#8 ||| (if rows = 1 then 0x00#8 else 0x08#8) ||| (if font = some .font5x10 then 0x04#8 else 0x00#8) := by
  rw [functionSetByte_geometry geometry, if_neg (by decide)]
  rfl

/-! ### Every bus event answered -/

theorem length_i2cInit (a : BusAddr) (fs : Byte) :
    (i2cInitEvents .perPin a 0x00#8 fs).length = 103 ∧ (i2cInitEvents .perPhase a 0x00#8 fs).length = 48 := ⟨rfl, rfl⟩

theorem totalWait_i2cInit (g : WriteGranularity) (a : BusAddr) (w fs : Byte) :
    totalWait (i2cInitEvents g a w fs) = 57540 := by
  simp only [i2cInitEvents, totalWait_append, totalWait_waitEvent, totalWait_cycle, totalWait_i2cSend]

/-- R190: `s` with the scan and the eight direction writes behind it, every pin an output and low. -/
def outputsMade (a : BusAddr) (scans : List (Reply (List BusAddr))) (writes : List (Reply Unit)) (phase : Nat)
    (s : State) : State :=
  { s with
    trace := s.trace ++ [.i2cScan] ++ List.replicate 8 (.i2cWrite a 0x00#8), phase := phase
    env := { s.env with scans := scans, writes := writes, draws := s.env.draws + 1 + 8 }
    addr := a, ioConfig := 0x00#8, ioWrite := 0x00#8, released := false }

theorem makeOutputs_scanned {s : State} {scans : List (Reply (List BusAddr))} {rest : List (Reply Unit)} {n : Nat}
    (a : BusAddr) (answers : NextWritesOk (8 + n) rest s) :
    ∃ p, makeOutputs [0, 1, 2, 3, 4, 5, 6, 7] { s with
        trace := s.trace ++ [.i2cScan], phase := s.phase + 1
        env := { s.env with scans := scans, draws := s.env.draws + 1 }
        addr := a, ioConfig := 0x00#8, ioWrite := 0x00#8, released := false } =
      .ok () (outputsMade a scans (List.replicate n (.answer ()) ++ rest) p s) :=
  makeOutputs_ok [0, 1, 2, 3, 4, 5, 6, 7] (by decide) { s with
    trace := s.trace ++ [.i2cScan], phase := s.phase + 1
    env := { s.env with scans := scans, draws := s.env.draws + 1 }
    addr := a, ioConfig := 0x00#8, ioWrite := 0x00#8, released := false } rfl
    (by rw [NextWritesOk, ← List.append_assoc, List.replicate_append_replicate]; exact answers)

/-- Settles O43: past the scan come the eight direction writes and the initialisation. -/
theorem constructOverI2c : Obligations.ConstructOverI2c := by
  intro s bus address rows columns font found scans rest mode op ret geometry legal scan here answers
  refine ⟨?_, (length_i2cInit _ _).1, (length_i2cInit _ _).2, totalWait_i2cInit _ _ _ _⟩
  let started := startConstruction (.i2cTransportConstruct bus address rows columns font) s
  obtain ⟨p, outputs⟩ := makeOutputs_scanned (s := started) (scans := scans) (BitVec.ofInt 7 address) answers
  let written := writeGeometry rows columns font { outputsMade (BitVec.ofInt 7 address) scans
    (List.replicate (11 * cycleWrites s.cfg.granularity) (.answer ()) ++ rest) p started with
    transport := some .i2c, width := 4 }
  have returns : EventsReturn written := eventsReturn_later ret rfl
    (by simp [written, writeGeometry, outputsMade, started, startConstruction])
  have low : restFrame written.ioWrite 0x6#4 false = 0x60#8 := (rfl : restFrame 0x00#8 0x6#4 false = 0x60#8)
  rw [exec_i2cTransportConstruct op mode, composeI2c_scanned (s := started) font geometry legal scan here, outputs,
    andThen_ok, runInitialise_i2c (s := written) (rest := rest) returns rfl (.inr rfl) rfl, low,
    ← lineFlagOf_toNat geometry, ← functionSetByte_four geometry, ← Nat.add_assoc (s.env.draws + 1) 8]
  rfl

/-! ### Failures -/

theorem composeGpio_geometry {rows columns : Int} (illegal : legalGeometry rows columns = false) (pinList : List PinId)
    (font : Option Font) (s : State) :
    composeGpio pinList rows columns font s = .fail (.invalidGeometry rows columns) s := by
  rw [composeGpio, checkGeometry, illegal, require_false, andThen_fail]

theorem composeGpio_pinCount {rows columns : Int} (geometry : legalGeometry rows columns = true) {pinList : List PinId}
    (illegal : legalPinCount pinList.length = false) (font : Option Font) (s : State) :
    composeGpio pinList rows columns font s = .fail (.invalidPinCount pinList.length) s := by
  rw [composeGpio, checkGeometry, geometry, require_true, andThen_ok, attachGpio, checkPinCount, illegal, require_false,
    andThen_fail, andThen_fail]

theorem composeI2c_geometry {rows columns : Int} (illegal : legalGeometry rows columns = false) (address : Int)
    (font : Option Font) (s : State) :
    composeI2c address rows columns font s = .fail (.invalidGeometry rows columns) s := by
  rw [composeI2c, checkGeometry, illegal, require_false, andThen_fail]

/-- Settles O42: the geometry is checked first, then the pin list or the address; past the scan the first write that
fails ends the construction. -/
theorem constructionRejections : Obligations.ConstructionRejections := by
  intro s pinList bus address rows columns font scans mode op
  rw [exec_constructOverGpio op mode, exec_i2cTransportConstruct op mode, ← legalGeometry_iff, ← legalAddress_iff]
  refine ⟨fun illegal => ?_, fun geometry notSeven notEleven => ⟨?_, rfl⟩, fun geometry illegal => ⟨?_, rfl⟩,
    fun found geometry legal scan missing => ⟨?_, rfl⟩, fun cause => ⟨rfl, fun geometry legal scan => ?_⟩,
    fun found k cause rest ret geometry legal scan here hk answers => ?_⟩
  · have illegal := Bool.eq_false_iff.mpr illegal
    rw [composeGpio_geometry illegal, composeI2c_geometry illegal]
    exact ⟨rfl, rfl, rfl⟩
  · have illegal : legalPinCount pinList.length = false := by simp [legalPinCount, notSeven, notEleven]
    rw [composeGpio_pinCount geometry illegal]
    rfl
  · rw [composeI2c_eq address font _ geometry, attachExpander_illegal (s := startConstruction _ s) illegal,
      andThen_fail]
    rfl
  · have absent : found.contains (BitVec.ofInt 7 address) = false := by simpa using missing
    rw [composeI2c_eq address font _ geometry, attachExpander_scan (s := startConstruction _ s) legal scan,
      settle_answer, bind_ok, absent, require_false, andThen_fail, andThen_fail]
    rfl
  · rw [composeI2c_eq address font _ geometry, attachExpander_scan (s := startConstruction _ s) legal scan,
      settle_failure, bind_fail, andThen_fail]
    rfl
  · obtain ⟨u, evs, sent, run, left, ⟨initial, writes, f, last⟩, entries⟩ :=
      composeI2c_cut (s := startConstruction (.i2cTransportConstruct bus address rows columns font) s)
        font geometry legal scan here ret hk answers
    rw [functionSetByte_four geometry] at initial entries
    refine ⟨evs, sent, f, ?_, initial, writes, last, entries⟩
    rw [run, concludeConstruction, takeConstructionFailure_left left]
    rfl

end Sys2Proof.Proofs
end

section
/-!
PROOFS. 43_display_init.md R231: the parts of a composite construction, in line in it and presented alone.
-/

namespace Sys2Proof.Proofs

open Sys2Proof.Machine Sys2Proof.Safety Sys2Proof.Laws

section Part

variable {i : Instr} {check : State → Out Unit} {run : State → Stepped} {s : State}

theorem constructionPart_inside (running : s.op ≠ none) (constructing : s.mode = .constructing) :
    constructionPart i true check run s = run s := by
  rw [constructionPart, if_pos (Option.isSome_iff_ne_none.mpr running), if_pos ⟨constructing, rfl⟩]

/-- Presented alone, the part's own check is all that is made of it. -/
theorem constructionPart_alone (op : s.op = none) (mode : s.mode = .unconstructed) (fits legal : Bool) (f : Failure) :
    constructionPart i fits (require legal f) run s =
      if legal then .refused .noOperationInProgress else .next (finished (.fail f) (discardRegisters s)) := by
  have idle : ¬s.op.isSome = true := by rw [op]; decide
  have fresh : ¬s.mode ≠ .unconstructed := fun h => h mode
  rw [constructionPart, if_neg idle, if_neg fresh]
  cases legal <;> rfl

end Part

/-! ### GpioTransport.Construct -/

theorem attachGpio_legal {pinList : List PinId} (legal : legalPinCount pinList.length = true) (s : State) :
    attachGpio pinList s = .ok ()
      (if pinList.length = 7 then { s with pinList := pinList, transport := some .gpio4, width := 4 }
       else { s with pinList := pinList, transport := some .gpio8, width := 8 }) := by
  rw [attachGpio, checkPinCount, legal, require_true, andThen_ok]

theorem attachGpio_illegal {pinList : List PinId} (illegal : legalPinCount pinList.length = false) (s : State) :
    attachGpio pinList s = .fail (.invalidPinCount pinList.length) s := by
  rw [attachGpio, checkPinCount, illegal, require_false, andThen_fail]

theorem exec_gpioTransportConstruct_inside {s : State} (running : s.op ≠ none) (constructing : s.mode = .constructing)
    (unattached : s.transport = none) (pinList : List PinId) :
    exec (.gpioTransportConstruct pinList) s = concludeInline (attachGpio pinList s) := by
  rw [exec, execGpioTransportConstruct, unattached, Option.isNone_none, constructionPart_inside running constructing]

theorem exec_gpioTransportConstruct_alone {s : State} (op : s.op = none) (mode : s.mode = .unconstructed)
    (pinList : List PinId) : exec (.gpioTransportConstruct pinList) s =
      if legalPinCount pinList.length then .refused .noOperationInProgress
      else .next (finished (.fail (.invalidPinCount pinList.length)) (discardRegisters s)) := by
  rw [exec, execGpioTransportConstruct]
  exact constructionPart_alone op mode _ _ _

theorem legalPinCount_iff {n : Nat} : legalPinCount n = true ↔ n = 7 ∨ n = 11 := by simp [legalPinCount]

/-- Settles O44: the length check decides. -/
theorem gpioTransportConstruct : Obligations.GpioTransportConstruct := by
  intro s pinList
  have bad : pinList.length ≠ 7 → pinList.length ≠ 11 → legalPinCount pinList.length = false := fun h h' =>
    Bool.eq_false_iff.mpr fun legal => (legalPinCount_iff.mp legal).elim h h'
  refine ⟨fun running constructing unattached => ?_, fun op mode => ?_⟩
  · rw [exec_gpioTransportConstruct_inside running constructing unattached]
    refine ⟨fun seven => ?_, fun eleven => ?_, fun h h' => ?_⟩
    · rw [attachGpio_legal (legalPinCount_iff.mpr (.inl seven)), if_pos seven, concludeInline]
    · rw [attachGpio_legal (legalPinCount_iff.mpr (.inr eleven)), if_neg (by omega), concludeInline]
    · rw [attachGpio_illegal (bad h h'), concludeInline_fail, if_pos constructing]
  · rw [exec_gpioTransportConstruct_alone op mode]
    exact ⟨fun h h' => by rw [bad h h']; rfl, fun h => if_pos (legalPinCount_iff.mpr h)⟩

/-! ### DisplayController.Construct -/

theorem exec_controller_gpio (rows columns : Int) (font : Option Font) (pinList : List PinId) (s : State) :
    exec (.displayControllerConstruct rows columns ⟨font, .gpio pinList⟩) s =
      exec (.constructOverGpio pinList rows columns font) s :=
  construction_congr _ _ _ s fun _ _ => alike_composeGpio pinList rows columns font

theorem exec_controller_i2c (rows columns : Int) (font : Option Font) (bus : BusHandle) (address : Int) (s : State) :
    exec (.displayControllerConstruct rows columns ⟨font, .i2c bus address⟩) s =
      exec (.i2cTransportConstruct bus address rows columns font) s :=
  construction_congr _ _ _ s fun _ _ => alike_composeI2c address rows columns font

theorem exec_controller_alone {s : State} (op : s.op = none) (mode : s.mode = .unconstructed) (rows columns : Int)
    (font : Option Font) : exec (.displayControllerConstruct rows columns ⟨font, .attached⟩) s =
      if legalGeometry rows columns then .refused .noOperationInProgress
      else .next (finished (.fail (.invalidGeometry rows columns)) (discardRegisters s)) := by
  rw [exec, execDisplayControllerConstruct]
  exact constructionPart_alone op mode _ _ _

theorem exec_controller_inside {s : State} (running : s.op ≠ none) (constructing : s.mode = .constructing)
    (unset : legalGeometry s.rows s.cols = false) {link : Link} (carries : linkOf s.transport = some link)
    (rows columns : Int) (font : Option Font) :
    exec (.displayControllerConstruct rows columns ⟨font, .attached⟩) s =
      concludeConstruction (constructController link rows columns font s) := by
  rw [exec, execDisplayControllerConstruct]
  simp only [hasGeometry, unset, Bool.not_false, constructionPart_inside running constructing, carries]

/-- R221: a running construction that ends with `x` where `x` in line would have it go on. -/
theorem concludeConstruction_of_inline {x : Out Unit} (constructing : ∀ t, x = .ok () t → t.mode = .constructing)
    (failing : ∀ f t, x = .fail f t → t.mode = .constructing) :
    (∀ t, concludeInline x = .next t → concludeConstruction x =
      .next (if t.mode = .constructing then finished .ok { t with mode := .ready } else t)) ∧
    (∀ r, concludeInline x = .fault r → concludeConstruction x = .fault r) := by
  cases x with
  | ok _ u =>
    refine ⟨fun t next => ?_, nofun⟩
    cases next
    rw [if_pos (constructing u rfl)]
    rfl
  | fail f u =>
    refine ⟨fun t next => ?_, nofun⟩
    rw [concludeInline, if_pos (failing f u rfl)] at next
    cases next
    rfl
  | stuck q => exact ⟨fun t next => (by cases next), fun r fault => fault⟩

/-- R222 writes no `MODE`. -/
theorem runInitialise_mode (link : Link) (s : State) :
    (∀ t, runInitialise link s = .ok () t → t.mode = s.mode) ∧
    (∀ f t, runInitialise link s = .fail f t → t.mode = s.mode) := by
  have along := along_runInitialise link s
  refine ⟨fun t ok => ?_, fun f t failed => ?_⟩
  · rw [ok] at along
    exact along.mode
  · rw [failed] at along
    exact along.1.mode

theorem writeGeometry_eq {rows columns : Int} (geometry : legalGeometry rows columns = true) (font : Option Font)
    (s : State) : writeGeometry rows columns font s = { s with
      rows := rows.toNat, cols := columns.toNat, lineFlag := rows != 1, font := font.getD .font5x8 } := by
  rw [writeGeometry, lineFlagOf_toNat geometry]
  rfl

/-- Settles O45: the composite under its other name, or the part a running construction ends with. -/
theorem displayControllerConstruct : Obligations.DisplayControllerConstruct := by
  intro s pinList bus address rows columns font
  refine ⟨exec_controller_gpio _ _ _ _ s, exec_controller_i2c _ _ _ _ _ s, fun op mode geometry => ⟨?_, ?_⟩,
    fun ⟨running, constructing, unset⟩ kind => ?_, fun ⟨running, constructing, unset⟩ kind geometry ret => ?_,
    fun op mode illegal => ?_⟩
  · intro count ret
    have built := (constructOverGpio s pinList rows columns font mode op ret geometry count).1
    exact ⟨_, (exec_controller_gpio _ _ _ _ s).trans built, rfl, rfl, rfl, rfl, rfl, rfl, rfl⟩
  · exact (exec_controller_alone op mode _ _ _).trans (if_pos geometry)
  · obtain ⟨t, link, transport, carries⟩ : ∃ t link, s.transport = some t ∧ linkOf (some t) = some link := by
      rcases kind with h | h | h <;> exact ⟨_, _, h, rfl⟩
    rw [exec_controller_inside running constructing unset (by rw [transport, carries])]
    refine ⟨fun illegal => ?_, fun geometry => ?_⟩
    · rw [constructController_bad link font s illegal]
      rfl
    · have inside : InsideConstruction t (writeGeometry rows columns font s) := ⟨running, constructing, transport⟩
      rw [constructController_eq link font s geometry, ← writeGeometry_eq geometry,
        exec_initialise_inside inside carries (legalGeometry_toNat geometry)]
      obtain ⟨ok, failed⟩ := runInitialise_mode link (writeGeometry rows columns font s)
      exact concludeConstruction_of_inline (fun t h => (ok t h).trans constructing)
        (fun f t h => (failed f t h).trans constructing)
  · have carries : linkOf s.transport = some .gpio := by rcases kind with h | h <;> rw [h.1] <;> rfl
    have width : s.width = 8 ∨ s.width = 4 := kind.imp And.right And.right
    rw [exec_controller_inside running constructing unset carries, constructController_eq .gpio font s geometry,
      runInitialise_gpio (s := writeGeometry rows columns font s) ret width, ← functionSetByte_geometry geometry,
      ← lineFlagOf_toNat geometry]
    rfl
  · exact (exec_controller_alone op mode _ _ _).trans (if_neg (by rw [illegal]; decide))

end Sys2Proof.Proofs
end

section
/-!
PROOFS. Before any construction, the step and what it refuses (30_encoding.md R112), and the kinds of failure
(60_exceptions.md section 1).
-/

namespace Sys2Proof.Proofs

open Sys2Proof.Machine Sys2Proof.Safety Sys2Proof.Laws

/-- Settles O1: `State.reset` says so field by field. -/
theorem resetIsBeforeAnyConstruction : Obligations.ResetIsBeforeAnyConstruction :=
  ⟨rfl, rfl, rfl, rfl, by decide, rfl, rfl, rfl, rfl, rfl, rfl⟩

/-! ### The step -/

theorem step_of_wellFormed {s : State} {p : Presented} {rest : List Presented} {i : Instr}
    (pending : s.pending = p :: rest) (decodes : decode p = .ok i) (wellFormed : i.WellFormed) :
    step s = exec i { s with pending := rest } := by
  have formed : i.formError = none := wellFormed
  simp only [step, takeNext, pending, decodes, formed]

/-- Settles O7. -/
theorem stepRunsThePresentedInstruction : Obligations.StepRunsThePresentedInstruction :=
  fun _ _ _ _ => step_of_wellFormed

/-- Settles O8: one clause for each way `takeNext` has no instruction. -/
theorem stepRefusesWhatIsNoInstruction : Obligations.StepRefusesWhatIsNoInstruction := by
  intro s p rest
  refine ⟨fun pending => ?_, fun e pending undecodable => ?_, fun i e pending decodes illFormed => ?_⟩
  · simp only [step, takeNext, pending]
  · simp only [step, takeNext, pending, undecodable]
  · simp only [step, takeNext, pending, decodes, illFormed]

theorem decode_lcdByte_wellFormed {rs : Level} {b : Byte} {i : Instr} (decodes : decode (.lcdByte rs b) = .ok i) :
    i.WellFormed := by
  cases rs with
  | false => exact decodeCommand_wellFormed decodes
  | true =>
    cases decodes
    rfl

/-- A table row's bits are the command byte they count. -/
theorem tableWord_of_decodeTableWord {nbits w : Nat} {i : Instr} (h : decodeTableWord nbits w = some i) :
    ∃ b, tableWord nbits w = some (.lcdByte false b) ∧ decode (.lcdByte false b) = .ok i := by
  by_cases short : nbits ≤ 8
  · have word : tableWord nbits w = some (.lcdByte false (BitVec.ofNat 8 (w % 2 ^ nbits))) := if_pos short
    refine ⟨_, word, ?_⟩
    rw [decodeTableWord, word] at h
    cases decoded : decode (.lcdByte false (BitVec.ofNat 8 (w % 2 ^ nbits))) with
    | ok j =>
      simp only [decoded] at h
      cases h
      rfl
    | error e =>
      simp only [decoded] at h
      cases h
  · have word : tableWord nbits w = none := if_neg short
    rw [decodeTableWord, word] at h
    cases h

/-- Settles O9: the word is presented first, and taking it leaves the constructed state. -/
theorem placedWordRunsNext : Obligations.PlacedWordRunsNext := by
  intro s nbits w i h
  obtain ⟨b, word, decodes⟩ := tableWord_of_decodeTableWord h
  have placed : s.withFetchWord nbits w = present (.lcdByte false b) (constructedFirst s) := by
    rw [State.withFetchWord, presentWord, word]
  rw [placed]
  exact step_of_wellFormed rfl decodes (decode_lcdByte_wellFormed decodes)

/-! ### The kinds of failure -/

/-- Settles O60: kind by kind. -/
theorem failureKindsOrdinalsAndClasses : Obligations.FailureKindsOrdinalsAndClasses := by
  refine fun rows columns pin count cause => ⟨rfl, fun f => ?_⟩
  cases f <;> simp [Failure.ordinal, Failure.failureClass]

end Sys2Proof.Proofs
end
